-- ==== Sys2Proof/Word.lean ====
section
/-! DEFINITION. The two widths the manual moves data in: the byte of a link (chapter 10) and the 16-bit word of
the record stream (chapter 8).  Every quantity of chapter 0's table of units is an integer that saturates (R1), so
it is an `Int` in this model and no bit vector. -/

namespace Sys2Proof

/-- A byte of a frame or of a message body (R209). -/
abbrev Byte := BitVec 8

/-- A word of the record stream (R181, R211). -/
abbrev Word16 := BitVec 16

end Sys2Proof
end

