-- ==== Sys2Proof/Syntax.lean ====
section
/-! DEFINITION. The commands of the part: one constructor of `Instr` for each row of the table of operations and
events, with the operands the outside gives it.  A request carries its port, its tag and the bytes of its body
(chapter 10); a sample event carries what the pins show and the order the world gives to reports that fall
together. -/

namespace Sys2Proof

/-- The three message ports (9.1). -/
inductive Port where
  | supervisor
  | cell
  | pendant
  deriving DecidableEq, Repr

/-- The condition marks of 1.12, in the order of that table. -/
inductive Mark where
  | overload | slip | gap | track | aborted | step | holdpt | rmfail
  | stream | poslost | estop | limit | drive | griplost | guardopen | hardload | drift
  | travel | settle | kclamp | fracture | reset
  deriving DecidableEq, Repr

/-- The three quadrature encoders the sampling unit decodes (R78). -/
inductive Encoder where
  | crosshead
  | armA
  | armB
  deriving DecidableEq, Repr

/-- What a decoder saw between two of its samples: a valid transition in either direction (R78), or a change of
both phases (R79).  The extending direction is the positive one. -/
inductive QuadMove where
  | extend
  | retract
  | both
  deriving DecidableEq, Repr

/-- A thing the frame line unit or the sampling unit may report at a sample instant (R163, R164, R79), and the completion of
the set whose conversion the instant finds missing (R77), which may report and complete a changeover too. -/
inductive LineItem where
  | estop
  | limitUp
  | limitLo
  | driveFault
  | examine
  | posLost
  | missed
  deriving DecidableEq, Repr

/-- The order the world gives to reports of one sample set that reach the context store together.
`late` are marks of blocks above the motion sequencer that arrive after a completion falling on the same set (R32);
`endFirst` says that PROGRAM_END arrives before FRACTURE (R45); `faultLast` says that a STREAM or HARDLOAD report of
the set is taken after the set has passed down the chain (R168, R183). -/
structure SetOrder where
  late : List Mark
  endFirst : Bool
  faultLast : Bool
  deriving DecidableEq, Repr

/-- The order in which reports are taken as the blocks stand in the chain. -/
def SetOrder.chain : SetOrder := { late := [], endFirst := false, faultLast := false }

/-- The commands of the part, in the order of the table of operations and events. -/
inductive Instr where
  | loadHeader (p : Port) (tag : Byte) (body : List Byte)
  | load (p : Port) (tag : Byte) (body : List Byte)
  | promote (p : Port) (tag : Byte) (body : List Byte)
  | free (p : Port) (tag : Byte) (body : List Byte)
  | clearCondition (p : Port) (tag : Byte) (body : List Byte)
  | readRecords (p : Port) (tag : Byte) (body : List Byte)
  | move (p : Port) (tag : Byte) (body : List Byte)
  | zeroPosition (p : Port) (tag : Byte) (body : List Byte)
  | reset (p : Port) (tag : Byte) (body : List Byte)
  | next (p : Port) (tag : Byte) (body : List Byte)
  | bind (p : Port) (tag : Byte) (body : List Byte)
  | release (p : Port) (tag : Byte) (body : List Byte)
  | jog (p : Port) (tag : Byte) (body : List Byte)
  | jogStop (p : Port) (tag : Byte) (body : List Byte)
  | hold (p : Port) (tag : Byte) (body : List Byte)
  | start (p : Port) (tag : Byte) (body : List Byte)
  | abort (p : Port) (tag : Byte) (body : List Byte)
  | resume (p : Port) (tag : Byte) (body : List Byte)
  | leave (p : Port) (tag : Byte) (body : List Byte)
  | tare (p : Port) (tag : Byte) (body : List Byte)
  | clear (p : Port) (tag : Byte) (body : List Byte)
  | amend (p : Port) (tag : Byte) (body : List Byte)
  | calOpen (p : Port) (tag : Byte) (body : List Byte)
  | calData (p : Port) (tag : Byte) (body : List Byte)
  | calCommit (p : Port) (tag : Byte) (body : List Byte)
  | calClose (p : Port) (tag : Byte) (body : List Byte)
  | calRead (p : Port) (tag : Byte) (body : List Byte)
  | readContext (p : Port) (tag : Byte) (body : List Byte)
  | getResults (p : Port) (tag : Byte) (body : List Byte)
  | status (p : Port) (tag : Byte) (body : List Byte)
  | getEvent (p : Port) (tag : Byte) (body : List Byte)
  | setEvents (p : Port) (tag : Byte) (body : List Byte)
  /-- A completed frame whose code the part does not recognise. -/
  | unknownRequest (p : Port) (tag code : Byte) (body : List Byte)
  /-- A frame that completes while its port is SERVING. -/
  | portBusyFrame (p : Port) (tag code : Byte) (body : List Byte)
  /-- Bytes that reach a receiver, among them a frame the receiver discards. -/
  | frameDiscard (p : Port) (bytes : List Byte)
  /-- Bytes that reach a receiver and are followed by more than 10 ms without another. -/
  | frameByteTimeout (p : Port) (bytes : List Byte)
  | cellReplyStart
  | replySent (p : Port)
  /-- `levels` are the levels of FIN0 to FIN7 (bit k is FINk), `order` the order of the instant's reports with the
  completion of the missed set among them, and `w` the order within that set. -/
  | sampleInstant (levels : BitVec 8) (order : List LineItem) (w : SetOrder)
  /-- `late` says that the word belongs to an earlier instant than the one whose set is being assembled. -/
  | conversionArrival (code : BitVec 24) (late : Bool) (w : SetOrder)
  | conversionMiss (w : SetOrder)
  | streamFault (w : SetOrder)
  | encoderTransition (e : Encoder) (m : QuadMove)
  | lineFilterSettle (levels : BitVec 8) (order : List LineItem) (w : SetOrder)
  | tareComplete (code : BitVec 24) (w : SetOrder)
  | startTareComplete (code : BitVec 24) (w : SetOrder)
  /-- In this row and the next five, `conv` is the set's conversion word, or none for a miss. -/
  | removalTimeout (conv : Option (BitVec 24)) (w : SetOrder)
  | segmentTimeEnd (conv : Option (BitVec 24)) (w : SetOrder)
  | trackCeilingRun (conv : Option (BitVec 24)) (w : SetOrder)
  | changeoverCompletion (conv : Option (BitVec 24)) (w : SetOrder)
  | quiesceTimeout (conv : Option (BitVec 24)) (w : SetOrder)
  | autostart (conv : Option (BitVec 24)) (w : SetOrder)
  | calWriteComplete
  | powerOn
  | resetLine
  | powerLoss
  | resetNHigh
  deriving DecidableEq, Repr

end Sys2Proof
end

