-- ==== Sys2Proof/Decode.lean ====
section
/-! DEFINITION. The table of operations and events gives no row bits: no word spells a command. -/

namespace Sys2Proof

/-- The command a word spells by the bits of the table of operations and events: that table gives bits to no row, so
no word spells one. -/
def decodeTableWord (_nbits _w : Nat) : Option Instr := none

end Sys2Proof
end

