-- ==== Sys2Proof/Config.lean ====
section
/-! DEFINITION. What the manual fixes by number for every part, and the one free value of the model. -/

namespace Sys2Proof.Config

/-- The largest signed 32-bit value (R1). -/
def maxI32 : Int := 2147483647

/-- The smallest signed 32-bit value (R1). -/
def minI32 : Int := -2147483648

/-- The largest unsigned 32-bit value (R2, R97). -/
def maxU32 : Nat := 4294967295

/-- The limit at which the miss run and the delivered run stop counting (R76, R77) and the tally of a gap
stops (R189). -/
def maxU16 : Nat := 65535

/-- Words of the record stream (R188). -/
def streamWords : Nat := 2048

/-- Words that SAMPLE records may not enter (R188). -/
def streamReserve : Nat := 64

/-- Occupancy past which STREAM_HIGH is queued (R191). -/
def streamHigh : Nat := 1536

/-- Free words at which a read closes an open gap (R190). -/
def gapCloseFree : Nat := 512

/-- Words that one READ_RECORDS may return (R192). -/
def readWords : Nat := 120

/-- Entries of a port's event queue (R200). -/
def queueEntries : Nat := 16

/-- Samples of a tare (R89). -/
def tareSamples : Nat := 64

/-- Triples of the tracker ring (R66). -/
def ringEntries : Nat := 64

/-- Counts of the position history (R69). -/
def historyEntries : Nat := 16

/-- Samples of a fit at which the window closes with FIT_FULL (R133). -/
def fitFull : Nat := 4096

/-- Samples below which a fit is FIT_SHORT (R134). -/
def fitShort : Nat := 32

/-- The free value of an unstated field (DESIGN CHOICE, log entry 2): a 32-bit field that a reply, an event or a record
carries although the manual states no value for it.  The first argument is the sample clock, the second numbers the
place of use, so that two places and two instants share nothing.  It has no body: no proof can see what it is. -/
opaque unstated : Nat → Nat → BitVec 32

end Sys2Proof.Config
end

