-- ==== Sys2Proof/Machine/Arith.lean ====
section
/-! DEFINITION. The arithmetic of R1: round-half-to-even made once on an exact quotient, saturation at the 32-bit
limits, clamping to a narrower range, and the reading and writing of fields of bytes and words (R209, R211). -/

namespace Sys2Proof.Machine

/-- A value clamped to a range (R1). -/
def clamp (lo hi x : Int) : Int := if x < lo then lo else if hi < x then hi else x

/-- Saturation at the signed 32-bit limits (R1). -/
def sat32 (x : Int) : Int := clamp Config.minI32 Config.maxI32 x

/-- Saturation of a force at ±2,147,483,647 (Units; R85 and R86 say the 32-bit limits, log entry 31). -/
def satForce (x : Int) : Int := clamp (-Config.maxI32) Config.maxI32 x

/-- The quotient by a positive divisor, rounded half to even. -/
def roundPos (a b : Int) : Int :=
  let q := a / b
  let r := a % b
  if 2 * r < b then q else if b < 2 * r then q + 1 else if q % 2 = 0 then q else q + 1

/-- The exact quotient `a / b` rounded once, half to even (R1).  No rule divides by 0; the quotient is then 0. -/
def roundDiv (a b : Int) : Int :=
  if 0 < b then roundPos a b else if b < 0 then roundPos (-a) (-b) else 0

/-- The absolute value. -/
def absI (x : Int) : Int := if x < 0 then -x else x

/-- The sign of a value: 1, 0 or -1. -/
def signI (x : Int) : Int := if 0 < x then 1 else if x < 0 then -1 else 0

/-- The two's complement of a value in 32 bits (R209). -/
def bits32 (x : Int) : BitVec 32 := BitVec.ofInt 32 x

/-- The two's complement of a value in 16 bits. -/
def bits16 (x : Int) : BitVec 16 := BitVec.ofInt 16 x

/-- A value of 0 or more in 16 bits, a greater one than they hold as 65,535 (log entry 32). -/
def fill16 (x : Int) : BitVec 16 := BitVec.ofInt 16 (clamp 0 Config.maxU16 x)

/-- A byte. -/
def byte (n : Nat) : Byte := BitVec.ofNat 8 n

/-- A bit of a flag byte or word. -/
def flag (k : Nat) (b : Bool) : Nat := if b then 2 ^ k else 0

/-- Four bytes, most significant first (R209). -/
def bytes32 (v : BitVec 32) : List Byte :=
  [v.extractLsb' 24 8, v.extractLsb' 16 8, v.extractLsb' 8 8, v.extractLsb' 0 8]

/-- Two bytes, most significant first (R209). -/
def bytes16 (v : BitVec 16) : List Byte := [v.extractLsb' 8 8, v.extractLsb' 0 8]

/-- A signed value in four bytes. -/
def be32 (x : Int) : List Byte := bytes32 (bits32 x)

/-- A signed value in two bytes. -/
def be16 (x : Int) : List Byte := bytes16 (bits16 x)

/-- Two words, the high word first (R211). -/
def words32 (v : BitVec 32) : List Word16 := [v.extractLsb' 16 16, v.extractLsb' 0 16]

/-- A signed value in two words. -/
def w32 (x : Int) : List Word16 := words32 (bits32 x)

/-- An unsigned 32-bit number read as a signed one (R209). -/
def toSigned32 (n : Nat) : Int := if n < 2147483648 then (n : Int) else (n : Int) - 4294967296

/-- A 24-bit conversion word as its two's complement code (R76). -/
def code24 (c : BitVec 24) : Int := c.toInt

/-! ### Reading a body from its first byte on -/

/-- The next byte. -/
def rd8 : List Byte → Option (Nat × List Byte)
  | b :: r => some (b.toNat, r)
  | [] => none

/-- The next two bytes, unsigned. -/
def rd16 : List Byte → Option (Nat × List Byte)
  | a :: b :: r => some (a.toNat * 256 + b.toNat, r)
  | _ => none

/-- The next four bytes, unsigned. -/
def rdU32 : List Byte → Option (Nat × List Byte)
  | a :: b :: c :: d :: r => some (((a.toNat * 256 + b.toNat) * 256 + c.toNat) * 256 + d.toNat, r)
  | _ => none

/-- The next four bytes, signed. -/
def rdS32 (l : List Byte) : Option (Int × List Byte) := (rdU32 l).map fun (n, r) => (toSigned32 n, r)

/-- The next `n` bytes. -/
def rdN (n : Nat) (l : List Byte) : Option (List Byte × List Byte) :=
  if n ≤ l.length then some (l.take n, l.drop n) else none

/-- A body is read whole: nothing may be left behind its last field (R209). -/
def rdEnd {α : Type} (a : α) : List Byte → Option α
  | [] => some a
  | _ => none

end Sys2Proof.Machine
end

