-- ==== Sys2Proof/Machine/State.lean ====
section
/-! DEFINITION. The state of the part as plain data, block by block as chapter 0 lists the blocks, the reasons a step
can stop, and the state after POWER_ON of a part whose calibration store has never been programmed. -/

namespace Sys2Proof.Machine

/-! ### Names the manual gives to values -/

/-- One of the eight places T0 to T7 of the context store. -/
abbrev SlotId := Fin 8

/-- The frame phase (R13). -/
inductive Phase where
  | idle | test | service | safe
  deriving DecidableEq, Repr

/-- The state of a slot (1.2). -/
inductive SlotState where
  | empty | loaded | bound | resident | parked | done | void
  deriving DecidableEq, Repr

/-- The shape of a specimen (1.1). -/
inductive Shape where
  | flat | round | area
  deriving DecidableEq, Repr

/-- The controlled quantity of a segment (2.1). -/
inductive Mode where
  | position | stress | strain
  deriving DecidableEq, Repr

/-- The condition that ends a segment (2.1), in the order the segment table numbers them. -/
inductive EndKind where
  | positionReach | qReach | strainReach | forceReach | yield | time | detached | never
  deriving DecidableEq, Repr

/-- A segment record (2.1). -/
structure Segment where
  mode : Mode
  rate : Int
  vmax : Int
  kp : Int
  endKind : EndKind
  endValue : Option Int
  backup : Option Int
  deriving DecidableEq, Repr

/-- The fields LOAD writes into a slot (1.1): identity, geometry, lengths, program, compliance, limits, stop
enables, recording and evaluation. -/
structure TestOrder where
  specimenId : List Byte
  shape : Shape
  usesExt : Bool
  tareAtStart : Bool
  laneDetail : Bool
  demandDetail : Bool
  tOverload : Bool
  tSlip : Bool
  tGap : Bool
  tTrack : Bool
  stepOn : Bool
  holdptOn : Bool
  l0 : Int
  lc : Int
  kS0 : Int
  kE0 : Int
  kSMin : Int
  kSMax : Int
  kEMin : Int
  kEMax : Int
  fLim : Int
  winLo : Int
  winHi : Int
  holdptStrain : Option Int
  sLo : Int
  sHi : Int
  eP : Int
  dDrop : Int
  ePlat : Int
  fArm : Int
  eRm : Int
  jumpLim : Int
  divLim : Int
  recordInterval : Nat
  rmTimeout : Nat
  bendLim : Int
  pFrac : Int
  pSharp : Int
  segments : List Segment
  deriving DecidableEq, Repr

/-- What an EMPTY slot holds in place of an order: every field discarded (R8). -/
def TestOrder.blank : TestOrder :=
  { specimenId := [], shape := .flat, usesExt := false, tareAtStart := false, laneDetail := false,
    demandDetail := false, tOverload := false, tSlip := false, tGap := false, tTrack := false, stepOn := false,
    holdptOn := false, l0 := 0, lc := 0, kS0 := 0, kE0 := 0, kSMin := 0, kSMax := 0, kEMin := 0, kEMax := 0,
    fLim := 0, winLo := 0, winHi := 0, holdptStrain := none, sLo := 0, sHi := 0, eP := 0, dDrop := 0, ePlat := 0,
    fArm := 0, eRm := 0, jumpLim := 0, divLim := 0, recordInterval := 0, rmTimeout := 0, bendLim := 0, pFrac := 0,
    pSharp := 0, segments := [] }

/-- The segment parameters a bank of the motion sequencer holds (2.2). -/
structure Bank where
  seg : Nat
  mode : Mode
  rate : Int
  vmax : Int
  kp : Int
  deriving DecidableEq, Repr

/-- What the inactive bank holds: the next segment, or an amendment and the port that sent it (R36, R50). -/
inductive Staged where
  | transition (b : Bank)
  | amendment (b : Bank) (from_ : Port)
  deriving DecidableEq, Repr

/-- The source of the strain in use (R110). -/
inductive Source where
  | ext | xhd
  deriving DecidableEq, Repr

/-! ### The evaluation state and the results record (chapter 6) -/

inductive FitWindow where
  | notOpened | opened | closed
  deriving DecidableEq, Repr

inductive YieldState where
  | waitFit | rising | plateau | hardening
  deriving DecidableEq, Repr

inductive OffsetState where
  | notStarted | running | stopped
  deriving DecidableEq, Repr

/-- The close marks of R133. -/
inductive CloseMark where
  | fitFull | fitCut | cutRemoval | cutSlip
  deriving DecidableEq, Repr

/-- The failure marks of R134. -/
inductive FailMark where
  | fitShort | fitFlat
  deriving DecidableEq, Repr

/-- The kind of a yield (R141). -/
inductive YieldKind where
  | reH | rp
  deriving DecidableEq, Repr

/-- The criterion of a fracture (R150). -/
inductive Criterion where
  | level | sharp
  deriving DecidableEq, Repr

/-- E, b and a, determined together (R134). -/
structure Fit where
  e : Int
  b : Int
  a : Int
  deriving DecidableEq, Repr

/-- A stress with the strain it was taken at. -/
structure Point where
  stress : Int
  strain : Int
  deriving DecidableEq, Repr

structure RpField where
  stress : Int
  strain : Int
  source : Source
  deriving DecidableEq, Repr

structure FmField where
  force : Int
  strain : Int
  deriving DecidableEq, Repr

/-- An elongation with the source of its strain. -/
structure Elongation where
  value : Int
  source : Source
  deriving DecidableEq, Repr

structure FractureField where
  criterion : Criterion
  force : Int
  index : Nat
  deriving DecidableEq, Repr

/-- The results record (6.10).  A field whose determined mark is clear is `none`. -/
structure Results where
  fit : Option Fit
  closeMark : Option CloseMark
  failMark : Option FailMark
  fitN : Nat
  fitSource : Option Source
  eApparent : Bool
  bending : Option Int
  bendHigh : Bool
  reH : Option Point
  reL : Option Int
  reLTransient : Bool
  ae : Option Int
  rp : Option RpField
  rpAtClose : Bool
  rpCut : Bool
  rmForced : Bool
  yieldKind : Option YieldKind
  rm : Option Int
  fm : Option FmField
  ag : Option Elongation
  elong : Option Elongation
  fracture : Option FractureField
  deriving DecidableEq, Repr

/-- Every field undetermined and every mark clear (6.1). -/
def Results.start : Results :=
  { fit := none, closeMark := none, failMark := none, fitN := 0, fitSource := none, eApparent := false,
    bending := none, bendHigh := false, reH := none, reL := none, reLTransient := false, ae := none, rp := none,
    rpAtClose := false, rpCut := false, rmForced := false, yieldKind := none, rm := none, fm := none, ag := none,
    elong := none, fracture := none }

/-- The plateau tracker: the drop sample's index and the two running minima (6.1). -/
structure Plateau where
  drop : Nat
  minAll : Int
  minAfter : Option Int
  deriving DecidableEq, Repr

/-- The maximum tracker, with the strain source at which ε_Fm was taken (R147, R148). -/
structure MaxTracker where
  fm : Int
  rm : Int
  eFm : Int
  source : Source
  deriving DecidableEq, Repr

/-- The previous sample of the evaluation (6.1). -/
structure EvalSample where
  stress : Int
  strain : Int
  force : Int
  source : Source
  deriving DecidableEq, Repr

/-- The evaluation state (6.1).  `removalSeen` is whether a removal-start mark has been seen (R137), `settled` the
settled report left by the last evaluated set (R146). -/
structure Eval where
  opened : Bool
  window : FitWindow
  n : Nat
  sumE : Int
  sumS : Int
  sumEE : Int
  sumES : Int
  fitSource : Option Source
  lastExts : Option (Int × Int)
  yState : YieldState
  peak : Option Point
  plateau : Option Plateau
  offset : OffsetState
  prevD : Option Int
  maxT : Option MaxTracker
  armed : Bool
  history : List Int
  prev : Option EvalSample
  removalSeen : Bool
  settled : Bool
  results : Results
  deriving DecidableEq, Repr

/-- The starting values of 6.1. -/
def Eval.start : Eval :=
  { opened := true, window := .notOpened, n := 0, sumE := 0, sumS := 0, sumEE := 0, sumES := 0, fitSource := none,
    lastExts := none, yState := .waitFit, peak := none, plateau := none, offset := .notStarted, prevD := none,
    maxT := none, armed := false, history := [], prev := none, removalSeen := false, settled := false,
    results := Results.start }

/-! ### Slots -/

/-- The runtime part of a context (1.1, R5, R52, R124, R153).  `count` is the number of counted samples, so that the
test sample index of the last counted one is `count - 1` (R2).  `tareDone` is whether the start tare has completed
(R91). -/
structure Runtime where
  segIndex : Nat
  elapsed : Nat
  count : Nat
  active : Option Bank
  qSet : Option Int
  remainder : Nat
  prevDemand : Int
  kS : Int
  kE : Int
  holdPassed : Bool
  tareDone : Bool
  source : Source
  offset : Option Int
  posRef : Option Int
  lastExt : Option Int
  eval : Eval
  deriving DecidableEq, Repr

/-- The cause that ended a test: a condition mark, or the end of its program (1.1, 10.1). -/
inductive EndCause where
  | mark (m : Mark)
  | programEnd
  deriving DecidableEq, Repr

/-- The outcome of an ended test: DONE, or VOID when `void` holds, with its end cause (1.1). -/
structure TestOutcome where
  void : Bool
  cause : EndCause
  deriving DecidableEq, Repr

/-- The specimen dimensions as BIND stores them (1.1). -/
structure Dims where
  first : Int
  second : Int
  deriving DecidableEq, Repr

/-- A slot of the context store (1.1). -/
structure Slot where
  state : SlotState
  order : TestOrder
  dims : Option Dims
  s0 : Option Int
  runtime : Option Runtime
  marks : List Mark
  outcome : Option TestOutcome
  deriving DecidableEq, Repr

/-- An EMPTY slot (R8). -/
def Slot.blank : Slot :=
  { state := .empty, order := TestOrder.blank, dims := none, s0 := none, runtime := none, marks := [],
    outcome := none }

/-! ### Calibration tables (4.6, 7.8) -/

/-- The function a frame line carries (7.2). -/
inductive LineFn where
  | estop | limitUp | limitLo | driveFault | guard | gripUp | gripLo | extSeated | unused
  deriving DecidableEq, Repr

/-- The entry of the line map for one of FIN0 to FIN7 (R158). -/
structure LineCfg where
  fn : LineFn
  activeLow : Bool
  deriving DecidableEq, Repr

/-- The FRAME table (7.8). -/
structure Frame where
  map : List LineCfg
  fnom : Int
  vfs : Int
  aMax : Int
  vStill : Int
  hardLo : Int
  hardHi : Int
  jogMax : Int
  autostart : Bool
  quiesceTimeout : Nat
  deriving DecidableEq, Repr

/-- What stands in for FRAME where the frame table is not programmed: no map and no motion (R177). -/
def Frame.blank : Frame :=
  { map := [], fnom := 0, vfs := 0, aMax := 0, vStill := 0, hardLo := 0, hardHi := 0, jogMax := 0,
    autostart := false, quiesceTimeout := 0 }

/-- A point of a conversion table (R85). -/
structure LoadPoint where
  count : Int
  force : Int
  deriving DecidableEq, Repr

/-- The scales of the two arms in ppm (R95). -/
structure Arms where
  a : Int
  b : Int
  deriving DecidableEq, Repr

/-- The six tables, each absent while its programmed mark is clear (R95, R96). -/
structure Tables where
  frame : Option Frame
  loadR1 : Option (List LoadPoint)
  loadR2 : Option (List LoadPoint)
  loadR3 : Option (List LoadPoint)
  arms : Option Arms
  compliance : Option Int
  deriving DecidableEq, Repr

/-- No table programmed. -/
def Tables.blank : Tables :=
  { frame := none, loadR1 := none, loadR2 := none, loadR3 := none, arms := none, compliance := none }

/-- The names of the six tables, in the order that numbers them (10.3). -/
inductive TableId where
  | frame | loadR1 | loadR2 | loadR3 | arms | compliance
  deriving DecidableEq, Repr

/-- The content of one table, as the buffer of the write window holds it (R98). -/
inductive TableContent where
  | frame (f : Frame)
  | load (points : List LoadPoint)
  | arms (a : Arms)
  | compliance (c : Int)
  deriving DecidableEq, Repr

/-- The calibration write window (R98).  In WRITING the content being written is kept until it replaces the working
copy (R101). -/
inductive CalWindow where
  | closed
  | opened (table : TableId) (opener : Port) (buffer : Option TableContent)
  | writing (table : TableId) (opener : Port) (content : TableContent)
  deriving DecidableEq, Repr

/-- The nonvolatile memory: the tables with their marks, and the revision counter (R96, R97). -/
structure Nonvolatile where
  tables : Tables
  revision : Nat
  deriving DecidableEq, Repr

/-- A store that has never been programmed (DESIGN CHOICE, log entry 1). -/
def Nonvolatile.blank : Nonvolatile := { tables := Tables.blank, revision := 0 }

/-- The calibration store (CST). `work` are the working copies with their programmed marks. -/
structure Cst where
  nv : Nonvolatile
  work : Tables
  window : CalWindow
  lock : Bool
  armsAt : Nat
  deriving DecidableEq, Repr

/-! ### Sampling unit and load channel (chapter 4) -/

/-- The three amplifier ranges (4.2). -/
inductive Range where
  | r1 | r2 | r3
  deriving DecidableEq, Repr

/-- The sample set being assembled (4.1): what was latched at its instant, the range its conversion was started in,
whether that conversion is a settling one (R82), and the working copies in force when it was latched (R101). -/
structure SampleSet where
  xh : Int
  armA : Int
  armB : Int
  xhErr : Bool
  armAErr : Bool
  armBErr : Bool
  lines : List Bool
  extSeated : Bool
  range : Range
  settling : Bool
  tables : Tables
  armsAt : Nat
  deriving DecidableEq, Repr

/-- The sampling unit (SMU, 4.1).  `clock` is the sample clock: the number of sample instants since POWER_ON. -/
structure Smu where
  clock : Nat
  xh : Int
  armA : Int
  armB : Int
  xhErr : Bool
  armAErr : Bool
  armBErr : Bool
  assembling : Option SampleSet
  missRun : Nat
  delivered : Nat
  deriving DecidableEq, Repr

/-- Who a running tare belongs to (R88, R91). -/
inductive TareKind where
  | port (p : Port)
  | start
  deriving DecidableEq, Repr

/-- A running tare: its kind, the exact sum and the count of the collected forces (R89). -/
structure TareRun where
  kind : TareKind
  sum : Int
  count : Nat
  deriving DecidableEq, Repr

/-- The load channel (LCH).  `range` is the selected range, `driven` the range RNG_A and RNG_B show since the last
instant, `settleNext` whether the next conversion is a settling one (R82); `lastBefore`, `lastAfter` and `lastRange`
are the forces and the range of the set handed on last (R87). -/
structure Lch where
  range : Range
  driven : Range
  settleNext : Bool
  lock : Bool
  hard : Bool
  tare : Int
  tareRun : Option TareRun
  lastBefore : Int
  lastAfter : Int
  lastRange : Range
  deriving DecidableEq, Repr

/-! ### Extension channel (chapter 5) -/

inductive ChannelState where
  | detached | seating | attached | releasing
  deriving DecidableEq, Repr

/-- The removal timer: stopped, running with a count, or expired with the count it reached (R121, R122). -/
inductive RemovalTimer where
  | stopped
  | running (count : Nat)
  | expired (count : Nat)
  deriving DecidableEq, Repr

/-- A lane (5.1).  `count` is the raw arm count of the last processed set, which R107 needs to scale anew. -/
structure Lane where
  zero : Option Int
  ext : Option Int
  prev : Option Int
  count : Int
  jumpNow : Bool
  jump : Bool
  deriving DecidableEq, Repr

def Lane.blank : Lane := { zero := none, ext := none, prev := none, count := 0, jumpNow := false, jump := false }

/-- The extension channel (XCH).  `armsAt` names the ARMS write whose working copy the last set was processed with, so that
the first set under a new one is seen (R107). -/
structure Xch where
  laneA : Lane
  laneB : Lane
  diverge : Bool
  state : ChannelState
  slipped : Bool
  lastGood : Option Int
  delta : Option Int
  timer : RemovalTimer
  owner : Option SlotId
  limit : Nat
  extRel : Bool
  armsAt : Nat
  deriving DecidableEq, Repr

/-! ### Motion sequencer and the resident test (chapters 2 and 3) -/

structure Triple where
  pos : Int
  stress : Int
  strain : Int
  deriving DecidableEq, Repr

/-- The motion sequencer (MSQ).  `seat` is whether the setpoint is still to be seated at the first governing sample
of the residency (R39, R74); `target` and `speed` are those of the service context's MOVE (R55). -/
structure Msq where
  active : Option Bank
  inactive : Option Staged
  qSet : Option Int
  remainder : Nat
  prevDemand : Int
  ceilingRun : Nat
  ring : List Triple
  history : List Int
  velocity : Option Int
  stillCount : Nat
  dac : Int
  seat : Bool
  target : Option Int
  speed : Int
  deriving DecidableEq, Repr

/-- The latest sample of the resident test as STATUS reports it (R205). -/
structure Latest where
  force : Int
  stress : Int
  strain : Int
  deriving DecidableEq, Repr

/-- A SAMPLE candidate that has not been offered (R183). -/
structure Candidate where
  words : List Word16
  index : Nat
  deriving DecidableEq, Repr

/-- What the blocks hold live for the resident test (R5): its runtime part, whether its first resumed sample is
still to come (R29), the candidate of its last sample, and the latest sample. -/
structure Live where
  rt : Runtime
  resumed : Bool
  cand : Option Candidate
  latest : Option Latest
  deriving DecidableEq, Repr

/-! ### Context store (chapter 1) -/

/-- A context that can be resident (R13). -/
inductive Context where
  | test (k : SlotId)
  | service
  | safe
  deriving DecidableEq, Repr

/-- The causes of a changeover that can be pending (1.7); FAULT completes when it is taken. -/
inductive Cause where
  | operator
  | endTest
  | terminate
  deriving DecidableEq, Repr

inductive Requester where
  | port (p : Port)
  | internal
  deriving DecidableEq, Repr

/-- The pending changeover (R19), with the end cause its completion will record (R22). -/
structure Changeover where
  cause : Cause
  requester : Requester
  outgoing : Context
  incoming : Option Context
  elapsed : Nat
  endCause : Option EndCause
  deriving DecidableEq, Repr

/-- The ten fault kinds, in the order of the table of 7.5. -/
inductive FaultKind where
  | estop | limitUp | limitLo | drive | guardOpen | gripLost | stream | posLost | hardLoad | drift
  deriving DecidableEq, Repr

/-- A report on its way to the context store: a condition mark with its EVENT value and index, a fracture (R151), or
a fault (R167). -/
inductive Report where
  | mark (slot : SlotId) (m : Mark) (value : Int) (index : BitVec 32)
  | fracture (slot : SlotId) (index : Nat) (criterion : Criterion) (force fm : Int)
  | fault (kind : FaultKind)
  deriving DecidableEq, Repr

/-- The context store (CTX).  `transit` are the reports of the sample set in hand that the order of `SetOrder` keeps
back; it is empty between commands. -/
structure Ctx where
  slots : Vector Slot 8
  queue : List SlotId
  binding : Option SlotId
  phase : Phase
  resident : Option Context
  changeover : Option Changeover
  holder : Option Port
  transit : List Report
  deriving DecidableEq, Repr

/-! ### Frame line unit (chapter 7) -/

/-- One of the eight frame lines (7.1): the level at the last instant, the raw state, the filtered state and the run
count. -/
structure Line where
  level : Bool
  raw : Bool
  filtered : Bool
  run : Nat
  deriving DecidableEq, Repr

def Line.blank : Line := { level := false, raw := false, filtered := false, run := 0 }

/-- An entry of the frame fault set (R166); `voided` is the slot of the test the FAULT voided with the index of its
last counted sample. -/
structure FaultEntry where
  kind : FaultKind
  phase : Phase
  voided : Option (SlotId × BitVec 32)
  deriving DecidableEq, Repr

/-- The frame line unit (FLU). -/
structure Flu where
  lines : List Line
  faults : List FaultEntry
  drvEn : Bool
  alarm : Bool
  deriving DecidableEq, Repr

/-! ### Record stream (chapter 8) -/

/-- An open gap (8.1). -/
structure Gap where
  first : BitVec 32
  last : BitVec 32
  tally : Nat
  deriving DecidableEq, Repr

/-- The record stream (RST): the admitted records, oldest first, the gap, which is CLOSED when absent, and the
high-water arm. -/
structure Rst where
  records : List (List Word16)
  gap : Option Gap
  armed : Bool
  deriving DecidableEq, Repr

/-! ### Port unit (chapter 9) -/

/-- The three causes of a reset (R206). -/
inductive ResetCause where
  | powerOn | line | request
  deriving DecidableEq, Repr

/-- The status codes of R198's table, in order. -/
inductive Status where
  | ok | clamped | accepted | busy | state | notPermitted | notHolder | changeover | notReady | mismatch | range
  | malformed | locked | staged | unknown
  deriving DecidableEq, Repr

/-- A reply: the status code and the bytes of the body behind it (10.1). -/
structure Reply where
  status : Status
  results : List Byte
  deriving DecidableEq, Repr

/-- The causes of a handover (R110). -/
inductive HandoverCause where
  | removal | slip | resume
  deriving DecidableEq, Repr

/-- The event kinds of R201 with the fields their rules name (10.3). -/
inductive Event where
  | resetDone (cause : ResetCause)
  | phase (p : Phase) (slot : Option SlotId)
  | changeoverBegun (cause : Cause) (requester : Requester) (outgoing : Context) (incoming : Option Context)
  | superseded (cause : Cause)
  | stageSuperseded (slot : Option SlotId) (segment : Nat)
  | condition (slot : SlotId) (m : Mark)
  | yield (slot : SlotId) (index : Nat) (kind : YieldKind) (stress strain : Int)
  | yieldBackup (slot : SlotId) (strain : Int)
  | fracture (slot : SlotId) (index : Nat) (criterion : Criterion) (force fm : Int)
  | handover (slot : SlotId) (cause : HandoverCause) (strain offset : Int)
  | detached (left : ChannelState) (owner : Option SlotId)
  | testEnd (slot : SlotId) (outcome : TestOutcome)
  | bound (slot : SlotId)
  | released (slot : SlotId)
  | fault (entry : FaultEntry)
  | cleared (count : Nat)
  | tareDone (tare : Int) (slot : Option SlotId)
  | tareAbandoned (slot : Option SlotId)
  | calDone (table : TableId) (revision : Nat)
  | streamHigh (occupancy : Nat) (gapOpen : Bool)
  deriving DecidableEq, Repr

/-- The request a port is serving (R197): its tag and code, and the reply composed for it.  A RESET that waits for a
calibration write has no reply (R207). -/
structure Serving where
  tag : Byte
  code : Byte
  reply : Option Reply
  deriving DecidableEq, Repr

/-- A frame that is answered BUSY: the tag and code its reply carries (R197). -/
structure BusyFrame where
  tag : Byte
  code : Byte
  deriving DecidableEq, Repr

/-- A port (chapter 9).  `rx` holds the bytes of the frame being collected, its sync byte first; it is empty while
the receiver is HUNTING (R194).  `busyTurn` is whether the BUSY reply is the one being sent.  `mask` has bit k set for
the class numbered k (10.3). -/
structure PortState where
  rx : List Byte
  serving : Option Serving
  busy : Option BusyFrame
  busyTurn : Bool
  queue : List Event
  overflow : Bool
  mask : BitVec 12
  atn : Bool
  deriving DecidableEq, Repr

/-- The header a part 1 LOAD left in the assembly, with its slot (R210). -/
structure Assembly where
  slot : SlotId
  order : TestOrder
  deriving DecidableEq, Repr

/-- The port unit (PTU).  `resetWait` is the reset that waits for a calibration write (R103), `lineArmed` whether
RESET_N has been seen high since power-up or since the last fall (R179), `misoSent` how many bytes of the reply in
transmission the supervisor has clocked out (R195). -/
structure Ptu where
  supervisor : PortState
  cell : PortState
  pendant : PortState
  cellDe : Bool
  misoSent : Nat
  assembly : Option Assembly
  lastCause : ResetCause
  resetWait : Option ResetCause
  lineArmed : Bool
  deriving DecidableEq, Repr

/-! ### The whole part -/

/-- The part.  `power` is whether it is supplied; `pending` are the commands that wait, first in, first out;
`inForce` are the working copies the readers have taken up (R101, R176). -/
structure State where
  power : Bool
  pending : List Instr
  smu : Smu
  lch : Lch
  cst : Cst
  inForce : Tables
  xch : Xch
  live : Option Live
  msq : Msq
  ctx : Ctx
  flu : Flu
  rst : Rst
  ptu : Ptu
  deriving DecidableEq, Repr

/-- No command of this part stops it with a fault: every error the manual names is a reply, a mark, an entry of the
frame fault set or a reset, and each of them is a next state.  Nothing raises a fault, which is safe. -/
inductive Fault where
  deriving DecidableEq, Repr

/-- Why the model gives a command no meaning. -/
inductive Refusal where
  /-- Raised by the dispatch for a command whose meaning is not written; safe, since nothing is then claimed of it. -/
  | notModelled (mnemonic : String)
  deriving DecidableEq, Repr

/-! ### The state after POWER_ON -/

def Smu.initial : Smu :=
  { clock := 0, xh := 0, armA := 0, armB := 0, xhErr := false, armAErr := false, armBErr := false,
    assembling := none, missRun := 0, delivered := 0 }

/-- R94 and R80: range 1, tare 0, and the conversion of the first instant a settling one that holds a force of 0. -/
def Lch.initial : Lch :=
  { range := .r1, driven := .r1, settleNext := true, lock := false, hard := false, tare := 0, tareRun := none,
    lastBefore := 0, lastAfter := 0, lastRange := .r1 }

/-- R96 and R98: the tables are read with their marks, and the window is CLOSED with the lock clear. -/
def Cst.initial (nv : Nonvolatile) : Cst :=
  { nv := nv, work := nv.tables, window := .closed, lock := false, armsAt := 0 }

/-- The scales in force while ARMS is not programmed (R95). -/
def Arms.default : Arms := { a := 1000000, b := 1000000 }

/-- R127: DETACHED, with everything absent, clear or stopped. -/
def Xch.initial : Xch :=
  { laneA := Lane.blank, laneB := Lane.blank, diverge := false, state := .detached, slipped := false,
    lastGood := none, delta := none, timer := .stopped, owner := none, limit := 0, extRel := false,
    armsAt := 0 }

/-- R58 and R37: the control state at rest and both banks empty. -/
def Msq.initial : Msq :=
  { active := none, inactive := none, qSet := none, remainder := 0, prevDemand := 0, ceilingRun := 0, ring := [],
    history := [], velocity := none, stillCount := 0, dac := 0, seat := false, target := none, speed := 0 }

/-- R33: every slot EMPTY, the queue empty, the binding NONE, the phase IDLE. -/
def Ctx.initial : Ctx :=
  { slots := Vector.replicate 8 Slot.blank, queue := [], binding := none, phase := .idle, resident := none,
    changeover := none, holder := none, transit := [] }

/-- R180: every filter restarted, the fault set empty, the outputs off. -/
def Flu.initial : Flu :=
  { lines := List.replicate 8 Line.blank, faults := [], drvEn := false, alarm := false }

/-- R181: an empty stream with its gap CLOSED and its arm armed. -/
def Rst.initial : Rst := { records := [], gap := none, armed := true }

/-- The subscription mask of a port after a reset (R201). -/
def defaultMask : Port → BitVec 12
  | .supervisor => 0b111111111111#12
  | .cell => 0b000111000010#12
  | .pendant => 0b001100001110#12

/-- R208: HUNTING, FREE, and one RESET_DONE in the queue. -/
def PortState.afterReset (p : Port) (cause : ResetCause) : PortState :=
  { rx := [], serving := none, busy := none, busyTurn := false, queue := [.resetDone cause], overflow := false,
    mask := defaultMask p, atn := true }

/-- The port unit after POWER_ON; RESET_N counts as not yet seen high (R179). -/
def Ptu.initial : Ptu :=
  { supervisor := PortState.afterReset .supervisor .powerOn, cell := PortState.afterReset .cell .powerOn,
    pendant := PortState.afterReset .pendant .powerOn, cellDe := false, misoSent := 0, assembly := none,
    lastCause := .powerOn, resetWait := none, lineArmed := false }

/-- The part right after POWER_ON, with the nonvolatile memory as it was found. -/
def State.initial (nv : Nonvolatile) : State :=
  { power := true, pending := [], smu := Smu.initial, lch := Lch.initial, cst := Cst.initial nv,
    inForce := nv.tables, xch := Xch.initial, live := none, msq := Msq.initial, ctx := Ctx.initial,
    flu := Flu.initial, rst := Rst.initial, ptu := Ptu.initial }

/-- The part right after POWER_ON, its calibration store never programmed (log entry 1). -/
def State.reset : State := State.initial Nonvolatile.blank

end Sys2Proof.Machine
end

