-- ==== Sys2Proof/Machine/Flags.lean ====
section
/-! DEFINITION. The numbers and classes the manual gives to its names: condition marks with their classes and stop
enables (1.12), fault kinds, phases, slot states, causes, requesters, event kinds and classes (10.1, 10.3), and the
flag words of the results (10.4). -/

namespace Sys2Proof.Machine

/-- The class of a condition mark (1.12). -/
inductive MarkClass where
  | terminate | operator | fault | informational
  deriving DecidableEq, Repr

/-- The number of a condition mark: its place in the condition table (10.1). -/
def markNumber : Mark → Nat
  | .overload => 1 | .slip => 2 | .gap => 3 | .track => 4 | .aborted => 5 | .step => 6 | .holdpt => 7 | .rmfail => 8
  | .stream => 9 | .poslost => 10 | .estop => 11 | .limit => 12 | .drive => 13 | .griplost => 14 | .guardopen => 15
  | .hardload => 16 | .drift => 17 | .travel => 18 | .settle => 19 | .kclamp => 20 | .fracture => 21 | .reset => 22

/-- Every condition mark, in the order of its number. -/
def allMarks : List Mark :=
  [.overload, .slip, .gap, .track, .aborted, .step, .holdpt, .rmfail, .stream, .poslost, .estop, .limit, .drive,
   .griplost, .guardopen, .hardload, .drift, .travel, .settle, .kclamp, .fracture, .reset]

/-- The mark with a number, where there is one. -/
def markOfNumber (n : Nat) : Option Mark := if n = 0 then none else allMarks[n - 1]?

/-- The class of a mark (1.12). -/
def markClass : Mark → MarkClass
  | .overload | .slip | .gap | .track | .aborted => .terminate
  | .step | .holdpt | .rmfail => .operator
  | .stream | .poslost | .estop | .limit | .drive | .griplost | .guardopen | .hardload | .drift => .fault
  | .travel | .settle | .kclamp | .fracture | .reset => .informational

/-- Whether a mark's stop enable is on in a test, or its cause is raised in every case (1.12). -/
def stopEnabled (o : TestOrder) : Mark → Bool
  | .overload => o.tOverload
  | .slip => o.tSlip
  | .gap => o.tGap
  | .track => o.tTrack
  | .step => o.stepOn
  | .holdpt => o.holdptOn
  | .aborted | .rmfail => true
  | .stream | .poslost | .estop | .limit | .drive | .griplost | .guardopen | .hardload | .drift => true
  | .travel | .settle | .kclamp | .fracture | .reset => false

/-- The marks a resumed test is examined for, in the order that gives the end cause (R29). -/
def resumeMarks : List Mark := [.overload, .slip, .gap, .track]

/-- The rank of a cause (1.7). -/
def causeRank : Cause → Nat
  | .operator => 1
  | .endTest => 2
  | .terminate => 3

def phaseCode : Phase → Nat
  | .idle => 0 | .test => 1 | .service => 2 | .safe => 3

def slotStateCode : SlotState → Nat
  | .empty => 0 | .loaded => 1 | .bound => 2 | .resident => 3 | .parked => 4 | .done => 5 | .void => 6

/-- 0 none, then the three ports (10.3). -/
def portCode : Port → Nat
  | .supervisor => 1 | .cell => 2 | .pendant => 3

def requesterCode : Requester → Nat
  | .port p => portCode p
  | .internal => 4

def contextCode : Context → Nat
  | .test k => k.val
  | .service => 8
  | .safe => 9

def contextCodeOpt : Option Context → Nat
  | some c => contextCode c
  | none => 255

def slotCodeOpt : Option SlotId → Nat
  | some k => k.val
  | none => 255

def shapeCode : Shape → Nat
  | .flat => 0 | .round => 1 | .area => 2

def modeCode : Mode → Nat
  | .position => 0 | .stress => 1 | .strain => 2

def endKindCode : EndKind → Nat
  | .positionReach => 0 | .qReach => 1 | .strainReach => 2 | .forceReach => 3 | .yield => 4 | .time => 5
  | .detached => 6 | .never => 7

def sourceIsXhd : Source → Bool
  | .ext => false
  | .xhd => true

def yieldStateCode : YieldState → Nat
  | .waitFit => 0 | .rising => 1 | .plateau => 2 | .hardening => 3

def yieldKindCode : YieldKind → Nat
  | .reH => 1 | .rp => 2

def criterionCode : Criterion → Nat
  | .level => 1 | .sharp => 2

def handoverCode : HandoverCause → Nat
  | .removal => 1 | .slip => 2 | .resume => 3

def channelCode : ChannelState → Nat
  | .detached => 0 | .seating => 1 | .attached => 2 | .releasing => 3

def resetCauseCode : ResetCause → Nat
  | .powerOn => 0 | .line => 1 | .request => 2

def tableCode : TableId → Nat
  | .frame => 0 | .loadR1 => 1 | .loadR2 => 2 | .loadR3 => 3 | .arms => 4 | .compliance => 5

/-- The table with a number, where it is one of the six. -/
def tableOfCode : Nat → Option TableId
  | 0 => some .frame | 1 => some .loadR1 | 2 => some .loadR2 | 3 => some .loadR3 | 4 => some .arms
  | 5 => some .compliance | _ => none

def rangeCode : Range → Nat
  | .r1 => 1 | .r2 => 2 | .r3 => 3

def faultCode : FaultKind → Nat
  | .estop => 1 | .limitUp => 2 | .limitLo => 3 | .drive => 4 | .guardOpen => 5 | .gripLost => 6 | .stream => 7
  | .posLost => 8 | .hardLoad => 9 | .drift => 10

/-- The mark a fault report sets in a resident test (R163, R164, R77, R79, R93, R21). -/
def faultMark : FaultKind → Mark
  | .estop => .estop | .limitUp => .limit | .limitLo => .limit | .drive => .drive | .guardOpen => .guardopen
  | .gripLost => .griplost | .stream => .stream | .posLost => .poslost | .hardLoad => .hardload | .drift => .drift

def statusCode : Status → Nat
  | .ok => 0 | .clamped => 1 | .accepted => 2 | .busy => 3 | .state => 4 | .notPermitted => 5 | .notHolder => 6
  | .changeover => 7 | .notReady => 8 | .mismatch => 9 | .range => 10 | .malformed => 11 | .locked => 12
  | .staged => 13 | .unknown => 14

/-- The readiness items a NOT_READY reply may name (10.1). -/
inductive Item where
  | phase | changeover | calWindow | guard | grips | faultLine | tables | extensometer | stream | hardLoad
  deriving DecidableEq, Repr

def itemCode : Item → Nat
  | .phase => 1 | .changeover => 2 | .calWindow => 3 | .guard => 4 | .grips => 5 | .faultLine => 6 | .tables => 7
  | .extensometer => 8 | .stream => 9 | .hardLoad => 10

/-- The end cause byte (10.1). -/
def endCauseCode : EndCause → Nat
  | .mark m => markNumber m
  | .programEnd => 63

/-- The low byte of MARK word 1: bit 7 VOID, bit 6 outcome present, bits 5 to 0 the end cause (10.4). -/
def outcomeByte : Option TestOutcome → Nat
  | none => 0
  | some o => flag 7 o.void + 64 + endCauseCode o.cause

/-- The classes of R201, numbered from reset 0 to stream 11. -/
def eventClass : Event → Nat
  | .resetDone .. => 0
  | .phase .. => 1
  | .changeoverBegun .. | .superseded .. | .stageSuperseded .. => 2
  | .condition .. => 3
  | .yield .. | .yieldBackup .. | .fracture .. => 4
  | .handover .. | .detached .. => 5
  | .testEnd .. => 6
  | .bound .. | .released .. => 7
  | .fault .. | .cleared .. => 8
  | .tareDone .. | .tareAbandoned .. => 9
  | .calDone .. => 10
  | .streamHigh .. => 11

/-- Whether a kind goes to its named port only (R201). -/
def namedOnly : Event → Bool
  | .superseded .. | .stageSuperseded .. => true
  | _ => false

/-- The determined marks of a results record as RESULT word 2 (10.4). -/
def determinedBits (r : Results) (ys : YieldState) : Nat :=
  flag 0 r.fit.isSome + flag 1 r.reH.isSome + flag 2 r.reL.isSome + flag 3 r.ae.isSome + flag 4 r.rp.isSome +
  flag 5 r.rm.isSome + flag 6 r.fm.isSome + flag 7 r.ag.isSome + flag 8 r.elong.isSome + flag 9 r.bending.isSome +
  flag 10 r.fracture.isSome + flag 11 (ys == .plateau || ys == .hardening)

/-- The qualifier marks of a results record as RESULT word 3 (10.4). -/
def qualifierBits (r : Results) : Nat :=
  flag 0 (r.closeMark == some .fitFull) + flag 1 (r.closeMark == some .fitCut) +
  flag 2 (r.closeMark == some .cutRemoval) + flag 3 (r.closeMark == some .cutSlip) +
  flag 4 (r.failMark == some .fitShort) + flag 5 (r.failMark == some .fitFlat) + flag 6 r.eApparent +
  flag 7 r.bendHigh + flag 8 r.reLTransient + flag 9 r.rpAtClose + flag 10 r.rpCut +
  flag 11 (r.yieldKind == some .rp) + flag 12 ((r.rp.map (·.source)) == some .xhd) +
  flag 13 ((r.ag.map (·.source)) == some .xhd) + flag 14 ((r.elong.map (·.source)) == some .xhd) +
  flag 15 r.rmForced

end Sys2Proof.Machine
end

