-- ==== Sys2Proof/Machine/Evaluation.lean ====
section
/-! DEFINITION. The evaluation unit (chapter 6) as functions of the evaluation state: stress, the modulus window and
its fit, yield, the offset proof, the maximum, fracture, and the closing steps. -/

namespace Sys2Proof.Machine

/-- The stress of a set (R131). -/
def stressOf (force s0 : Int) : Int := sat32 (roundDiv (10000 * force) s0)

/-- One evaluated set as the unit receives it: stress, strain in use with its source, force after tare, the HELD
mark, the lane extensions, the index the set will carry, the removal-start mark (forced or not) and whether the set
is the first of a resumed residency. -/
structure EvalIn where
  stress : Int
  strain : Int
  source : Source
  force : Int
  held : Bool
  exts : Option (Int × Int)
  index : Nat
  removal : Option Bool
  resumed : Bool
  deriving DecidableEq, Repr

/-- The fit of R134 over the accumulators. -/
def fitOf (ev : Eval) : Option Fit × Option FailMark :=
  let num := (ev.n : Int) * ev.sumES - ev.sumE * ev.sumS
  let den := (ev.n : Int) * ev.sumEE - ev.sumE * ev.sumE
  if ev.n < Config.fitShort then (none, some .fitShort)
  else if den ≤ 0 ∨ num ≤ 0 then (none, some .fitFlat)
  else
    let b0 := roundDiv (num * 65536) den
    if b0 = 0 then (none, some .fitFlat)
    else
      let b := sat32 b0
      let a := sat32 (roundDiv (ev.sumS * 65536 - b * ev.sumE) ((ev.n : Int) * 65536))
      (some { e := sat32 (roundDiv (b * 100000) 65536), b := b, a := a }, none)

/-- The bending of R136, where it is determined; it saturates as every result does (R1). -/
def bendingOf (ev : Eval) : Option Int :=
  match ev.fitSource, ev.lastExts with
  | some .ext, some (a, b) =>
    if 0 < a + b then some (sat32 (roundDiv (1000 * absI (a - b)) (a + b))) else none
  | _, _ => none

/-- A window closes (R133): the fit, the bending and their marks are written once (R134 to R136). -/
def closeFit (o : TestOrder) (m : Option CloseMark) (ev : Eval) : Eval :=
  let f := fitOf ev
  let bend := bendingOf ev
  { ev with
    window := .closed
    results :=
      { ev.results with
        fit := f.1
        closeMark := m
        failMark := f.2
        fitN := ev.n
        fitSource := ev.fitSource
        eApparent := ev.fitSource == some .xhd
        bending := bend
        bendHigh := match bend with
          | some b => decide (o.bendLim < b)
          | none => false } }

/-- Offset detection is started at a close when E is determined, `e_p` is above 0 and no removal-start mark has been
seen (R137). -/
def startOffset (o : TestOrder) (ev : Eval) : Eval :=
  if ev.results.fit.isSome && decide (0 < o.eP) && !ev.removalSeen then { ev with offset := .running } else ev

/-- A close other than at the closing steps: the fit, then the start of offset detection (R133, R137). -/
def closeWindow (o : TestOrder) (m : Option CloseMark) (ev : Eval) : Eval := startOffset o (closeFit o m ev)

/-- Entry to RISING with the peak candidate seated at a set (R137). -/
def enterRising (i : EvalIn) (ev : Eval) : Eval :=
  { ev with yState := .rising, peak := some { stress := i.stress, strain := i.strain } }

/-- Step 1 of R129: the removal-start mark (R145) and the window's response to a source change (R133).  Both close the
window at a held set too (log entry 40). -/
def evalSourceStep (o : TestOrder) (i : EvalIn) (ev : Eval) : Eval :=
  match i.removal with
  | some forced =>
    let ev := { ev with removalSeen := true }
    let ev := if ev.window = .opened then enterRising i (closeWindow o (some .cutRemoval) ev) else ev
    { ev with
      offset := .stopped
      results :=
        { ev.results with
          rpCut := ev.results.rpCut || ev.results.rp.isNone
          rmForced := ev.results.rmForced || forced } }
  | none =>
    if ev.window = .opened ∧ ev.fitSource.isSome ∧ ev.fitSource ≠ some i.source then
      enterRising i (closeWindow o (some .cutSlip) ev)
    else ev

/-- Step 2 of R129: the maximum tracker (R147) and the arming of the fracture detector (R149).  A held set is compared
like any other: its force was taken when it was measured, so the comparison changes nothing, unless it was measured while
the test was parked (log entry 41). -/
def evalMaxStep (o : TestOrder) (i : EvalIn) (ev : Eval) : Eval :=
  let t : MaxTracker := match ev.maxT with
    | none => { fm := i.force, rm := i.stress, eFm := i.strain, source := i.source }
    | some t =>
      let t := if t.fm < i.force then { t with fm := i.force, eFm := i.strain, source := i.source } else t
      if t.rm < i.stress then { t with rm := i.stress } else t
  { ev with maxT := some t, armed := ev.armed || decide (o.fArm ≤ t.fm) }

/-- The fracture test of R150; both criteria at one set record SHARP. -/
def fractureTest (o : TestOrder) (i : EvalIn) (ev : Eval) : Option Criterion :=
  match ev.armed, ev.maxT with
  | true, some t =>
    let sharp := match decide (ev.history.length = 10), ev.history with
      | true, f10 :: _ => decide (t.fm ≤ 2 * f10) && decide (i.force ≤ roundDiv (f10 * (100 - o.pSharp)) 100)
      | _, _ => false
    if sharp then some .sharp
    else if i.force ≤ roundDiv (t.fm * o.pFrac) 100 then some .level
    else none
  | _, _ => none

/-- The elastic strain of a stress on the fitted slope (R148, R151). -/
def elasticStrain (stress b : Int) : Int := roundDiv (stress * 65536) b

/-- A plateau in progress is cut (R140). -/
def cutPlateau (ev : Eval) : Eval :=
  match ev.yState, ev.plateau, ev.results.reL with
  | .plateau, some p, none =>
    match p.minAfter with
    | some m => { ev with results := { ev.results with reL := some m } }
    | none => { ev with results := { ev.results with reL := some p.minAll, reLTransient := true } }
  | _, _, _ => ev

/-- Rm, Fm and Ag become determined (R148, R155). -/
def determineMaxima (ev : Eval) : Eval :=
  match ev.maxT with
  | none => ev
  | some t =>
    { ev with results :=
        { ev.results with
          rm := some t.rm
          fm := some { force := t.fm, strain := t.eFm }
          ag := match ev.results.fit with
            | some f => some { value := sat32 (t.eFm - elasticStrain t.rm f.b), source := t.source }
            | none => none } }

/-- The closing steps of R155, at which a close starts no offset detection (R137); an evaluation already closed is passed
over (R156). -/
def closingSteps (o : TestOrder) (ev : Eval) : Eval :=
  if ev.opened then
    let ev := if ev.window = .opened then closeFit o (some .fitCut) ev else ev
    { determineMaxima (cutPlateau ev) with opened := false }
  else ev

/-- The one step made at a park: an OPEN window closes with FIT_CUT (R153). -/
def parkEval (o : TestOrder) (ev : Eval) : Eval :=
  if ev.opened ∧ ev.window = .opened then closeWindow o (some .fitCut) ev else ev

/-- Yield seen (R141). -/
def yieldSeen (ev : Eval) : Bool := ev.yState == .plateau || ev.yState == .hardening

/-- Whether the elastic results are settled (R146). -/
def settledOf (o : TestOrder) (ev : Eval) : Bool :=
  yieldSeen ev || ev.results.rp.isSome || (decide (o.eP = 0) && ev.yState != .waitFit)

/-- Steps 1 to 3 of R151 at the fracture set. -/
def fractureSteps (o : TestOrder) (c : Criterion) (i : EvalIn) (ev : Eval) : Eval :=
  let elong := match ev.results.fit, ev.prev with
    | some f, some p => some { value := sat32 (p.strain - elasticStrain p.stress f.b), source := p.source : Elongation }
    | _, _ => none
  let ev := { ev with results :=
    { ev.results with
      elong := elong
      fracture := some { criterion := c, force := i.force, index := i.index } } }
  closingSteps o ev

/-- A set not held is added to the accumulators (R132). -/
def accumulate (i : EvalIn) (ev : Eval) : Eval :=
  { ev with
    n := ev.n + 1
    sumE := ev.sumE + i.strain
    sumS := ev.sumS + i.stress
    sumEE := ev.sumEE + i.strain * i.strain
    sumES := ev.sumES + i.strain * i.stress
    lastExts := i.exts
    fitSource := if ev.n = 0 then some i.source else ev.fitSource }

/-- Step 4 of R129: the modulus window (R132, R133). -/
def evalWindowStep (o : TestOrder) (i : EvalIn) (ev : Eval) : Eval :=
  if i.held then ev
  else
    let ev := if ev.window = .notOpened ∧ o.sLo ≤ i.stress then { ev with window := .opened } else ev
    if ev.window = .opened then
      if o.sHi < i.stress then enterRising i (closeWindow o none ev)
      else
        let ev := accumulate i ev
        if Config.fitFull ≤ ev.n then enterRising i (closeWindow o (some .fitFull) ev) else ev
    else ev

/-- RISING at a set after the set of entry (R138): the peak candidate is updated, then the upper yield drop is
tested. -/
def risingStep (o : TestOrder) (i : EvalIn) (ev : Eval) : Eval :=
  match ev.peak with
  | none => ev
  | some pk =>
    let pk := if pk.stress < i.stress then { stress := i.stress, strain := i.strain : Point } else pk
    if i.stress < pk.stress - o.dDrop then
      { ev with
        peak := some pk
        yState := .plateau
        plateau := some { drop := i.index, minAll := i.stress, minAfter := none }
        results := { ev.results with reH := some pk, yieldKind := some .reH } }
    else { ev with peak := some pk }

/-- The lesser of a running minimum and a value. -/
def minWith (m : Option Int) (x : Int) : Int :=
  match m with
  | some v => if x < v then x else v
  | none => x

/-- PLATEAU at a set after the drop set (R139). -/
def plateauStep (o : TestOrder) (i : EvalIn) (ev : Eval) : Eval :=
  match ev.plateau, ev.results.reH with
  | some p, some h =>
    if h.stress < i.stress ∨ sat32 (h.strain + o.ePlat) ≤ i.strain then
      let r := { ev.results with ae := some (sat32 (i.strain - h.strain)) }
      let r := match p.minAfter, decide (i.index ≤ p.drop + 26) with
        | some m, false => { r with reL := some m }
        | _, _ => { r with reL := some p.minAll, reLTransient := true }
      { ev with yState := .hardening, results := r }
    else
      let after := if p.drop + 26 ≤ i.index then some (minWith p.minAfter i.stress) else p.minAfter
      { ev with
        plateau := some { p with minAll := minWith (some p.minAll) i.stress, minAfter := after } }
  | _, _ => ev

/-- Step 5 of R129: the yield state machine. `was` is the yield state the set found, so that the set of entry is
passed over; a window closed at a park enters RISING at the first resumed sample (R154). -/
def evalYieldStep (o : TestOrder) (was : YieldState) (i : EvalIn) (ev : Eval) : Eval :=
  match was, ev.yState with
  | .waitFit, .waitFit => if i.resumed ∧ ev.window = .closed then enterRising i ev else ev
  | .rising, .rising => risingStep o i ev
  | .plateau, .plateau => plateauStep o i ev
  | _, _ => ev

/-- The distance of the curve above the offset line (R142): the sum and the difference saturate; the strain behind the
offset belongs to the exact product (log entry 34). -/
def offsetDistance (o : TestOrder) (f : Fit) (stress strain : Int) : Int :=
  sat32 (stress - sat32 (f.a + roundDiv (f.b * (strain - o.eP)) 65536))

/-- An Rp is found (R142 to R144): in RISING it makes the yield state HARDENING and the yield seen. -/
def foundRp (stress strain : Int) (source : Source) (atClose : Bool) (ev : Eval) : Eval :=
  let r := { ev.results with
    rp := some { stress := stress, strain := strain, source := source }
    rpAtClose := atClose }
  match ev.yState with
  | .rising =>
    { ev with offset := .stopped, yState := .hardening, results := { r with yieldKind := some .rp } }
  | _ => { ev with offset := .stopped, results := r }

/-- Step 6 of R129: the offset proof (R142, R143). -/
def evalOffsetStep (o : TestOrder) (i : EvalIn) (ev : Eval) : Eval :=
  match ev.results.fit with
  | none => ev
  | some f =>
    let d := offsetDistance o f i.stress i.strain
    match ev.prevD, ev.prev with
    | some d0, some p =>
      if d ≤ 0 ∧ 0 < d0 then
        foundRp (sat32 (p.stress + roundDiv ((i.stress - p.stress) * d0) (d0 - d)))
          (sat32 (p.strain + roundDiv ((i.strain - p.strain) * d0) (d0 - d))) i.source false ev
      else { ev with prevD := some d }
    | _, _ => if d ≤ 0 then foundRp i.stress i.strain i.source true ev else { ev with prevD := some d }

/-- The last `n` entries of a list that has just grown. -/
def keepLast {α : Type} (n : Nat) (l : List α) : List α := l.drop (l.length - n)

/-- Step 7 of R129: the force history, the previous sample and the settled report. -/
def evalFinish (o : TestOrder) (i : EvalIn) (ev : Eval) : Eval :=
  { ev with
    history := keepLast 10 (ev.history ++ [i.force])
    prev := some { stress := i.stress, strain := i.strain, force := i.force, source := i.source }
    settled := settledOf o ev }

/-- The changes R154 makes at the first resumed sample. -/
def evalResume (i : EvalIn) (ev : Eval) : Eval :=
  if i.resumed then
    { ev with
      history := []
      peak := if ev.yState = .rising then some { stress := i.stress, strain := i.strain } else ev.peak }
  else ev

/-- Steps 4 to 7 of R129, at a set that is not a fracture set. -/
def evalTail (o : TestOrder) (was : Eval) (i : EvalIn) (ev : Eval) : Eval :=
  let ev := evalWindowStep o i ev
  let ev := evalYieldStep o was.yState i ev
  let ev := if was.offset = .running ∧ ev.offset = .running then evalOffsetStep o i ev else ev
  evalFinish o i ev

/-- One evaluated set (R129): the new state and the criterion of a fracture met at it. -/
def evalSet (o : TestOrder) (i : EvalIn) (ev : Eval) : Eval × Option Criterion :=
  let ev0 := evalResume i ev
  let ev1 := evalMaxStep o i (evalSourceStep o i ev0)
  match fractureTest o i ev1 with
  | some c => (fractureSteps o c i ev1, some c)
  | none => (evalTail o ev0 i ev1, none)

end Sys2Proof.Machine
end

