-- ==== Sys2Proof/Machine/Records.lean ====
section
/-! DEFINITION. The words of the records of chapter 8 as 10.4 lays them out (R211), and the 15 bytes of an event
entry (10.3). -/

namespace Sys2Proof.Machine

/-- The header word of a record: kind, length in words, kind-specific field (R211). -/
def headerWord (kind length field : Nat) : Word16 := BitVec.ofNat 16 (kind * 4096 + length * 128 + field)

/-- A word of two bytes. -/
def wordOf (high low : Nat) : Word16 := BitVec.ofNat 16 (high % 256 * 256 + low % 256)

/-- The event codes of R184. -/
inductive RecordEvent where
  | markSet | yield | yieldStrain | yieldBackup | handover | detached | tare
  deriving DecidableEq, Repr

def recordEventCode : RecordEvent → Nat
  | .markSet => 1 | .yield => 2 | .yieldStrain => 3 | .yieldBackup => 4 | .handover => 5 | .detached => 6 | .tare => 7

/-- The kinds of MARK records (R186). -/
inductive MarkKind where
  | start | park | resume | ended
  deriving DecidableEq, Repr

def markKindCode : MarkKind → Nat
  | .start => 0 | .park => 1 | .resume => 2 | .ended => 3

/-- An EVENT record of 6 words (R184, R211). -/
def eventRecord (e : RecordEvent) (index : BitVec 32) (k : SlotId) (sub : Nat) (value : Int) : List Word16 :=
  headerWord 2 6 (recordEventCode e) :: (words32 index ++ [wordOf k.val sub] ++ w32 value)

/-- A MARK record of 4 words (R186, R211). -/
def markRecord (m : MarkKind) (k : SlotId) (o : Option TestOutcome) (index : BitVec 32) : List Word16 :=
  headerWord 3 4 (markKindCode m) :: ([wordOf k.val (outcomeByte o)] ++ words32 index)

/-- A GAP record of 6 words (R190, R211). -/
def gapRecord (g : Gap) : List Word16 :=
  headerWord 5 6 0 :: (words32 g.first ++ words32 g.last ++ [BitVec.ofNat 16 g.tally])

/-- A value that is sent as zeros while its determined mark is clear (R211). -/
def orZero (v : Option Int) : Int := v.getD 0

/-- A RESULT record of 24 words (R186, 10.4). -/
def resultRecord (k : SlotId) (o : Option TestOutcome) (r : Results) (ys : YieldState) : List Word16 :=
  headerWord 4 24 0 ::
    ([wordOf k.val (outcomeByte o), BitVec.ofNat 16 (determinedBits r ys), BitVec.ofNat 16 (qualifierBits r)] ++
     w32 (orZero (r.fit.map (·.e))) ++ w32 (orZero (r.reH.map (·.stress))) ++ w32 (orZero r.reL) ++
     w32 (orZero r.ae) ++ w32 (orZero (r.rp.map (·.stress))) ++ w32 (orZero r.rm) ++
     w32 (orZero (r.fm.map (·.force))) ++ w32 (orZero (r.ag.map (·.value))) ++
     w32 (orZero (r.elong.map (·.value))) ++ [fill16 (orZero r.bending), BitVec.ofNat 16 r.fitN])

/-- What a SAMPLE record carries of its sample (R182). -/
structure SampleFacts where
  index : Nat
  force : Int
  xh : Int
  strain : Int
  source : Source
  range : Range
  held : Bool
  settle : Bool
  miss : Bool
  exts : Option (Int × Int)
  dac : Int
  deriving DecidableEq, Repr

/-- The length of the SAMPLE records of a test (R182). -/
def sampleLength (laneDetail demandDetail : Bool) : Nat :=
  9 + (if laneDetail then 4 else 0) + (if demandDetail then 1 else 0)

/-- A SAMPLE record (R182, R211); bit 6 says whether the lanes were processed with `lane_detail` off too (log entry
48). -/
def sampleRecord (laneDetail demandDetail : Bool) (f : SampleFacts) : List Word16 :=
  headerWord 1 (sampleLength laneDetail demandDetail)
    (flag 0 (sourceIsXhd f.source) + 2 * rangeCode f.range + flag 3 f.held + flag 4 f.settle + flag 5 f.miss +
     flag 6 f.exts.isNone) ::
    (w32 f.index ++ w32 f.force ++ w32 f.xh ++ w32 f.strain ++
     (if laneDetail then w32 ((f.exts.map (·.1)).getD 0) ++ w32 ((f.exts.map (·.2)).getD 0) else []) ++
     (if demandDetail then [bits16 f.dac] else []))

/-! ### Event entries -/

/-- The number of an event kind (10.3). -/
def eventNumber : Event → Nat
  | .resetDone .. => 1 | .phase .. => 2 | .changeoverBegun .. => 3 | .superseded .. => 4 | .stageSuperseded .. => 5
  | .condition .. => 6 | .yield .. => 7 | .yieldBackup .. => 8 | .fracture .. => 9 | .handover .. => 10
  | .detached .. => 11 | .testEnd .. => 12 | .bound .. => 13 | .released .. => 14 | .fault .. => 15
  | .cleared .. => 16 | .tareDone .. => 17 | .tareAbandoned .. => 18 | .calDone .. => 19 | .streamHigh .. => 20

/-- The fields of an event entry (10.3). -/
def eventFields : Event → List Byte
  | .resetDone c => [byte (resetCauseCode c)]
  | .phase p k => [byte (phaseCode p), byte (slotCodeOpt k)]
  | .changeoverBegun c r o i =>
    [byte (causeRank c), byte (requesterCode r), byte (contextCode o), byte (contextCodeOpt i)]
  | .superseded c => [byte (causeRank c)]
  | .stageSuperseded k n => [byte (slotCodeOpt k), byte n]
  | .condition k m => [byte k.val, byte (markNumber m)]
  | .yield k n y st e => [byte k.val] ++ be32 n ++ [byte (yieldKindCode y)] ++ be32 st ++ be32 e
  | .yieldBackup k e => [byte k.val] ++ be32 e
  | .fracture k n c f fm => [byte k.val] ++ be32 n ++ [byte (criterionCode c)] ++ be32 f ++ be32 fm
  | .handover k c e o => [byte k.val, byte (handoverCode c)] ++ be32 e ++ be32 o
  | .detached st k => [byte (channelCode st), byte (slotCodeOpt k)]
  | .testEnd k o => [byte k.val, byte (outcomeByte (some o))]
  | .bound k => [byte k.val]
  | .released k => [byte k.val]
  | .fault e =>
    [byte (faultCode e.kind), byte (phaseCode e.phase), byte (slotCodeOpt (e.voided.map (·.1)))] ++
      bytes32 ((e.voided.map (·.2)).getD 0)
  | .cleared n => [byte n]
  | .tareDone t k => be32 t ++ [byte (slotCodeOpt k)]
  | .tareAbandoned k => [byte (slotCodeOpt k)]
  | .calDone t n => [byte (tableCode t)] ++ be32 n
  | .streamHigh n g => be16 n ++ [byte (if g then 1 else 0)]

/-- An entry of 15 bytes: the kind, its fields, then zeros (10.3). -/
def eventEntry (e : Event) : List Byte :=
  byte (eventNumber e) :: (eventFields e ++ List.replicate (14 - (eventFields e).length) 0)

end Sys2Proof.Machine
end

