-- ==== Sys2Proof/Machine/Ports.lean ====
section
/-! DEFINITION. The port unit's shared operations (chapter 9): event queues and attention lines (R200 to R204), and
how a port takes a frame, answers it, or answers BUSY (R196, R197). -/

namespace Sys2Proof.Machine

/-- The three ports in the order their queues are filled. -/
def allPorts : List Port := [.supervisor, .cell, .pendant]

/-- The state of one port. -/
def Ptu.port (u : Ptu) : Port → PortState
  | .supervisor => u.supervisor
  | .cell => u.cell
  | .pendant => u.pendant

/-- The port unit with the state of one port replaced. -/
def Ptu.setPort (u : Ptu) (p : Port) (x : PortState) : Ptu :=
  match p with
  | .supervisor => { u with supervisor := x }
  | .cell => { u with cell := x }
  | .pendant => { u with pendant := x }

/-- The state of one port of the part. -/
def State.port (s : State) (p : Port) : PortState := s.ptu.port p

/-- The part with the state of one port replaced. -/
def State.setPort (s : State) (p : Port) (x : PortState) : State := { s with ptu := s.ptu.setPort p x }

/-- An event reaches a queue: appended below 16 entries, else discarded with the overflow mark set (R200); the
attention line is asserted by an entry (R204). -/
def pushEvent (e : Event) (x : PortState) : PortState :=
  if x.queue.length < Config.queueEntries then { x with queue := x.queue ++ [e], atn := true }
  else { x with overflow := true }

/-- Whether an event raised with a named port is delivered to a port (R201). -/
def delivers (named : Option Port) (e : Event) (p : Port) (x : PortState) : Bool :=
  named == some p || (!namedOnly e && x.mask.getLsbD (eventClass e))

/-- The delivery of one event to one port. -/
def deliverTo (named : Option Port) (e : Event) (s : State) (p : Port) : State :=
  if delivers named e p (s.port p) then s.setPort p (pushEvent e (s.port p)) else s

/-- An event is raised: it goes to its named port, where there is one, and to each other port whose mask holds its
class (R201). -/
def raiseEvent (named : Option Port) (e : Event) (s : State) : State :=
  allPorts.foldl (deliverTo named e) s

/-- The port behind a requester. -/
def requesterPort : Requester → Option Port
  | .port p => some p
  | .internal => none

/-! ### Requests (R196, R197) -/

/-- The requests of R199's table. -/
inductive Request where
  | load | promote | free | clearCondition | readRecords | move | zeroPosition | reset
  | next | bind | release
  | jog | jogStop | hold
  | start
  | abort | resume | leave | tare | clear | amend
  | calOpen | calData | calCommit | calClose
  | readContext | getResults | status | getEvent | setEvents | calRead
  deriving DecidableEq, Repr

/-- The requests in the order that numbers their codes (10.1). -/
def allRequests : List Request :=
  [.load, .promote, .free, .clearCondition, .readRecords, .move, .zeroPosition, .reset, .next, .bind, .release,
   .jog, .jogStop, .hold, .start, .abort, .resume, .leave, .tare, .clear, .amend, .calOpen, .calData, .calCommit,
   .calClose, .readContext, .getResults, .status, .getEvent, .setEvents, .calRead]

/-- The message code of a request (10.1). -/
def requestCode : Request → Byte
  | .load => 0x01 | .promote => 0x02 | .free => 0x03 | .clearCondition => 0x04 | .readRecords => 0x05
  | .move => 0x06 | .zeroPosition => 0x07 | .reset => 0x08 | .next => 0x09 | .bind => 0x0A | .release => 0x0B
  | .jog => 0x0C | .jogStop => 0x0D | .hold => 0x0E | .start => 0x0F | .abort => 0x10 | .resume => 0x11
  | .leave => 0x12 | .tare => 0x13 | .clear => 0x14 | .amend => 0x15 | .calOpen => 0x16 | .calData => 0x17
  | .calCommit => 0x18 | .calClose => 0x19 | .readContext => 0x1A | .getResults => 0x1B | .status => 0x1C
  | .getEvent => 0x1D | .setEvents => 0x1E | .calRead => 0x1F

/-- The request a message code names, where the part recognises it. -/
def requestOfCode (c : Byte) : Option Request := allRequests.find? (fun r => requestCode r == c)

/-- Whether a port may send a request (R199). -/
def permitted : Request → Port → Bool
  | .load, p | .promote, p | .free, p | .clearCondition, p | .readRecords, p | .move, p | .zeroPosition, p
  | .reset, p => p == .supervisor
  | .next, p | .bind, p | .release, p => p == .cell
  | .jog, p | .jogStop, p | .hold, p => p == .pendant
  | .start, _ => true
  | .abort, p | .resume, p | .leave, p | .tare, p | .clear, p | .amend, p => p != .cell
  | .calOpen, p | .calData, p | .calCommit, p | .calClose, p => p != .cell
  | .readContext, _ | .getResults, _ | .status, _ | .getEvent, _ | .setEvents, _ | .calRead, _ => true

/-- A reply of a status alone. -/
def Reply.only (st : Status) : Reply := { status := st, results := [] }

/-- A NOT_READY reply naming its item (R209). -/
def Reply.notReady (i : Item) : Reply := { status := .notReady, results := [byte (itemCode i)] }

/-- The body of a reply: the status code, then the results (10.1). -/
def Reply.body (r : Reply) : List Byte := byte (statusCode r.status) :: r.results

/-- A port begins to serve a request (R197). -/
def beginServing (p : Port) (tag code : Byte) (reply : Option Reply) (s : State) : State :=
  s.setPort p { s.port p with serving := some { tag := tag, code := code, reply := reply } }

/-- A frame that completes while its port is SERVING: a BUSY reply is composed for it, or it is discarded when one
already waits (R197). -/
def answerBusy (p : Port) (tag code : Byte) (s : State) : State :=
  match (s.port p).busy with
  | some _ => s
  | none => s.setPort p { s.port p with busy := some { tag := tag, code := code } }

/-- The receiver returns to HUNTING (R194). -/
def huntAgain (p : Port) (s : State) : State := s.setPort p { s.port p with rx := [] }

/-- Whether bytes on a port's link are seen at all: the part is supplied, and the cell port is not sending (R195). -/
def hears (p : Port) (s : State) : Bool := s.power && !(p == .cell && s.ptu.cellDe)

/-- The reply that a port has ready to be sent, with its tag and code: that of the request it serves, or the BUSY reply
whose turn it is (R197), alone while a RESET waits (R207). -/
def readyReply (x : PortState) : Option (Byte × Byte × List Byte) :=
  match x.serving with
  | none => none
  | some v =>
    match (if x.busyTurn then none else v.reply), x.busy with
    | some r, _ => some (v.tag, v.code, r.body)
    | none, some b => some (b.tag, b.code, (Reply.only .busy).body)
    | none, none => none

/-- The bytes of a frame with a body: sync byte, length, tag, code, body and CRC (10.1). -/
def frameLength (body : List Byte) : Nat := body.length + 6

/-- A number of bytes is clocked on a port's link.  On the supervisor's each byte clocked in clocks one out (R195), which
moves the transmit position of the reply in transmission; the other links send by themselves. -/
def clockLink (p : Port) (n : Nat) (s : State) : State :=
  match hears p s && p == .supervisor, readyReply s.ptu.supervisor with
  | true, some (_, _, body) => { s with ptu := { s.ptu with misoSent := min (frameLength body) (s.ptu.misoSent + n) } }
  | _, _ => s

/-- The bytes of a frame that its receiver has not collected yet are clocked on the link (log entry 49). -/
def clockFrame (p : Port) (body : List Byte) (s : State) : State :=
  clockLink p (frameLength body - (s.port p).rx.length) s

/-- A frame completes on a port (R194, R196, R197).  `serve` is what the part does with it when the port is FREE. -/
def takeFrame (p : Port) (tag code : Byte) (serve : State → State) (s : State) : State :=
  if hears p s then
    let s := huntAgain p s
    match (s.port p).serving with
    | some _ => answerBusy p tag code s
    | none => serve s
  else s

/-- A recognised request is taken on a FREE port: the permission is checked (R199), then the request's own function
gives the reply and the state (R196). -/
def serveRequest (r : Request) (p : Port) (tag : Byte) (h : State → Reply × State) (s : State) : State :=
  if permitted r p then
    let (reply, s) := h s
    beginServing p tag (requestCode r) (some reply) s
  else beginServing p tag (requestCode r) (some (Reply.only .notPermitted)) s

/-- A request frame completes on a port. -/
def request (r : Request) (p : Port) (tag : Byte) (body : List Byte) (h : State → Reply × State) (s : State) : State :=
  takeFrame p tag (requestCode r) (serveRequest r p tag h) (clockFrame p body s)

end Sys2Proof.Machine
end

