-- ==== Sys2Proof/Machine/Stream.lean ====
section
/-! DEFINITION. The record stream (chapter 8): admission, drops and the gap (R188 to R191), and reading (R192). -/

namespace Sys2Proof.Machine

/-- The words the records of a stream hold (8.1). -/
def occupancy (records : List (List Word16)) : Nat := (records.map List.length).sum

/-- The free space of the stream (8.1). -/
def freeWords (r : Rst) : Nat := Config.streamWords - occupancy r.records

/-- What is offered to the stream: one record, or the pair of a yield, which is one offer (R185). -/
structure Offer where
  sample : Bool
  records : List (List Word16)
  index : BitVec 32
  deriving DecidableEq, Repr

/-- An offer of one record. -/
def Offer.one (sample : Bool) (words : List Word16) (index : BitVec 32) : Offer :=
  { sample := sample, records := [words], index := index }

/-- Whether an offer is admitted (R188). -/
def admits (o : Offer) (r : Rst) : Bool :=
  let need := occupancy o.records + (if o.sample then Config.streamReserve else 0)
  decide (occupancy r.records + need ≤ Config.streamWords) && !(o.sample && r.gap.isSome)

/-- An admission, with the STREAM_HIGH of the first rise past 1,536 words (R191). -/
def admitRecords (words : List (List Word16)) (s : State) : State :=
  let records := s.rst.records ++ words
  let occ := occupancy records
  if Config.streamHigh < occ ∧ s.rst.armed = true then
    raiseEvent none (.streamHigh occ s.rst.gap.isSome) { s with rst := { s.rst with records := records, armed := false } }
  else { s with rst := { s.rst with records := records } }

/-- The gap after a drop of `n` records (R189). -/
def gapAfterDrop (index : BitVec 32) (n : Nat) : Option Gap → Gap
  | none => { first := index, last := index, tally := min Config.maxU16 n }
  | some g => { g with last := index, tally := min Config.maxU16 (g.tally + n) }

/-- An offer decided: the part after it, and whether it was admitted. -/
def offerRaw (o : Offer) (s : State) : State × Bool :=
  if admits o s.rst then (admitRecords o.records s, true)
  else
    ({ s with rst := { s.rst with gap := some (gapAfterDrop o.index o.records.length s.rst.gap) } }, false)

/-- The records taken from the head within a maximum of words, and those left (R192). -/
def takeRecords : Nat → List (List Word16) → List (List Word16) × List (List Word16)
  | _, [] => ([], [])
  | room, r :: rest =>
    if r.length ≤ room then
      let (t, l) := takeRecords (room - r.length) rest
      (r :: t, l)
    else ([], r :: rest)

/-- What follows a removal: the arm is armed again at 1,536 words or less (R191), and an open gap is closed when 512
words are free, its GAP record being an admission (R190). -/
def afterRead (s : State) : State :=
  let s := if occupancy s.rst.records ≤ Config.streamHigh then { s with rst := { s.rst with armed := true } } else s
  match s.rst.gap with
  | none => s
  | some g =>
    if Config.gapCloseFree ≤ freeWords s.rst then
      let s := admitRecords [gapRecord g] s
      { s with rst := { s.rst with gap := none } }
    else s

end Sys2Proof.Machine
end

