-- ==== Sys2Proof/Machine/Ops.lean ====
section
/-! DEFINITION. The context store's shared operations (chapter 1) and those of the frame line unit (chapter 7): slots,
condition marks, changeover causes, phases, completions, faults, starts, resumes and resets. -/

namespace Sys2Proof.Machine

/-! ### Slots and readings -/

/-- A slot of the context store. -/
def State.slot (s : State) (k : SlotId) : Slot := s.ctx.slots[k.val]

/-- The part with a slot replaced. -/
def State.setSlot (s : State) (k : SlotId) (x : Slot) : State :=
  { s with ctx := { s.ctx with slots := s.ctx.slots.set k.val x } }

/-- The FRAME table the readers have taken up; blank while FRAME is not programmed (R176, R177). -/
def State.frame (s : State) : Frame := s.inForce.frame.getD Frame.blank

/-- Whether a function's line reads active: false where no line carries it (R158). -/
def lineActive (s : State) (fn : LineFn) : Bool :=
  ((s.frame.map.zip s.flu.lines).any fun (c, l) => c.fn == fn && l.filtered)

/-- Whether any fault-class line reads active (R16, R170). -/
def faultLineActive (s : State) : Bool :=
  lineActive s .estop || lineActive s .limitUp || lineActive s .limitLo || lineActive s .driveFault

/-- Whether both grip lines read closed. -/
def gripsClosed (s : State) : Bool := lineActive s .gripUp && lineActive s .gripLo

/-- Whether a calibration write window is open or writing (R99). -/
def calWindowOpen (s : State) : Bool := s.cst.window != .closed

/-- Whether FRAME and the three load tables are all programmed (R16). -/
def tablesProgrammed (t : Tables) : Bool :=
  t.frame.isSome && t.loadR1.isSome && t.loadR2.isSome && t.loadR3.isSome

/-- The runtime part of a slot as it stands: live for the RESIDENT one, else the slot's copy (R5). -/
def State.runtimeOf (s : State) (k : SlotId) : Option Runtime :=
  if (s.slot k).state = .resident then s.live.map (·.rt) else (s.slot k).runtime

/-- The index of a test's last counted sample (R2); a field without a stated value while none is counted (log
entry 2). -/
def lastIndex (s : State) (k : SlotId) (place : Nat) : BitVec 32 :=
  match s.runtimeOf k with
  | some rt => if rt.count = 0 then Config.unstated s.smu.clock place else BitVec.ofNat 32 (rt.count - 1)
  | none => Config.unstated s.smu.clock place

/-- The index the next counted sample of a test carries (R2); an unsigned 32-bit value, it saturates (R1). -/
def nextIndex (rt : Runtime) : Nat := min Config.maxU32 rt.count

/-- The slot of the resident test. -/
def State.residentSlot (s : State) : Option SlotId :=
  match s.ctx.resident with
  | some (.test k) => some k
  | _ => none

/-! ### Causes (R19, R20) -/

/-- A cause becomes the pending changeover and its quiesce begins or continues: CHANGEOVER_BEGUN goes to the
requesting port and the subscribed ones (R20). -/
def beginChangeover (c : Changeover) (s : State) : State :=
  raiseEvent (requesterPort c.requester) (.changeoverBegun c.cause c.requester c.outgoing c.incoming)
    { s with ctx := { s.ctx with changeover := some c } }

/-- The port of a replaced or cleared changeover gets SUPERSEDED (R19, R23). -/
def supersede (old : Changeover) (s : State) : State :=
  match old.requester with
  | .port p => raiseEvent (some p) (.superseded old.cause) s
  | .internal => s

/-- Whether R19 accepts a cause against what is pending. -/
def causeAccepted (cause : Cause) (s : State) : Bool :=
  match s.ctx.changeover with
  | none => true
  | some old => decide (causeRank old.cause < causeRank cause)

/-- A cause is raised (R19): it becomes pending, replaces a cause of lower rank, or is discarded.  The service rate
stands until the completion (log entry 36); SUPERSEDED is queued ahead of CHANGEOVER_BEGUN (log entry 44). -/
def raiseCause (cause : Cause) (r : Requester) (incoming : Option Context) (e : Option EndCause) (s : State) : State :=
  match s.ctx.resident with
  | none => s
  | some out =>
    match s.ctx.changeover with
    | none =>
      beginChangeover
        { cause := cause, requester := r, outgoing := out, incoming := incoming, elapsed := 0, endCause := e }
        { s with msq := { s.msq with stillCount := 0 } }
    | some old =>
      if causeRank old.cause < causeRank cause then
        beginChangeover
          { cause := cause, requester := r, outgoing := out, incoming := incoming, elapsed := old.elapsed, endCause := e }
          (supersede old s)
      else s

/-! ### Condition marks (R31, R32) and records offered for a test (R189) -/

/-- A new mark joins a slot's condition set, and its CONDITION event is queued (R31). -/
def addMark (k : SlotId) (m : Mark) (s : State) : State :=
  raiseEvent none (.condition k m) (s.setSlot k { s.slot k with marks := (s.slot k).marks ++ [m] })

/-- The cause a new mark of a RESIDENT test raises (R31): none for a terminate-class mark set after FRACTURE, none
for the informational and the fault class. -/
def raiseMarkCause (k : SlotId) (m : Mark) (s : State) : State :=
  if stopEnabled (s.slot k).order m then
    match markClass m with
    | .terminate =>
      if Mark.fracture ∈ (s.slot k).marks then s else raiseCause .terminate .internal none (some (.mark m)) s
    | .operator => raiseCause .operator .internal (some .service) none s
    | .fault | .informational => s
  else s

/-- A drop reports GAP for the test of the dropped record (R189).  The EVENT record R31 offers for it carries the
attributed index of the dropped record, 0 for a MARK(start) (R187, log entry 47), and may itself be dropped and counted,
and then finds the mark already set.  `raises` is false while a FAULT is being completed, which outranks the cause. -/
def reportGap (raises : Bool) (k : SlotId) (index : BitVec 32) (s : State) : State :=
  if Mark.gap ∈ (s.slot k).marks then s
  else
    let s := addMark k .gap s
    if (s.slot k).state = .resident then
      let s := (offerRaw (Offer.one false (eventRecord .markSet index k (markNumber .gap) 0) index) s).1
      if raises then raiseMarkCause k .gap s else s
    else s

/-- A record of a test is offered to the stream (R188, R189). -/
def offer (raises : Bool) (o : Offer) (k : SlotId) (s : State) : State :=
  let (s, ok) := offerRaw o s
  if ok then s else reportGap raises k o.index s

/-- An EVENT record is offered (R184). -/
def offerEvent (e : RecordEvent) (index : BitVec 32) (k : SlotId) (sub : Nat) (value : Int) (s : State) : State :=
  offer true (Offer.one false (eventRecord e index k sub value) index) k s

/-- A mark reaches a slot (R31, R32).  Its EVENT record is offered ahead of its cause, so the TERMINATE of a GAP that the
drop of that record sets comes first (log entry 51). -/
def setMark (k : SlotId) (m : Mark) (value : Int) (index : BitVec 32) (s : State) : State :=
  if m ∈ (s.slot k).marks then s
  else
    let s := addMark k m s
    if (s.slot k).state = .resident then
      raiseMarkCause k m (offerEvent .markSet index k (markNumber m) value s)
    else s

/-! ### Phase and tares -/

/-- A port tare is abandoned (R90). -/
def abandonPortTare (s : State) : State :=
  match s.lch.tareRun with
  | some { kind := .port p, .. } =>
    raiseEvent (some p) (.tareAbandoned none) { s with lch := { s.lch with tareRun := none } }
  | _ => s

/-- A start tare is abandoned, with its event and its EVENT record (R91, R184). -/
def abandonStartTare (raises : Bool) (k : SlotId) (s : State) : State :=
  match s.lch.tareRun with
  | some { kind := .start, .. } =>
    let index := lastIndex s k 1
    let s := raiseEvent none (.tareAbandoned (some k)) { s with lch := { s.lch with tareRun := none } }
    offer raises (Offer.one false (eventRecord .tare index k 2 s.lch.tare) index) k s
  | _ => s

/-- The phase is set: DRV_EN follows it (R173), and a port tare is abandoned in TEST and SAFE (R90), its TARE_ABANDONED
queued ahead of PHASE (log entry 52). -/
def setPhase (p : Phase) (s : State) : State :=
  let s := { s with
    ctx := { s.ctx with phase := p }
    flu := { s.flu with drvEn := p == .test || p == .service } }
  if p = .test ∨ p = .safe then abandonPortTare s else s

/-- The PHASE event of a phase change (R13). -/
def announcePhase (s : State) : State :=
  raiseEvent none (.phase s.ctx.phase (if s.ctx.phase = .test then s.residentSlot else none)) s

/-! ### The motion sequencer at a change of resident context (R37, R73, R74) -/

/-- The control state of a residency that begins with a bank: the setpoint is still to be seated, the demand is 0
and the tracker ring is empty (R37, R74). -/
def seatMsq (b : Option Bank) (m : Msq) : Msq :=
  { m with active := b, inactive := none, qSet := none, remainder := 0, prevDemand := 0, ceilingRun := 0, ring := [],
           dac := 0, seat := true, target := none, speed := 0 }

/-- The control state while no context runs: both banks empty and the demand 0 (R37, R73). -/
def restMsq (m : Msq) : Msq := { seatMsq none m with seat := false }

/-- The service segment (R53). -/
def serviceBank (f : Frame) : Bank := { seg := 0, mode := .position, rate := 0, vmax := f.jogMax, kp := 2560 }

/-- The bank of a segment of a test, where the list holds it (R36, R37). -/
def bankOf (o : TestOrder) (n : Nat) : Option Bank :=
  if n = 0 then none
  else (o.segments[n - 1]?).map fun g => { seg := n, mode := g.mode, rate := g.rate, vmax := g.vmax, kp := g.kp }

/-! ### Completion (R22) -/

/-- The runtime part as the blocks hold it, with the control state of the motion sequencer (R52). -/
def liveRuntime (m : Msq) (rt : Runtime) : Runtime :=
  { rt with active := m.active, qSet := m.qSet, remainder := m.remainder, prevDemand := m.prevDemand }

/-- The SAMPLE candidate of the last sample of a residency is offered, when it has not been (R183). -/
def offerLast (raises : Bool) (k : SlotId) (s : State) : State :=
  match s.live with
  | some l =>
    match l.cand with
    | some c =>
      offer raises (Offer.one true c.words (BitVec.ofNat 32 c.index)) k
        { s with live := some { l with cand := none } }
    | none => s
  | none => s

/-- A MARK record is offered (R186, R187). -/
def offerMark (m : MarkKind) (k : SlotId) (index : BitVec 32) (s : State) : State :=
  offer true (Offer.one false (markRecord m k (s.slot k).outcome index) index) k s

/-- MARK(end) and the RESULT record of an ended test (R186). -/
def offerEnd (k : SlotId) (s : State) : State :=
  let index := lastIndex s k 2
  let ev := match (s.slot k).runtime with
    | some rt => rt.eval
    | none => Eval.start
  let s := offerMark .ended k index s
  offer true (Offer.one false (resultRecord k (s.slot k).outcome ev.results ev.yState) index) k s

/-- The runtime part of a test that stops being resident: a park closes an open window and keeps the last
extensometer strain (R124, R153), an end makes the closing steps (R155). -/
def leavingRuntime (o : TestOrder) (m : Msq) (l : Live) (outcome : Option TestOutcome) : Runtime :=
  let rt := liveRuntime m l.rt
  match outcome with
  | none =>
    { rt with
      eval := parkEval o rt.eval
      lastExt := if rt.source = .ext then l.latest.map (·.strain) else rt.lastExt }
  | some _ => { rt with eval := closingSteps o rt.eval }

/-- The slot state of an outcome: PARKED without one, DONE or VOID with one (R22). -/
def leavingState : Option TestOutcome → SlotState
  | none => .parked
  | some o => if o.void then .void else .done

/-- Steps 1 to 3 of R22 for an outgoing test: the runtime part is written back, the lock is cleared, the state is set
and the records are offered. -/
def leaveTest (k : SlotId) (outcome : Option TestOutcome) (s : State) : State :=
  match s.live with
  | none => s
  | some l =>
    let x := s.slot k
    let s := { s with live := none, lch := { s.lch with lock := false } }
    let s := s.setSlot k
      { x with
        state := leavingState outcome
        runtime := some (leavingRuntime x.order s.msq l outcome)
        outcome := outcome }
    match outcome with
    | none => offerMark .park k (lastIndex s k 3) s
    | some _ => offerEnd k s

/-- A start tare begins, where the test asks for one that has not completed (R18, R91). -/
def beginStartTare (o : TestOrder) (rt : Runtime) (s : State) : State :=
  if o.tareAtStart && !rt.tareDone then
    { s with lch := { s.lch with tareRun := some { kind := .start, sum := 0, count := 0 } } }
  else s

/-- The runtime part as it is handed back at a resume: the settled report of the evaluation unit is made again (R146,
R152). -/
def resumedRuntime (o : TestOrder) (rt : Runtime) : Runtime :=
  { rt with eval := { rt.eval with settled := settledOf o rt.eval } }

/-- The marks that stay at a resume (R29). -/
def resumedMarks (marks : List Mark) : List Mark := marks.filter fun m => !(m == .step || m == .holdpt || m == .rmfail)

/-- The runtime part is handed back to the blocks, the lock is set, and the slot is the resident context (R22, R29).
The latest force, stress and strain are those of this residency (log entry 46). -/
def handBack (k : SlotId) (rt : Runtime) (s : State) : State :=
  let s := s.setSlot k { s.slot k with state := .resident, marks := resumedMarks (s.slot k).marks }
  { s with
    live := some { rt := rt, resumed := true, cand := none, latest := none }
    msq := seatMsq rt.active s.msq
    lch := { s.lch with lock := true }
    ctx := { s.ctx with resident := some (.test k), holder := none } }

/-- A parked test becomes RESIDENT again (R29): steps 4 and 5 of R22, with the phase TEST. -/
def enterResumed (k : SlotId) (s : State) : State :=
  match (s.slot k).runtime with
  | none => s
  | some rt0 =>
    let o := (s.slot k).order
    let rt := resumedRuntime o rt0
    beginStartTare o rt (setPhase .test (handBack k rt s))

/-- The service context becomes resident with a holder (R14, R53). -/
def enterService (holder : Option Port) (s : State) : State :=
  setPhase .service { s with
    msq := seatMsq (some (serviceBank s.frame)) s.msq
    ctx := { s.ctx with resident := some .service, holder := holder } }

/-- No context is resident (R22). -/
def enterIdle (s : State) : State :=
  setPhase .idle { s with
    msq := restMsq s.msq
    ctx := { s.ctx with resident := none, holder := none } }

/-- MARK(resume) of a parked test, with the index its first resumed sample will carry (R187). -/
def offerResume (k : SlotId) (s : State) : State :=
  offerMark .resume k
    (match (s.slot k).runtime with
     | some rt => BitVec.ofNat 32 (nextIndex rt)
     | none => Config.unstated s.smu.clock 4) s

/-- The outcome a changeover records (R22). -/
def outcomeOf (c : Changeover) : Option TestOutcome :=
  match c.cause, c.endCause with
  | .endTest, some e => some { void := false, cause := e }
  | .terminate, some e => some { void := true, cause := e }
  | _, _ => none

/-- The holder of a service context that a changeover makes resident (R14). -/
def holderAfter (c : Changeover) : Option Port := requesterPort c.requester

/-- Steps 3 to 5 of R22 for the incoming context. -/
def enterIncoming (c : Changeover) (s : State) : State :=
  match c.incoming with
  | some (.test k) => enterResumed k (offerResume k s)
  | some .service => enterService (holderAfter c) s
  | some .safe => s
  | none => enterIdle s

/-- TEST_END of a test that has ended (R22). -/
def announceEnd (out : Context) (o : Option TestOutcome) (s : State) : State :=
  match out, o with
  | .test k, some o => raiseEvent none (.testEnd k o) s
  | _, _ => s

/-- The six steps of R22. -/
def completeChangeover (c : Changeover) (s : State) : State :=
  let o := outcomeOf c
  let s := match c.outgoing with
    | .test k => leaveTest k o s
    | _ => s
  let s := enterIncoming c s
  announceEnd c.outgoing o (announcePhase { s with ctx := { s.ctx with changeover := none } })

/-- A quiesce completes (R21, R22): what the residency still owes the stream is offered while the test is RESIDENT
(R183, R184), and the cause pending after that completes. -/
def completePending (s : State) : State :=
  let s := match s.residentSlot with
    | some k => abandonStartTare true k (offerLast true k s)
    | none => s
  match s.ctx.changeover with
  | some c => completeChangeover c s
  | none => s

/-! ### Faults (R23, R167) -/

/-- The test or service context that a FAULT finds resident goes (R23). -/
def faultLeaves (m : Mark) (s : State) : State :=
  match s.residentSlot with
  | some k =>
    leaveTest k (some { void := true, cause := .mark m }) (abandonStartTare false k (offerLast false k s))
  | none => s

/-- A pending changeover is cleared by a FAULT (R23). -/
def faultClears (s : State) : State :=
  match s.ctx.changeover with
  | some c => supersede c { s with ctx := { s.ctx with changeover := none } }
  | none => s

/-- A FAULT completes at the sample at which it is taken (R23). -/
def takeFault (m : Mark) (s : State) : State :=
  let was := s.residentSlot
  let s := faultClears (faultLeaves m s)
  let s := setPhase .safe { s with
    msq := restMsq s.msq
    ctx := { s.ctx with resident := some .safe, holder := none } }
  let s := announcePhase s
  match was with
  | some k => raiseEvent none (.testEnd k { void := true, cause := .mark m }) s
  | none => s

/-- The entry a fault report makes (R166). -/
def faultEntry (kind : FaultKind) (s : State) : FaultEntry :=
  { kind := kind, phase := s.ctx.phase, voided := s.residentSlot.map fun k => (k, lastIndex s k 5) }

/-- An entry joins the fault set: ALARM is on (R174) and FAULT is queued (R167). -/
def enterFault (e : FaultEntry) (s : State) : State :=
  raiseEvent none (.fault e) { s with flu := { s.flu with faults := s.flu.faults ++ [e], alarm := true } }

/-- A fault report of a kind (R167). -/
def faultReport (kind : FaultKind) (s : State) : State :=
  if s.flu.faults.any (fun e => e.kind == kind) then s
  else if s.ctx.phase = .safe then
    enterFault { kind := kind, phase := .safe, voided := none } s
  else
    let e := faultEntry kind s
    let s := enterFault e s
    let s := match e.voided with
      | some (k, index) => setMark k (faultMark kind) 0 index s
      | none => s
    takeFault (faultMark kind) s

/-! ### Reports of a sample set -/

/-- A report is taken by the context store: a mark by R31 and R32, a fracture by steps 4 and 5 of R151, a fault by
R167. -/
def takeReport (s : State) : Report → State
  | .mark k m value index => setMark k m value index s
  | .fracture k n c force fm =>
    let s := setMark k .fracture force (BitVec.ofNat 32 n) s
    let s :=
      if s.ctx.resident = some (.test k) then raiseCause .endTest .internal none (some (.mark .fracture)) s else s
    raiseEvent none (.fracture k n c force fm) s
  | .fault kind => faultReport kind s

/-- A report is made: it is taken at once, or kept back as the order of the set says. -/
def post (keep : Bool) (r : Report) (s : State) : State :=
  if keep then { s with ctx := { s.ctx with transit := s.ctx.transit ++ [r] } } else takeReport s r

/-- Whether a report is a fracture. -/
def Report.isFracture : Report → Bool
  | .fracture .. => true
  | _ => false

/-- The reports kept back that satisfy a test are taken, in the order in which they were made. -/
def drain (which : Report → Bool) (s : State) : State :=
  (s.ctx.transit.filter which).foldl takeReport
    { s with ctx := { s.ctx with transit := s.ctx.transit.filter (fun r => !which r) } }

/-! ### Start-ready (R16) and start (R18) -/

/-- Whether an item of R16 holds for a slot. -/
def itemHolds (k : SlotId) (s : State) : Item → Bool
  | .phase => s.ctx.phase == .idle
  | .changeover => s.ctx.changeover.isNone
  | .calWindow => !calWindowOpen s
  | .guard => lineActive s .guard
  | .grips => gripsClosed s
  | .faultLine => !faultLineActive s
  | .tables => tablesProgrammed s.cst.work
  | .extensometer => !(s.slot k).order.usesExt || (s.xch.state == .attached && !s.xch.slipped)
  | .stream => decide (3 ≤ s.smu.delivered)
  | .hardLoad => !s.lch.hard

/-- The eight start-ready items, in order (R16). -/
def startItems : List Item := [.phase, .changeover, .calWindow, .guard, .grips, .faultLine, .tables, .extensometer]

/-- The first unmet item of a list. -/
def firstUnmet (k : SlotId) (items : List Item) (s : State) : Option Item :=
  items.find? (fun i => !itemHolds k s i)

/-- The hard window of the frame table in force, where it is programmed (R4). -/
def hardWindow (t : Tables) : Option (Int × Int) := t.frame.map fun f => (f.hardLo, f.hardHi)

/-- A travel window clamped into the hard window (R4). -/
def clampWindow (t : Tables) (o : TestOrder) : TestOrder :=
  match hardWindow t with
  | some (lo, hi) => { o with winLo := clamp lo hi o.winLo, winHi := clamp lo hi o.winHi }
  | none => o

/-- The greatest POSITION rate: Vfs in counts per second (R35). -/
def maxCountRate (vfs : Int) : Int := vfs / 100

/-- A `v_max` held within 0 to Vfs: above Vfs by R35, below 0 by the range of 2.1 (log entry 11). -/
def limitSpeed (vfs v : Int) : Int := clamp 0 vfs v

/-- The two limits of R35 on a segment. -/
def clampSegment (vfs : Int) (g : Segment) : Segment :=
  { g with
    vmax := limitSpeed vfs g.vmax
    rate := if g.mode = .position then clamp (-(maxCountRate vfs)) (maxCountRate vfs) g.rate else g.rate }

/-- The limits of R35 on a program, where the frame table is programmed. -/
def clampProgram (t : Tables) (o : TestOrder) : TestOrder :=
  match t.frame with
  | some f => { o with segments := o.segments.map (clampSegment f.vfs) }
  | none => o

/-- The initial runtime part of a test (R18). -/
def startRuntime (o : TestOrder) : Runtime :=
  { segIndex := 1, elapsed := 0, count := 0, active := bankOf o 1, qSet := none, remainder := 0, prevDemand := 0,
    kS := o.kS0, kE := o.kE0, holdPassed := false, tareDone := false,
    source := if o.usesExt then .ext else .xhd, offset := if o.usesExt then none else some 0, posRef := none,
    lastExt := none, eval := Eval.start }

/-- A start whose clamped bounds are equal sets TRAVEL (R4). -/
def markSinglePoint (k : SlotId) (s : State) : State :=
  if s.inForce.frame.isSome ∧ (s.slot k).order.winLo = (s.slot k).order.winHi then
    setMark k .travel s.smu.xh (lastIndex s k 6) s
  else s

/-- The order of a slot with the bounds in force at a start (R4, R35). -/
def startOrder (k : SlotId) (s : State) : TestOrder := clampProgram s.inForce (clampWindow s.inForce (s.slot k).order)

/-- The bound slot becomes the resident test with its initial runtime part, and the lock is set (R18). -/
def beginTest (k : SlotId) (o : TestOrder) (s : State) : State :=
  let rt := startRuntime o
  let s := s.setSlot k { s.slot k with state := .resident, order := o, runtime := some rt }
  { s with
    live := some { rt := rt, resumed := false, cand := none, latest := none }
    msq := seatMsq rt.active s.msq
    lch := { s.lch with lock := true }
    ctx := { s.ctx with resident := some (.test k) } }

/-- A start (R18). -/
def startTest (k : SlotId) (s : State) : State :=
  let o := startOrder k s
  let s := beginStartTare o (startRuntime o) (setPhase .test (beginTest k o s))
  announcePhase (markSinglePoint k (offerMark .start k 0 s))

/-- A BOUND slot that is start-ready starts with no request while the autostart of a frame table is set (R17). -/
def autostartWith (f : Frame) (s : State) : State :=
  match s.ctx.binding with
  | some k =>
    if f.autostart = true ∧ (s.slot k).state = .bound ∧ firstUnmet k startItems s = none then startTest k s else s
  | none => s

/-! ### Resets (R33, R58, R77, R80, R94, R98, R127, R180, R181, R206, R208) -/

/-- A slot at a reset: a RESIDENT or PARKED one becomes VOID with the RESET mark and its runtime part as it stood. -/
def resetSlot (m : Msq) (live : Option Live) (x : Slot) : Slot :=
  let voided (rt : Option Runtime) : Slot :=
    { x with
      state := .void
      runtime := rt
      marks := if Mark.reset ∈ x.marks then x.marks else x.marks ++ [.reset]
      outcome := some { void := true, cause := .mark .reset } }
  match x.state with
  | .resident => match live with
    | some l => voided (some (liveRuntime m l.rt))
    | none => voided x.runtime
  | .parked => voided x.runtime
  | _ => x

/-- The line filters restart (R162); the levels of the last instant stay to be reported. -/
def restartLine (l : Line) : Line := { l with filtered := false, run := 0 }

/-- The reset of every block by RESET_LINE or RESET_REQUEST. -/
def applyReset (cause : ResetCause) (s : State) : State :=
  { s with
    smu := { s.smu with assembling := none, missRun := 0, delivered := 0 }
    lch :=
      { s.lch with
        range := .r1
        settleNext := s.lch.settleNext || s.lch.range != .r1
        lock := false
        hard := false
        tareRun := none }
    cst := { s.cst with window := .closed, lock := false }
    inForce := s.cst.work
    xch := { Xch.initial with armsAt := s.cst.armsAt }
    live := none
    msq := Msq.initial
    ctx :=
      { s.ctx with
        slots := s.ctx.slots.map (resetSlot s.msq s.live)
        phase := .idle
        resident := none
        changeover := none
        holder := none
        transit := [] }
    flu := { lines := s.flu.lines.map restartLine, faults := [], drvEn := false, alarm := false }
    rst := Rst.initial
    ptu :=
      { supervisor := PortState.afterReset .supervisor cause
        cell := PortState.afterReset .cell cause
        pendant := PortState.afterReset .pendant cause
        cellDe := false
        misoSent := 0
        assembly := none
        lastCause := cause
        resetWait := none
        lineArmed := s.ptu.lineArmed } }

/-- Whether a calibration write is running (R103). -/
def calWriting (s : State) : Bool :=
  match s.cst.window with
  | .writing .. => true
  | _ => false

/-- A RESET_LINE or RESET_REQUEST arrives: it takes effect, or waits for the write that is running (R103). -/
def resetArrives (cause : ResetCause) (s : State) : State :=
  if calWriting s then { s with ptu := { s.ptu with resetWait := some cause } } else applyReset cause s

end Sys2Proof.Machine
end

