-- ==== Sys2Proof/Machine/Operands.lean ====
section
/-! DEFINITION. The bodies of requests read as fields (R209, R210, 10.2, 10.3).  A reader answers none where R196's
third check or R209 refuses the body MALFORMED, ahead of the request's own checks (log entry 54). -/

namespace Sys2Proof.Machine

/-- The slot a byte names: 0 to 7 (R209). -/
def slotOf (n : Nat) : Option SlotId := if h : n < 8 then some ⟨n, h⟩ else none

/-- A flag byte with no undefined bit set (R209). -/
def definedFlags (width n : Nat) : Option Nat := if n < 2 ^ width then some n else none

/-- A body of no bytes. -/
def readNone (body : List Byte) : Option Unit := if body.isEmpty then some () else none

/-- A body that is one slot. -/
def readSlot (body : List Byte) : Option SlotId := do
  let (n, r) ← rd8 body
  let k ← slotOf n
  rdEnd k r

/-- CLEAR_CONDITION: a slot and the number of a mark, which R30 checks. -/
def readSlotMark (body : List Byte) : Option (SlotId × Nat) := do
  let (n, r) ← rd8 body
  let k ← slotOf n
  let (m, r) ← rd8 r
  rdEnd (k, m) r

/-- READ_CONTEXT: a slot and the part, 1 or 2. -/
def readSlotPart (body : List Byte) : Option (SlotId × Nat) := do
  let (n, r) ← rd8 body
  let k ← slotOf n
  let (m, r) ← rd8 r
  if m = 1 ∨ m = 2 then rdEnd (k, m) r else none

/-- READ_RECORDS: the maximum of words. -/
def readMaximum (body : List Byte) : Option Nat := do
  let (n, r) ← rd16 body
  rdEnd n r

/-- MOVE: the target and the speed. -/
def readMove (body : List Byte) : Option (Int × Int) := do
  let (t, r) ← rdS32 body
  let (v, r) ← rdS32 r
  rdEnd (t, v) r

/-- JOG: the velocity. -/
def readJog (body : List Byte) : Option Int := do
  let (v, r) ← rdS32 body
  rdEnd v r

/-- AMEND: the new rate, and the new `v_max` where its presence bit is set. -/
def readAmend (body : List Byte) : Option (Int × Option Int) := do
  let (f, r) ← rd8 body
  let f ← definedFlags 1 f
  let (rate, r) ← rdS32 r
  let (v, r) ← rdS32 r
  rdEnd (rate, if f = 1 then some v else none) r

/-- SET_EVENTS: the mask; bits 15 to 12 are undefined. -/
def readMask (body : List Byte) : Option (BitVec 12) := do
  let (n, r) ← rd16 body
  let n ← definedFlags 12 n
  rdEnd (BitVec.ofNat 12 n) r

/-- CAL_OPEN: the number of a table, which R99 checks, and the revision. -/
def readCalOpen (body : List Byte) : Option (Nat × Nat) := do
  let (t, r) ← rd8 body
  let (n, r) ← rdU32 r
  rdEnd (t, n) r

/-- CAL_READ: the number of a table. -/
def readTable (body : List Byte) : Option Nat := do
  let (t, r) ← rd8 body
  rdEnd t r

/-! ### BIND -/

/-- The fields of a BIND. -/
structure BindBody where
  slot : SlotId
  specimenId : List Byte
  first : Int
  second : Int
  deriving DecidableEq, Repr

/-- BIND: a slot, an identifier and two dimensions. -/
def readBind (body : List Byte) : Option BindBody := do
  let (n, r) ← rd8 body
  let k ← slotOf n
  let (c, r) ← rd8 r
  let (name, r) ← rdN c r
  let (a, r) ← rdU32 r
  let (b, r) ← rdU32 r
  rdEnd { slot := k, specimenId := name, first := (a : Int), second := (b : Int) } r

/-! ### LOAD -/

/-- The shape two bits name (10.2). -/
def shapeOf : Nat → Option Shape
  | 0 => some .flat
  | 1 => some .round
  | 2 => some .area
  | _ => none

/-- Twenty-one values of four bytes. -/
def readWords : Nat → List Byte → Option (List Nat × List Byte)
  | 0, l => some ([], l)
  | n + 1, l => do
    let (v, r) ← rdU32 l
    let (vs, r) ← readWords n r
    pure (v :: vs, r)

/-- The signed value at a place of a list of words. -/
def signedAt (l : List Nat) (k : Nat) : Int := toSigned32 (l.getD k 0)

/-- The unsigned value at a place of a list of words. -/
def unsignedAt (l : List Nat) (k : Nat) : Int := (l.getD k 0 : Nat)

/-- The order of a part 1 LOAD, from its identifier, its two flag bytes, its 84 bytes and its last 8. -/
def headerOrder (name : List Byte) (shape : Shape) (opts stops : Nat) (v : List Nat) (ri rt bl pf ps : Nat) :
    TestOrder :=
  { specimenId := name
    shape := shape
    usesExt := opts.testBit 2
    tareAtStart := opts.testBit 3
    laneDetail := opts.testBit 4
    demandDetail := opts.testBit 5
    tOverload := stops.testBit 0
    tSlip := stops.testBit 1
    tGap := stops.testBit 2
    tTrack := stops.testBit 3
    stepOn := stops.testBit 4
    holdptOn := stops.testBit 5
    l0 := signedAt v 0
    lc := signedAt v 1
    kS0 := unsignedAt v 2
    kE0 := unsignedAt v 3
    kSMin := unsignedAt v 4
    kSMax := unsignedAt v 5
    kEMin := unsignedAt v 6
    kEMax := unsignedAt v 7
    fLim := signedAt v 8
    winLo := signedAt v 9
    winHi := signedAt v 10
    holdptStrain := if stops.testBit 5 then some (signedAt v 11) else none
    sLo := signedAt v 12
    sHi := signedAt v 13
    eP := signedAt v 14
    dDrop := signedAt v 15
    ePlat := signedAt v 16
    fArm := signedAt v 17
    eRm := signedAt v 18
    jumpLim := signedAt v 19
    divLim := signedAt v 20
    recordInterval := ri
    rmTimeout := rt
    bendLim := (bl : Int)
    pFrac := (pf : Int)
    pSharp := (ps : Int)
    segments := [] }

/-- A part 1 LOAD behind its part byte. -/
def readHeader (body : List Byte) : Option Assembly := do
  let (n, r) ← rd8 body
  let k ← slotOf n
  let (c, r) ← rd8 r
  let (name, r) ← rdN c r
  let (opts, r) ← rd8 r
  let opts ← definedFlags 6 opts
  let shape ← shapeOf (opts % 4)
  let (stops, r) ← rd8 r
  let stops ← definedFlags 6 stops
  let (v, r) ← readWords 21 r
  let (ri, r) ← rd16 r
  let (rt, r) ← rd16 r
  let (bl, r) ← rd16 r
  let (pf, r) ← rd8 r
  let (ps, r) ← rd8 r
  rdEnd { slot := k, order := headerOrder name shape opts stops v ri rt bl pf ps } r

/-- The mode a number names (10.2). -/
def modeOf : Nat → Option Mode
  | 0 => some .position
  | 1 => some .stress
  | 2 => some .strain
  | _ => none

/-- The end kind a number names (10.2). -/
def endKindOf : Nat → Option EndKind
  | 0 => some .positionReach
  | 1 => some .qReach
  | 2 => some .strainReach
  | 3 => some .forceReach
  | 4 => some .yield
  | 5 => some .time
  | 6 => some .detached
  | 7 => some .never
  | _ => none

/-- An optional signed field of four bytes. -/
def readOptional (present : Bool) (l : List Byte) : Option (Option Int × List Byte) :=
  if present then (rdS32 l).map fun (v, r) => (some v, r) else some (none, l)

/-- A segment as its bytes spell it (10.2); `mode` and `endKind` are the numbers that R34 judges. -/
structure SegmentBody where
  mode : Nat
  endKind : Nat
  rate : Int
  vmax : Int
  kp : Int
  endValue : Option Int
  backup : Option Int
  deriving DecidableEq, Repr

/-- The segment of a body whose mode and end kind are among those of 10.2. -/
def segmentOf (g : SegmentBody) : Option Segment := do
  let mode ← modeOf g.mode
  let kind ← endKindOf g.endKind
  pure { mode := mode, rate := g.rate, vmax := g.vmax, kp := g.kp, endKind := kind, endValue := g.endValue,
         backup := g.backup }

/-- The bytes of a segment (10.2). -/
def readSegment (l : List Byte) : Option (SegmentBody × List Byte) := do
  let (k, r) ← rd8 l
  let (p, r) ← rd8 r
  let p ← definedFlags 2 p
  let (rate, r) ← rdS32 r
  let (vmax, r) ← rdS32 r
  let (kp, r) ← rd16 r
  let (ev, r) ← readOptional (p.testBit 0) r
  let (bs, r) ← readOptional (p.testBit 1) r
  pure ({ mode := k / 16, endKind := k % 16, rate := rate, vmax := vmax, kp := (kp : Int), endValue := ev,
          backup := bs }, r)

/-- A count of segments. -/
def readSegments : Nat → List Byte → Option (List SegmentBody × List Byte)
  | 0, l => some ([], l)
  | n + 1, l => do
    let (g, r) ← readSegment l
    let (gs, r) ← readSegments n r
    pure (g :: gs, r)

/-- A part 2 LOAD behind its part byte: the slot and the segments. -/
def readProgram (body : List Byte) : Option (SlotId × List SegmentBody) := do
  let (n, r) ← rd8 body
  let k ← slotOf n
  let (c, r) ← rd8 r
  let (gs, r) ← readSegments c r
  rdEnd (k, gs) r

/-! ### Calibration tables (10.3) -/

/-- The function a number names (10.3). -/
def lineFnOf : Nat → Option LineFn
  | 0 => some .estop
  | 1 => some .limitUp
  | 2 => some .limitLo
  | 3 => some .driveFault
  | 4 => some .guard
  | 5 => some .gripUp
  | 6 => some .gripLo
  | 7 => some .extSeated
  | 8 => some .unused
  | _ => none

/-- The number of a function (10.3). -/
def lineFnCode : LineFn → Nat
  | .estop => 0 | .limitUp => 1 | .limitLo => 2 | .driveFault => 3 | .guard => 4 | .gripUp => 5 | .gripLo => 6
  | .extSeated => 7 | .unused => 8

/-- An entry of the line map: bits 3 to 0 the function, bit 4 the polarity. -/
def readLineCfg (b : Byte) : Option LineCfg := do
  let n ← definedFlags 5 b.toNat
  let f ← lineFnOf (n % 16)
  pure { fn := f, activeLow := n.testBit 4 }

/-- The eight entries of the line map. -/
def readMap : List Byte → Option (List LineCfg)
  | [] => some []
  | b :: rest => do
    let c ← readLineCfg b
    let cs ← readMap rest
    pure (c :: cs)

/-- The content of FRAME. -/
def readFrame (l : List Byte) : Option Frame := do
  let (m, r) ← rdN 8 l
  let map ← readMap m
  let (v, r) ← readWords 7 r
  let (f, r) ← rd8 r
  let f ← definedFlags 1 f
  let (q, r) ← rd16 r
  rdEnd
    { map := map, fnom := signedAt v 0, vfs := signedAt v 1, aMax := signedAt v 2, vStill := signedAt v 3,
      hardLo := signedAt v 4, hardHi := signedAt v 5, jogMax := signedAt v 6, autostart := f = 1,
      quiesceTimeout := q } r

/-- The points of a conversion table, as pairs of words. -/
def pointsOf : List Nat → List LoadPoint
  | c :: f :: rest => { count := toSigned32 c, force := toSigned32 f } :: pointsOf rest
  | _ => []

/-- The content of a conversion table. -/
def readPoints (l : List Byte) : Option (List LoadPoint) := do
  let (m, r) ← rd8 l
  let (v, r) ← readWords (2 * m) r
  rdEnd (pointsOf v) r

/-- The content of ARMS. -/
def readArms (l : List Byte) : Option Arms := do
  let (v, r) ← readWords 2 l
  rdEnd { a := signedAt v 0, b := signedAt v 1 } r

/-- The content of COMPLIANCE. -/
def readCompliance (l : List Byte) : Option Int := do
  let (v, r) ← rdS32 l
  rdEnd v r

/-- The content of a table. -/
def readContent (t : TableId) (l : List Byte) : Option TableContent :=
  match t with
  | .frame => (readFrame l).map .frame
  | .loadR1 | .loadR2 | .loadR3 => (readPoints l).map .load
  | .arms => (readArms l).map .arms
  | .compliance => (readCompliance l).map .compliance

/-- Whether the length of a CAL_DATA content suits the table it names (R196, 10.3). -/
def contentLength (t : TableId) (l : List Byte) : Bool :=
  match t with
  | .frame => l.length == 39
  | .loadR1 | .loadR2 | .loadR3 =>
    match l with
    | m :: r => r.length == 8 * m.toNat
    | [] => false
  | .arms => l.length == 8
  | .compliance => l.length == 4

/-- CAL_DATA: the table, where the byte names one, and its content, of the length the table has; the fifth check of R100
judges a byte that names none (log entry 14). -/
def readCalData (body : List Byte) : Option (Option TableId × List Byte) := do
  let (n, r) ← rd8 body
  match tableOfCode n with
  | some t => if contentLength t r then some (some t, r) else none
  | none => some (none, r)

/-! ### Checks on contents (R95, R158, R175) -/

/-- A value within bounds. -/
def within (lo hi x : Int) : Bool := decide (lo ≤ x) && decide (x ≤ hi)

/-- How many lines a function is assigned to. -/
def assignedTo (f : LineFn) (m : List LineCfg) : Nat := (m.filter fun c => c.fn == f).length

/-- The functions of 7.2 other than UNUSED. -/
def usedFunctions : List LineFn :=
  [.estop, .limitUp, .limitLo, .driveFault, .guard, .gripUp, .gripLo, .extSeated]

/-- The two requirements of R158 on a map of eight lines. -/
def mapValid (m : List LineCfg) : Bool :=
  m.length == 8 && usedFunctions.all (fun f => decide (assignedTo f m ≤ 1)) &&
    [LineFn.estop, .guard, .gripUp, .gripLo].all (fun f => assignedTo f m == 1)

/-- The checks of R175 on a FRAME table. -/
def frameValid (f : Frame) : Bool :=
  mapValid f.map && within 100000 200000000 f.fnom && within 1000 50000000 f.vfs &&
    within 1000 100000000 f.aMax && within 0 1000000 f.vStill && decide (f.hardLo < f.hardHi) &&
    within 100 f.vfs f.jogMax && within 100 10000 f.quiesceTimeout

/-- Whether the counts of a conversion table ascend strictly. -/
def ascending : List LoadPoint → Bool
  | p :: q :: rest => decide (p.count < q.count) && ascending (q :: rest)
  | _ => true

/-- The checks of R95 on a conversion table. -/
def pointsValid (l : List LoadPoint) : Bool :=
  decide (2 ≤ l.length) && decide (l.length ≤ 16) && ascending l &&
    l.all (fun p => within (-8388608) 8388607 p.count)

/-- The checks of R95 on a content. -/
def contentValid : TableContent → Bool
  | .frame f => frameValid f
  | .load l => pointsValid l
  | .arms a => within 900000 1100000 a.a && within 900000 1100000 a.b
  | .compliance c => within 0 100000 c

end Sys2Proof.Machine
end

