-- ==== Sys2Proof/Machine/Replies.lean ====
section
/-! DEFINITION. The bodies of the replies that report state: READ_CONTEXT, GET_RESULTS, STATUS, CAL_READ and NEXT
(10.3). -/

namespace Sys2Proof.Machine

/-- An unsigned value in two bytes. -/
def natBytes16 (n : Nat) : List Byte := bytes16 (BitVec.ofNat 16 n)

/-- An unsigned value in four bytes. -/
def natBytes32 (n : Nat) : List Byte := bytes32 (BitVec.ofNat 32 n)

/-- An optional signed value in four bytes, zeros when it is absent (R209). -/
def optBytes32 (v : Option Int) : List Byte := be32 (v.getD 0)

/-- A refused request's reply where it is refused MALFORMED (R196, R209). -/
def malformed : Reply := Reply.only .malformed

/-! ### The fields of a context (10.2, 10.3) -/

/-- The options byte of an order (10.2). -/
def optionsByte (o : TestOrder) : Nat :=
  shapeCode o.shape + flag 2 o.usesExt + flag 3 o.tareAtStart + flag 4 o.laneDetail + flag 5 o.demandDetail

/-- The stop enables of an order (10.2). -/
def stopsByte (o : TestOrder) : Nat :=
  flag 0 o.tOverload + flag 1 o.tSlip + flag 2 o.tGap + flag 3 o.tTrack + flag 4 o.stepOn + flag 5 o.holdptOn

/-- The 84 bytes and the 8 bytes of an order as stored (10.2). -/
def orderBytes (o : TestOrder) : List Byte :=
  be32 o.l0 ++ be32 o.lc ++ be32 o.kS0 ++ be32 o.kE0 ++ be32 o.kSMin ++ be32 o.kSMax ++ be32 o.kEMin ++
  be32 o.kEMax ++ be32 o.fLim ++ be32 o.winLo ++ be32 o.winHi ++ optBytes32 o.holdptStrain ++ be32 o.sLo ++
  be32 o.sHi ++ be32 o.eP ++ be32 o.dDrop ++ be32 o.ePlat ++ be32 o.fArm ++ be32 o.eRm ++ be32 o.jumpLim ++
  be32 o.divLim ++
  (natBytes16 o.recordInterval ++ natBytes16 o.rmTimeout ++ be16 o.bendLim ++
    [byte o.pFrac.toNat, byte o.pSharp.toNat])

/-- The condition set in four bytes, one bit below each mark's number (10.3). -/
def marksWord (marks : List Mark) : Nat := (allMarks.map fun m => flag (markNumber m - 1) (marks.contains m)).sum

/-- The test sample index of a runtime part; a field with no stated value while no sample is counted (log entry 2). -/
def indexField (clock place count : Nat) : List Byte :=
  bytes32 (if count = 0 then Config.unstated clock place else BitVec.ofNat 32 (count - 1))

/-- A field with no stated value while it is absent (log entry 2). -/
def fieldOr (clock place : Nat) (v : Option Int) : List Byte :=
  bytes32 (match v with
    | some x => bits32 x
    | none => Config.unstated clock place)

/-- The runtime fields of a READ_CONTEXT reply, zeros where the slot has none (10.3). -/
def runtimeBytes (clock : Nat) : Option Runtime → List Byte
  | none => List.replicate 25 0
  | some rt =>
    [byte rt.segIndex] ++ natBytes32 rt.elapsed ++ indexField clock 10 rt.count ++ optBytes32 rt.offset ++
      fieldOr clock 11 rt.posRef ++ be32 rt.kS ++ be32 rt.kE

/-- The flags of a READ_CONTEXT reply (10.3). -/
def contextFlags (x : Slot) (rt : Option Runtime) : Nat :=
  flag 0 x.s0.isSome + flag 1 rt.isSome + flag 2 (rt.any fun r => sourceIsXhd r.source) +
    flag 3 (rt.any fun r => r.offset.isSome) + flag 4 (rt.any fun r => r.holdPassed)

/-! ### GET_RESULTS (R157) -/

/-- The evaluation state that stands for a slot: live for the RESIDENT one, its copy for any other, and the starting
point before a start (R5, R157). -/
def evalOf (k : SlotId) (s : State) : Eval := ((s.runtimeOf k).map (·.eval)).getD Eval.start

/-- Whether the maxima of a slot are reported as tracked values (R147, R157, R130). -/
def tracks (x : Slot) : Bool := x.state == .resident || x.state == .parked

/-- A maximum: determined, tracked while it runs, or zeros. -/
def maximum (determined tracked : Option Int) (running : Bool) : List Byte :=
  match determined with
  | some v => be32 v
  | none => optBytes32 (if running then tracked else none)

/-- The sixteen values of a GET_RESULTS reply (10.3). -/
def resultValues (running : Bool) (ev : Eval) : List Byte :=
  let r := ev.results
  optBytes32 (r.fit.map (·.e)) ++ optBytes32 (r.fit.map (·.b)) ++ optBytes32 (r.fit.map (·.a)) ++
    optBytes32 (r.reH.map (·.stress)) ++ optBytes32 (r.reH.map (·.strain)) ++ optBytes32 r.reL ++ optBytes32 r.ae ++
    optBytes32 (r.rp.map (·.stress)) ++ optBytes32 (r.rp.map (·.strain)) ++
    maximum r.rm (ev.maxT.map (·.rm)) running ++ maximum (r.fm.map (·.force)) (ev.maxT.map (·.fm)) running ++
    maximum (r.fm.map (·.strain)) (ev.maxT.map (·.eFm)) running ++ optBytes32 (r.ag.map (·.value)) ++
    optBytes32 (r.elong.map (·.value)) ++ optBytes32 (r.fracture.map (·.force)) ++
    natBytes32 ((r.fracture.map (·.index)).getD 0)

/-- The results record of a slot (R157), as GET_RESULTS carries it behind the slot and its state (10.3). -/
def resultsRecord (k : SlotId) (s : State) : List Byte :=
  let ev := evalOf k s
  [byte (yieldStateCode ev.yState + flag 7 (!ev.opened))] ++
    natBytes16 (determinedBits ev.results ev.yState) ++ natBytes16 (qualifierBits ev.results) ++
    [byte ((ev.results.fracture.map fun f => criterionCode f.criterion).getD 0)] ++
    natBytes16 ev.results.fitN ++ resultValues (tracks (s.slot k)) ev ++ bytes16 (fill16 (ev.results.bending.getD 0))

/-- The reply of GET_RESULTS (R157). -/
def resultsReply (k : SlotId) (s : State) : Reply :=
  if (s.slot k).state = .empty then Reply.only .state
  else { status := .ok, results := [byte k.val, byte (slotStateCode (s.slot k).state)] ++ resultsRecord k s }

/-! ### READ_CONTEXT (R6) -/

/-- The fields of part 1 of a READ_CONTEXT reply, as 10.3 lays them out. -/
def contextFields (k : SlotId) (s : State) : List Byte :=
  let x := s.slot k
  let rt := s.runtimeOf k
  [byte k.val, 1, byte (slotStateCode x.state), byte x.order.specimenId.length] ++ x.order.specimenId ++
    [byte (optionsByte x.order), byte (stopsByte x.order)] ++ orderBytes x.order ++ [byte (contextFlags x rt)] ++
    optBytes32 (x.dims.map (·.first)) ++ optBytes32 (x.dims.map (·.second)) ++ optBytes32 x.s0 ++
    natBytes32 (marksWord x.marks) ++ runtimeBytes s.smu.clock rt ++ [byte (outcomeByte x.outcome)]

/-- Part 1 of a READ_CONTEXT reply (R6): the fields of 10.3, and behind them the results that R5, R6, R141 and R147 have it
report, in the form of GET_RESULTS; their place and form in the reply are the model's (log entry 42). -/
def contextPart1 (k : SlotId) (s : State) : List Byte := contextFields k s ++ resultsRecord k s

/-- A segment as stored (10.2). -/
def segmentBytes (g : Segment) : List Byte :=
  [byte (modeCode g.mode * 16 + endKindCode g.endKind), byte (flag 0 g.endValue.isSome + flag 1 g.backup.isSome)] ++
    be32 g.rate ++ be32 g.vmax ++ be16 g.kp ++ (match g.endValue with | some v => be32 v | none => []) ++
    (match g.backup with | some v => be32 v | none => [])

/-- Part 2 of a READ_CONTEXT reply (10.3). -/
def contextPart2 (k : SlotId) (s : State) : List Byte :=
  let o := (s.slot k).order
  [byte k.val, 2, byte o.segments.length] ++ o.segments.flatMap segmentBytes

/-- The reply of READ_CONTEXT (R6). -/
def contextReply (k : SlotId) (part : Nat) (s : State) : Reply :=
  if (s.slot k).state = .empty then Reply.only .state
  else { status := .ok, results := if part = 1 then contextPart1 k s else contextPart2 k s }

/-! ### STATUS (R205) -/

/-- The start-ready byte: 0 ready, 255 without a BOUND slot, else the first unmet item (R16). -/
def readyByte (s : State) : Nat :=
  match s.ctx.binding with
  | some k =>
    if (s.slot k).state = .bound then
      match firstUnmet k startItems s with
      | some i => itemCode i
      | none => 0
    else 255
  | none => 255

/-- The contexts group. -/
def statusContexts (s : State) : List Byte :=
  let c := s.ctx.changeover
  [byte (phaseCode s.ctx.phase), byte (contextCodeOpt s.ctx.resident), byte (slotCodeOpt s.ctx.binding),
   byte (readyByte s), byte ((c.map fun c => causeRank c.cause).getD 0),
   byte ((c.map fun c => requesterCode c.requester).getD 0)] ++
    natBytes16 ((c.map (·.elapsed)).getD 0) ++ [byte ((s.ctx.holder.map portCode).getD 0)] ++
    s.ctx.slots.toList.map fun x => byte (slotStateCode x.state)

/-- The service motion group: zeros while the service context is not resident. -/
def statusService (s : State) : List Byte :=
  if s.ctx.resident = some .service then
    be32 ((s.msq.active.map (·.rate)).getD 0) ++ optBytes32 s.msq.target ++
      [byte (flag 0 s.msq.target.isSome + flag 1 (s.msq.target.isSome && s.msq.target == s.msq.qSet))]
  else List.replicate 9 0

/-- The demand group. -/
def statusDemand (s : State) : List Byte := be32 s.msq.prevDemand ++ be16 s.msq.dac ++ optBytes32 s.msq.velocity

/-- 0 without a tare, 1 for a port tare, 2 for a start tare. -/
def tareCode : Option TareRun → Nat
  | none => 0
  | some { kind := .port _, .. } => 1
  | some { kind := .start, .. } => 2

/-- The load channel group. -/
def statusLoad (s : State) : List Byte :=
  byte (rangeCode s.lch.range + flag 2 s.lch.lock + flag 3 (!tablesProgrammed s.cst.work) +
    16 * tareCode s.lch.tareRun + flag 6 s.lch.hard + flag 7 s.msq.velocity.isSome) ::
    (be32 s.lch.tare ++ natBytes16 s.smu.missRun)

/-- The state of a removal timer with its count. -/
def timerFields : RemovalTimer → Nat × Nat
  | .stopped => (0, 0)
  | .running n => (1, n)
  | .expired n => (2, n)

/-- The extension channel group. -/
def statusExtension (s : State) : List Byte :=
  let x := s.xch
  byte (channelCode x.state + flag 2 x.slipped + flag 3 x.laneA.jump + flag 4 x.laneB.jump + flag 5 x.diverge +
    flag 6 x.extRel + flag 7 x.laneA.ext.isSome) ::
    (optBytes32 x.laneA.ext ++ optBytes32 x.laneB.ext ++ optBytes32 x.delta ++ natBytes16 (timerFields x.timer).2 ++
     [byte ((x.owner.map (·.val)).getD 0 + flag 3 x.owner.isSome + 16 * (timerFields x.timer).1)])

/-- The resident test group: zeros while no test is resident. -/
def statusResident (s : State) : List Byte :=
  match s.residentSlot, s.live with
  | some _, some l =>
    let e := s.smu.clock
    [byte (1 + flag 1 (sourceIsXhd l.rt.source) + flag 2 l.rt.offset.isSome +
      flag 3 (l.rt.eval.opened && l.rt.eval.settled))] ++
      indexField e 12 l.rt.count ++ [byte l.rt.segIndex] ++ fieldOr e 13 (l.latest.map (·.force)) ++
      fieldOr e 14 (l.latest.map (·.stress)) ++ fieldOr e 15 (l.latest.map (·.strain)) ++ optBytes32 l.rt.offset
  | _, _ => List.replicate 22 0

/-- Whether the cause of an entry stands now (R166).  An entry keeps no line, so a GRIPLOST entry is live while either grip
reads open, whichever made it (log entry 53). -/
def entryLive (k : FaultKind) (s : State) : Bool :=
  match k with
  | .estop => lineActive s .estop
  | .limitUp => lineActive s .limitUp
  | .limitLo => lineActive s .limitLo
  | .drive => lineActive s .driveFault
  | .guardOpen => !lineActive s .guard
  | .gripLost => !gripsClosed s
  | .stream => decide (s.smu.delivered < 3)
  | .hardLoad => s.lch.hard
  | .posLost | .drift => false

/-- One entry place (10.3). -/
def entryBytes (s : State) (e : FaultEntry) : List Byte :=
  [byte (faultCode e.kind), byte (phaseCode e.phase), byte ((e.voided.map (·.1.val)).getD 0),
   byte (flag 0 (entryLive e.kind s) + flag 1 e.voided.isSome)] ++ bytes32 ((e.voided.map (·.2)).getD 0)

/-- The functions in the order of the filtered state byte (10.3). -/
def statusFunctions : List LineFn := [.estop, .guard, .gripUp, .gripLo, .limitUp, .limitLo, .driveFault, .extSeated]

/-- A byte whose bit k is the k-th of eight flags. -/
def flagsByte (l : List Bool) : Nat := ((l.zipIdx).map fun (b, k) => flag k b).sum

/-- The frame lines group. -/
def statusLines (s : State) : List Byte :=
  [byte (flagsByte (s.flu.lines.map (·.level))), byte (flagsByte (statusFunctions.map (lineActive s))),
   byte s.flu.faults.length] ++
    (s.flu.faults.flatMap (entryBytes s) ++ List.replicate (80 - 8 * s.flu.faults.length) 0)

/-- The record stream group (R181). -/
def statusStream (s : State) : List Byte :=
  natBytes16 (occupancy s.rst.records) ++
    (match s.rst.gap with
     | some g => [byte 1] ++ bytes32 g.first ++ bytes32 g.last ++ natBytes16 g.tally
     | none => List.replicate 11 0)

/-- The window byte (10.3). -/
def windowByte (c : Cst) : Nat :=
  (match c.window with
   | .closed => 0
   | .opened _ p _ => 1 + 4 * portCode p
   | .writing _ p _ => 2 + 4 * portCode p) + flag 4 c.lock

/-- The table an OPEN or WRITING window names. -/
def windowTable : CalWindow → Nat
  | .closed => 0
  | .opened t .. => tableCode t
  | .writing t .. => tableCode t

/-- The programmed marks (10.3). -/
def programmedBits (t : Tables) : Nat :=
  flag 0 t.frame.isSome + flag 1 t.loadR1.isSome + flag 2 t.loadR2.isSome + flag 3 t.loadR3.isSome +
    flag 4 t.arms.isSome + flag 5 t.compliance.isSome

/-- The calibration group. -/
def statusCalibration (s : State) : List Byte :=
  natBytes32 s.cst.nv.revision ++
    [byte (windowByte s.cst), byte (windowTable s.cst.window), byte (programmedBits s.cst.work)]

/-- The part group. -/
def statusPart (p : Port) (s : State) : List Byte :=
  [byte (resetCauseCode s.ptu.lastCause), byte (s.port p).queue.length, byte (flag 0 (s.port p).overflow)]

/-- The reply of STATUS (R205). -/
def statusReply (p : Port) (s : State) : Reply :=
  { status := .ok
    results :=
      statusContexts s ++ statusService s ++ statusDemand s ++ statusLoad s ++ statusExtension s ++ statusResident s ++
        statusLines s ++ statusStream s ++ statusCalibration s ++ statusPart p s }

/-! ### CAL_READ (R104) -/

/-- The content of FRAME (10.3). -/
def frameBytes (f : Frame) : List Byte :=
  (f.map.map fun c => byte (lineFnCode c.fn + flag 4 c.activeLow)) ++ be32 f.fnom ++ be32 f.vfs ++ be32 f.aMax ++
    be32 f.vStill ++ be32 f.hardLo ++ be32 f.hardHi ++ be32 f.jogMax ++ [byte (flag 0 f.autostart)] ++
    natBytes16 f.quiesceTimeout

/-- The content of a conversion table (10.3). -/
def pointsBytes (l : List LoadPoint) : List Byte :=
  byte l.length :: l.flatMap fun p => be32 p.count ++ be32 p.force

/-- The content of a table, where it is programmed. -/
def tableBytes (t : Tables) : TableId → Option (List Byte)
  | .frame => t.frame.map frameBytes
  | .loadR1 => t.loadR1.map pointsBytes
  | .loadR2 => t.loadR2.map pointsBytes
  | .loadR3 => t.loadR3.map pointsBytes
  | .arms => t.arms.map fun a => be32 a.a ++ be32 a.b
  | .compliance => t.compliance.map be32

/-- The reply of CAL_READ to a table that is named and not being written (R104). -/
def calReadReply (t : TableId) (c : Cst) : Reply :=
  { status := .ok
    results :=
      [byte (tableCode t), byte (flag 0 (tableBytes c.work t).isSome)] ++ natBytes32 c.nv.revision ++
        (tableBytes c.work t).getD [] }

/-! ### NEXT (R7) -/

/-- The reply of NEXT. -/
def nextReply (s : State) : Reply :=
  match s.ctx.queue with
  | k :: _ =>
    { status := .ok
      results := [byte k.val, byte (s.slot k).order.specimenId.length] ++ (s.slot k).order.specimenId }
  | [] => { status := .ok, results := [byte 255, 0] }

end Sys2Proof.Machine
end

