-- ==== Sys2Proof/Machine/Calibration.lean ====
section
/-! DEFINITION. The write window of the calibration store: CAL_OPEN, CAL_DATA, CAL_COMMIT, CAL_CLOSE, CAL_READ and the
completion of a write (R96 to R104). -/

namespace Sys2Proof.Machine

/-- The tables with one replaced. -/
def putTable (c : TableContent) (t : TableId) (x : Tables) : Tables :=
  match t, c with
  | .frame, .frame f => { x with frame := some f }
  | .loadR1, .load l => { x with loadR1 := some l }
  | .loadR2, .load l => { x with loadR2 := some l }
  | .loadR3, .load l => { x with loadR3 := some l }
  | .arms, .arms a => { x with arms := some a }
  | .compliance, .compliance v => { x with compliance := some v }
  | _, _ => x

/-- The tables with the mark of one cleared (R96). -/
def clearTable (t : TableId) (x : Tables) : Tables :=
  match t with
  | .frame => { x with frame := none }
  | .loadR1 => { x with loadR1 := none }
  | .loadR2 => { x with loadR2 := none }
  | .loadR3 => { x with loadR3 := none }
  | .arms => { x with arms := none }
  | .compliance => { x with compliance := none }

/-- The part with the write window in a state. -/
def setWindow (w : CalWindow) (s : State) : State := { s with cst := { s.cst with window := w } }

/-- The lock is set (R98). -/
def lockStore (s : State) : State := { s with cst := { s.cst with lock := true } }

/-! ### CAL_OPEN (R99) -/

/-- CAL_OPEN of a table number at a quoted revision (R99). -/
def calOpen (p : Port) (n revision : Nat) (s : State) : Reply × State :=
  if s.cst.lock then (Reply.only .locked, s)
  else if s.cst.window ≠ .closed then (Reply.only .busy, s)
  else if s.ctx.phase ≠ .idle then (Reply.only .state, s)
  else
    match tableOfCode n with
    | none => (malformed, s)
    | some t =>
      if Config.maxU32 ≤ s.cst.nv.revision then (Reply.only .range, s)
      else if revision ≠ s.cst.nv.revision then (Reply.only .mismatch, lockStore s)
      else (Reply.only .ok, setWindow (.opened t p none) s)

/-- CAL_OPEN as the port unit takes it. -/
def serveCalOpen (p : Port) (body : List Byte) (s : State) : Reply × State :=
  match readCalOpen body with
  | some (n, revision) => calOpen p n revision s
  | none => (malformed, s)

/-- CAL_OPEN (R99). -/
def execCalOpen (p : Port) (tag : Byte) (body : List Byte) (s : State) : Host.Outcome State Fault Refusal :=
  .next (request .calOpen p tag body (serveCalOpen p body) s)

/-! ### CAL_DATA (R100) -/

/-- The content of a CAL_DATA for an open window, where it passes check 5 of R100. -/
def acceptedContent (opened : TableId) (named : Option TableId) (content : List Byte) : Option TableContent :=
  if named = some opened then
    match readContent opened content with
    | some c => if contentValid c then some c else none
    | none => none
  else none

/-- CAL_DATA (R100). -/
def calData (p : Port) (t : Option TableId) (content : List Byte) (s : State) : Reply × State :=
  if s.cst.lock then (Reply.only .locked, s)
  else
    match s.cst.window with
    | .closed => (Reply.only .locked, lockStore s)
    | .writing .. => (Reply.only .busy, s)
    | .opened t0 opener _ =>
      if p ≠ opener then (Reply.only .notHolder, s)
      else
        match acceptedContent t0 t content with
        | some c => (Reply.only .ok, setWindow (.opened t0 opener (some c)) s)
        | none => (malformed, s)

/-- CAL_DATA as the port unit takes it. -/
def serveCalData (p : Port) (body : List Byte) (s : State) : Reply × State :=
  match readCalData body with
  | some (t, content) => calData p t content s
  | none => (malformed, s)

/-- CAL_DATA (R100). -/
def execCalData (p : Port) (tag : Byte) (body : List Byte) (s : State) : Host.Outcome State Fault Refusal :=
  .next (request .calData p tag body (serveCalData p body) s)

/-! ### CAL_COMMIT (R101) -/

/-- The write of a content begins: the nonvolatile mark of its table is cleared (R96, R101). -/
def beginWrite (t : TableId) (opener : Port) (c : TableContent) (s : State) : State :=
  { s with cst :=
    { s.cst with
      nv := { s.cst.nv with tables := clearTable t s.cst.nv.tables }
      window := .writing t opener c } }

/-- CAL_COMMIT as the port unit takes it (R101). -/
def serveCalCommit (p : Port) (body : List Byte) (s : State) : Reply × State :=
  match readNone body with
  | none => (malformed, s)
  | some _ =>
    if s.cst.lock then (Reply.only .locked, s)
    else
      match s.cst.window with
      | .closed => (Reply.only .locked, lockStore s)
      | .writing .. => (Reply.only .busy, s)
      | .opened t opener buffer =>
        if p ≠ opener then (Reply.only .notHolder, s)
        else if s.ctx.phase ≠ .idle then (Reply.only .state, s)
        else
          match buffer with
          | none => (Reply.only .state, s)
          | some c => (Reply.only .accepted, beginWrite t opener c s)

/-- CAL_COMMIT (R101). -/
def execCalCommit (p : Port) (tag : Byte) (body : List Byte) (s : State) : Host.Outcome State Fault Refusal :=
  .next (request .calCommit p tag body (serveCalCommit p body) s)

/-! ### CAL_CLOSE (R102) -/

/-- CAL_CLOSE as the port unit takes it (R102). -/
def serveCalClose (p : Port) (body : List Byte) (s : State) : Reply × State :=
  match readNone body with
  | none => (malformed, s)
  | some _ =>
    if s.cst.lock then (Reply.only .locked, s)
    else
      match s.cst.window with
      | .writing .. => (Reply.only .busy, s)
      | .closed => (Reply.only .state, s)
      | .opened _ opener _ =>
        if p ≠ opener then (Reply.only .notHolder, s) else (Reply.only .ok, setWindow .closed s)

/-- CAL_CLOSE (R102). -/
def execCalClose (p : Port) (tag : Byte) (body : List Byte) (s : State) : Host.Outcome State Fault Refusal :=
  .next (request .calClose p tag body (serveCalClose p body) s)

/-! ### CAL_READ (R104) -/

/-- CAL_READ as the port unit takes it (R104). -/
def serveCalRead (body : List Byte) (s : State) : Reply × State :=
  match readTable body with
  | none => (malformed, s)
  | some n =>
    if calWriting s then (Reply.only .busy, s)
    else
      match tableOfCode n with
      | some t => (calReadReply t s.cst, s)
      | none => (malformed, s)

/-- CAL_READ (R104). -/
def execCalRead (p : Port) (tag : Byte) (body : List Byte) (s : State) : Host.Outcome State Fault Refusal :=
  .next (request .calRead p tag body (serveCalRead body) s)

/-! ### The completion of a write (R101, R103) -/

/-- The store after a completed write (R96, R97, R101); a write of ARMS is named by its revision (R107). -/
def writtenStore (t : TableId) (c : TableContent) (x : Cst) : Cst :=
  { x with
    nv := { tables := putTable c t x.nv.tables, revision := x.nv.revision + 1 }
    work := putTable c t x.work
    window := .closed
    armsAt := if t = .arms then x.nv.revision + 1 else x.armsAt }

/-- The reset that waited for a write (R103). -/
def deferredReset (s : State) : State :=
  match s.ptu.resetWait with
  | some cause => applyReset cause s
  | none => s

/-- A nonvolatile write completes (R101), and a reset that waited for it takes effect after it (R103). -/
def completeWrite (s : State) : State :=
  match s.cst.window with
  | .writing t opener c =>
    let s := { s with cst := writtenStore t c s.cst }
    deferredReset (raiseEvent (some opener) (.calDone t s.cst.nv.revision) s)
  | _ => s

/-- CAL_WRITE_COMPLETE (R101). -/
def execCalWriteComplete (s : State) : Host.Outcome State Fault Refusal :=
  .next (if s.power then completeWrite s else s)

end Sys2Proof.Machine
end

