-- ==== Sys2Proof/Machine/Contexts.lean ====
section
/-! DEFINITION. Requests that start, stop and change contexts: START, HOLD, ABORT, RESUME, LEAVE and CLEAR (R17, R24 to
R29, R170, R171). -/

namespace Sys2Proof.Machine

/-! ### START (R17) -/

/-- START of the bound slot. -/
def startBound (s : State) : Reply × State :=
  match s.ctx.binding with
  | none => (Reply.only .state, s)
  | some k =>
    if (s.slot k).state ≠ .bound then (Reply.only .state, s)
    else if s.ctx.changeover.isSome then (Reply.only .changeover, s)
    else
      match firstUnmet k startItems s with
      | some i => (Reply.notReady i, s)
      | none => (Reply.only .ok, startTest k s)

/-- START as the port unit takes it. -/
def serveStart (body : List Byte) (s : State) : Reply × State :=
  match readNone body with
  | some _ => startBound s
  | none => (malformed, s)

/-- START (R17). -/
def execStart (p : Port) (tag : Byte) (body : List Byte) (s : State) : Host.Outcome State Fault Refusal :=
  .next (request .start p tag body (serveStart body) s)

/-! ### HOLD (R24) -/

/-- HOLD as the port unit takes it (R24). -/
def serveHold (p : Port) (body : List Byte) (s : State) : Reply × State :=
  match readNone body with
  | none => (malformed, s)
  | some _ =>
    if s.ctx.phase ≠ .test then (Reply.only .state, s)
    else if s.ctx.changeover.isSome then (Reply.only .changeover, s)
    else (Reply.only .ok, raiseCause .operator (.port p) (some .service) none s)

/-- HOLD (R24). -/
def execHold (p : Port) (tag : Byte) (body : List Byte) (s : State) : Host.Outcome State Fault Refusal :=
  .next (request .hold p tag body (serveHold p body) s)

/-! ### ABORT (R25) -/

/-- Whether a slot is the incoming context of a pending changeover. -/
def incomingPending (k : SlotId) (s : State) : Bool :=
  match s.ctx.changeover with
  | some c => c.incoming == some (.test k)
  | none => false

/-- The outcome of an aborted test. -/
def abortOutcome : TestOutcome := { void := true, cause := .mark .aborted }

/-- A PARKED test becomes VOID without a changeover (R25, R155). -/
def directVoid (k : SlotId) (s : State) : State :=
  let s := setMark k .aborted 0 (lastIndex s k 9) s
  let x := s.slot k
  let s := s.setSlot k
    { x with
      state := .void
      runtime := x.runtime.map fun rt => { rt with eval := closingSteps x.order rt.eval }
      outcome := some abortOutcome }
  raiseEvent none (.testEnd k abortOutcome) (offerEnd k s)

/-- ABORT of a slot by its state (R25); a request's TERMINATE is raised after FRACTURE too (log entry 45). -/
def abortSlot (p : Port) (k : SlotId) (s : State) : Reply × State :=
  match (s.slot k).state with
  | .resident =>
    if causeAccepted .terminate s then
      let s := raiseCause .terminate (.port p) none (some (.mark .aborted)) s
      (Reply.only .ok, setMark k .aborted 0 (lastIndex s k 9) s)
    else (Reply.only .changeover, s)
  | .parked =>
    if incomingPending k s then (Reply.only .changeover, s) else (Reply.only .ok, directVoid k s)
  | _ => (Reply.only .state, s)

/-- ABORT as the port unit takes it; an undefined slot is MALFORMED first (R209, log entry 54). -/
def serveAbort (p : Port) (body : List Byte) (s : State) : Reply × State :=
  match readSlot body with
  | some k => abortSlot p k s
  | none => (malformed, s)

/-- ABORT (R25). -/
def execAbort (p : Port) (tag : Byte) (body : List Byte) (s : State) : Host.Outcome State Fault Refusal :=
  .next (request .abort p tag body (serveAbort p body) s)

/-! ### RESUME (R28) -/

/-- The readiness items of a RESUME from CAL_WINDOW to TABLES (R28). -/
def resumeItems : List Item := [.calWindow, .guard, .grips, .faultLine, .tables]

/-- The EXTENSOMETER item of a RESUME (R28). -/
def resumeExtensometer (k : SlotId) (s : State) : Bool :=
  match (s.slot k).runtime with
  | some rt => rt.source == .xhd || s.xch.state == .attached
  | none => true

/-- The checks of R28 in their order. -/
def resumeRefusal (p : Port) (k : SlotId) (s : State) : Option Reply :=
  if (s.slot k).state ≠ .parked then some (Reply.only .state)
  else if s.ctx.phase ≠ .service ∧ s.ctx.phase ≠ .idle then some (Reply.only .state)
  else if p = .supervisor ∧ s.ctx.phase = .service ∧ s.ctx.holder ≠ some .supervisor then some (Reply.only .notHolder)
  else if s.ctx.changeover.isSome then some (Reply.only .changeover)
  else
    match firstUnmet k resumeItems s with
    | some i => some (Reply.notReady i)
    | none => if resumeExtensometer k s then none else some (Reply.notReady .extensometer)

/-- RESUME of a slot (R28): a changeover from SERVICE, or an immediate entry from IDLE. -/
def resumeSlot (p : Port) (k : SlotId) (s : State) : Reply × State :=
  match resumeRefusal p k s with
  | some r => (r, s)
  | none =>
    (Reply.only .ok,
      if s.ctx.phase = .service then raiseCause .operator (.port p) (some (.test k)) none s
      else announcePhase (enterResumed k (offerResume k s)))

/-- RESUME as the port unit takes it; an undefined slot is MALFORMED first (R209, log entry 54). -/
def serveResume (p : Port) (body : List Byte) (s : State) : Reply × State :=
  match readSlot body with
  | some k => resumeSlot p k s
  | none => (malformed, s)

/-- RESUME (R28). -/
def execResume (p : Port) (tag : Byte) (body : List Byte) (s : State) : Host.Outcome State Fault Refusal :=
  .next (request .resume p tag body (serveResume p body) s)

/-! ### LEAVE (R26) -/

/-- Whether a test is PARKED. -/
def anyParked (s : State) : Bool := s.ctx.slots.toList.any fun x => x.state == .parked

/-- LEAVE as the port unit takes it (R26). -/
def serveLeave (p : Port) (body : List Byte) (s : State) : Reply × State :=
  match readNone body with
  | none => (malformed, s)
  | some _ =>
    if s.ctx.phase ≠ .service then (Reply.only .state, s)
    else if p = .supervisor ∧ s.ctx.holder ≠ some .supervisor then (Reply.only .notHolder, s)
    else if s.ctx.changeover.isSome then (Reply.only .changeover, s)
    else if anyParked s then (Reply.only .state, s)
    else (Reply.only .ok, raiseCause .operator (.port p) none none s)

/-- LEAVE (R26). -/
def execLeave (p : Port) (tag : Byte) (body : List Byte) (s : State) : Host.Outcome State Fault Refusal :=
  .next (request .leave p tag body (serveLeave p body) s)

/-! ### CLEAR (R170, R171) -/

/-- The checks of R170 in their order. -/
def clearRefusal (s : State) : Option Reply :=
  if s.ctx.phase ≠ .safe then some (Reply.only .state)
  else if faultLineActive s then some (Reply.notReady .faultLine)
  else if s.smu.delivered < 3 then some (Reply.notReady .stream)
  else if s.lch.hard then some (Reply.notReady .hardLoad)
  else none

/-- An accepted CLEAR (R171). -/
def clearFaults (p : Port) (s : State) : State :=
  let n := s.flu.faults.length
  let s := { s with
    flu := { s.flu with faults := [], alarm := false }
    ctx := { s.ctx with resident := none } }
  raiseEvent (some p) (.cleared n) (announcePhase (setPhase .idle s))

/-- CLEAR as the port unit takes it. -/
def serveClear (p : Port) (body : List Byte) (s : State) : Reply × State :=
  match readNone body with
  | none => (malformed, s)
  | some _ =>
    match clearRefusal s with
    | some r => (r, s)
    | none => (Reply.only .ok, clearFaults p s)

/-- CLEAR (R170, R171). -/
def execClear (p : Port) (tag : Byte) (body : List Byte) (s : State) : Host.Outcome State Fault Refusal :=
  .next (request .clear p tag body (serveClear p body) s)

end Sys2Proof.Machine
end

