-- ==== Sys2Proof/Machine/Orders.lean ====
section
/-! DEFINITION. Requests on test orders and the grips: LOAD in its two parts, PROMOTE, FREE, CLEAR_CONDITION, NEXT, BIND
and RELEASE (R3, R4, R7, R8, R10 to R12, R30, R34, R35, R210). -/

namespace Sys2Proof.Machine

/-- The status of the first check of a list that fails. -/
def firstFailure : List (Bool × Status) → Option Status
  | [] => none
  | (ok, st) :: rest => if ok then firstFailure rest else some st

/-! ### LOAD (R3, R4, R34, R35, R210) -/

/-- A printable character (1.1). -/
def printable (b : Byte) : Bool := decide (0x20 ≤ b.toNat) && decide (b.toNat ≤ 0x7E)

/-- The identifiers of R3. -/
def specimenValid (l : List Byte) : Bool :=
  decide (1 ≤ l.length) && decide (l.length ≤ 16) && l.all printable

/-- Whether an optional value satisfies a bound; an absent one does. -/
def atLeastIf (lo : Int) : Option Int → Bool
  | none => true
  | some v => decide (lo ≤ v)

/-- The checks of R3 on the context fields, in the order of R3's table; the RANGE of R4 stands
behind the order of the bounds (log entry 43). -/
def orderChecks (t : Tables) (o : TestOrder) : List (Bool × Status) :=
  let w := clampWindow t o
  [(specimenValid o.specimenId, .malformed),
   (!o.usesExt || within 1000000 20000000 o.l0, .range),
   (within 2000000 100000000 o.lc, .range),
   (decide (o.kSMin ≤ o.kSMax), .malformed),
   (decide (o.kEMin ≤ o.kEMax), .malformed),
   (decide (1 ≤ o.fLim), .range),
   (decide (o.winLo < o.winHi), .malformed),
   (w.winLo != w.winHi, .range),
   (decide (o.sLo < o.sHi), .malformed),
   (decide (0 ≤ o.eP), .range),
   (decide (0 ≤ o.eRm), .range),
   (atLeastIf 0 o.holdptStrain, .range),
   (decide (1 ≤ o.dDrop), .range),
   (decide (1 ≤ o.ePlat), .range),
   (decide (1 ≤ o.fArm), .range),
   (decide (1 ≤ o.jumpLim), .range),
   (decide (1 ≤ o.divLim), .range),
   (within 1 1000 o.bendLim, .range),
   (within 5 95 o.pFrac, .range),
   (within 10 90 o.pSharp, .range)]

/-- Whether an end kind takes an end value (R34). -/
def takesEndValue : EndKind → Bool
  | .positionReach | .qReach | .strainReach | .forceReach | .time => true
  | .yield | .detached | .never => false

/-- The checks of R34 on a segment of a known mode and end kind, from its third on. -/
def valueChecks (g : Segment) : List (Bool × Status) :=
  [(g.endValue.isSome == takesEndValue g.endKind, .malformed),
   (g.backup.isSome == (g.endKind == .yield), .malformed),
   (g.endKind != .qReach || g.rate != 0, .malformed),
   (g.endKind != .time || within 1 2147483647 (g.endValue.getD 0), .range),
   (atLeastIf 1 g.backup, .range)]

/-- The checks of R34 on one segment, in the order of its table: the mode and the end kind first. -/
def segmentChecks (g : SegmentBody) : List (Bool × Status) :=
  ((modeOf g.mode).isSome, .malformed) :: ((endKindOf g.endKind).isSome, .malformed) ::
    (match segmentOf g with
     | some g => valueChecks g
     | none => [])

/-- The checks of a LOAD in their order: the context fields, the count of segments, then each segment (R3, R34). -/
def loadChecks (t : Tables) (o : TestOrder) (gs : List SegmentBody) : List (Bool × Status) :=
  orderChecks t o ++
    [(decide (1 ≤ gs.length) && decide (gs.length ≤ 12), .malformed)] ++ gs.flatMap segmentChecks

/-- An order with the program of a part 2. -/
def withProgram (o : TestOrder) (gs : List SegmentBody) : TestOrder := { o with segments := gs.filterMap segmentOf }

/-- An unsigned count clamped to a range. -/
def clampNat (lo hi n : Nat) : Nat := if n < lo then lo else if hi < n then hi else n

/-- The limits LOAD sets on an order (R3, R4, R35). -/
def limitOrder (t : Tables) (o : TestOrder) : TestOrder :=
  clampProgram t (clampWindow t
    { o with
      kS0 := clamp o.kSMin o.kSMax o.kS0
      kE0 := clamp o.kEMin o.kEMax o.kE0
      recordInterval := clampNat 1 1000 o.recordInterval
      rmTimeout := clampNat 100 10000 o.rmTimeout })

/-- A LOAD of a header with a program (R3): the slot is LOADED and joins the tail of the order queue. -/
def loadOrder (k : SlotId) (header : TestOrder) (gs : List SegmentBody) (s : State) : Reply × State :=
  if (s.slot k).state ≠ .empty then (Reply.only .state, s)
  else
    match firstFailure (loadChecks s.inForce header gs) with
    | some st => (Reply.only st, s)
    | none =>
      let o := withProgram header gs
      let o' := limitOrder s.inForce o
      let s := s.setSlot k { Slot.blank with state := .loaded, order := o' }
      (Reply.only (if o' = o then .ok else .clamped), { s with ctx := { s.ctx with queue := s.ctx.queue ++ [k] } })

/-- A part 1 LOAD behind its part byte replaces the header held (R210). -/
def serveHeader (body : List Byte) (s : State) : Reply × State :=
  match readHeader body with
  | some a => (Reply.only .ok, { s with ptu := { s.ptu with assembly := some a } })
  | none => (malformed, s)

/-- The part with the LOAD assembly empty. -/
def dropAssembly (s : State) : State := { s with ptu := { s.ptu with assembly := none } }

/-- A part 2 LOAD behind its part byte (R210): whatever the reply, the assembly is empty afterwards.  The form of the body
comes first (R196, R209), its modes and end kinds in the order of R34 (log entry 13). -/
def serveProgram (body : List Byte) (s : State) : Reply × State :=
  match readProgram body with
  | none => (malformed, dropAssembly s)
  | some (k, gs) =>
    match s.ptu.assembly with
    | none => (Reply.only .state, s)
    | some a =>
      if a.slot = k then loadOrder k a.order gs (dropAssembly s)
      else (Reply.only .state, dropAssembly s)

/-- A LOAD by its part byte (R210). -/
def serveLoad (body : List Byte) (s : State) : Reply × State :=
  match body with
  | [] => (malformed, s)
  | b :: r => if b = 1 then serveHeader r s else if b = 2 then serveProgram r s else (malformed, s)

/-- LOAD_HEADER (R210). -/
def execLoadHeader (p : Port) (tag : Byte) (body : List Byte) (s : State) : Host.Outcome State Fault Refusal :=
  .next (request .load p tag body (serveLoad body) s)

/-- LOAD (R3, R210). -/
def execLoad (p : Port) (tag : Byte) (body : List Byte) (s : State) : Host.Outcome State Fault Refusal :=
  .next (request .load p tag body (serveLoad body) s)

/-! ### The order queue and the slots (R7, R8, R30) -/

/-- The part with an order queue. -/
def State.setQueue (s : State) (q : List SlotId) : State := { s with ctx := { s.ctx with queue := q } }

/-- PROMOTE of a slot (R7). -/
def promoteSlot (k : SlotId) (s : State) : Reply × State :=
  if (s.slot k).state = .loaded then (Reply.only .ok, s.setQueue (k :: s.ctx.queue.erase k))
  else (Reply.only .state, s)

/-- PROMOTE as the port unit takes it; an undefined slot is MALFORMED first (R209, log entry 54). -/
def servePromote (body : List Byte) (s : State) : Reply × State :=
  match readSlot body with
  | some k => promoteSlot k s
  | none => (malformed, s)

/-- PROMOTE (R7). -/
def execPromote (p : Port) (tag : Byte) (body : List Byte) (s : State) : Host.Outcome State Fault Refusal :=
  .next (request .promote p tag body (servePromote body) s)

/-- Whether FREE may empty a slot (R8). -/
def freeable (k : SlotId) (s : State) : Bool :=
  match (s.slot k).state with
  | .loaded => true
  | .done | .void => s.ctx.binding != some k
  | _ => false

/-- A slot becomes EMPTY (R8); a removal that it owned has no owner any more (R122). -/
def emptySlot (k : SlotId) (s : State) : State :=
  let s := (s.setSlot k Slot.blank).setQueue (s.ctx.queue.erase k)
  if s.xch.owner = some k then { s with xch := { s.xch with owner := none } } else s

/-- FREE of a slot (R8). -/
def freeSlot (k : SlotId) (s : State) : Reply × State :=
  if freeable k s then (Reply.only .ok, emptySlot k s) else (Reply.only .state, s)

/-- FREE as the port unit takes it; an undefined slot is MALFORMED first (R209, log entry 54). -/
def serveFree (body : List Byte) (s : State) : Reply × State :=
  match readSlot body with
  | some k => freeSlot k s
  | none => (malformed, s)

/-- FREE (R8). -/
def execFree (p : Port) (tag : Byte) (body : List Byte) (s : State) : Host.Outcome State Fault Refusal :=
  .next (request .free p tag body (serveFree body) s)

/-- Whether CLEAR_CONDITION acts on a mark (R30). -/
def clearable (m : Mark) : Bool := markClass m == .terminate || markClass m == .operator

/-- CLEAR_CONDITION of a mark of a slot (R30). -/
def clearMark (k : SlotId) (n : Nat) (s : State) : Reply × State :=
  match markOfNumber n with
  | none => (malformed, s)
  | some m =>
    if (s.slot k).state ≠ .parked then (Reply.only .state, s)
    else if clearable m then
      (Reply.only .ok, s.setSlot k { s.slot k with marks := (s.slot k).marks.filter (fun x => x != m) })
    else (Reply.only .range, s)

/-- CLEAR_CONDITION as the port unit takes it. -/
def serveClearCondition (body : List Byte) (s : State) : Reply × State :=
  match readSlotMark body with
  | some (k, n) => clearMark k n s
  | none => (malformed, s)

/-- CLEAR_CONDITION (R30). -/
def execClearCondition (p : Port) (tag : Byte) (body : List Byte) (s : State) : Host.Outcome State Fault Refusal :=
  .next (request .clearCondition p tag body (serveClearCondition body) s)

/-- NEXT as the port unit takes it (R7). -/
def serveNext (body : List Byte) (s : State) : Reply × State :=
  match readNone body with
  | some _ => (nextReply s, s)
  | none => (malformed, s)

/-- NEXT (R7). -/
def execNext (p : Port) (tag : Byte) (body : List Byte) (s : State) : Host.Outcome State Fault Refusal :=
  .next (request .next p tag body (serveNext body) s)

/-! ### The grip binding (R9 to R12) -/

/-- Whether the dimensions of a BIND suit a shape (R10); the second one of ROUND and AREA is 0 (10.3). -/
def dimsSuit (shape : Shape) (a b : Int) : Bool :=
  match shape with
  | .flat => within 1 1000000 a && within 1 1000000 b
  | .round => within 1 1000000 a && b == 0
  | .area => decide (1 ≤ a) && b == 0

/-- S0 from the dimensions (R11). -/
def crossSection (shape : Shape) (a b : Int) : Int :=
  clamp 100 20000000
    (match shape with
     | .flat => roundDiv (a * b) 1000
     | .round => roundDiv (a * a * 785398163) 1000000000000
     | .area => a)

/-- The checks of R10 in their order. -/
def bindRefusal (b : BindBody) (s : State) : Option Reply :=
  let x := s.slot b.slot
  if x.state ≠ .loaded then some (Reply.only .state)
  else if s.ctx.binding.isSome ∨ s.ctx.phase ≠ .idle then some (Reply.only .state)
  else if gripsClosed s = false then some (Reply.notReady .grips)
  else if b.specimenId ≠ x.order.specimenId then some (Reply.only .mismatch)
  else if dimsSuit x.order.shape b.first b.second = false then some (Reply.only .range)
  else none

/-- An accepted BIND, without the autostart that may follow (R10). -/
def bindSlot (b : BindBody) (s : State) : State :=
  let x := s.slot b.slot
  let s := s.setSlot b.slot
    { x with
      state := .bound
      dims := some { first := b.first, second := b.second }
      s0 := some (crossSection x.order.shape b.first b.second) }
  let s := (s.setQueue (s.ctx.queue.erase b.slot))
  raiseEvent none (.bound b.slot) { s with ctx := { s.ctx with binding := some b.slot } }

/-- BIND as the port unit takes it (R10, R17); an undefined slot is MALFORMED ahead of the checks of R10 (R209, log entry
54). -/
def serveBind (body : List Byte) (s : State) : Reply × State :=
  match readBind body with
  | none => (malformed, s)
  | some b =>
    match bindRefusal b s with
    | some r => (r, s)
    | none =>
      let s := bindSlot b s
      (Reply.only .ok, autostartWith s.frame s)

/-- BIND (R10). -/
def execBind (p : Port) (tag : Byte) (body : List Byte) (s : State) : Host.Outcome State Fault Refusal :=
  .next (request .bind p tag body (serveBind body) s)

/-- The grips are freed: the binding is NONE and RELEASED is queued (R12). -/
def unbind (k : SlotId) (s : State) : State :=
  raiseEvent none (.released k) { s with ctx := { s.ctx with binding := none } }

/-- RELEASE of the bound slot (R12). -/
def releaseSlot (k : SlotId) (s : State) : Reply × State :=
  match (s.slot k).state with
  | .bound =>
    let s := (s.setSlot k { s.slot k with state := .loaded, dims := none, s0 := none }).setQueue (k :: s.ctx.queue)
    (Reply.only .ok, unbind k s)
  | .done | .void => (Reply.only .ok, unbind k s)
  | _ => (Reply.only .state, s)

/-- RELEASE as the port unit takes it. -/
def serveRelease (body : List Byte) (s : State) : Reply × State :=
  match readNone body, s.ctx.binding with
  | none, _ => (malformed, s)
  | some _, some k => releaseSlot k s
  | some _, none => (Reply.only .state, s)

/-- RELEASE (R12). -/
def execRelease (p : Port) (tag : Byte) (body : List Byte) (s : State) : Host.Outcome State Fault Refusal :=
  .next (request .release p tag body (serveRelease body) s)

end Sys2Proof.Machine
end

