-- ==== Sys2Proof/Machine/Reports.lean ====
section
/-! DEFINITION. Requests that report state or read what the part has queued: READ_CONTEXT, GET_RESULTS, STATUS,
READ_RECORDS, GET_EVENT and SET_EVENTS (R6, R157, R192, R202, R203, R205). -/

namespace Sys2Proof.Machine

/-- READ_CONTEXT as the port unit takes it (R6); an undefined slot or part is MALFORMED ahead of the STATE of an EMPTY slot
(R209, log entry 54). -/
def serveReadContext (body : List Byte) (s : State) : Reply × State :=
  match readSlotPart body with
  | some (k, part) => (contextReply k part s, s)
  | none => (malformed, s)

/-- READ_CONTEXT (R6). -/
def execReadContext (p : Port) (tag : Byte) (body : List Byte) (s : State) : Host.Outcome State Fault Refusal :=
  .next (request .readContext p tag body (serveReadContext body) s)

/-- GET_RESULTS as the port unit takes it (R157); an undefined slot is MALFORMED first (R209, log entry 54). -/
def serveGetResults (body : List Byte) (s : State) : Reply × State :=
  match readSlot body with
  | some k => (resultsReply k s, s)
  | none => (malformed, s)

/-- GET_RESULTS (R157). -/
def execGetResults (p : Port) (tag : Byte) (body : List Byte) (s : State) : Host.Outcome State Fault Refusal :=
  .next (request .getResults p tag body (serveGetResults body) s)

/-- STATUS as the port unit takes it (R205). -/
def serveStatus (p : Port) (body : List Byte) (s : State) : Reply × State :=
  match readNone body with
  | some _ => (statusReply p s, s)
  | none => (malformed, s)

/-- STATUS (R205). -/
def execStatus (p : Port) (tag : Byte) (body : List Byte) (s : State) : Host.Outcome State Fault Refusal :=
  .next (request .status p tag body (serveStatus p body) s)

/-! ### READ_RECORDS (R190 to R192) -/

/-- A word, high byte first. -/
def wordBytes (w : Word16) : List Byte := bytes16 w

/-- The reply of READ_RECORDS: the occupancy after the removal, the gap state after R190, and the records (10.3). -/
def recordsReply (st : Status) (occ : Nat) (gap : Option Gap) (taken : List (List Word16)) : Reply :=
  { status := st, results := natBytes16 occ ++ [byte (if gap.isSome then 1 else 0)] ++ taken.flatten.flatMap wordBytes }

/-- OK, or CLAMPED for a maximum above 120 (R192). -/
def readStatus (n : Nat) : Status := if Config.readWords < n then .clamped else .ok

/-- READ_RECORDS of a maximum of words (R192).  A read that removes nothing changes nothing. -/
def readStream (n : Nat) (s : State) : Reply × State :=
  let r := takeRecords (min Config.readWords n) s.rst.records
  match s.rst.records, r.1 with
  | [], _ => (recordsReply (readStatus n) 0 s.rst.gap [], s)
  | _ :: _, [] => (recordsReply .range (occupancy s.rst.records) s.rst.gap [], s)
  | _ :: _, taken =>
    let t := afterRead { s with rst := { s.rst with records := r.2 } }
    (recordsReply (readStatus n) (occupancy r.2) t.rst.gap taken, t)

/-- READ_RECORDS as the port unit takes it. -/
def serveReadRecords (body : List Byte) (s : State) : Reply × State :=
  match readMaximum body with
  | some n => readStream n s
  | none => (malformed, s)

/-- READ_RECORDS (R192). -/
def execReadRecords (p : Port) (tag : Byte) (body : List Byte) (s : State) : Host.Outcome State Fault Refusal :=
  .next (request .readRecords p tag body (serveReadRecords body) s)

/-! ### Event queues (R202 to R204) -/

/-- The reply of GET_EVENT (10.3). -/
def eventReply (x : PortState) : Reply :=
  { status := .ok
    results :=
      [byte (flag 0 (!x.queue.isEmpty) + flag 1 x.overflow), byte x.queue.tail.length] ++
        (match x.queue with
         | e :: _ => eventEntry e
         | [] => List.replicate 15 0) }

/-- A port after GET_EVENT: the oldest entry has left, the overflow mark is clear, and the attention line is released
with the last entry (R203, R204). -/
def takeEvent (x : PortState) : PortState :=
  { x with queue := x.queue.tail, overflow := false, atn := !x.queue.tail.isEmpty }

/-- GET_EVENT as the port unit takes it (R203). -/
def serveGetEvent (p : Port) (body : List Byte) (s : State) : Reply × State :=
  match readNone body with
  | some _ => (eventReply (s.port p), s.setPort p (takeEvent (s.port p)))
  | none => (malformed, s)

/-- GET_EVENT (R203). -/
def execGetEvent (p : Port) (tag : Byte) (body : List Byte) (s : State) : Host.Outcome State Fault Refusal :=
  .next (request .getEvent p tag body (serveGetEvent p body) s)

/-- SET_EVENTS as the port unit takes it (R202). -/
def serveSetEvents (p : Port) (body : List Byte) (s : State) : Reply × State :=
  match readMask body with
  | some m => ({ status := .ok, results := natBytes16 m.toNat }, s.setPort p { s.port p with mask := m })
  | none => (malformed, s)

/-- SET_EVENTS (R202). -/
def execSetEvents (p : Port) (tag : Byte) (body : List Byte) (s : State) : Host.Outcome State Fault Refusal :=
  .next (request .setEvents p tag body (serveSetEvents p body) s)

end Sys2Proof.Machine
end

