-- ==== Sys2Proof/Machine/Resets.lean ====
section
/-! DEFINITION. RESET, the reset line, and the supply (R33, R96, R103, R179, R206 to R208). -/

namespace Sys2Proof.Machine

/-! ### RESET (R207) -/

/-- A RESET that passes the checks of R196 (R207): it takes effect at once, or its port stays SERVING with no reply
until the write that is running completes. -/
def takeReset (p : Port) (tag : Byte) (s : State) : State :=
  if calWriting s then
    resetArrives .request (beginServing p tag (requestCode .reset) none s)
  else resetArrives .request s

/-- RESET as the port unit takes it on a FREE port (R196, R207). -/
def serveReset (p : Port) (tag : Byte) (body : List Byte) (s : State) : State :=
  if permitted .reset p then
    match readNone body with
    | some _ => takeReset p tag s
    | none => beginServing p tag (requestCode .reset) (some malformed) s
  else beginServing p tag (requestCode .reset) (some (Reply.only .notPermitted)) s

/-- RESET (R207). -/
def execReset (p : Port) (tag : Byte) (body : List Byte) (s : State) : Host.Outcome State Fault Refusal :=
  .next (takeFrame p tag (requestCode .reset) (serveReset p tag body) (clockFrame p body s))

/-! ### The reset line (R179) -/

/-- RESET_LINE (R179): a fall of RESET_N after the line has been seen high. -/
def execResetLine (s : State) : Host.Outcome State Fault Refusal :=
  .next
    (if s.power && s.ptu.lineArmed then resetArrives .line { s with ptu := { s.ptu with lineArmed := false } } else s)

/-- RESET_N_HIGH (R179): the next fall is taken. -/
def execResetNHigh (s : State) : Host.Outcome State Fault Refusal :=
  .next (if s.power then { s with ptu := { s.ptu with lineArmed := true } } else s)

/-! ### The supply (R33, R96) -/

/-- POWER_ON: every block takes its initial state, and the calibration store is read (R33, R96). -/
def execPowerOn (s : State) : Host.Outcome State Fault Refusal :=
  .next { State.initial s.cst.nv with pending := s.pending }

/-- A port without supply. -/
def PortState.dark : PortState :=
  { rx := [], serving := none, busy := none, busyTurn := false, queue := [], overflow := false, mask := 0, atn := false }

/-- A part without supply keeps its nonvolatile memory and nothing else (R96). -/
def unsupplied (nv : Nonvolatile) : State :=
  let s := State.initial nv
  { s with
    power := false
    ptu := { s.ptu with supervisor := PortState.dark, cell := PortState.dark, pendant := PortState.dark } }

/-- POWER_LOSS (R96): a write that was running leaves its table's nonvolatile mark clear and the counter as it stood,
which the nonvolatile memory already shows. -/
def execPowerLoss (s : State) : Host.Outcome State Fault Refusal :=
  .next { unsupplied s.cst.nv with pending := s.pending }

end Sys2Proof.Machine
end

