-- ==== Sys2Proof/Machine/LoadChannel.lean ====
section
/-! DEFINITION. The load channel (chapter 4): conversion, range selection, settling, tare collection, hard overload,
and the force limit of R92. -/

namespace Sys2Proof.Machine

/-- A sample set on its way down the chain: what was latched, the forces with their marks (R86), whether a start tare
was running and whether a quiesce was in progress when the set arrived, and the order of its reports. -/
structure Flight where
  set : SampleSet
  before : Int
  after : Int
  range : Range
  held : Bool
  settle : Bool
  miss : Bool
  tareSet : Bool
  quiesce : Bool
  w : SetOrder
  deriving DecidableEq, Repr

/-- One segment of a conversion table (R85). -/
def interpolate (p q : LoadPoint) (c : Int) : Int :=
  satForce (p.force + roundDiv ((c - p.count) * (q.force - p.force)) (q.count - p.count))

/-- A code converted on the segment that contains it; the first and the last segment extend (R85). -/
def convertOn (c : Int) : List LoadPoint → Int
  | p :: q :: rest => if rest.isEmpty || decide (c < q.count) then interpolate p q c else convertOn c (q :: rest)
  | _ => 0

/-- The conversion table of a range (R85). -/
def rangeTable (t : Tables) : Range → List LoadPoint
  | .r1 => t.loadR1.getD []
  | .r2 => t.loadR2.getD []
  | .r3 => t.loadR3.getD []

/-- A saturated code (R83). -/
def saturated (c : Int) : Bool := decide (c = 8388607) || decide (c = -8388608)

/-- One step toward range 1. -/
def rangeUp : Range → Range
  | .r3 => .r2
  | _ => .r1

/-- Fnom of a set's frame table. -/
def fnomOf (t : Tables) : Int := (t.frame.getD Frame.blank).fnom

/-- The force before tare of a code (R85, R87). -/
def forceBefore (t : Tables) (r : Range) (c : Int) : Int :=
  if tablesProgrammed t then convertOn c (rangeTable t r) else 0

/-- The range decision on a valid conversion (R81, R83, R84). -/
def decideRange (t : Tables) (lock : Bool) (r : Range) (c : Int) : Range :=
  let f := absI (forceBefore t r c)
  let fnom := fnomOf t
  if saturated c && r != .r1 then rangeUp r
  else if !tablesProgrammed t then r
  else match r with
    | .r1 => if !lock && decide (100 * f < 16 * fnom) then .r2 else .r1
    | .r2 =>
      if 18 * fnom < 100 * f then .r1
      else if !lock && decide (1000 * f < 32 * fnom) then .r3
      else .r2
    | .r3 => if 36 * fnom < 1000 * f then .r2 else .r3

/-- The hard overload state at a valid conversion (R93). -/
def hardAt (t : Tables) (r : Range) (c : Int) : Bool :=
  (tablesProgrammed t && decide (105 * fnomOf t < 100 * absI (forceBefore t r c))) || (saturated c && r == .r1)

/-- A set in flight whose force is held (R82, R87). -/
def heldFlight (l : Lch) (x : SampleSet) (miss tareSet quiesce : Bool) (w : SetOrder) : Flight :=
  { set := x, before := l.lastBefore, after := l.lastAfter, range := l.lastRange, held := true, settle := x.settling,
    miss := miss, tareSet := tareSet, quiesce := quiesce, w := w }

/-- A set in flight with the force of its own conversion (R85, R86). -/
def validFlight (l : Lch) (x : SampleSet) (c : Int) (tareSet quiesce : Bool) (w : SetOrder) : Flight :=
  let before := forceBefore x.tables x.range c
  { set := x, before := before, after := if tablesProgrammed x.tables then satForce (before - l.tare) else 0,
    range := x.range, held := false, settle := false, miss := false, tareSet := tareSet, quiesce := quiesce, w := w }

/-- The load channel after a valid conversion: the selected range with the settling conversion of a switch (R81,
R82), the hard overload state (R93), and the forces a held set would carry (R87). -/
def lchAfter (l : Lch) (fl : Flight) (c : Int) : Lch :=
  let r := decideRange fl.set.tables l.lock fl.set.range c
  { l with
    range := r
    settleNext := r != fl.set.range
    hard := hardAt fl.set.tables fl.set.range c
    lastBefore := fl.before
    lastAfter := fl.after
    lastRange := fl.range }

/-- Whether a start tare is running. -/
def startTareRunning (s : State) : Bool :=
  match s.lch.tareRun with
  | some { kind := .start, .. } => true
  | _ => false

/-- The index a set will carry in the resident test (R2). -/
def setIndex (s : State) : Nat :=
  match s.live with
  | some l => nextIndex l.rt
  | none => 0

/-- Conversion, hold, range decision and hard overload of a set (R81 to R87, R93). -/
def lchConvert (x : SampleSet) (conv : Option (BitVec 24)) (w : SetOrder) (s : State) : State × Flight :=
  let tareSet := startTareRunning s
  let quiesce := s.ctx.changeover.isSome
  match conv, x.settling with
  | some code, false =>
    let c := code24 code
    let fl := validFlight s.lch x c tareSet quiesce w
    let was := s.lch.hard
    let s := { s with lch := lchAfter s.lch fl c }
    (if s.lch.hard && !was then post w.faultLast (.fault .hardLoad) s else s, fl)
  | _, _ => (s, heldFlight s.lch x conv.isNone tareSet quiesce w)

/-- SETTLE is set in the resident test by a settling set (R82). -/
def settleMark (fl : Flight) (s : State) : State :=
  match s.residentSlot with
  | some k =>
    if fl.settle then
      post (decide (Mark.settle ∈ fl.w.late)) (.mark k .settle 0 (BitVec.ofNat 32 (setIndex s))) s
    else s
  | none => s

/-- A tare completes (R89): the new tare applies from the next set, TARE_DONE is queued, and a start tare offers its
EVENT record (R91, R184). -/
def finishTare (run : TareRun) (s : State) : State :=
  let t := satForce (roundDiv run.sum 64)
  let s := { s with lch :=
    { s.lch with tare := t, tareRun := none, lastAfter := satForce (s.lch.lastBefore - t) } }
  match run.kind, s.residentSlot with
  | .port p, _ => raiseEvent (some p) (.tareDone t none) s
  | .start, some k =>
    let index := setIndex s
    let s := { s with live := s.live.map fun l => { l with rt := { l.rt with tareDone := true } } }
    offerEvent .tare (BitVec.ofNat 32 index) k 1 t (raiseEvent none (.tareDone t (some k)) s)
  | .start, none => s

/-- Whether a running tare collects a set (R89, R91). -/
def collects (run : TareRun) (fl : Flight) : Bool :=
  !fl.held && (run.kind != .start || !fl.quiesce)

/-- A running tare collects the force before tare of a set (R89). -/
def collectTare (fl : Flight) (s : State) : State :=
  match s.lch.tareRun with
  | some run =>
    if collects run fl then
      let run := { run with sum := run.sum + fl.before, count := run.count + 1 }
      if Config.tareSamples ≤ run.count then finishTare run s
      else { s with lch := { s.lch with tareRun := some run } }
    else s
  | none => s

/-- The frame line unit compares the force with the test's `F_lim` (R92). -/
def overloadCheck (fl : Flight) (s : State) : State :=
  match s.residentSlot with
  | some k =>
    if !fl.held && decide ((s.slot k).order.fLim < absI fl.after) then
      post (decide (Mark.overload ∈ fl.w.late)) (.mark k .overload fl.after (BitVec.ofNat 32 (setIndex s))) s
    else s
  | none => s

end Sys2Proof.Machine
end

