-- ==== Sys2Proof/Machine/Extension.lean ====
section
/-! DEFINITION. The extension channel (chapter 5): lanes, crosshead strain, channel states, slip, handover and
removal, in the order of R113. -/

namespace Sys2Proof.Machine

/-- What the channel hands on with a set: the strain in use, the lane extensions when the lanes were processed, and
the removal-start mark, forced or not (R113). -/
structure XOut where
  strain : Int
  exts : Option (Int × Int)
  removal : Option Bool
  deriving DecidableEq, Repr

/-- What the channel finds out about the lanes of a set (R105, R106). -/
structure LaneFacts where
  processed : Bool
  valid : Bool
  bad : Bool
  deriving DecidableEq, Repr

/-- The scales a set is processed with (R107). -/
def armScales (t : Tables) : Arms := t.arms.getD Arms.default

/-- A scaled count (R105), not saturated (log entry 33). -/
def scaledCount (count scale : Int) : Int := roundDiv (count * scale) 1000000

/-- The lanes stop being processed: ext, previous ext and the current jump mark go (R105). -/
def Lane.quiet (l : Lane) : Lane := { l with ext := none, prev := none, jumpNow := false }

/-- The channel becomes DETACHED: its zeros are discarded and EXT_REL is off; the sticky flags and the slipped mark
stay (R116, R121), and so does the removal owner (log entry 39). -/
def Xch.detach (x : Xch) : Xch :=
  { x with
    state := .detached
    laneA := { x.laneA.quiet with zero := none }
    laneB := { x.laneB.quiet with zero := none }
    delta := none
    timer := .stopped
    extRel := false }

/-- A lane's zero captured at a set (R115). -/
def captureLane (count scale : Int) : Lane :=
  { zero := some (scaledCount count scale), ext := some 0, prev := some 0, count := count, jumpNow := false,
    jump := false }

/-- Zero capture (R115). -/
def Xch.capture (x : Xch) (t : Tables) (a b : Int) : Xch :=
  { x with
    state := .attached
    laneA := captureLane a (armScales t).a
    laneB := captureLane b (armScales t).b
    diverge := false
    slipped := false
    lastGood := some 0
    delta := some 0 }

/-- The DETACHED event and, when a test is resident, its EVENT record (R128, R184). -/
def announceDetached (left : ChannelState) (owner : Option SlotId) (value : Int) (s : State) : State :=
  let s := raiseEvent none (.detached left owner) s
  match s.residentSlot with
  | some k => offerEvent .detached (BitVec.ofNat 32 (setIndex s)) k (channelCode left) value s
  | none => s

/-- The count a removal timer shows. -/
def timerCount : RemovalTimer → Nat
  | .stopped => 0
  | .running n => n
  | .expired n => n

/-- The removal timer at a set in RELEASING (R121). -/
def tickTimer : RemovalTimer → RemovalTimer
  | .running n => .running (n + 1)
  | t => t

/-- RMFAIL reaches the removal owner's slot (R122).  The state of the slot at the timeout decides how it acts, so only the
mark of the RESIDENT test can come behind a completion of the set (R32). -/
def removalTimedOut (fl : Flight) (s : State) : State :=
  match s.xch.owner with
  | some k =>
    post (decide (s.residentSlot = some k ∧ Mark.rmfail ∈ fl.w.late))
      (.mark k .rmfail 0 (BitVec.ofNat 32 (setIndex s))) s
  | none => s

/-- A set in RELEASING (R121, R122). -/
def releasingStep (fl : Flight) (s : State) : State :=
  let timer := tickTimer s.xch.timer
  if fl.set.extSeated then
    match timer with
    | .running n =>
      if n = s.xch.limit then removalTimedOut fl { s with xch := { s.xch with timer := .expired n } }
      else { s with xch := { s.xch with timer := timer } }
    | _ => s
  else announceDetached .releasing s.xch.owner (timerCount timer) { s with xch := s.xch.detach }

/-- Step 1 of R113: seating, zero capture, seat loss, and the removal timer (R114 to R116, R121).  The Bool is
whether this set captured the zeros. -/
def channelStep (fl : Flight) (s : State) : State × Bool :=
  match s.xch.state with
  | .detached => (if fl.set.extSeated then { s with xch := { s.xch with state := .seating } } else s, false)
  | .seating =>
    if fl.set.extSeated then ({ s with xch := s.xch.capture fl.set.tables fl.set.armA fl.set.armB }, true)
    else (announceDetached .seating none 0 { s with xch := s.xch.detach }, false)
  | .attached =>
    if fl.set.extSeated || s.residentSlot.isSome then (s, false)
    else (announceDetached .attached none 0 { s with xch := s.xch.detach }, false)
  | .releasing => (releasingStep fl s, false)

/-- A lane's zero under a new scale: the last count on the new scale, less the previous ext (R107, log entry 20). -/
def rebaseLane (scale : Int) (l : Lane) : Lane :=
  match l.zero, l.prev with
  | some _, some p => { l with zero := some (sat32 (scaledCount l.count scale - p)) }
  | _, _ => l

/-- One lane of an ATTACHED set (R105). -/
def laneStep (count scale : Int) (err : Bool) (jumpLim : Option Int) (l : Lane) : Lane :=
  let ext := sat32 (scaledCount count scale - l.zero.getD 0)
  let jumped := match jumpLim, l.prev with
    | some lim, some p => decide (lim < absI (ext - p))
    | _, _ => false
  let now := err || jumped
  { l with ext := some ext, prev := some ext, count := count, jumpNow := now, jump := l.jump || now }

/-- The order whose limits the lanes are held to: that of the slot the binding names (R105). -/
def boundOrder (s : State) : Option TestOrder := s.ctx.binding.map fun k => (s.slot k).order

/-- The extension of a lane, 0 where it has none. -/
def Lane.extD (l : Lane) : Int := l.ext.getD 0

/-- Step 2 of R113: the lanes of an ATTACHED set (R105 to R107).  The first set latched after a write of ARMS re-bases the
zeros, whatever the scales written (R107). -/
def lanesStep (fl : Flight) (captured : Bool) (s : State) : State × LaneFacts :=
  let scales := armScales fl.set.tables
  let x := s.xch
  if x.state = .attached then
    if captured then
      ({ s with xch := { x with armsAt := fl.set.armsAt } }, { processed := false, valid := true, bad := false })
    else
      let lim := boundOrder s
      let rebased := decide (fl.set.armsAt ≠ x.armsAt)
      let a0 := if rebased then rebaseLane scales.a x.laneA else x.laneA
      let b0 := if rebased then rebaseLane scales.b x.laneB else x.laneB
      let a := laneStep fl.set.armA scales.a fl.set.armAErr (lim.map (·.jumpLim)) a0
      let b := laneStep fl.set.armB scales.b fl.set.armBErr (lim.map (·.jumpLim)) b0
      let diverges := match lim with
        | some o => decide (o.divLim < absI (a.extD - b.extD))
        | none => false
      let delta := roundDiv (a.extD + b.extD) 2
      let bad := a.jumpNow || b.jumpNow || diverges
      let valid := !x.slipped && fl.set.extSeated && !bad
      ({ s with xch :=
          { x with
            laneA := a
            laneB := b
            diverge := x.diverge || diverges
            delta := some delta
            lastGood := if valid then some delta else x.lastGood
            armsAt := fl.set.armsAt } },
       { processed := true, valid := valid, bad := bad })
  else ({ s with xch := { x with armsAt := fl.set.armsAt } }, { processed := false, valid := false, bad := false })

/-- The machine compliance of a set (R109). -/
def complianceOf (t : Tables) : Int := t.compliance.getD 0

/-- The frame's deflection (R108). -/
def deflection (cm force : Int) : Int := roundDiv (cm * force) 1000000

/-- The crosshead strain (R108). -/
def crossheadStrain (p posRef force cm lc : Int) : Int :=
  sat32 (roundDiv (100000000 * (10 * (p - posRef) - deflection cm force)) lc)

/-- The extensometer strain of an averaged extension (R106). -/
def extStrain (delta l0 : Int) : Int := sat32 (roundDiv (100000000 * delta) l0)

/-- A handover to XHD (R111, R112). -/
def handover (k : SlotId) (cause : HandoverCause) (carried ex : Int) (s : State) : State :=
  let off := sat32 (carried - ex)
  let s := { s with live := s.live.map fun l => { l with rt := { l.rt with source := .xhd, offset := some off } } }
  let s := raiseEvent none (.handover k cause carried off) s
  offerEvent .handover (BitVec.ofNat 32 (setIndex s)) k (handoverCode cause) carried s

/-- The slipped mark is set (R117, R118). -/
def setSlipped (s : State) : State := { s with xch := { s.xch with slipped := true } }

/-- Step 4 of R113: slip detection with its handover, the handover at resume, and the slipped mark of R118. -/
def slipStep (fl : Flight) (f : LaneFacts) (ex : Int) (s : State) : State :=
  match s.residentSlot, s.live with
  | some k, some l =>
    let o := (s.slot k).order
    match l.rt.source, l.rt.offset with
    | .ext, _ =>
      if f.valid then s
      else
        let s := handover k .slip (extStrain (s.xch.lastGood.getD 0) o.l0) ex (setSlipped s)
        post (decide (Mark.slip ∈ fl.w.late)) (.mark k .slip 0 (BitVec.ofNat 32 (setIndex s))) s
    | .xhd, none =>
      handover k .resume (l.rt.lastExt.getD 0) ex (if f.bad then setSlipped s else s)
    | .xhd, some _ => if f.bad then setSlipped s else s
  | _, _ => if f.bad then setSlipped s else s

/-- The strain in use at a set (R110). -/
def strainInUse (k : SlotId) (ex : Int) (l : Live) (s : State) : Int :=
  match l.rt.source with
  | .ext => extStrain (s.xch.delta.getD 0) (s.slot k).order.l0
  | .xhd => sat32 (ex + l.rt.offset.getD 0)

/-- What the removal test of R119 finds: whether removal begins, and whether it is forced. -/
def removalTest (fl : Flight) (o : TestOrder) (l : Live) (strain : Int) : Option Bool :=
  if fl.tareSet || !l.rt.eval.opened || decide (o.eRm = 0) || l.rt.source != .ext || decide (strain < o.eRm) then none
  else if l.rt.eval.settled then some false
  else if sat32 (o.eRm + 2000000) ≤ strain then some true
  else none

/-- Removal begins (R120). -/
def beginRemoval (k : SlotId) (strain ex : Int) (s : State) : State :=
  let s := handover k .removal strain ex s
  { s with xch :=
    { s.xch with
      state := .releasing
      laneA := s.xch.laneA.quiet
      laneB := s.xch.laneB.quiet
      delta := none
      timer := .running 0
      owner := some k
      limit := (s.slot k).order.rmTimeout
      extRel := true } }

/-- Step 6 of R113: the record of a PARKED test with saved source EXT is lost (R125). -/
def parkedWatch (s : State) : State :=
  match s.ctx.binding with
  | some k =>
    match (s.slot k).state, (s.slot k).runtime with
    | .parked, some rt =>
      if rt.source = .ext ∧ (s.xch.state ≠ .attached ∨ s.xch.slipped = true) then
        s.setSlot k { s.slot k with runtime := some { rt with source := .xhd, offset := none } }
      else s
    | _, _ => s
  | none => s

/-- The reference position of the resident test: the crosshead count of test sample 0 (R18, R108). -/
def seatPosRef (p : Int) (s : State) : State :=
  { s with live := s.live.map fun l => { l with rt := { l.rt with posRef := some (l.rt.posRef.getD p) } } }

/-- The crosshead strain of a set of the resident test (R108). -/
def setCrosshead (fl : Flight) (k : SlotId) (s : State) : Int :=
  crossheadStrain fl.set.xh ((s.live.bind (·.rt.posRef)).getD fl.set.xh) fl.after (complianceOf fl.set.tables)
    (s.slot k).order.lc

/-- Steps 3 to 5 of R113 for a set of a resident test. -/
def residentStrain (fl : Flight) (f : LaneFacts) (k : SlotId) (s : State) : State × Int × Option Bool :=
  let s := seatPosRef fl.set.xh s
  let ex := setCrosshead fl k s
  let s := slipStep fl f ex s
  match s.live with
  | none => (s, 0, none)
  | some l =>
    let strain := strainInUse k ex l s
    match removalTest fl (s.slot k).order l strain with
    | some forced =>
      let s := beginRemoval k strain ex s
      (s, (match s.live with | some l => strainInUse k ex l s | none => strain), some forced)
    | none => (s, strain, none)

/-- The lane extensions a set carries on: those of the lanes when they were processed (R113). -/
def handedExts (processed : Bool) (x : Xch) : Option (Int × Int) :=
  if processed then some (x.laneA.extD, x.laneB.extD) else none

/-- A set at the extension channel (R113). -/
def xchStep (fl : Flight) (s : State) : State × XOut :=
  let (s, captured) := channelStep fl s
  let (s, f) := lanesStep fl captured s
  let exts := handedExts f.processed s.xch
  match s.residentSlot with
  | some k =>
    let (s, strain, removal) := residentStrain fl f k s
    (parkedWatch s, { strain := strain, exts := exts, removal := removal })
  | none => (parkedWatch (slipStep fl f 0 s), { strain := 0, exts := exts, removal := none })

end Sys2Proof.Machine
end

