-- ==== Sys2Proof/Machine/Motion.lean ====
section
/-! DEFINITION. The motion sequencer (chapters 2 and 3): banks and end conditions, the demand in its eight steps, the
quiesce ramp, the compliance tracker, the velocity estimate and the SAMPLE candidate. -/

namespace Sys2Proof.Machine

/-! ### The demand as arithmetic (R59 to R65, R71) -/

/-- The setpoint and the remainder after one advance (R59). -/
def advance (rate q : Int) (rem : Nat) : Int × Nat :=
  let whole := Int.tdiv rate 1000
  let rem' := rem + rate.natAbs % 1000
  if 1000 ≤ rem' then (sat32 (q + whole + signI rate), rem' - 1000) else (sat32 (q + whole), rem')

/-- The error of a sample, saturated to ±2,147,483,647 (R60). -/
def errorOf (q measured : Int) : Int := clamp (-Config.maxI32) Config.maxI32 (q - measured)

/-- The inner rate (R60). -/
def innerRate (rate kp e : Int) : Int := sat32 (rate + roundDiv (kp * e) 256)

/-- The k of POSITION mode: 100 nm per count (R61). -/
def positionK : Int := 1677721600

/-- The raw velocity (R61). -/
def rawVelocity (k inner : Int) : Int := sat32 (roundDiv (k * inner) 16777216)

/-- The ceiling C: the lesser of Vfs and the bank's `v_max` (R62). -/
def ceilingOf (vfs vmax : Int) : Int := if vfs < vmax then vfs else vmax

/-- Whether a velocity is directed outward at or beyond a bound of the travel window (R63). -/
def outward (v pos lo hi : Int) : Bool :=
  (decide (0 < v) && decide (hi ≤ pos)) || (decide (v < 0) && decide (pos ≤ lo))

/-- The slew step (R64). -/
def slewStep (aMax : Int) : Int := aMax / 1000

/-- The slew limit (R64). -/
def slew (prev s v : Int) : Int := clamp (prev - s) (prev + s) v

/-- The quiesce ramp (R71). -/
def rampTo0 (prev s : Int) : Int := if s < prev then prev - s else if prev < -s then prev + s else 0

/-- The DAC code (R65). -/
def dacCode (v vfs : Int) : Int := clamp (-32767) 32767 (roundDiv (32767 * v) vfs)

/-- A velocity stopped at a window bound: 0, with whether it was stopped (R63). -/
def windowStop (v pos lo hi : Int) : Int × Bool := if outward v pos lo hi then (0, true) else (v, false)

/-- The bounds that take precedence over the slew and the ramp: the ceiling, then the window (R64). -/
def finalBounds (v c pos lo hi : Int) : Int × Bool := windowStop (clamp (-c) c v) pos lo hi

/-! ### The resident context as the sequencer sees it -/

/-- The travel window of the resident context (R59, R63): a test's own, or the hard window. -/
def travelWindow (s : State) : Int × Int :=
  match s.residentSlot with
  | some k => ((s.slot k).order.winLo, (s.slot k).order.winHi)
  | none => (s.frame.hardLo, s.frame.hardHi)

/-- What the sequencer reads from the evaluated sample. -/
structure Measured where
  pos : Int
  stress : Int
  strain : Int
  force : Int
  deriving DecidableEq, Repr

/-- The measured Q of a mode (R58). -/
def measuredQ (m : Mode) (x : Measured) : Int :=
  match m with
  | .position => x.pos
  | .stress => x.stress
  | .strain => x.strain

/-- The k of a mode (R61). -/
def kOf (m : Mode) (live : Option Live) : Int :=
  match m, live with
  | .stress, some l => l.rt.kS
  | .strain, some l => l.rt.kE
  | _, _ => positionK

/-- TRAVEL is set in the resident test, with the crosshead count (R59, R63, R184); in the service context there is no
mark. -/
def markTravel (on : Bool) (x : Measured) (s : State) : State :=
  match on, s.residentSlot with
  | true, some k => setMark k .travel x.pos (lastIndex s k 7) s
  | _, _ => s

/-- The setpoint takes a value, held within the travel window in POSITION mode (R59). -/
def putSetpoint (m : Mode) (q : Int) (x : Measured) (s : State) : State :=
  let w := travelWindow s
  let q' := if m = .position then clamp w.1 w.2 q else q
  markTravel (q' != q) x { s with msq := { s.msq with qSet := some q' } }

/-- The rate of a MOVE, signed toward its target from the setpoint (R55). -/
def rateToward (q target speed : Int) : Int := signI (target - q) * speed

/-- The setpoint is seated on the measured quantity (R39, R53, R74); a MOVE taken before the service context had a
setpoint gets its direction from it (log entry 12). -/
def seatSetpoint (b : Bank) (x : Measured) (s : State) : State :=
  let s := putSetpoint b.mode (measuredQ b.mode x) x { s with msq := { s.msq with remainder := 0, seat := false } }
  match s.msq.target, s.msq.qSet with
  | some t, some q => { s with msq := { s.msq with active := some { b with rate := rateToward q t s.msq.speed } } }
  | _, _ => s

/-! ### Banks and end conditions (R38 to R49) -/

/-- The test's counted samples go up by one at the arrival of a set (R2). -/
def countSample (s : State) : State :=
  { s with live := s.live.map fun l => { l with rt := { l.rt with count := min (Config.maxU32 + 1) (l.rt.count + 1) } } }

/-- Step 1 of R38: a staged transition becomes active, the elapsed count is 0, and a change of mode seats the
setpoint (R39, R40). -/
def transitionFlip (x : Measured) (s : State) : State :=
  match s.msq.inactive with
  | some (.transition b) =>
    let was := s.msq.active.map (·.mode)
    let s := { s with
      msq := { s.msq with active := some b, inactive := none }
      live := s.live.map fun l => { l with rt := { l.rt with elapsed := 0 } } }
    if was = some b.mode then s else seatSetpoint b x s
  | _ => s

/-- The setpoint of a residency is seated at its first governing sample (R39, R74), a quiesce sample too (log entry 38).
-/
def firstSeat (fl : Flight) (x : Measured) (s : State) : State :=
  match s.msq.active with
  | some b => if s.msq.seat && !fl.tareSet then seatSetpoint b x s else s
  | none => s

/-- The port of a replaced amendment gets STAGE_SUPERSEDED (R50, R51). -/
def supersedeStage (s : State) : State :=
  match s.msq.inactive with
  | some (.amendment b p) => raiseEvent (some p) (.stageSuperseded s.residentSlot b.seg) s
  | _ => s

/-- Whether a value reaches an end value in the direction of a rate (R41). -/
def reaches (rate value target : Int) : Bool :=
  if rate < 0 then decide (value ≤ target) else decide (target ≤ value)

/-- Whether a value is at or above a bound that is present. -/
def atOrAbove (bound : Option Int) (x : Int) : Bool :=
  match bound with
  | some v => decide (v ≤ x)
  | none => false

/-- What an end test finds: the condition unmet, met, or a YIELD segment at its backup strain (R43). -/
inductive EndFound where
  | unmet
  | met
  | backup
  deriving DecidableEq, Repr

/-- The end condition of a segment (R41 to R44). -/
def endFound (g : Segment) (b : Bank) (l : Live) (st : ChannelState) (x : Measured) : EndFound :=
  let v := g.endValue.getD 0
  let ofBool (c : Bool) : EndFound := if c then .met else .unmet
  match g.endKind with
  | .positionReach => ofBool (reaches b.rate x.pos v)
  | .qReach => ofBool (reaches b.rate (measuredQ b.mode x) v)
  | .strainReach => ofBool (reaches b.rate x.strain v)
  | .forceReach => ofBool (reaches b.rate x.force v)
  | .yield =>
    if yieldSeen l.rt.eval then .met else if atOrAbove g.backup x.strain then .backup else .unmet
  | .time => ofBool (decide ((l.rt.elapsed : Int) = v))
  | .detached => ofBool (st == .detached)
  | .never => .unmet

/-- The end of the active segment (R45, R46): the next segment is staged, or END is raised. -/
def segmentEnd (k : SlotId) (b : Bank) (s : State) : State :=
  let o := (s.slot k).order
  if b.seg < o.segments.length then
    let s := supersedeStage s
    let s := { s with
      msq := { s.msq with inactive := (bankOf o (b.seg + 1)).map .transition }
      live := s.live.map fun l => { l with rt := { l.rt with segIndex := b.seg + 1 } } }
    if o.stepOn then setMark k .step 0 (lastIndex s k 8) s else s
  else raiseCause .endTest .internal none (some .programEnd) s

/-- The hold point (R48). -/
def holdPoint (k : SlotId) (x : Measured) (s : State) : State :=
  let o := (s.slot k).order
  match s.live with
  | some l =>
    if o.holdptOn && !l.rt.holdPassed && atOrAbove o.holdptStrain x.strain then
      let s := { s with live := some { l with rt := { l.rt with holdPassed := true } } }
      setMark k .holdpt x.strain (lastIndex s k 8) s
    else s
  | none => s

/-- A YIELD segment ends at its backup strain: YIELD_BACKUP with its EVENT record (R43). -/
def yieldBackup (k : SlotId) (x : Measured) (s : State) : State :=
  offerEvent .yieldBackup (lastIndex s k 8) k 0 x.strain (raiseEvent none (.yieldBackup k x.strain) s)

/-- The end test of the active segment (R41 to R45). -/
def endTest (k : SlotId) (x : Measured) (s : State) : State :=
  match s.live, s.msq.active with
  | some l, some b =>
    match (s.slot k).order.segments[b.seg - 1]? with
    | some g =>
      match endFound g b l s.xch.state x with
      | .unmet => s
      | .met => segmentEnd k b s
      | .backup => segmentEnd k b (yieldBackup k x s)
    | none => s
  | _, _ => s

/-- The segment elapsed count goes up before the test (R40); it is an unsigned 32-bit value, so it saturates at
4,294,967,295 (R1, log entry 50). -/
def countElapsed (s : State) : State :=
  { s with live := s.live.map fun l => { l with rt := { l.rt with elapsed := min Config.maxU32 (l.rt.elapsed + 1) } } }

/-- Step 2 of R38: the hold point, then the end condition; only in a test that neither quiesces nor tares (R40). -/
def segmentTests (fl : Flight) (x : Measured) (s : State) : State :=
  match s.residentSlot with
  | some k => if fl.quiesce || fl.tareSet then s else endTest k x (holdPoint k x (countElapsed s))
  | none => s

/-- Step 3 of R38: an amendment still waiting becomes active. -/
def amendmentFlip (s : State) : State :=
  match s.msq.inactive with
  | some (.amendment b _) => { s with msq := { s.msq with active := some b, inactive := none } }
  | _ => s

/-! ### The demand of a sample (R59 to R65, R71, R73) -/

/-- Step 1 of the demand: the setpoint advances; in the service context it stops at a target (R55, R59), the remainder
having advanced (log entry 37). -/
def advanceSetpoint (b : Bank) (q : Int) (x : Measured) (s : State) : State :=
  let a := advance b.rate q s.msq.remainder
  let s := { s with msq := { s.msq with remainder := a.2 } }
  match s.msq.target with
  | some t =>
    if b.rate ≠ 0 ∧ reaches b.rate a.1 t = true then
      putSetpoint b.mode t x { s with msq := { s.msq with active := some { b with rate := 0 } } }
    else putSetpoint b.mode a.1 x s
  | none => putSetpoint b.mode a.1 x s

/-- The demand, the DAC code and the previous demand are written (R64, R65). -/
def writeDemand (v : Int) (s : State) : State :=
  { s with msq := { s.msq with prevDemand := v, dac := dacCode v s.frame.vfs } }

/-- The ceiling run of a test after a sample (R62); it is not counted in the service context. -/
def ceilingRunAfter (test atCeiling : Bool) (run : Nat) : Nat :=
  if test then (if atCeiling then min 200 (run + 1) else 0) else run

/-- TRACK at a run of 200 (R62). -/
def trackMark (atCeiling : Bool) (s : State) : State :=
  match s.residentSlot with
  | some k =>
    if atCeiling && decide (s.msq.ceilingRun = 200) then setMark k .track 0 (lastIndex s k 8) s else s
  | none => s

/-- Steps 2 to 8 of the demand (R60 to R65). -/
def demandSteps (b : Bank) (x : Measured) (s : State) : State :=
  let q := s.msq.qSet.getD 0
  let inner := innerRate b.rate b.kp (errorOf q (measuredQ b.mode x))
  let raw := rawVelocity (kOf b.mode s.live) inner
  let c := ceilingOf s.frame.vfs b.vmax
  let v5 := clamp (-c) c raw
  let atCeiling := v5 != raw
  let w := travelWindow s
  let v6 := windowStop v5 x.pos w.1 w.2
  let v7 := finalBounds (slew s.msq.prevDemand (slewStep s.frame.aMax) v6.1) c x.pos w.1 w.2
  let run := ceilingRunAfter s.residentSlot.isSome atCeiling s.msq.ceilingRun
  let s := { s with msq := { s.msq with ceilingRun := run } }
  let s := markTravel (v6.2 || v7.2) x (trackMark atCeiling s)
  writeDemand v7.1 s

/-- The quiesce ramp in place of steps 1 to 6 (R71). -/
def quiesceDemand (b : Bank) (x : Measured) (s : State) : State :=
  let c := ceilingOf s.frame.vfs b.vmax
  let w := travelWindow s
  let v := finalBounds (rampTo0 s.msq.prevDemand (slewStep s.frame.aMax)) c x.pos w.1 w.2
  let s := { s with msq := { s.msq with ceilingRun := 0 } }
  writeDemand v.1 (markTravel v.2 x s)

/-- The demand is 0 (R65, R73). -/
def zeroDemand (s : State) : State := { s with msq := { s.msq with ceilingRun := 0, prevDemand := 0, dac := 0 } }

/-- The demand of a sample (3.2): 0 without a bank, without drive enable and during a start tare; the ramp during a
quiesce; the eight steps otherwise. -/
def demandOf (fl : Flight) (x : Measured) (s : State) : State :=
  match s.msq.active with
  | some b =>
    if fl.tareSet || !s.flu.drvEn then zeroDemand s
    else if fl.quiesce then quiesceDemand b x s
    else
      let s := advanceSetpoint b (s.msq.qSet.getD 0) x s
      demandSteps (s.msq.active.getD b) x s
  | none => zeroDemand s

/-! ### Velocity and still-count (R69, R72) -/

/-- The position history and the velocity estimate (R69); the count of a set latched before a ZERO_POSITION enters it as it
was latched (log entry 35). -/
def trackPosition (p : Int) (m : Msq) : Msq :=
  let v := match decide (m.history.length = Config.historyEntries), m.history with
    | true, old :: _ => some (sat32 ((p - old) * 6250))
    | _, _ => none
  { m with history := keepLast Config.historyEntries (m.history ++ [p]), velocity := v }

/-- Whether the crosshead counts as at rest (R72). -/
def atRest (v : Option Int) (vStill : Int) : Bool :=
  match v with
  | some v => decide (absI v ≤ vStill)
  | none => false

/-- The still-count at a quiesce sample (R72). -/
def stillStep (vStill : Int) (m : Msq) : Msq :=
  { m with stillCount := if atRest m.velocity vStill then min Config.maxU16 (m.stillCount + 1) else 0 }

/-! ### The compliance tracker (R66 to R68) -/

/-- One estimate after an update or a hold, before its clamp (R67). -/
def kUpdate (dq dp k : Int) : Int :=
  if 500 ≤ absI dq ∧ dp ≠ 0 ∧ signI dq = signI dp then
    k + roundDiv (roundDiv (dp * 16777216) dq - k) 8
  else k

/-- The tracker at a sample of a resident test (R66 to R68). -/
def trackCompliance (x : Measured) (s : State) : State :=
  match s.residentSlot, s.live with
  | some k, some l =>
    let o := (s.slot k).order
    let now : Triple := { pos := x.pos, stress := x.stress, strain := x.strain }
    let ring := keepLast Config.ringEntries (s.msq.ring ++ [now])
    match decide (s.msq.ring.length = Config.ringEntries), s.msq.ring with
    | true, old :: _ =>
      let dp := (x.pos - old.pos) * 100
      let kS := kUpdate (x.stress - old.stress) dp l.rt.kS
      let kE := kUpdate (x.strain - old.strain) dp l.rt.kE
      let kS' := clamp o.kSMin o.kSMax kS
      let kE' := clamp o.kEMin o.kEMax kE
      let s := { s with
        msq := { s.msq with ring := ring }
        live := some { l with rt := { l.rt with kS := kS', kE := kE' } } }
      if kS' ≠ kS ∨ kE' ≠ kE then setMark k .kclamp 0 (lastIndex s k 8) s else s
    | _, _ => { s with msq := { s.msq with ring := ring } }
  | _, _ => s

/-! ### The SAMPLE candidate (R182, R183) -/

/-- The SAMPLE candidate of a sample, offered when R183 says so and kept for the end of the residency otherwise. -/
def sampleCandidate (fl : Flight) (exts : Option (Int × Int)) (x : Measured) (s : State) : State :=
  match s.residentSlot, s.live with
  | some k, some l =>
    let o := (s.slot k).order
    let index := l.rt.count - 1
    let words := sampleRecord o.laneDetail o.demandDetail
      { index := index, force := fl.after, xh := fl.set.xh, strain := x.strain, source := l.rt.source,
        range := fl.range, held := fl.held, settle := fl.settle, miss := fl.miss, exts := exts, dac := s.msq.dac }
    let l' := { l with
      resumed := false
      cand := some { words := words, index := index }
      latest := some { force := x.force, stress := x.stress, strain := x.strain } }
    let s := { s with live := some l' }
    if index % (max 1 o.recordInterval) = 0 ∨ l.resumed = true then offerLast true k s else s
  | _, _ => s

/-- A set at the motion sequencer (3.2).  Fractures kept back by the order of the set are taken after its tests
(R45). -/
def msqStep (fl : Flight) (x : Measured) (exts : Option (Int × Int)) (s : State) : State :=
  let s := firstSeat fl x (transitionFlip x (countSample s))
  let s := drain Report.isFracture (segmentTests fl x s)
  let s := demandOf fl x (amendmentFlip s)
  let s := { s with msq := trackPosition fl.set.xh s.msq }
  let s := if fl.quiesce then { s with msq := stillStep s.frame.vStill s.msq } else s
  sampleCandidate fl exts x (trackCompliance x s)

end Sys2Proof.Machine
end

