-- ==== Sys2Proof/Machine/Service.lean ====
section
/-! DEFINITION. Requests on motion and the tare: JOG, JOG_STOP, MOVE, AMEND, ZERO_POSITION and TARE (R27, R50, R54 to
R56, R88, R178). -/

namespace Sys2Proof.Machine

/-! ### The service context (R27, R54 to R56) -/

/-- The checks of R54 in their order. -/
def motionRefusal (s : State) : Option Reply :=
  if s.ctx.changeover.isSome then some (Reply.only .changeover)
  else if s.ctx.phase = .service then none
  else if s.ctx.phase ≠ .idle then some (Reply.only .state)
  else if calWindowOpen s then some (Reply.notReady .calWindow)
  else if s.inForce.frame.isNone then some (Reply.notReady .tables)
  else none

/-- A motion request accepted in IDLE makes the service context resident (R27). -/
def ensureService (p : Port) (s : State) : State :=
  if s.ctx.phase = .idle then announcePhase (enterService (some p) s) else s

/-- The service segment gets a rate, and a target with its speed in counts per second (R54, R55); the requesting port
holds the service context (R56). -/
def setService (p : Port) (rate : Int) (target : Option Int) (speed : Int) (s : State) : State :=
  { s with
    msq := { s.msq with
      active := s.msq.active.map fun b => { b with rate := rate }
      target := target
      speed := speed }
    ctx := { s.ctx with holder := some p } }

/-- The rate of a velocity in nm/s: counts of 100 nm per second (R54, R55). -/
def countRate (v : Int) : Int := roundDiv v 100

/-- JOG at a velocity (R54). -/
def jogAt (p : Port) (v : Int) (s : State) : Reply × State :=
  match motionRefusal s with
  | some r => (r, s)
  | none =>
    let v' := clamp (-s.frame.jogMax) s.frame.jogMax v
    (Reply.only (if v' = v then .ok else .clamped), setService p (countRate v') none 0 (ensureService p s))

/-- JOG as the port unit takes it. -/
def serveJog (p : Port) (body : List Byte) (s : State) : Reply × State :=
  match readJog body with
  | some v => jogAt p v s
  | none => (malformed, s)

/-- JOG (R54). -/
def execJog (p : Port) (tag : Byte) (body : List Byte) (s : State) : Host.Outcome State Fault Refusal :=
  .next (request .jog p tag body (serveJog p body) s)

/-- JOG_STOP as the port unit takes it (R54). -/
def serveJogStop (p : Port) (body : List Byte) (s : State) : Reply × State :=
  match readNone body with
  | none => (malformed, s)
  | some _ =>
    if s.ctx.changeover.isSome then (Reply.only .changeover, s)
    else if s.ctx.phase ≠ .service then (Reply.only .state, s)
    else (Reply.only .ok, setService p 0 none 0 s)

/-- JOG_STOP (R54). -/
def execJogStop (p : Port) (tag : Byte) (body : List Byte) (s : State) : Host.Outcome State Fault Refusal :=
  .next (request .jogStop p tag body (serveJogStop p body) s)

/-- The checks of R54, R56 and R55 on a MOVE, in their order. -/
def moveRefusal (p : Port) (speed : Int) (s : State) : Option Reply :=
  match motionRefusal s with
  | some r => some r
  | none =>
    if s.ctx.phase = .service ∧ s.ctx.holder ≠ none ∧ s.ctx.holder ≠ some p then some (Reply.only .notHolder)
    else if speed < 100 then some (Reply.only .range)
    else none

/-- The rate of a MOVE where the setpoint stands; 0 until the service context has one (R55, log entry 12). -/
def moveRate (q : Option Int) (target speed : Int) : Int :=
  match q with
  | some q => rateToward q target speed
  | none => 0

/-- MOVE to a target at a speed (R55). -/
def moveTo (p : Port) (target speed : Int) (s : State) : Reply × State :=
  match moveRefusal p speed s with
  | some r => (r, s)
  | none =>
    let v := if s.frame.jogMax < speed then s.frame.jogMax else speed
    let t := clamp s.frame.hardLo s.frame.hardHi target
    let s := ensureService p s
    (Reply.only (if v = speed ∧ t = target then .ok else .clamped),
      setService p (moveRate s.msq.qSet t (countRate v)) (some t) (countRate v) s)

/-- MOVE as the port unit takes it. -/
def serveMove (p : Port) (body : List Byte) (s : State) : Reply × State :=
  match readMove body with
  | some (t, v) => moveTo p t v s
  | none => (malformed, s)

/-- MOVE (R55). -/
def execMove (p : Port) (tag : Byte) (body : List Byte) (s : State) : Host.Outcome State Fault Refusal :=
  .next (request .move p tag body (serveMove p body) s)

/-! ### AMEND (R50) -/

/-- The end kind of the segment a bank holds, in the resident test. -/
def activeEndKind (b : Bank) (s : State) : Option EndKind :=
  s.residentSlot.bind fun k => ((s.slot k).order.segments[b.seg - 1]?).map (·.endKind)

/-- The checks of R50 in their order. -/
def amendRefusal (rate : Int) (b : Bank) (s : State) : Option Status :=
  if s.ctx.phase ≠ .test then some .state
  else if s.ctx.changeover.isSome then some .changeover
  else if startTareRunning s then some .state
  else
    match s.msq.inactive with
    | some (.transition _) => some .staged
    | _ => if rate = 0 ∧ activeEndKind b s = some .qReach then some .malformed else none

/-- The bank of an amendment, with the clamps of R35 (R50). -/
def amendedBank (vfs rate : Int) (vmax : Option Int) (b : Bank) : Bank :=
  { b with
    rate := if b.mode = .position then clamp (-(maxCountRate vfs)) (maxCountRate vfs) rate else rate
    vmax := match vmax with
      | some v => limitSpeed vfs v
      | none => b.vmax }

/-- Whether an amendment was limited (R50). -/
def amendClamped (rate : Int) (vmax : Option Int) (b : Bank) : Bool :=
  b.rate != rate || (match vmax with | some v => b.vmax != v | none => false)

/-- AMEND of the active segment (R50). -/
def amendActive (p : Port) (rate : Int) (vmax : Option Int) (s : State) : Reply × State :=
  match s.msq.active with
  | none => (Reply.only .state, s)
  | some b =>
    match amendRefusal rate b s with
    | some st => (Reply.only st, s)
    | none =>
      let b' := amendedBank s.frame.vfs rate vmax b
      let s := supersedeStage s
      (Reply.only (if amendClamped rate vmax b' then .clamped else .ok),
        { s with msq := { s.msq with inactive := some (.amendment b' p) } })

/-- AMEND as the port unit takes it; an undefined flag bit is MALFORMED ahead of the checks of R50 (R209, log entry 54). -/
def serveAmend (p : Port) (body : List Byte) (s : State) : Reply × State :=
  match readAmend body with
  | some (rate, vmax) => amendActive p rate vmax s
  | none => (malformed, s)

/-- AMEND (R50). -/
def execAmend (p : Port) (tag : Byte) (body : List Byte) (s : State) : Host.Outcome State Fault Refusal :=
  .next (request .amend p tag body (serveAmend p body) s)

/-! ### ZERO_POSITION (R178) -/

/-- A PARKED test's saved `pos_ref` under a new origin (R109). -/
def shiftPosRef (c : Int) (x : Slot) : Slot :=
  if x.state = .parked then
    { x with runtime := x.runtime.map fun rt => { rt with posRef := rt.posRef.map fun p => sat32 (p - c) } }
  else x

/-- The crosshead count is zeroed (R178, R69, R109). -/
def zeroPosition (s : State) : State :=
  { s with
    smu := { s.smu with xh := 0 }
    msq := { s.msq with history := [], velocity := none }
    ctx := { s.ctx with slots := s.ctx.slots.map (shiftPosRef s.smu.xh) } }

/-- ZERO_POSITION as the port unit takes it. -/
def serveZeroPosition (body : List Byte) (s : State) : Reply × State :=
  match readNone body with
  | none => (malformed, s)
  | some _ =>
    if s.ctx.phase = .idle then ({ status := .ok, results := be32 s.smu.xh }, zeroPosition s)
    else (Reply.only .state, s)

/-- ZERO_POSITION (R178). -/
def execZeroPosition (p : Port) (tag : Byte) (body : List Byte) (s : State) : Host.Outcome State Fault Refusal :=
  .next (request .zeroPosition p tag body (serveZeroPosition body) s)

/-! ### TARE (R88) -/

/-- TARE as the port unit takes it (R88). -/
def serveTare (p : Port) (body : List Byte) (s : State) : Reply × State :=
  match readNone body with
  | none => (malformed, s)
  | some _ =>
    if s.ctx.phase ≠ .idle ∧ s.ctx.phase ≠ .service then (Reply.only .state, s)
    else if s.ctx.changeover.isSome then (Reply.only .changeover, s)
    else if s.lch.tareRun.isSome then (Reply.only .busy, s)
    else if tablesProgrammed s.cst.work = false then (Reply.notReady .tables, s)
    else
      (Reply.only .accepted,
        { s with lch := { s.lch with tareRun := some { kind := .port p, sum := 0, count := 0 } } })

/-- TARE (R88). -/
def execTare (p : Port) (tag : Byte) (body : List Byte) (s : State) : Host.Outcome State Fault Refusal :=
  .next (request .tare p tag body (serveTare p body) s)

end Sys2Proof.Machine
end

