-- ==== Sys2Proof/Machine/Frames.lean ====
section
/-! DEFINITION. The receivers and the replies of the ports (R194 to R197): frames served by their code, bytes fed to a
receiver with the hunt that follows a discard, CELL_DE, and the end of a reply. -/

namespace Sys2Proof.Machine

/-! ### A completed frame by its code (R196) -/

/-- What the part does with a recognised request other than RESET. -/
def serveBody (r : Request) (p : Port) (body : List Byte) (s : State) : Reply × State :=
  match r with
  | .load => serveLoad body s
  | .promote => servePromote body s
  | .free => serveFree body s
  | .clearCondition => serveClearCondition body s
  | .readRecords => serveReadRecords body s
  | .move => serveMove p body s
  | .zeroPosition => serveZeroPosition body s
  | .reset => (malformed, s)
  | .next => serveNext body s
  | .bind => serveBind body s
  | .release => serveRelease body s
  | .jog => serveJog p body s
  | .jogStop => serveJogStop p body s
  | .hold => serveHold p body s
  | .start => serveStart body s
  | .abort => serveAbort p body s
  | .resume => serveResume p body s
  | .leave => serveLeave p body s
  | .tare => serveTare p body s
  | .clear => serveClear p body s
  | .amend => serveAmend p body s
  | .calOpen => serveCalOpen p body s
  | .calData => serveCalData p body s
  | .calCommit => serveCalCommit p body s
  | .calClose => serveCalClose p body s
  | .readContext => serveReadContext body s
  | .getResults => serveGetResults body s
  | .status => serveStatus p body s
  | .getEvent => serveGetEvent p body s
  | .setEvents => serveSetEvents p body s
  | .calRead => serveCalRead body s

/-- What a FREE port does with a frame (R196): a code that the part does not recognise is answered UNKNOWN. -/
def serveCode (p : Port) (tag code : Byte) (body : List Byte) (s : State) : State :=
  match requestOfCode code with
  | none => beginServing p tag code (some (Reply.only .unknown)) s
  | some .reset => serveReset p tag body s
  | some r => serveRequest r p tag (serveBody r p body) s

/-- A frame completes on a port (R196, R197). -/
def frameArrives (p : Port) (tag code : Byte) (body : List Byte) (s : State) : State :=
  takeFrame p tag code (serveCode p tag code body) s

/-- UNKNOWN_REQUEST (R196). -/
def execUnknownRequest (p : Port) (tag code : Byte) (body : List Byte) (s : State) :
    Host.Outcome State Fault Refusal :=
  .next (frameArrives p tag code body (clockFrame p body s))

/-- PORT_BUSY_FRAME (R197). -/
def execPortBusyFrame (p : Port) (tag code : Byte) (body : List Byte) (s : State) :
    Host.Outcome State Fault Refusal :=
  .next (frameArrives p tag code body (clockFrame p body s))

/-! ### The receiver (R194) -/

/-- The sync byte (10.1). -/
def syncByte : Byte := 0xA5

/-- The greatest length of a body (9.1). -/
def maxLength : Nat := 250

/-- One bit of the CRC (9.1). -/
def crcBit (c : Word16) : Word16 := if c.msb then (c <<< 1) ^^^ 0x1021#16 else c <<< 1

/-- A number of bits of the CRC. -/
def crcBits : Nat → Word16 → Word16
  | 0, c => c
  | n + 1, c => crcBits n (crcBit c)

/-- One byte of the CRC. -/
def crcByte (c : Word16) (b : Byte) : Word16 := crcBits 8 (c ^^^ (b.zeroExtend 16 <<< 8))

/-- The CRC of a run of bytes (9.1). -/
def crc (l : List Byte) : Word16 := l.foldl crcByte 0xFFFF#16

/-- What a receiver makes of the bytes from a sync byte on. -/
inductive Verdict where
  | partly
  | bad
  | good (tag code : Byte) (body rest : List Byte)
  deriving DecidableEq, Repr

/-- The length, the tag, the code, the body and the CRC behind a sync byte (R194). -/
def inspect (bytes : List Byte) : Verdict :=
  match bytes with
  | [] => .partly
  | len :: rest =>
    if maxLength < len.toNat then .bad
    else if rest.length < len.toNat + 4 then .partly
    else
      match rest with
      | tag :: code :: r =>
        let body := r.take len.toNat
        if bytes16 (crc (len :: tag :: code :: body)) = (r.drop len.toNat).take 2 then
          .good tag code body (r.drop (len.toNat + 2))
        else .bad
      | _ => .partly

/-- The bytes from the first sync byte on (R194, HUNTING). -/
def hunt : List Byte → List Byte
  | [] => []
  | b :: rest => if b = syncByte then b :: rest else hunt rest

/-- Bytes pass through a receiver (R194).  A frame partly received is kept, or, at the end of a gap of more than 10 ms,
discarded; after a discard the hunt resumes behind the discarded frame's sync byte.  `fuel` bounds the passes: each
consumes a byte. -/
def receive (gap : Bool) (p : Port) : Nat → List Byte → State → State
  | 0, _, s => s
  | fuel + 1, bytes, s =>
    match hunt bytes with
    | [] => huntAgain p s
    | b :: rest =>
      match inspect rest with
      | .good tag code body r => receive gap p fuel r (frameArrives p tag code body s)
      | .bad => receive gap p fuel rest s
      | .partly =>
        if gap then receive gap p fuel rest s else s.setPort p { s.port p with rx := b :: rest }

/-- Bytes reach a port's receiver, behind those it is collecting; each is clocked on the link (R195, log entry 49). -/
def feed (gap : Bool) (p : Port) (bytes : List Byte) (s : State) : State :=
  if hears p s then
    let l := (s.port p).rx ++ bytes
    receive gap p (l.length + 1) l (clockLink p bytes.length s)
  else s

/-- FRAME_DISCARD (R194): bytes among which a frame is discarded. -/
def execFrameDiscard (p : Port) (bytes : List Byte) (s : State) : Host.Outcome State Fault Refusal :=
  .next (feed false p bytes s)

/-- FRAME_BYTE_TIMEOUT (R194): bytes followed by more than 10 ms without another. -/
def execFrameByteTimeout (p : Port) (bytes : List Byte) (s : State) : Host.Outcome State Fault Refusal :=
  .next (feed true p bytes s)

/-! ### Replies (R195, R197) -/

/-- The bytes of a frame between its sync byte and its CRC (9.1). -/
def framed (tag code : Byte) (body : List Byte) : List Byte := byte body.length :: tag :: code :: body

/-- A frame as it stands on a link, a request's or a reply's (9.1, 10.1). -/
def wireFrame (tag code : Byte) (body : List Byte) : List Byte :=
  syncByte :: (framed tag code body ++ bytes16 (crc (framed tag code body)))

/-- The fill byte of the supervisor link (10.1). -/
def fillByte : Byte := 0xFF

/-- The byte that the part sends on SUP_MISO when the supervisor clocks the next one out: the next of the reply that is
ready to be sent, or the fill byte when none is (R195). -/
def misoByte (s : State) : Byte :=
  match readyReply s.ptu.supervisor with
  | some (tag, code, body) => ((wireFrame tag code body)[s.ptu.misoSent]?).getD fillByte
  | none => fillByte

/-- Whether a port has a reply to send: that of the request it serves, or a BUSY reply. -/
def replyReady (x : PortState) : Bool :=
  match x.serving with
  | some v => v.reply.isSome || x.busy.isSome
  | none => false

/-- CELL_REPLY_START (R195): CELL_DE turns on, and a frame being collected is discarded. -/
def execCellReplyStart (s : State) : Host.Outcome State Fault Refusal :=
  .next
    (if s.power && !s.ptu.cellDe && replyReady s.ptu.cell then
      { s with ptu := { s.ptu with cellDe := true, cell := { s.ptu.cell with rx := [] } } }
    else s)

/-- A port after the last byte of the reply being sent (R197): the waiting BUSY reply is sent next, and the port is
FREE when none waits.  A port that waits with a RESET stays SERVING (R207). -/
def replyDone (x : PortState) : PortState :=
  match x.serving with
  | none => x
  | some v =>
    if x.busyTurn then { x with serving := none, busy := none, busyTurn := false }
    else if v.reply.isNone then { x with busy := none }
    else if x.busy.isSome then { x with busyTurn := true }
    else { x with serving := none }

/-- REPLY_SENT (R197); the cell port's driver goes off with it, and the supervisor's next reply starts at its first byte
(R195). -/
def sendReply (p : Port) (s : State) : State :=
  match p with
  | .supervisor =>
    if replyReady s.ptu.supervisor then
      { s with ptu := { s.ptu with misoSent := 0, supervisor := replyDone s.ptu.supervisor } }
    else s
  | .cell =>
    if s.ptu.cellDe then { s with ptu := { s.ptu with cellDe := false, cell := replyDone s.ptu.cell } } else s
  | .pendant =>
    if replyReady s.ptu.pendant then { s with ptu := { s.ptu with pendant := replyDone s.ptu.pendant } } else s

/-- REPLY_SENT (R197). -/
def execReplySent (p : Port) (s : State) : Host.Outcome State Fault Refusal :=
  .next (if s.power then sendReply p s else s)

end Sys2Proof.Machine
end

