-- ==== Sys2Proof/Machine/Chain.lean ====
section
/-! DEFINITION. A sample set on its way down the chain of blocks (chapter 0, Data path): the evaluation unit's part of
it, the end of the set at the context store, and the arrival or the miss of its conversion (R76, R77). -/

namespace Sys2Proof.Machine

/-! ### The first resumed sample (R29) -/

/-- The mark that ends a resumed test: the first terminate-class mark whose stop enable is on (R29). -/
def resumedCause (o : TestOrder) (marks : List Mark) : Option Mark :=
  resumeMarks.find? fun m => marks.contains m && stopEnabled o m

/-- The condition set is examined at the first resumed sample (R29). -/
def examineResumed (s : State) : State :=
  match s.residentSlot, s.live with
  | some k, some l =>
    if l.resumed then
      match resumedCause (s.slot k).order (s.slot k).marks with
      | some m => raiseCause .terminate .internal none (some (.mark m)) s
      | none => s
    else s
  | _, _ => s

/-! ### Evaluation of a set (chapter 6) -/

/-- The stress and the strain of a yield, for its kind (R141, R185). -/
def yieldPoint (r : Results) : Option (YieldKind × Point) :=
  match r.yieldKind with
  | some .reH => r.reH.map fun p => (.reH, p)
  | some .rp => r.rp.map fun p => (.rp, { stress := p.stress, strain := p.strain })
  | none => none

/-- The YIELD event and the YIELD pair of EVENT records (R141, R185). -/
def announceYield (k : SlotId) (index : Nat) (ev : Eval) (s : State) : State :=
  match yieldPoint ev.results with
  | some (kind, p) =>
    let s := raiseEvent none (.yield k index kind p.stress p.strain) s
    let i := BitVec.ofNat 32 index
    offer true
      { sample := false
        records := [eventRecord .yield i k (yieldKindCode kind) p.stress,
                    eventRecord .yieldStrain i k (yieldKindCode kind) p.strain]
        index := i } k s
  | none => s

/-- The set as the evaluation unit receives it. -/
def evalIn (fl : Flight) (x : XOut) (stress : Int) (l : Live) : EvalIn :=
  { stress := stress, strain := x.strain, source := l.rt.source, force := fl.after, held := fl.held, exts := x.exts,
    index := nextIndex l.rt, removal := x.removal, resumed := l.resumed }

/-- A fracture goes to the context store (R151). -/
def reportFracture (fl : Flight) (k : SlotId) (force : Int) (index : Nat) (ev : Eval) (c : Criterion) (s : State) :
    State :=
  post fl.w.endFirst (.fracture k index c force ((ev.maxT.map (·.fm)).getD 0)) s

/-- The evaluated set of a resident test (R129): the state of the unit, the yield (R141) and the fracture (R151). -/
def evaluate (fl : Flight) (x : XOut) (k : SlotId) (l : Live) (stress : Int) (s : State) : State :=
  let i := evalIn fl x stress l
  let r := evalSet (s.slot k).order i l.rt.eval
  let s := { s with live := some { l with rt := { l.rt with eval := r.1 } } }
  let s := if yieldSeen r.1 && !yieldSeen l.rt.eval then announceYield k i.index r.1 s else s
  match r.2 with
  | some c => reportFracture fl k i.force i.index r.1 c s
  | none => s

/-- The stress of a set of the resident test (R131). -/
def setStress (fl : Flight) (k : SlotId) (s : State) : Int := stressOf fl.after ((s.slot k).s0.getD 0)

/-- A set at the evaluation unit (R129 to R131): no set of a start tare is evaluated, nor any after the evaluation is
closed.  It hands the stress on. -/
def evuStep (fl : Flight) (x : XOut) (s : State) : State × Int :=
  match s.residentSlot, s.live with
  | some k, some l =>
    let stress := setStress fl k s
    (if l.rt.eval.opened && !fl.tareSet then evaluate fl x k l stress s else s, stress)
  | _, _ => (s, 0)

/-! ### The end of a set at the context store -/

/-- Whether the motion sequencer reports the quiesce complete: the demand is 0 and the crosshead has been at rest for
10 samples (R21, R72). -/
def quiesceDone (s : State) : Bool := decide (s.msq.prevDemand = 0) && decide (10 ≤ s.msq.stillCount)

/-- The quiesce timeout in force (R21). -/
def quiesceTimeoutOf (s : State) : Nat := s.frame.quiesceTimeout

/-- The quiesce elapsed count at a quiesce sample, its completion, and its timeout (R21). -/
def quiesceSample (fl : Flight) (s : State) : State :=
  match s.ctx.changeover with
  | some c =>
    if fl.quiesce then
      let c := { c with elapsed := c.elapsed + 1 }
      let s := { s with ctx := { s.ctx with changeover := some c } }
      if quiesceTimeoutOf s < c.elapsed then faultReport .drift s
      else if quiesceDone s then completePending s
      else s
    else s
  | none => s

/-- A set at the load channel: conversion, R29's examination, SETTLE, tare and overload. -/
def loadStep (x : SampleSet) (conv : Option (BitVec 24)) (w : SetOrder) (s : State) : State × Flight :=
  let (s, fl) := lchConvert x conv w s
  (overloadCheck fl (collectTare fl (settleMark fl (examineResumed s))), fl)

/-- A set on its way from the load channel through the motion sequencer. -/
def sequenceSet (x : SampleSet) (conv : Option (BitVec 24)) (w : SetOrder) (s : State) : State × Flight :=
  let (s, fl) := loadStep x conv w s
  let (s, xo) := xchStep fl s
  let (s, stress) := evuStep fl xo s
  (msqStep fl { pos := x.xh, stress := stress, strain := xo.strain, force := fl.after } xo.exts s, fl)

/-- A set on its way through the context store's quiesce sample (R21). -/
def quiesceSet (x : SampleSet) (conv : Option (BitVec 24)) (w : SetOrder) (s : State) : State :=
  let (s, fl) := sequenceSet x conv w s
  quiesceSample fl s

/-- A set passes down the chain of blocks.  The reports that the order of the set keeps back are taken at its end, and
the start test of R17 is made after it. -/
def runSet (x : SampleSet) (conv : Option (BitVec 24)) (w : SetOrder) (s : State) : State :=
  autostartWith (x.tables.frame.getD Frame.blank) (drain (fun _ => true) (quiesceSet x conv w s))

/-! ### Arrival and miss (R76, R77) -/

/-- The sampling unit at the arrival of the conversion of the set being assembled (R76). -/
def countArrival (s : State) : State :=
  { s with smu :=
    { s.smu with assembling := none, missRun := 0, delivered := min Config.maxU16 (s.smu.delivered + 1) } }

/-- The sampling unit at a miss (R77): the third of a run reports STREAM. -/
def countMiss (w : SetOrder) (s : State) : State :=
  let run := min Config.maxU16 (s.smu.missRun + 1)
  let s := { s with smu := { s.smu with assembling := none, missRun := run, delivered := 0 } }
  if run = 3 then post w.faultLast (.fault .stream) s else s

/-- The sampling unit as the set being assembled is completed, with its conversion word or with a miss. -/
def countSet (conv : Option (BitVec 24)) (w : SetOrder) (s : State) : State :=
  match conv with
  | some _ => countArrival s
  | none => countMiss w s

/-- The part at some point of the completion of the set being assembled. -/
def withinSet (f : SampleSet → State → State) (conv : Option (BitVec 24)) (w : SetOrder) (s : State) : State :=
  match s.smu.assembling with
  | some x => f x (countSet conv w s)
  | none => s

/-- The set being assembled is completed, with its conversion word or with a miss (R76, R77). -/
def completeSet (conv : Option (BitVec 24)) (w : SetOrder) (s : State) : State :=
  withinSet (fun x => runSet x conv w) conv w s

/-- A conversion of the set being assembled arrives (R76). -/
def arriveSet (code : BitVec 24) (w : SetOrder) (s : State) : State := completeSet (some code) w s

/-- The next instant comes before the conversion of the set being assembled (R77). -/
def missSet (w : SetOrder) (s : State) : State := completeSet none w s

/-- The part when the load channel has handed the set on. -/
def afterLoad (conv : Option (BitVec 24)) (w : SetOrder) (s : State) : State :=
  withinSet (fun x s => (loadStep x conv w s).1) conv w s

/-- The part when the motion sequencer has handled the set. -/
def afterSequencer (conv : Option (BitVec 24)) (w : SetOrder) (s : State) : State :=
  withinSet (fun x s => (sequenceSet x conv w s).1) conv w s

/-- The part when the context store has counted the quiesce sample, before the reports that come last. -/
def afterQuiesce (conv : Option (BitVec 24)) (w : SetOrder) (s : State) : State :=
  withinSet (fun x => quiesceSet x conv w) conv w s

/-- A part without supply does nothing (R96). -/
def powered (f : State → State) (s : State) : State := if s.power then f s else s

end Sys2Proof.Machine
end

