-- ==== Sys2Proof/Machine/Sampling.lean ====
section
/-! DEFINITION. The frame side's events: sample instants, conversions, encoder transitions, and the events a set or an
instant brings about (chapters 4 and 7).  A row that names something that happens within an instant or within the
completion of a set is that instant or that completion, taken where the thing named does happen there; where it does
not, the event has not occurred and the part is unchanged (log entry 4). -/

namespace Sys2Proof.Machine

/-! ### Line filters (R159 to R162) -/

/-- Whether a function is of the fault class (7.2). -/
def faultClass : LineFn → Bool
  | .estop | .limitUp | .limitLo | .driveFault => true
  | _ => false

/-- The filter of a state-class line (R160). -/
def filterState (raw : Bool) (l : Line) : Line :=
  if raw = l.filtered then { l with raw := raw, run := 0 }
  else if 4 ≤ l.run + 1 then { l with raw := raw, filtered := raw, run := 0 }
  else { l with raw := raw, run := l.run + 1 }

/-- The filter of a fault-class line (R161). -/
def filterFault (raw : Bool) (l : Line) : Line :=
  if l.filtered then
    if raw then { l with raw := raw, run := 0 }
    else if 4 ≤ l.run + 1 then { l with raw := raw, filtered := false, run := 0 }
    else { l with raw := raw, run := l.run + 1 }
  else if raw then { l with raw := raw, filtered := true, run := 0 }
  else { l with raw := raw }

/-- A line at an instant (R159): the level is kept for STATUS, and the filter of the line's class follows the raw
state.  A line that carries no function has no raw state. -/
def filterLine (c : Option LineCfg) (level : Bool) (l : Line) : Line :=
  match c with
  | none => { l with level := level, raw := false }
  | some c =>
    if c.fn = .unused then { l with level := level, raw := false }
    else
      let raw := level != c.activeLow
      if faultClass c.fn then filterFault raw { l with level := level } else filterState raw { l with level := level }

/-- The eight lines at an instant, from line `k` on. -/
def filterLines (map : List LineCfg) (levels : BitVec 8) : Nat → List Line → List Line
  | _, [] => []
  | k, l :: rest => filterLine map[k]? (levels.getLsbD k) l :: filterLines map levels (k + 1) rest

/-- Each line whose map entry differs restarts its filter (R176), from line `k` on. -/
def restartChanged (old new : List LineCfg) : Nat → List Line → List Line
  | _, [] => []
  | k, l :: rest => (if old[k]? = new[k]? then l else restartLine l) :: restartChanged old new (k + 1) rest

/-- The readers take up the working copies as they stand (R101, R176). -/
def takeUp (s : State) : State :=
  { s with
    inForce := s.cst.work
    flu := { s.flu with
      lines := restartChanged s.frame.map (s.cst.work.frame.getD Frame.blank).map 0 s.flu.lines } }

/-- The frame lines at an instant (R159). -/
def sampleLines (levels : BitVec 8) (s : State) : State :=
  { s with flu := { s.flu with lines := filterLines s.frame.map levels 0 s.flu.lines } }

/-- Whether the run count of a line reaches 4 at an instant with these levels (R160, R161). -/
def runReaches4 (map : List LineCfg) (levels : BitVec 8) : Nat → List Line → Bool
  | _, [] => false
  | k, l :: rest =>
    (decide (l.run = 3) && (filterLine map[k]? (levels.getLsbD k) l).filtered != l.filtered)
      || runReaches4 map levels (k + 1) rest

/-! ### The reports of an instant (R163, R164, R79) -/

/-- A fault-class line that becomes active at an instant reports (R163).  `before` is the part before the filters of
the instant. -/
def reportLine (fn : LineFn) (kind : FaultKind) (before s : State) : State :=
  if !lineActive before fn && lineActive s fn then faultReport kind s else s

/-- The examination of the guard and the grips in TEST (R164). -/
def examineGuard (s : State) : State :=
  if s.ctx.phase = .test then
    let guardOpen := !lineActive s .guard
    let gripOpen := !gripsClosed s
    let s := if guardOpen then faultReport .guardOpen s else s
    if gripOpen then faultReport .gripLost s else s
  else s

/-- The tables a missed set is completed with once the readers have taken up new ones: those it was latched under (R101),
with the line map of the instant, which the filters follow from it on (R176). -/
def missedTables (old new : Tables) : Tables :=
  { old with frame := old.frame.map fun f => { f with map := (new.frame.getD Frame.blank).map } }

/-- The set that the instant finds without its conversion is completed among the reports of the instant (R77, R165,
R168). -/
def missAmong (w : SetOrder) (old : Tables) (s : State) : State :=
  { missSet w { s with inForce := missedTables old s.inForce } with inForce := s.inForce }

/-- One item of an instant is taken; `old` are the tables in force before the instant.  A second taking finds the kind in
the fault set, no phase TEST, or no set that waits, and changes nothing. -/
def takeItem (w : SetOrder) (old : Tables) (before s : State) : LineItem → State
  | .estop => reportLine .estop .estop before s
  | .limitUp => reportLine .limitUp .limitUp before s
  | .limitLo => reportLine .limitLo .limitLo before s
  | .driveFault => reportLine .driveFault .drive before s
  | .examine => examineGuard s
  | .posLost => if s.smu.xhErr then faultReport .posLost s else s
  | .missed => missAmong w old s

/-- Every report of an instant, in the order in which the list of R163 and R164 gives them. -/
def allItems : List LineItem := [.estop, .limitUp, .limitLo, .driveFault, .examine, .posLost]

/-! ### The sample instant (R75) -/

/-- The set of an instant is latched, its conversion is started, and the error marks are cleared (R75, R82). -/
def latchSet (s : State) : State :=
  { s with
    smu := { s.smu with
      assembling := some
        { xh := s.smu.xh, armA := s.smu.armA, armB := s.smu.armB, xhErr := s.smu.xhErr, armAErr := s.smu.armAErr,
          armBErr := s.smu.armBErr, lines := s.flu.lines.map (·.filtered), extSeated := lineActive s .extSeated,
          range := s.lch.range, settling := s.lch.settleNext, tables := s.inForce, armsAt := s.cst.armsAt }
      xhErr := false
      armAErr := false
      armBErr := false }
    lch := { s.lch with driven := s.lch.range, settleNext := false } }

/-- The clock of the sampling unit. -/
def tickClock (s : State) : State := { s with smu := { s.smu with clock := s.smu.clock + 1 } }

/-- A set still without its conversion is completed ahead of the reports of the instant, where their order does not give it
a place among them (R77, log entry 5). -/
def missFirst (order : List LineItem) (w : SetOrder) (s : State) : State :=
  if LineItem.missed ∈ order then s else missSet w s

/-- A sample instant (R75): the new working copies are taken up, the lines are filtered, the reports of the instant and the
completion of a set still without its conversion (R77) are taken in the order the world gives them, and the set is
latched. -/
def takeInstant (levels : BitVec 8) (order : List LineItem) (w : SetOrder) (s : State) : State :=
  let before := takeUp (tickClock (missFirst order w s))
  latchSet ((order ++ allItems).foldl (takeItem w s.inForce before) (sampleLines levels before))

/-! ### Encoders (R78, R79) -/

/-- A count after a move, saturated (R78). -/
def moveCount (m : QuadMove) (c : Int) : Int :=
  match m with
  | .extend => sat32 (c + 1)
  | .retract => sat32 (c - 1)
  | .both => c

/-- Whether a move is a quadrature error (R79). -/
def quadError : QuadMove → Bool
  | .both => true
  | _ => false

/-- A decoder between two of its samples (R78, R79). -/
def moveEncoder (e : Encoder) (m : QuadMove) (u : Smu) : Smu :=
  match e with
  | .crosshead => { u with xh := moveCount m u.xh, xhErr := u.xhErr || quadError m }
  | .armA => { u with armA := moveCount m u.armA, armAErr := u.armAErr || quadError m }
  | .armB => { u with armB := moveCount m u.armB, armBErr := u.armBErr || quadError m }

/-! ### When the events within a set or an instant happen -/

/-- The set being assembled will not be held (R82, R87). -/
def setUnheld (s : State) : Bool :=
  match s.smu.assembling with
  | some x => !x.settling
  | none => false

/-- A FAULT of the set's own conversion or miss is taken before the set goes down the chain (R168). -/
def faultFirst (conv : Option (BitVec 24)) (w : SetOrder) (s : State) : Bool :=
  (afterLoad conv w s).ctx.phase != s.ctx.phase

/-- A running tare has collected all but one of its forces. -/
def tareNearlyDone (s : State) : Bool :=
  match s.lch.tareRun with
  | some run => decide (run.count + 1 = Config.tareSamples)
  | none => false

/-- Whether a port tare is running. -/
def portTareRunning (s : State) : Bool :=
  match s.lch.tareRun with
  | some { kind := .port _, .. } => true
  | _ => false

/-- The next set brings the removal timer to its limit with the line still active (R121). -/
def removalDue (s : State) : Bool :=
  match s.xch.state, s.xch.timer, s.smu.assembling with
  | .releasing, .running n, some x => decide (n + 1 = s.xch.limit) && x.extSeated
  | _, _, _ => false

/-- The bank that will be active at the end test of the next set, and the elapsed count it will have there (R38,
R40). -/
def nextBank (s : State) : Option (Bank × Nat) :=
  match s.msq.inactive, s.msq.active, s.live with
  | some (.transition b), _, _ => some (b, 1)
  | _, some b, some l => some (b, min Config.maxU32 (l.rt.elapsed + 1))
  | _, _, _ => none

/-- The next set brings the elapsed count of a TIME segment to its end value (R42). -/
def timeEndDue (s : State) : Bool :=
  match s.residentSlot, nextBank s with
  | some k, some (b, n) =>
    s.smu.assembling.isSome && s.ctx.changeover.isNone && !startTareRunning s &&
      (match (s.slot k).order.segments[b.seg - 1]? with
       | some g => g.endKind == .time && decide (g.endValue = some (n : Int))
       | none => false)
  | _, _ => false

/-- The set is completed where an event happens in it, and the part is unchanged otherwise. -/
def setWhere (happens : Option (BitVec 24) → SetOrder → State → Bool) (conv : Option (BitVec 24)) (w : SetOrder)
    (s : State) : State :=
  if happens conv w s then completeSet conv w s else s

/-- The set brings the count of a port tare to 64 (R89). -/
def portTareEnds (conv : Option (BitVec 24)) (w : SetOrder) (s : State) : Bool :=
  setUnheld s && tareNearlyDone s && portTareRunning s && !faultFirst conv w s

/-- The set brings the count of a start tare to 64, outside a quiesce (R91). -/
def startTareEnds (conv : Option (BitVec 24)) (w : SetOrder) (s : State) : Bool :=
  setUnheld s && tareNearlyDone s && startTareRunning s && s.ctx.changeover.isNone && !faultFirst conv w s

/-- The set brings the elapsed count of a TIME segment to its end value (R42). -/
def timeSegmentEnds (conv : Option (BitVec 24)) (w : SetOrder) (s : State) : Bool :=
  timeEndDue s && !faultFirst conv w s

/-- The set brings the ceiling run to 200 (R62), whatever a FAULT behind it makes of the run. -/
def ceilingReached (conv : Option (BitVec 24)) (w : SetOrder) (s : State) : Bool :=
  decide (s.msq.ceilingRun < 200) && decide ((afterSequencer conv w s).msq.ceilingRun = 200)

/-- The set completes a quiesce (R21, R22), whatever a FAULT behind it makes of the incoming context. -/
def changeoverCompleted (conv : Option (BitVec 24)) (w : SetOrder) (s : State) : Bool :=
  s.ctx.changeover.isSome && (afterQuiesce conv w s).ctx.changeover.isNone &&
    (afterQuiesce conv w s).ctx.phase != .safe

/-- A quiesce runs out of time at the set: DRIFT is entered in the fault set (R21). -/
def quiesceTimedOut (conv : Option (BitVec 24)) (w : SetOrder) (s : State) : Bool :=
  s.ctx.changeover.isSome && !s.flu.faults.any (fun e => e.kind == .drift)
    && (completeSet conv w s).flu.faults.any (fun e => e.kind == .drift)

/-- The bound slot starts after the set with no request (R17). -/
def autostarted (conv : Option (BitVec 24)) (w : SetOrder) (s : State) : Bool :=
  match s.ctx.binding with
  | some k => (s.slot k).state == .bound && ((completeSet conv w s).slot k).state == .resident
  | none => false

/-! ### The rows -/

/-- SAMPLE_INSTANT (R75). -/
def execSampleInstant (levels : BitVec 8) (order : List LineItem) (w : SetOrder) (s : State) :
    Host.Outcome State Fault Refusal :=
  .next (powered (takeInstant levels order w) s)

/-- CONVERSION_ARRIVAL (R76).  A word that belongs to an earlier instant is discarded. -/
def execConversionArrival (code : BitVec 24) (late : Bool) (w : SetOrder) (s : State) :
    Host.Outcome State Fault Refusal :=
  .next (powered (fun s => if late then s else arriveSet code w s) s)

/-- CONVERSION_MISS (R77). -/
def execConversionMiss (w : SetOrder) (s : State) : Host.Outcome State Fault Refusal :=
  .next (powered (missSet w) s)

/-- STREAM_FAULT (R77): the miss that brings the miss run to 3. -/
def execStreamFault (w : SetOrder) (s : State) : Host.Outcome State Fault Refusal :=
  .next (powered (fun s => if s.smu.missRun = 2 then missSet w s else s) s)

/-- ENCODER_TRANSITION (R78, R79). -/
def execEncoderTransition (e : Encoder) (m : QuadMove) (s : State) : Host.Outcome State Fault Refusal :=
  .next (powered (fun s => { s with smu := moveEncoder e m s.smu }) s)

/-- LINE_FILTER_SETTLE (R160): an instant at which a run count reaches 4. -/
def execLineFilterSettle (levels : BitVec 8) (order : List LineItem) (w : SetOrder) (s : State) :
    Host.Outcome State Fault Refusal :=
  .next (powered (fun s =>
    if runReaches4 (takeUp s).frame.map levels 0 (takeUp s).flu.lines then takeInstant levels order w s else s) s)

/-- TARE_COMPLETE (R89): the set that brings the count of a port tare to 64. -/
def execTareComplete (code : BitVec 24) (w : SetOrder) (s : State) : Host.Outcome State Fault Refusal :=
  .next (powered (setWhere portTareEnds (some code) w) s)

/-- START_TARE_COMPLETE (R91): the set that brings the count of a start tare to 64, outside a quiesce. -/
def execStartTareComplete (code : BitVec 24) (w : SetOrder) (s : State) : Host.Outcome State Fault Refusal :=
  .next (powered (setWhere startTareEnds (some code) w) s)

/-- REMOVAL_TIMEOUT (R122): the set that brings the removal timer to its limit. -/
def execRemovalTimeout (conv : Option (BitVec 24)) (w : SetOrder) (s : State) : Host.Outcome State Fault Refusal :=
  .next (powered (setWhere (fun _ _ => removalDue) conv w) s)

/-- SEGMENT_TIME_END (R42): the set at which a TIME segment's elapsed count reaches its end value. -/
def execSegmentTimeEnd (conv : Option (BitVec 24)) (w : SetOrder) (s : State) : Host.Outcome State Fault Refusal :=
  .next (powered (setWhere timeSegmentEnds conv w) s)

/-- TRACK_CEILING_RUN (R62): the set at which the ceiling run reaches 200. -/
def execTrackCeilingRun (conv : Option (BitVec 24)) (w : SetOrder) (s : State) : Host.Outcome State Fault Refusal :=
  .next (powered (setWhere ceilingReached conv w) s)

/-- CHANGEOVER_COMPLETION (R22): the set at which a quiesce completes. -/
def execChangeoverCompletion (conv : Option (BitVec 24)) (w : SetOrder) (s : State) :
    Host.Outcome State Fault Refusal :=
  .next (powered (setWhere changeoverCompleted conv w) s)

/-- QUIESCE_TIMEOUT (R21): the set at which the elapsed count exceeds the timeout. -/
def execQuiesceTimeout (conv : Option (BitVec 24)) (w : SetOrder) (s : State) : Host.Outcome State Fault Refusal :=
  .next (powered (setWhere quiesceTimedOut conv w) s)

/-- AUTOSTART (R17): the set after which the bound slot starts with no request. -/
def execAutostart (conv : Option (BitVec 24)) (w : SetOrder) (s : State) : Host.Outcome State Fault Refusal :=
  .next (powered (setWhere autostarted conv w) s)

end Sys2Proof.Machine
end

