-- ==== Sys2Proof/Machine/Dispatch.lean ====
section
/-! DEFINITION. One command to its meaning: one arm for each row of the table of operations and events. -/

namespace Sys2Proof.Machine

/-- The effect of a command on everything but the queue. -/
def exec (i : Instr) (s : State) : Host.Outcome State Fault Refusal :=
  match i with
  | .loadHeader p tag body => Sys2Proof.Machine.execLoadHeader p tag body s
  | .load p tag body => Sys2Proof.Machine.execLoad p tag body s
  | .promote p tag body => Sys2Proof.Machine.execPromote p tag body s
  | .free p tag body => Sys2Proof.Machine.execFree p tag body s
  | .clearCondition p tag body => Sys2Proof.Machine.execClearCondition p tag body s
  | .readRecords p tag body => Sys2Proof.Machine.execReadRecords p tag body s
  | .move p tag body => Sys2Proof.Machine.execMove p tag body s
  | .zeroPosition p tag body => Sys2Proof.Machine.execZeroPosition p tag body s
  | .reset p tag body => Sys2Proof.Machine.execReset p tag body s
  | .next p tag body => Sys2Proof.Machine.execNext p tag body s
  | .bind p tag body => Sys2Proof.Machine.execBind p tag body s
  | .release p tag body => Sys2Proof.Machine.execRelease p tag body s
  | .jog p tag body => Sys2Proof.Machine.execJog p tag body s
  | .jogStop p tag body => Sys2Proof.Machine.execJogStop p tag body s
  | .hold p tag body => Sys2Proof.Machine.execHold p tag body s
  | .start p tag body => Sys2Proof.Machine.execStart p tag body s
  | .abort p tag body => Sys2Proof.Machine.execAbort p tag body s
  | .resume p tag body => Sys2Proof.Machine.execResume p tag body s
  | .leave p tag body => Sys2Proof.Machine.execLeave p tag body s
  | .tare p tag body => Sys2Proof.Machine.execTare p tag body s
  | .clear p tag body => Sys2Proof.Machine.execClear p tag body s
  | .amend p tag body => Sys2Proof.Machine.execAmend p tag body s
  | .calOpen p tag body => Sys2Proof.Machine.execCalOpen p tag body s
  | .calData p tag body => Sys2Proof.Machine.execCalData p tag body s
  | .calCommit p tag body => Sys2Proof.Machine.execCalCommit p tag body s
  | .calClose p tag body => Sys2Proof.Machine.execCalClose p tag body s
  | .calRead p tag body => Sys2Proof.Machine.execCalRead p tag body s
  | .readContext p tag body => Sys2Proof.Machine.execReadContext p tag body s
  | .getResults p tag body => Sys2Proof.Machine.execGetResults p tag body s
  | .status p tag body => Sys2Proof.Machine.execStatus p tag body s
  | .getEvent p tag body => Sys2Proof.Machine.execGetEvent p tag body s
  | .setEvents p tag body => Sys2Proof.Machine.execSetEvents p tag body s
  | .unknownRequest p tag code body => Sys2Proof.Machine.execUnknownRequest p tag code body s
  | .portBusyFrame p tag code body => Sys2Proof.Machine.execPortBusyFrame p tag code body s
  | .frameDiscard p bytes => Sys2Proof.Machine.execFrameDiscard p bytes s
  | .frameByteTimeout p bytes => Sys2Proof.Machine.execFrameByteTimeout p bytes s
  | .cellReplyStart => Sys2Proof.Machine.execCellReplyStart s
  | .replySent p => Sys2Proof.Machine.execReplySent p s
  | .sampleInstant levels order w => Sys2Proof.Machine.execSampleInstant levels order w s
  | .conversionArrival code late w => Sys2Proof.Machine.execConversionArrival code late w s
  | .conversionMiss w => Sys2Proof.Machine.execConversionMiss w s
  | .streamFault w => Sys2Proof.Machine.execStreamFault w s
  | .encoderTransition e m => Sys2Proof.Machine.execEncoderTransition e m s
  | .lineFilterSettle levels order w => Sys2Proof.Machine.execLineFilterSettle levels order w s
  | .tareComplete code w => Sys2Proof.Machine.execTareComplete code w s
  | .startTareComplete code w => Sys2Proof.Machine.execStartTareComplete code w s
  | .removalTimeout conv w => Sys2Proof.Machine.execRemovalTimeout conv w s
  | .segmentTimeEnd conv w => Sys2Proof.Machine.execSegmentTimeEnd conv w s
  | .trackCeilingRun conv w => Sys2Proof.Machine.execTrackCeilingRun conv w s
  | .changeoverCompletion conv w => Sys2Proof.Machine.execChangeoverCompletion conv w s
  | .quiesceTimeout conv w => Sys2Proof.Machine.execQuiesceTimeout conv w s
  | .autostart conv w => Sys2Proof.Machine.execAutostart conv w s
  | .calWriteComplete => Sys2Proof.Machine.execCalWriteComplete s
  | .powerOn => Sys2Proof.Machine.execPowerOn s
  | .resetLine => Sys2Proof.Machine.execResetLine s
  | .powerLoss => Sys2Proof.Machine.execPowerLoss s
  | .resetNHigh => Sys2Proof.Machine.execResetNHigh s

end Sys2Proof.Machine
end

