-- ==== Sys2Proof/Safety.lean ====
section
/-! DEFINITION. What every state of the part keeps to, in the terms the statements use: the bounds of the stream and
the queues, the outputs that follow the phase and the fault set, and the agreement of phase, resident context, slots,
order queue and binding that chapter 1 lays down. -/

namespace Sys2Proof.Machine

/-- The record stream never holds more than 2,048 words (R188), and the tally of a gap stops at 65,535 (R189). -/
abbrev StreamFits (s : State) : Prop :=
  occupancy s.rst.records ≤ Config.streamWords ∧ ∀ g ∈ s.rst.gap, g.tally ≤ Config.maxU16

/-- An event queue holds up to 16 entries (R200), and its attention line is asserted exactly while it holds one
(R204). -/
abbrev QueueFits (x : PortState) : Prop := x.queue.length ≤ Config.queueEntries ∧ x.atn = !x.queue.isEmpty

/-- Every port's queue fits. -/
abbrev QueuesFit (s : State) : Prop := QueueFits s.ptu.supervisor ∧ QueueFits s.ptu.cell ∧ QueueFits s.ptu.pendant

/-- DRV_EN is on exactly in TEST and SERVICE (R173), and ALARM exactly while the fault set holds an entry (R174). -/
abbrev OutputsFollow (s : State) : Prop :=
  s.flu.drvEn = (s.ctx.phase == .test || s.ctx.phase == .service) ∧ s.flu.alarm = !s.flu.faults.isEmpty

/-- The fault set holds entries exactly while the phase is SAFE (R167), each kind at most once (R166). -/
abbrev FaultsWhileSafe (s : State) : Prop :=
  (s.flu.faults ≠ [] ↔ s.ctx.phase = .safe) ∧ (s.flu.faults.map (·.kind)).Nodup

/-- The order queue holds exactly the LOADED slots, each once (R7). -/
abbrev QueueIsLoaded (s : State) : Prop :=
  s.ctx.queue.Nodup ∧ ∀ k : SlotId, k ∈ s.ctx.queue ↔ (s.slot k).state = .loaded

/-- Whether a slot state is one that the grip binding must name (R9). -/
def inGrips : SlotState → Bool
  | .bound | .resident | .parked => true
  | _ => false

/-- Whether the grip binding may name a slot in a state (R9). -/
def bindable : SlotState → Bool
  | .bound | .resident | .parked | .done | .void => true
  | _ => false

/-- The grip binding names the slot that is BOUND, RESIDENT or PARKED, and only a slot that can be bound (R9). -/
abbrev BindingNames (s : State) : Prop :=
  (∀ k : SlotId, inGrips (s.slot k).state = true → s.ctx.binding = some k) ∧
  (∀ k ∈ s.ctx.binding, bindable (s.slot k).state = true)

/-- Whether a context is the one that a phase has resident (R13). -/
def residentFits : Phase → Option Context → Bool
  | .idle, none => true
  | .test, some (.test _) => true
  | .service, some .service => true
  | .safe, some .safe => true
  | _, _ => false

/-- Exactly one context is resident in TEST, SERVICE and SAFE and none in IDLE, the one of TEST being the one slot in
state RESIDENT (R13), whose live values the blocks hold (R5). -/
abbrev OneResident (s : State) : Prop :=
  residentFits s.ctx.phase s.ctx.resident = true ∧
  (∀ k : SlotId, (s.slot k).state = .resident ↔ s.ctx.resident = some (.test k)) ∧
  s.live.isSome = (s.ctx.phase == .test)

/-- A pending changeover has the resident context outgoing and a context of the causes table incoming (R19). -/
abbrev ChangeoverFits (s : State) (c : Changeover) : Prop :=
  s.ctx.resident = some c.outgoing ∧ c.outgoing ≠ .safe ∧ c.incoming ≠ some .safe ∧
  (∀ k : SlotId, c.incoming = some (.test k) → c.outgoing = .service ∧ (s.slot k).state = .parked) ∧
  (c.cause ≠ .operator → c.outgoing ≠ .service ∧ c.incoming = none ∧ c.endCause.isSome = true) ∧
  (c.outgoing ≠ .service → c.cause = .operator → c.incoming = some .service)

/-- What the context store holds of a slot is what its state calls for: a PARKED test has its runtime part (R5), and
its dimensions and S0 stand from BIND on (R4, R10). -/
abbrev SlotFits (x : Slot) : Prop :=
  (x.state = .parked → x.runtime.isSome = true) ∧ (inGrips x.state = true → x.s0.isSome = true)

/-- A start tare runs only in TEST (R91), a port tare only in IDLE and SERVICE (R88, R90). -/
def tareFits (ph : Phase) : Option TareRun → Bool
  | none => true
  | some { kind := .start, .. } => ph == .test
  | some { kind := .port _, .. } => ph == .idle || ph == .service

/-- The holder (R14), the down-switch lock (R84), the banks (R37), a running tare (R88, R90, R91) and the write
window (R98, R99, R101) suit the phase. -/
abbrev BlocksFit (s : State) : Prop :=
  (s.ctx.holder ≠ none → s.ctx.phase = .service) ∧
  s.lch.lock = (s.ctx.phase == .test) ∧
  ((s.msq.active.isSome || s.msq.inactive.isSome) = true → s.ctx.phase = .test ∨ s.ctx.phase = .service) ∧
  tareFits s.ctx.phase s.lch.tareRun = true ∧
  (s.cst.window ≠ .closed → s.cst.lock = false ∧ (s.ctx.phase = .idle ∨ s.ctx.phase = .safe))

/-- Phase, contexts, slots, queue, binding, fault set and blocks suit each other (R5, R7, R9, R13, R14, R19, R37, R84,
R91, R98, R101, R167). -/
structure ContextsSuit (s : State) : Prop where
  faults : FaultsWhileSafe s
  queue : QueueIsLoaded s
  binding : BindingNames s
  resident : OneResident s
  changeover : ∀ c ∈ s.ctx.changeover, ChangeoverFits s c
  slots : ∀ k : SlotId, SlotFits (s.slot k)
  blocks : BlocksFit s

/-- Between commands, no report of a sample set is kept back. -/
abbrev NothingKeptBack (s : State) : Prop := s.ctx.transit = []

/-- What the drive is sent: the DAC code stays within ±32,767, and both the code and the demand are 0 while DRV_EN is
off (R65). -/
abbrev DemandStands (s : State) : Prop :=
  (-32767 ≤ s.msq.dac ∧ s.msq.dac ≤ 32767) ∧ (s.flu.drvEn = false → s.msq.dac = 0 ∧ s.msq.prevDemand = 0)

/-! ### Requests and frames, in the words of chapters 9 and 10 -/

/-- A frame that completes on a port now is taken: its bytes are heard, and the port is FREE (R195, R197). -/
abbrev CanTake (p : Port) (s : State) : Prop := hears p s = true ∧ (s.port p).serving = none

/-- A command is answered: its port serves it with a reply, and the part is otherwise in a state. -/
abbrev Answers (c : Instr) (s : State) (p : Port) (r : Request) (tag : Byte) (reply : Reply) (t : State) : Prop :=
  exec c s = .next (beginServing p tag (requestCode r) (some reply) t)

/-- A command is answered and nothing else changes; the receiver of its port is HUNTING (R194, R196). -/
abbrev OnlyAnswers (c : Instr) (s : State) (p : Port) (r : Request) (tag : Byte) (reply : Reply) : Prop :=
  Answers c s p r tag reply (huntAgain p s)

/-- A command is refused with a status, and nothing changes (R196). -/
abbrev Refuses (c : Instr) (s : State) (p : Port) (r : Request) (tag : Byte) (st : Status) : Prop :=
  OnlyAnswers c s p r tag (Reply.only st)

/-- A port serves a request with a reply. -/
abbrev Serves (t : State) (p : Port) (r : Request) (tag : Byte) (reply : Reply) : Prop :=
  (t.port p).serving = some { tag := tag, code := requestCode r, reply := some reply }

/-- The ports that may send a request, as the table of R199 lists them. -/
def senders : Request → List Port
  | .load | .promote | .free | .clearCondition | .readRecords | .move | .zeroPosition | .reset => [.supervisor]
  | .next | .bind | .release => [.cell]
  | .jog | .jogStop | .hold => [.pendant]
  | .start => [.supervisor, .cell, .pendant]
  | .abort | .resume | .leave | .tare | .clear | .amend => [.supervisor, .pendant]
  | .calOpen | .calData | .calCommit | .calClose => [.supervisor, .pendant]
  | .readContext | .getResults | .status | .getEvent | .setEvents | .calRead => [.supervisor, .cell, .pendant]

/-- The rows of the table that a request's frame is; a LOAD has one for each of its parts. -/
def rowsOf (p : Port) (tag : Byte) (body : List Byte) : Request → List Instr
  | .load => [.loadHeader p tag body, .load p tag body]
  | .promote => [.promote p tag body]
  | .free => [.free p tag body]
  | .clearCondition => [.clearCondition p tag body]
  | .readRecords => [.readRecords p tag body]
  | .move => [.move p tag body]
  | .zeroPosition => [.zeroPosition p tag body]
  | .reset => [.reset p tag body]
  | .next => [.next p tag body]
  | .bind => [.bind p tag body]
  | .release => [.release p tag body]
  | .jog => [.jog p tag body]
  | .jogStop => [.jogStop p tag body]
  | .hold => [.hold p tag body]
  | .start => [.start p tag body]
  | .abort => [.abort p tag body]
  | .resume => [.resume p tag body]
  | .leave => [.leave p tag body]
  | .tare => [.tare p tag body]
  | .clear => [.clear p tag body]
  | .amend => [.amend p tag body]
  | .calOpen => [.calOpen p tag body]
  | .calData => [.calData p tag body]
  | .calCommit => [.calCommit p tag body]
  | .calClose => [.calClose p tag body]
  | .readContext => [.readContext p tag body]
  | .getResults => [.getResults p tag body]
  | .status => [.status p tag body]
  | .getEvent => [.getEvent p tag body]
  | .setEvents => [.setEvents p tag body]
  | .calRead => [.calRead p tag body]

/-- The length of the body of a request, where its layout fixes one (10.2, 10.3). -/
def fixedLength : Request → Option Nat
  | .zeroPosition | .reset | .next | .release | .jogStop | .hold | .start | .leave | .tare | .clear | .calCommit
  | .calClose | .status | .getEvent => some 0
  | .promote | .free | .abort | .resume | .getResults | .calRead => some 1
  | .clearCondition | .readRecords | .readContext | .setEvents => some 2
  | .jog => some 4
  | .calOpen => some 5
  | .move => some 8
  | .amend => some 9
  | .load | .bind | .calData => none

/-- A value that four bytes can carry signed (R209). -/
abbrev Fits32 (x : Int) : Prop := -2147483648 ≤ x ∧ x ≤ 2147483647

/-- A value that four bytes can carry unsigned (R209). -/
abbrev FitsU32 (x : Int) : Prop := 0 ≤ x ∧ x ≤ 4294967295

/-- The pending changeover that a request makes at its start: OPERATOR with the port as requester (R19). -/
def requested (p : Port) (out : Context) (incoming : Option Context) : Changeover :=
  { cause := .operator, requester := .port p, outgoing := out, incoming := incoming, elapsed := 0, endCause := none }

/-! ### Sample sets -/

/-- The conversion of a set makes no fault report: a miss is not the third of its run (R77), and a conversion does not
make the hard overload active (R93). -/
def quietSet (x : SampleSet) (conv : Option (BitVec 24)) (s : State) : Bool :=
  match conv with
  | none => s.smu.missRun != 2
  | some code => x.settling || s.lch.hard || !hardAt x.tables x.range (code24 code)

/-- The force after tare that a set will carry (R85, R87). -/
def forceOf (x : SampleSet) (conv : Option (BitVec 24)) (s : State) : Int :=
  match conv, x.settling with
  | some code, false => (validFlight s.lch x (code24 code) false false SetOrder.chain).after
  | _, _ => s.lch.lastAfter

/-- No terminate-class mark that a sample can set has its stop enable on (1.12). -/
abbrev NoStops (o : TestOrder) : Prop :=
  o.tOverload = false ∧ o.tSlip = false ∧ o.tGap = false ∧ o.tTrack = false

/-- The fracture detector stays disarmed at a set with a force (R149). -/
abbrev NoFracture (o : TestOrder) (force : Int) (ev : Eval) : Prop :=
  ev.armed = false ∧ force < o.fArm ∧ ∀ m ∈ ev.maxT, m.fm < o.fArm

/-- A value reaches or passes an end value in the direction of a rate (R41). -/
abbrev Reached (rate value target : Int) : Prop := (0 ≤ rate ∧ target ≤ value) ∨ (rate < 0 ∧ value ≤ target)

/-- The end condition of a segment at a tested sample with an elapsed count, by its kind (R41 to R44).  The backup strain of
a YIELD segment stands apart. -/
def EndMet (g : Segment) (b : Bank) (elapsed : Nat) (seen : Bool) (st : ChannelState) (x : Measured) : Prop :=
  match g.endKind with
  | .positionReach => Reached b.rate x.pos (g.endValue.getD 0)
  | .qReach =>
    Reached b.rate
      (match b.mode with
       | .position => x.pos
       | .stress => x.stress
       | .strain => x.strain) (g.endValue.getD 0)
  | .strainReach => Reached b.rate x.strain (g.endValue.getD 0)
  | .forceReach => Reached b.rate x.force (g.endValue.getD 0)
  | .yield => seen = true
  | .time => (elapsed : Int) = g.endValue.getD 0
  | .detached => st = .detached
  | .never => False

/-- The yields of a test lie in their order, ReL ≤ ReH ≤ Rm (R156), with what the unit tracks behind them: no yield field
before the window is closed and left RISING, and every candidate within the greatest stress so far. -/
structure YieldsOrdered (ev : Eval) : Prop where
  waits : ev.window ≠ .closed → ev.yState = .waitFit
  unseen : ev.yState = .waitFit ∨ ev.yState = .rising →
    ev.results.reH = none ∧ ev.results.reL = none ∧ ev.plateau = none
  peak : ev.yState = .rising → ∀ p ∈ ev.peak, ∃ m ∈ ev.maxT, p.stress ≤ m.rm
  upper : ∀ h ∈ ev.results.reH, ∃ m ∈ ev.maxT, h.stress ≤ m.rm
  plateau : ∀ p ∈ ev.plateau, ∃ h ∈ ev.results.reH, p.minAll ≤ h.stress ∧ ∀ m ∈ p.minAfter, m ≤ h.stress
  lower : ∀ v ∈ ev.results.reL, ∃ h ∈ ev.results.reH, v ≤ h.stress
  tracked : ev.opened = true → ev.results.rm = none
  greatest : ∀ r ∈ ev.results.rm, ∀ h ∈ ev.results.reH, h.stress ≤ r

/-- A fault kind is in the frame fault set (R166). -/
abbrev InFaults (k : FaultKind) (s : State) : Prop := k ∈ s.flu.faults.map (·.kind)

end Sys2Proof.Machine
end

