-- ==== Sys2Proof/WellFormed.lean ====
section
/-! DEFINITION. The commands the outside can send: what a frame, a set of lines or an order of reports can be. -/

namespace Sys2Proof

/-- A body fits a frame (9.1). -/
def bodyFits (body : List Byte) : Bool := decide (body.length ≤ 250)

/-- The part byte of a LOAD body (10.2). -/
def loadPart (n : Byte) (body : List Byte) : Bool := body.head? == some n

/-- Whether a code is none of the 31 of 10.1. -/
def codeUnknown (c : Byte) : Bool := decide (c.toNat = 0) || decide (0x1F < c.toNat)

/-- The marks that can reach the context store after a completion of their own set (R32): those of the load channel,
the frame line unit and the extension channel. -/
def canBeLate : Mark → Bool
  | .overload | .slip | .rmfail | .settle => true
  | _ => false

/-- An order names each late mark once, and no mark that cannot be late. -/
def orderFits (w : SetOrder) : Bool := decide w.late.Nodup && w.late.all canBeLate

/-- An instant's order names each item at most once. -/
def itemsFit (order : List LineItem) : Bool := decide order.Nodup

/-- The commands the outside can send. -/
def Instr.wellFormed : Instr → Bool
  | .loadHeader _ _ body => bodyFits body && loadPart 1 body
  | .load _ _ body => bodyFits body && loadPart 2 body
  | .promote _ _ body => bodyFits body
  | .free _ _ body => bodyFits body
  | .clearCondition _ _ body => bodyFits body
  | .readRecords _ _ body => bodyFits body
  | .move _ _ body => bodyFits body
  | .zeroPosition _ _ body => bodyFits body
  | .reset _ _ body => bodyFits body
  | .next _ _ body => bodyFits body
  | .bind _ _ body => bodyFits body
  | .release _ _ body => bodyFits body
  | .jog _ _ body => bodyFits body
  | .jogStop _ _ body => bodyFits body
  | .hold _ _ body => bodyFits body
  | .start _ _ body => bodyFits body
  | .abort _ _ body => bodyFits body
  | .resume _ _ body => bodyFits body
  | .leave _ _ body => bodyFits body
  | .tare _ _ body => bodyFits body
  | .clear _ _ body => bodyFits body
  | .amend _ _ body => bodyFits body
  | .calOpen _ _ body => bodyFits body
  | .calData _ _ body => bodyFits body
  | .calCommit _ _ body => bodyFits body
  | .calClose _ _ body => bodyFits body
  | .calRead _ _ body => bodyFits body
  | .readContext _ _ body => bodyFits body
  | .getResults _ _ body => bodyFits body
  | .status _ _ body => bodyFits body
  | .getEvent _ _ body => bodyFits body
  | .setEvents _ _ body => bodyFits body
  | .unknownRequest _ _ code body => bodyFits body && codeUnknown code
  | .portBusyFrame _ _ _ body => bodyFits body
  | .frameDiscard _ bytes => !bytes.isEmpty
  | .frameByteTimeout _ _ => true
  | .cellReplyStart => true
  | .replySent _ => true
  | .sampleInstant _ order w => itemsFit order && orderFits w
  | .conversionArrival _ _ w => orderFits w
  | .conversionMiss w => orderFits w
  | .streamFault w => orderFits w
  | .encoderTransition _ _ => true
  | .lineFilterSettle _ order w => itemsFit order && orderFits w
  | .tareComplete _ w => orderFits w
  | .startTareComplete _ w => orderFits w
  | .removalTimeout _ w => orderFits w
  | .segmentTimeEnd _ w => orderFits w
  | .trackCeilingRun _ w => orderFits w
  | .changeoverCompletion _ w => orderFits w
  | .quiesceTimeout _ w => orderFits w
  | .autostart _ w => orderFits w
  | .calWriteComplete => true
  | .powerOn => true
  | .resetLine => true
  | .powerLoss => true
  | .resetNHigh => true

end Sys2Proof
end

