-- ==== Sys2Proof/Certificates/Slice0/Obligations.lean ====
section
/-! DEFINITION. The statements about the part that the provers prove.  Requests are stated on a port that can take them
now (`CanTake`); `huntAgain p s` is the part with the frame taken off the receiver of the port, and an answered request is
stated as an equation, which is its whole frame: everything the equation does not name is unchanged. -/

open Sys2Proof Sys2Proof.Machine

/-! ### The machine -/

/-- A step takes the front command of the queue and runs it on the part with the rest of the queue; with an empty queue
the part idles, which is the model's choice (log entry 3). -/
def Obligations.StepRunsTheFrontCommand : Prop :=
  (∀ (c : Instr) (rest : List Instr) (s : State),
    step { s with pending := c :: rest } = exec c { s with pending := rest }) ∧
  ∀ s : State, s.pending = [] → step s = .next s

/-- No command stops the part: each answers a next state in every state, and none touches the queue of waiting commands.
What a command does in that state is for the statements below. -/
def Obligations.NoCommandStopsThePart : Prop :=
  ∀ (c : Instr) (s : State), ∃ t, exec c s = .next t ∧ t.pending = s.pending

/-- No step puts more than 2,048 words in the record stream or takes the tally of a gap past 65,535 (R188, R189); none
puts more than 16 entries in an event queue, and each attention line stays asserted exactly while its queue holds an
entry (R200, R204).  With the contexts in agreement, the down-switch lock stands exactly in TEST (R84), a start tare
runs only in TEST and a port tare only in IDLE and SERVICE (R88, R90, R91), and the write window is CLOSED while the
lock of the store is set and in TEST and SERVICE (R98, R99, R101), after every step. -/
def Obligations.StepKeepsTheBlocks : Prop :=
  (∀ s t : State, StreamFits s → step s = .next t → StreamFits t) ∧
  (∀ s t : State, QueuesFit s → step s = .next t → QueuesFit t) ∧
  ∀ s t : State, ContextsSuit s → step s = .next t →
    (t.lch.lock = true ↔ t.ctx.phase = .test) ∧
    (∀ run, t.lch.tareRun = some run → run.kind = .start → t.ctx.phase = .test) ∧
    (∀ run p, t.lch.tareRun = some run → run.kind = .port p → t.ctx.phase = .idle ∨ t.ctx.phase = .service) ∧
    (t.cst.window ≠ .closed → t.cst.lock = false ∧ t.ctx.phase ≠ .test ∧ t.ctx.phase ≠ .service)

/-- After every step DRV_EN is on exactly in TEST and SERVICE, and ALARM exactly while the fault set holds an entry
(R173, R174); with that, the DAC code lies within ±32,767 after every step, and the code and the demand are 0 whenever
DRV_EN is off (R65).  With the contexts in agreement, the fault set holds entries exactly while the phase is SAFE, and
each kind at most once (R166, R167). -/
def Obligations.StepKeepsTheOutputs : Prop :=
  (∀ s t : State, OutputsFollow s → step s = .next t → OutputsFollow t) ∧
  (∀ s t : State, OutputsFollow s → DemandStands s → step s = .next t → DemandStands t) ∧
  ∀ s t : State, ContextsSuit s → step s = .next t →
    (t.flu.faults ≠ [] ↔ t.ctx.phase = .safe) ∧ (t.flu.faults.map (·.kind)).Nodup

/-- Every step keeps phase, resident context, slots, order queue, grip binding, pending changeover, fault set, locks,
banks, tares and the write window in the agreement that chapters 1 to 4 and 7 lay down, and has taken all the reports of
the set it handled. -/
def Obligations.StepKeepsTheContexts : Prop :=
  (∀ s t : State, ContextsSuit s → step s = .next t → ContextsSuit t) ∧
  ∀ s t : State, NothingKeptBack s → step s = .next t → NothingKeptBack t

/-- The part right after POWER_ON meets the invariants of the statements above, with every slot EMPTY, the order queue
and the stream empty, nothing bound, the phase IDLE (R33, R181), and RESET_DONE alone in every queue (R208). -/
def Obligations.ResetMeetsTheInvariants : Prop :=
  StreamFits State.reset ∧ QueuesFit State.reset ∧ OutputsFollow State.reset ∧ DemandStands State.reset ∧
  ContextsSuit State.reset ∧ NothingKeptBack State.reset ∧
  (∀ k : SlotId, State.reset.slot k = Slot.blank) ∧ State.reset.ctx.queue = [] ∧ State.reset.ctx.binding = none ∧
  State.reset.ctx.phase = .idle ∧ State.reset.ctx.changeover = none ∧ State.reset.ctx.holder = none ∧
  State.reset.rst.records = [] ∧ ∀ p : Port, (State.reset.port p).queue = [.resetDone .powerOn]

/-! ### Ports and messages (chapter 9) -/

/-- A request is answered NOT_PERMITTED, and nothing else, on each port that the table of R199 does not give it; on a
port that may send it, it is answered otherwise, RESET (which is not answered at all) apart. -/
def Obligations.RequestsNeedTheirPort : Prop :=
  ∀ (r : Request) (p : Port) (tag : Byte) (body : List Byte) (s : State), CanTake p s →
    ∀ c ∈ rowsOf p tag body r,
      (p ∉ senders r → Refuses c s p r tag .notPermitted) ∧
      (p ∈ senders r → r ≠ .reset → ∃ reply t, reply.status ≠ .notPermitted ∧ Answers c s p r tag reply t)

/-- A request whose body has another length than its layout, or names no slot, is answered MALFORMED, and nothing
changes (R196, R209): a length that the layout fixes, the length that the identifier of a BIND or the table of a
CAL_DATA calls for, and the part byte of a LOAD.  That a byte that names no slot is judged ahead of the request's own
checks is the model's choice (log entry 54). -/
def Obligations.BodiesOfWrongFormAreRefused : Prop :=
  (∀ (r : Request) (n : Nat) (p : Port) (tag : Byte) (body : List Byte) (s : State), CanTake p s → p ∈ senders r →
    fixedLength r = some n → body.length ≠ n → ∀ c ∈ rowsOf p tag body r, Refuses c s p r tag .malformed) ∧
  (∀ (r : Request) (p : Port) (tag b : Byte) (s : State), CanTake p s → p ∈ senders r → 8 ≤ b.toNat →
    r ∈ [Request.promote, .free, .abort, .resume, .getResults] →
    ∀ c ∈ rowsOf p tag [b] r, Refuses c s p r tag .malformed) ∧
  (∀ (tag : Byte) (body : List Byte) (s : State), CanTake .cell s →
    (body.length < 2 → Refuses (.bind .cell tag body) s .cell .bind tag .malformed) ∧
    ∀ b n rest, body = b :: n :: rest → 8 ≤ b.toNat ∨ rest.length ≠ n.toNat + 8 →
      Refuses (.bind .cell tag body) s .cell .bind tag .malformed) ∧
  (∀ (p : Port) (tag b : Byte) (rest : List Byte) (t : TableId) (s : State), CanTake p s → p ∈ senders .calData →
    b.toNat = tableCode t → rest.length ≠
      (match t with
       | .frame => 39
       | .loadR1 | .loadR2 | .loadR3 => 1 + 8 * (rest.headD 0).toNat
       | .arms => 8
       | .compliance => 4) →
    Refuses (.calData p tag (b :: rest)) s p .calData tag .malformed ∧
    Refuses (.calData p tag []) s p .calData tag .malformed) ∧
  ∀ (tag : Byte) (body : List Byte) (s : State), CanTake .supervisor s → body.head? ≠ some 1 → body.head? ≠ some 2 →
    ∀ c ∈ rowsOf .supervisor tag body .load, Refuses c s .supervisor .load tag .malformed

/-- A frame with a code that is none of the 31 is answered UNKNOWN (R196).  A frame that completes while its port serves
a request is answered BUSY once that reply has gone, whatever its code, and its effect is not made (R197); where a BUSY
reply already waits the frame is lost, and so, by the model's choice (log entry 23), is one that completes while the
BUSY reply is being sent.  CELL_DE turns on with the start of a reply that is ready, and a frame being collected on the
cell port is discarded (R195).  A reply that has gone leaves the port FREE, or is followed by the BUSY reply that waits,
which leaves it FREE in its turn (R197); CELL_DE goes off with the last byte (R195).  On the supervisor port every byte
clocked in clocks one out: the next byte of the reply in transmission, or the fill byte when none is ready; fill bytes
clocked in are ignored by a hunting receiver, and the reply after a sent one starts at its first byte (R195).  That a
frame and the bytes of one command are clocked before it is looked at is the model's choice (log entry 49). -/
def Obligations.FramesAreAnsweredAndRepliesLeave : Prop :=
  (∀ (p : Port) (tag code : Byte) (body : List Byte) (s : State), CanTake p s → codeUnknown code = true →
    exec (.unknownRequest p tag code body) s =
      .next (beginServing p tag code (some (Reply.only .unknown)) (huntAgain p s))) ∧
  (∀ (p : Port) (tag code : Byte) (body : List Byte) (s : State) (v : Serving), hears p s = true →
    (s.port p).serving = some v →
    exec (.portBusyFrame p tag code body) s =
      .next ((clockFrame p body s).setPort p { s.port p with
        rx := []
        busy := some ((s.port p).busy.getD { tag := tag, code := code }) })) ∧
  (∀ (r : Request) (p : Port) (tag : Byte) (body : List Byte) (s : State) (v : Serving), hears p s = true →
    (s.port p).serving = some v →
    ∀ c ∈ rowsOf p tag body r, exec c s = exec (.portBusyFrame p tag (requestCode r) body) s) ∧
  (∀ (s : State) (v : Serving), s.power = true → s.ptu.cellDe = false → s.ptu.cell.serving = some v →
    v.reply.isSome = true →
    exec .cellReplyStart s =
      .next { s with ptu := { s.ptu with cellDe := true, cell := { s.ptu.cell with rx := [] } } }) ∧
  (∀ s : State, s.ptu.supervisor.serving = none → misoByte s = 0xFF) ∧
  (∀ (s : State) (v : Serving), s.ptu.supervisor.serving = some v →
    (∀ r b, s.ptu.supervisor.busyTurn = false → v.reply = some r →
      (wireFrame v.tag v.code r.body)[s.ptu.misoSent]? = some b → misoByte s = b) ∧
    (∀ f b, s.ptu.supervisor.busyTurn = true ∨ v.reply = none → s.ptu.supervisor.busy = some f →
      (wireFrame f.tag f.code [byte (statusCode .busy)])[s.ptu.misoSent]? = some b → misoByte s = b) ∧
    (v.reply = none → s.ptu.supervisor.busy = none → misoByte s = 0xFF) ∧
    ∀ (n : Nat) (r : Reply), s.power = true → s.ptu.supervisor.rx = [] → s.ptu.supervisor.busyTurn = false →
      v.reply = some r →
      exec (.frameDiscard .supervisor (List.replicate n 0xFF)) s =
        .next { s with ptu := { s.ptu with
          misoSent := min (wireFrame v.tag v.code r.body).length (s.ptu.misoSent + n) } }) ∧
  ∀ (p : Port) (s : State) (v : Serving), s.power = true → (p = .cell → s.ptu.cellDe = true) →
    (s.port p).serving = some v → v.reply.isSome = true →
    ∃ t, exec (.replySent p) s = .next t ∧
      t.ptu.misoSent = (if p = .supervisor then 0 else s.ptu.misoSent) ∧
      t = { s with ptu := { t.ptu with
        assembly := s.ptu.assembly, lastCause := s.ptu.lastCause, resetWait := s.ptu.resetWait
        lineArmed := s.ptu.lineArmed } } ∧
      t.ptu.cellDe = (if p = .cell then false else s.ptu.cellDe) ∧ (∀ q, q ≠ p → t.port q = s.port q) ∧
      t.port p =
        (if (s.port p).busyTurn = true then { s.port p with serving := none, busy := none, busyTurn := false }
         else if (s.port p).busy.isSome = true then { s.port p with busyTurn := true }
         else { s.port p with serving := none })

/-- The bytes of a request's frame, sync byte, length, tag, code, body and CRC, reach a HUNTING receiver: the part does
what the request does, and the receiver is HUNTING (R194, 9.1).  What a HUNTING receiver discards (R194): bytes without
a sync byte are ignored; behind a length above 250, behind a CRC that is not that of the frame, and behind a gap of more
than 10 ms the hunt resumes with the byte that followed the sync byte; a frame partly received is kept.  Every byte is
clocked on the link (R195). -/
def Obligations.TheReceiverTakesFrames : Prop :=
  (∀ (r : Request) (p : Port) (tag : Byte) (body : List Byte) (s : State), hears p s = true → (s.port p).rx = [] →
    body.length ≤ 250 → ∀ c ∈ rowsOf p tag body r, ∃ t, exec c s = .next t ∧
      exec (.frameDiscard p (wireFrame tag (requestCode r) body)) s = .next (huntAgain p t)) ∧
  ∀ (p : Port) (s : State), hears p s = true → (s.port p).rx = [] →
    (∀ bytes : List Byte, (∀ b ∈ bytes, b ≠ 0xA5) →
      exec (.frameDiscard p bytes) s = .next (clockLink p bytes.length s) ∧
      exec (.frameByteTimeout p bytes) s = .next (clockLink p bytes.length s)) ∧
    (∀ (len : Byte) (rest : List Byte), 250 < len.toNat →
      exec (.frameDiscard p (0xA5 :: len :: rest)) s = exec (.frameDiscard p (len :: rest)) (clockLink p 1 s)) ∧
    (∀ (tag code : Byte) (body sum rest : List Byte), body.length ≤ 250 → sum.length = 2 →
      sum ≠ bytes16 (crc (framed tag code body)) →
      exec (.frameDiscard p (0xA5 :: (framed tag code body ++ sum ++ rest))) s =
        exec (.frameDiscard p (framed tag code body ++ sum ++ rest)) (clockLink p 1 s)) ∧
    (∀ (len : Byte) (rest : List Byte), len.toNat ≤ 250 → rest.length < len.toNat + 4 →
      exec (.frameByteTimeout p (0xA5 :: len :: rest)) s =
        exec (.frameByteTimeout p (len :: rest)) (clockLink p 1 s) ∧
      exec (.frameDiscard p (0xA5 :: len :: rest)) s =
        .next ((clockLink p (rest.length + 2) s).setPort p { s.port p with rx := 0xA5 :: len :: rest }))

/-- An event is delivered to the port it is raised for, and, unless its kind goes to the named port alone, to each other
port whose mask holds its class: appended below 16 entries, with the attention line asserted, and discarded with the
overflow mark set at 16 (R200, R201, R204).  Nothing else changes. -/
def Obligations.EventsReachTheirQueues : Prop :=
  ∀ (named : Option Port) (e : Event) (s : State),
    (∀ p : Port, (raiseEvent named e s).port p =
      (if named = some p ∨ (namedOnly e = false ∧ (s.port p).mask.getLsbD (eventClass e) = true) then
        (if (s.port p).queue.length < 16 then
          { s.port p with queue := (s.port p).queue ++ [e], atn := true }
         else { s.port p with overflow := true })
       else s.port p)) ∧
    raiseEvent named e s = { s with ptu := { s.ptu with
      supervisor := (raiseEvent named e s).port .supervisor
      cell := (raiseEvent named e s).port .cell
      pendant := (raiseEvent named e s).port .pendant } }

/-- GET_EVENT is answered OK with the oldest entry of its own port's queue, or none, the entries left and the overflow
mark as it stood; the entry leaves the queue and the mark is clear (R203), and the attention line is released with the
last entry (R204).  SET_EVENTS makes its classes the mask of its own port, whose queue stays, and is answered OK with
the mask; a set with a class outside the table is refused MALFORMED (R202). -/
def Obligations.EventQueuesAreRead : Prop :=
  (∀ (p : Port) (tag : Byte) (s : State), CanTake p s →
    Answers (.getEvent p tag []) s p .getEvent tag
      { status := .ok
        results :=
          [byte ((if (s.port p).queue = [] then 0 else 1) + (if (s.port p).overflow then 2 else 0)),
           byte ((s.port p).queue.length - 1)] ++
            ((s.port p).queue.head?.map eventEntry).getD (List.replicate 15 0) }
      (s.setPort p { s.port p with
        rx := [], queue := (s.port p).queue.drop 1, overflow := false
        atn := decide (1 < (s.port p).queue.length) })) ∧
  ∀ (p : Port) (tag high low : Byte) (s : State), CanTake p s →
    (high.toNat < 16 →
      Answers (.setEvents p tag [high, low]) s p .setEvents tag { status := .ok, results := [high, low] }
        (s.setPort p { s.port p with rx := [], mask := BitVec.ofNat 12 (high.toNat * 256 + low.toNat) })) ∧
    (16 ≤ high.toNat → Refuses (.setEvents p tag [high, low]) s p .setEvents tag .malformed)

/-! ### Test orders and the grips (chapter 1) -/

/-- A part 1 LOAD replaces the header held in the LOAD assembly and is answered OK, in every phase; no slot and no queue
changes.  One that cannot be read is refused MALFORMED (R210).  A part 2 LOAD for the slot of the header held (R3,
R210): an EMPTY slot with an order that passes every check becomes LOADED at the tail of the order queue, with every
other field blank; a slot that is not EMPTY is refused STATE, and an order that fails a check is refused with the status
of the first one that fails.  A LOAD with no header held, or for another slot, is refused STATE, and one that cannot be
read MALFORMED.  The assembly is empty afterwards.  That a body is read before the slot is looked at, and where the
RANGE of equal clamped bounds stands among the checks, are the model's choices (log entries 13 and 43). -/
def Obligations.LoadMakesAnOrder : Prop :=
  (∀ (tag : Byte) (body : List Byte) (s : State), CanTake .supervisor s →
    (∀ a, readHeader body = some a →
      Answers (.loadHeader .supervisor tag (1 :: body)) s .supervisor .load tag (Reply.only .ok)
        { huntAgain .supervisor s with ptu := { (huntAgain .supervisor s).ptu with assembly := some a } }) ∧
    (readHeader body = none →
      Refuses (.loadHeader .supervisor tag (1 :: body)) s .supervisor .load tag .malformed)) ∧
  (∀ (tag : Byte) (body : List Byte) (s : State), CanTake .supervisor s → readProgram body = none →
    Answers (.load .supervisor tag (2 :: body)) s .supervisor .load tag (Reply.only .malformed)
      (dropAssembly (huntAgain .supervisor s))) ∧
  ∀ (tag : Byte) (body : List Byte) (k : SlotId) (gs : List SegmentBody) (s : State), CanTake .supervisor s →
    readProgram body = some (k, gs) →
    (∀ a, s.ptu.assembly = some a → a.slot = k →
      (∀ st, firstFailure (loadChecks s.inForce a.order gs) = some st → (s.slot k).state = .empty →
        Answers (.load .supervisor tag (2 :: body)) s .supervisor .load tag (Reply.only st)
          (dropAssembly (huntAgain .supervisor s))) ∧
      ((s.slot k).state ≠ .empty →
        Answers (.load .supervisor tag (2 :: body)) s .supervisor .load tag (Reply.only .state)
          (dropAssembly (huntAgain .supervisor s))) ∧
      (firstFailure (loadChecks s.inForce a.order gs) = none → (s.slot k).state = .empty →
        ∀ o, o = { a.order with segments := gs.filterMap segmentOf } →
          Answers (.load .supervisor tag (2 :: body)) s .supervisor .load tag
            (Reply.only (if limitOrder s.inForce o = o then .ok else .clamped))
            (((dropAssembly (huntAgain .supervisor s)).setSlot k
              { Slot.blank with state := .loaded, order := limitOrder s.inForce o }).setQueue (s.ctx.queue ++ [k])))) ∧
    ((∀ a, s.ptu.assembly = some a → a.slot ≠ k) →
      Answers (.load .supervisor tag (2 :: body)) s .supervisor .load tag (Reply.only .state)
        (dropAssembly (huntAgain .supervisor s)))

/-- The orders a LOAD accepts are those of the tables of R3, R4 and R34, each mode and end kind one of the table's, and
what it stores lies within the limits of R3, R4 and R35.  A `v_max` below 0 stored as 0 is the model's choice (log entry
11). -/
def Obligations.OrdersThatAreAccepted : Prop :=
  ∀ (t : Tables) (o : TestOrder) (gs : List SegmentBody),
    (firstFailure (loadChecks t o gs) = none ↔
      (1 ≤ o.specimenId.length ∧ o.specimenId.length ≤ 16 ∧ ∀ b ∈ o.specimenId, 0x20 ≤ b.toNat ∧ b.toNat ≤ 0x7E) ∧
      (o.usesExt = true → 1000000 ≤ o.l0 ∧ o.l0 ≤ 20000000) ∧ (2000000 ≤ o.lc ∧ o.lc ≤ 100000000) ∧
      o.kSMin ≤ o.kSMax ∧ o.kEMin ≤ o.kEMax ∧ 1 ≤ o.fLim ∧ o.winLo < o.winHi ∧
      (∀ f, t.frame = some f → clamp f.hardLo f.hardHi o.winLo ≠ clamp f.hardLo f.hardHi o.winHi) ∧ o.sLo < o.sHi ∧
      0 ≤ o.eP ∧ 0 ≤ o.eRm ∧ (∀ e, o.holdptStrain = some e → 0 ≤ e) ∧ 1 ≤ o.dDrop ∧ 1 ≤ o.ePlat ∧ 1 ≤ o.fArm ∧
      1 ≤ o.jumpLim ∧ 1 ≤ o.divLim ∧ (1 ≤ o.bendLim ∧ o.bendLim ≤ 1000) ∧ (5 ≤ o.pFrac ∧ o.pFrac ≤ 95) ∧
      (10 ≤ o.pSharp ∧ o.pSharp ≤ 90) ∧ (1 ≤ gs.length ∧ gs.length ≤ 12) ∧
      ∀ g ∈ gs,
        g.mode ≤ 2 ∧ g.endKind ≤ 7 ∧ (g.endValue.isSome = true ↔ g.endKind ∈ [0, 1, 2, 3, 5]) ∧
        (g.backup.isSome = true ↔ g.endKind = 4) ∧ (g.endKind = 1 → g.rate ≠ 0) ∧
        (g.endKind = 5 → ∀ v, g.endValue = some v → 1 ≤ v ∧ v ≤ 2147483647) ∧
        (∀ v, g.backup = some v → 1 ≤ v)) ∧
    (o.kSMin ≤ o.kSMax → o.kSMin ≤ (limitOrder t o).kS0 ∧ (limitOrder t o).kS0 ≤ o.kSMax) ∧
    (o.kEMin ≤ o.kEMax → o.kEMin ≤ (limitOrder t o).kE0 ∧ (limitOrder t o).kE0 ≤ o.kEMax) ∧
    (1 ≤ (limitOrder t o).recordInterval ∧ (limitOrder t o).recordInterval ≤ 1000) ∧
    (100 ≤ (limitOrder t o).rmTimeout ∧ (limitOrder t o).rmTimeout ≤ 10000) ∧
    ∀ f, t.frame = some f →
      (f.hardLo ≤ f.hardHi → f.hardLo ≤ (limitOrder t o).winLo ∧ (limitOrder t o).winHi ≤ f.hardHi) ∧
      ∀ g ∈ (limitOrder t o).segments, 0 ≤ f.vfs →
        0 ≤ g.vmax ∧ g.vmax ≤ f.vfs ∧ (g.mode = .position → -(f.vfs / 100) ≤ g.rate ∧ g.rate ≤ f.vfs / 100)

/-- What READ_CONTEXT sends of an order is laid out as LOAD carries it, so an order that fits its fields is read back
whole by either part of a LOAD (10.2).  That the compliance estimates and their bounds are unsigned is the model's
choice (log entry 11). -/
def Obligations.OrdersReadBack : Prop :=
  (∀ (k : SlotId) (o : TestOrder), o.specimenId.length ≤ 255 → o.segments = [] → o.holdptStrain.isSome = o.holdptOn →
    (∀ x ∈ [o.l0, o.lc, o.fLim, o.winLo, o.winHi, o.sLo, o.sHi, o.eP, o.dDrop, o.ePlat, o.fArm, o.eRm, o.jumpLim,
        o.divLim], Fits32 x) → (∀ x ∈ o.holdptStrain, Fits32 x) →
    (∀ x ∈ [o.kS0, o.kE0, o.kSMin, o.kSMax, o.kEMin, o.kEMax], FitsU32 x) →
    o.recordInterval ≤ 65535 → o.rmTimeout ≤ 65535 → (0 ≤ o.bendLim ∧ o.bendLim ≤ 65535) →
    (0 ≤ o.pFrac ∧ o.pFrac ≤ 255) → (0 ≤ o.pSharp ∧ o.pSharp ≤ 255) →
    readHeader ([byte k.val, byte o.specimenId.length] ++ o.specimenId ++ [byte (optionsByte o), byte (stopsByte o)] ++
      orderBytes o) = some { slot := k, order := o }) ∧
  ∀ (k : SlotId) (gs : List Segment), gs.length ≤ 255 →
    (∀ g ∈ gs, Fits32 g.rate ∧ Fits32 g.vmax ∧ (0 ≤ g.kp ∧ g.kp ≤ 65535) ∧ (∀ v ∈ g.endValue, Fits32 v) ∧
      ∀ v ∈ g.backup, Fits32 v) →
    ∃ bodies, readProgram ([byte k.val, byte gs.length] ++ gs.flatMap segmentBytes) = some (k, bodies) ∧
      bodies.map segmentOf = gs.map some

/-- PROMOTE moves a LOADED slot to the head of the order queue and is refused STATE for any other slot; NEXT answers
with the slot and the identifier at the head, or with none, and changes nothing (R7). -/
def Obligations.TheOrderQueue : Prop :=
  (∀ (tag b : Byte) (k : SlotId) (s : State), CanTake .supervisor s → b.toNat = k.val →
    ((s.slot k).state = .loaded →
      Answers (.promote .supervisor tag [b]) s .supervisor .promote tag (Reply.only .ok)
        ((huntAgain .supervisor s).setQueue (k :: s.ctx.queue.erase k))) ∧
    ((s.slot k).state ≠ .loaded → Refuses (.promote .supervisor tag [b]) s .supervisor .promote tag .state)) ∧
  ∀ (tag : Byte) (s : State), CanTake .cell s →
    OnlyAnswers (.next .cell tag []) s .cell .next tag
      { status := .ok
        results := match s.ctx.queue with
          | [] => [255, 0]
          | k :: _ => byte k.val :: byte (s.slot k).order.specimenId.length :: (s.slot k).order.specimenId }

/-- FREE empties a LOADED slot, which leaves the order queue, and a DONE or VOID slot that the grip binding does not
name; every field of the slot is discarded.  It is refused STATE for a slot that is EMPTY, BOUND, RESIDENT or PARKED and
for a DONE or VOID slot that the binding names (R8).  A removal the slot owned is left without an owner (R122). -/
def Obligations.FreeEmptiesASlot : Prop :=
  ∀ (tag b : Byte) (k : SlotId) (s : State), CanTake .supervisor s → b.toNat = k.val →
    ((s.slot k).state = .loaded ∨ (((s.slot k).state = .done ∨ (s.slot k).state = .void) ∧ s.ctx.binding ≠ some k) →
      Answers (.free .supervisor tag [b]) s .supervisor .free tag (Reply.only .ok)
        { ((huntAgain .supervisor s).setSlot k Slot.blank).setQueue (s.ctx.queue.erase k) with
          xch := { s.xch with owner := if s.xch.owner = some k then none else s.xch.owner } }) ∧
    ((s.slot k).state = .empty ∨ (s.slot k).state = .bound ∨ (s.slot k).state = .resident ∨
        (s.slot k).state = .parked ∨
        (((s.slot k).state = .done ∨ (s.slot k).state = .void) ∧ s.ctx.binding = some k) →
      Refuses (.free .supervisor tag [b]) s .supervisor .free tag .state)

/-- CLEAR_CONDITION is refused MALFORMED for a number that is no mark's, STATE for a slot that is not PARKED, and RANGE
for a mark that is neither terminate-class nor operator-class; otherwise the mark leaves the slot's condition set, and
nothing changes where it was not set (R30). -/
def Obligations.ClearConditionRemovesAMark : Prop :=
  ∀ (tag b c : Byte) (k : SlotId) (s : State), CanTake .supervisor s → b.toNat = k.val →
    (c.toNat = 0 ∨ 22 < c.toNat →
      Refuses (.clearCondition .supervisor tag [b, c]) s .supervisor .clearCondition tag .malformed) ∧
    ∀ m : Mark, c.toNat = markNumber m →
      ((s.slot k).state ≠ .parked →
        Refuses (.clearCondition .supervisor tag [b, c]) s .supervisor .clearCondition tag .state) ∧
      ((s.slot k).state = .parked → markClass m ≠ .terminate → markClass m ≠ .operator →
        Refuses (.clearCondition .supervisor tag [b, c]) s .supervisor .clearCondition tag .range) ∧
      ((s.slot k).state = .parked → markClass m = .terminate ∨ markClass m = .operator →
        Answers (.clearCondition .supervisor tag [b, c]) s .supervisor .clearCondition tag (Reply.only .ok)
          ((huntAgain .supervisor s).setSlot k
            { s.slot k with marks := (s.slot k).marks.filter (fun x => decide (x ≠ m)) }))

/-- An accepted BIND stores the dimensions with S0, takes the slot off the order queue, names it in the grip binding and
queues BOUND; where autostart is set and the slot is start-ready, its test starts at once (R17).  The checks of a BIND
in their order give its refusals, which change nothing (R10); that the RANGE check also refuses a ROUND or AREA specimen
with a second dimension other than 0 is the model's choice (log entry 16).  S0 is computed as R11 gives it. -/
def Obligations.BindTakesTheGrips : Prop :=
  (∀ (tag : Byte) (body : List Byte) (b : BindBody) (s : State), CanTake .cell s → readBind body = some b →
    (s.slot b.slot).state = .loaded → s.ctx.binding = none → s.ctx.phase = .idle → gripsClosed s = true →
    b.specimenId = (s.slot b.slot).order.specimenId → dimsSuit (s.slot b.slot).order.shape b.first b.second = true →
    (s.frame.autostart = true → firstUnmet b.slot startItems s = none →
      ∃ t, exec (.bind .cell tag body) s = .next t ∧ Serves t .cell .bind tag (Reply.only .ok) ∧
        (t.slot b.slot).state = .resident ∧ t.ctx.phase = .test ∧ t.ctx.binding = some b.slot ∧
        t.ctx.queue = s.ctx.queue.erase b.slot) ∧
    (s.frame.autostart = false ∨ firstUnmet b.slot startItems s ≠ none →
     Answers (.bind .cell tag body) s .cell .bind tag (Reply.only .ok)
      (raiseEvent none (.bound b.slot)
        { ((huntAgain .cell s).setSlot b.slot
            { s.slot b.slot with
              state := .bound
              dims := some { first := b.first, second := b.second }
              s0 := some (crossSection (s.slot b.slot).order.shape b.first b.second) }) with
          ctx := { ((huntAgain .cell s).setSlot b.slot
              { s.slot b.slot with
                state := .bound
                dims := some { first := b.first, second := b.second }
                s0 := some (crossSection (s.slot b.slot).order.shape b.first b.second) }).ctx with
            queue := s.ctx.queue.erase b.slot, binding := some b.slot } }))) ∧
  (∀ (tag : Byte) (body : List Byte) (b : BindBody) (s : State), CanTake .cell s → readBind body = some b →
    ((s.slot b.slot).state ≠ .loaded → Refuses (.bind .cell tag body) s .cell .bind tag .state) ∧
    ((s.slot b.slot).state = .loaded → s.ctx.binding ≠ none ∨ s.ctx.phase ≠ .idle →
      Refuses (.bind .cell tag body) s .cell .bind tag .state) ∧
    ((s.slot b.slot).state = .loaded → s.ctx.binding = none → s.ctx.phase = .idle →
      (gripsClosed s = false → OnlyAnswers (.bind .cell tag body) s .cell .bind tag (Reply.notReady .grips)) ∧
      (gripsClosed s = true → b.specimenId ≠ (s.slot b.slot).order.specimenId →
        Refuses (.bind .cell tag body) s .cell .bind tag .mismatch) ∧
      (gripsClosed s = true → b.specimenId = (s.slot b.slot).order.specimenId →
        dimsSuit (s.slot b.slot).order.shape b.first b.second = false →
        Refuses (.bind .cell tag body) s .cell .bind tag .range))) ∧
  ∀ w t : Int,
    crossSection .flat w t = clamp 100 20000000 (roundDiv (w * t) 1000) ∧
    crossSection .round w t = clamp 100 20000000 (roundDiv (w * w * 785398163) 1000000000000) ∧
    crossSection .area w t = clamp 100 20000000 w

/-- RELEASE frees the grips and queues RELEASED: a BOUND slot becomes LOADED again at the head of the order queue
without dimensions and S0, a DONE or VOID slot keeps everything.  It is refused STATE with nothing bound, and for a
RESIDENT or PARKED slot (R12). -/
def Obligations.ReleaseFreesTheGrips : Prop :=
  ∀ (tag : Byte) (s : State), CanTake .cell s →
    (s.ctx.binding = none → Refuses (.release .cell tag []) s .cell .release tag .state) ∧
    ∀ k : SlotId, s.ctx.binding = some k →
      ((s.slot k).state = .bound →
        Answers (.release .cell tag []) s .cell .release tag (Reply.only .ok)
          (raiseEvent none (.released k)
            { huntAgain .cell s with ctx := { s.ctx with
              slots := s.ctx.slots.set k.val { s.slot k with state := .loaded, dims := none, s0 := none }
              queue := k :: s.ctx.queue
              binding := none } })) ∧
      ((s.slot k).state = .done ∨ (s.slot k).state = .void →
        Answers (.release .cell tag []) s .cell .release tag (Reply.only .ok)
          (raiseEvent none (.released k) { huntAgain .cell s with ctx := { s.ctx with binding := none } })) ∧
      ((s.slot k).state = .resident ∨ (s.slot k).state = .parked →
        Refuses (.release .cell tag []) s .cell .release tag .state)

/-! ### Contexts and changeovers (chapter 1) -/

/-- START of a BOUND slot that is start-ready, with no changeover pending, starts its test from any port: the slot is
RESIDENT with its order limited again, the phase TEST with DRV_EN on and the down-switch lock set, the runtime part at
its initial values, segment 1 in the active bank with a demand of 0, and every other slot, the queue and the binding as
they were (R17, R18).  It is refused STATE where nothing BOUND is in the grips, CHANGEOVER while one is pending, and
NOT_READY naming the first unmet item otherwise. -/
def Obligations.StartBeginsTheTest : Prop :=
  ∀ (p : Port) (tag : Byte) (s : State), CanTake p s →
    ((∀ k : SlotId, s.ctx.binding = some k → (s.slot k).state ≠ .bound) →
      Refuses (.start p tag []) s p .start tag .state) ∧
    ∀ k : SlotId, s.ctx.binding = some k → (s.slot k).state = .bound →
      (s.ctx.changeover ≠ none → Refuses (.start p tag []) s p .start tag .changeover) ∧
      (s.ctx.changeover = none → ∀ i, firstUnmet k startItems s = some i →
        OnlyAnswers (.start p tag []) s p .start tag (Reply.notReady i)) ∧
      (s.ctx.changeover = none → firstUnmet k startItems s = none →
        ∃ t, exec (.start p tag []) s = .next t ∧ Serves t p .start tag (Reply.only .ok) ∧
          (t.slot k).state = .resident ∧ (t.slot k).order = clampProgram s.inForce (clampWindow s.inForce (s.slot k).order) ∧
          (t.slot k).dims = (s.slot k).dims ∧ (t.slot k).s0 = (s.slot k).s0 ∧
          (∀ j, j ≠ k → t.slot j = s.slot j) ∧ t.ctx.queue = s.ctx.queue ∧ t.ctx.binding = some k ∧
          t.ctx.phase = .test ∧ t.ctx.resident = some (.test k) ∧ t.flu.drvEn = true ∧ t.lch.lock = true ∧
          t.live.map (·.rt) = some (startRuntime (t.slot k).order) ∧ t.msq.active = bankOf (t.slot k).order 1 ∧
          t.msq.inactive = none ∧ t.msq.dac = 0 ∧ t.msq.prevDemand = 0 ∧
          ((s.slot k).order.tareAtStart = true → t.lch.tareRun = some { kind := .start, sum := 0, count := 0 }) ∧
          t.lch.tare = s.lch.tare ∧ t.smu = s.smu ∧ t.cst = s.cst ∧ t.xch = s.xch)

/-- HOLD in TEST with no changeover pending makes OPERATOR pending, with the pendant as requester and the service
context as incoming, and queues CHANGEOVER_BEGUN; the test stays resident.  It is refused STATE in another phase and
CHANGEOVER while one is pending (R20, R24).  The checks of a LEAVE in their order; an accepted LEAVE makes OPERATOR
pending with the service context as outgoing and no incoming (R26). -/
def Obligations.HoldAndLeaveRaiseOperator : Prop :=
  (∀ (tag : Byte) (s : State), CanTake .pendant s →
    (s.ctx.phase ≠ .test → Refuses (.hold .pendant tag []) s .pendant .hold tag .state) ∧
    (s.ctx.phase = .test → s.ctx.changeover ≠ none →
      Refuses (.hold .pendant tag []) s .pendant .hold tag .changeover) ∧
    ∀ k : SlotId, s.ctx.phase = .test → s.ctx.changeover = none → s.ctx.resident = some (.test k) →
      Answers (.hold .pendant tag []) s .pendant .hold tag (Reply.only .ok)
        (raiseEvent (some .pendant) (.changeoverBegun .operator (.port .pendant) (.test k) (some .service))
          { huntAgain .pendant s with
            msq := { s.msq with stillCount := 0 }
            ctx := { s.ctx with changeover := some (requested .pendant (.test k) (some .service)) } })) ∧
  ∀ (p : Port) (tag : Byte) (s : State), CanTake p s → p ∈ senders .leave →
    (s.ctx.phase ≠ .service → Refuses (.leave p tag []) s p .leave tag .state) ∧
    (s.ctx.phase = .service → p = .supervisor → s.ctx.holder ≠ some .supervisor →
      Refuses (.leave p tag []) s p .leave tag .notHolder) ∧
    (s.ctx.phase = .service → (p = .supervisor → s.ctx.holder = some .supervisor) →
      (s.ctx.changeover ≠ none → Refuses (.leave p tag []) s p .leave tag .changeover) ∧
      (s.ctx.changeover = none → ∀ k : SlotId, (s.slot k).state = .parked →
        Refuses (.leave p tag []) s p .leave tag .state) ∧
      (s.ctx.changeover = none → (∀ k : SlotId, (s.slot k).state ≠ .parked) → s.ctx.resident = some .service →
        Answers (.leave p tag []) s p .leave tag (Reply.only .ok)
          (raiseEvent (some p) (.changeoverBegun .operator (.port p) .service none)
            { huntAgain p s with
              msq := { s.msq with stillCount := 0 }
              ctx := { s.ctx with changeover := some (requested p .service none) } })))

/-- ABORT of the RESIDENT test makes TERMINATE pending and sets ABORTED, or is refused CHANGEOVER while a TERMINATE is
pending; ABORT of a PARKED test makes it VOID at once with ABORTED as mark and end cause, phase, resident context,
binding and every other slot unchanged, or is refused CHANGEOVER where the test is the incoming of a pending changeover;
ABORT of any other slot is refused STATE (R25).  That it raises TERMINATE in a test with FRACTURE set too, in place of
the END of the fracture, is the model's choice (log entry 45). -/
def Obligations.AbortEndsATest : Prop :=
  ∀ (p : Port) (tag b : Byte) (k : SlotId) (s : State), CanTake p s → p ∈ senders .abort → b.toNat = k.val →
    ((s.slot k).state ≠ .resident → (s.slot k).state ≠ .parked →
      Refuses (.abort p tag [b]) s p .abort tag .state) ∧
    ((s.slot k).state = .resident → s.ctx.resident = some (.test k) →
      (∀ c, s.ctx.changeover = some c → c.cause = .terminate →
        Refuses (.abort p tag [b]) s p .abort tag .changeover) ∧
      ((∀ c, s.ctx.changeover = some c → c.cause ≠ .terminate) →
        ∃ t, exec (.abort p tag [b]) s = .next t ∧ Serves t p .abort tag (Reply.only .ok) ∧
          Mark.aborted ∈ (t.slot k).marks ∧ (t.slot k).state = .resident ∧
          t.ctx.changeover = some
            { cause := .terminate, requester := .port p, outgoing := .test k, incoming := none
              elapsed := (s.ctx.changeover.map (·.elapsed)).getD 0, endCause := some (.mark .aborted) } ∧
          t.ctx.phase = s.ctx.phase ∧ t.ctx.resident = s.ctx.resident ∧ t.ctx.binding = s.ctx.binding ∧
          t.ctx.queue = s.ctx.queue ∧ (∀ j, j ≠ k → t.slot j = s.slot j) ∧ t.live = s.live)) ∧
    ((s.slot k).state = .parked →
      (∀ c, s.ctx.changeover = some c → c.incoming = some (.test k) →
        Refuses (.abort p tag [b]) s p .abort tag .changeover) ∧
      ((∀ c, s.ctx.changeover = some c → c.incoming ≠ some (.test k)) →
        ∃ t, exec (.abort p tag [b]) s = .next t ∧ Serves t p .abort tag (Reply.only .ok) ∧
          (t.slot k).state = .void ∧ Mark.aborted ∈ (t.slot k).marks ∧
          (t.slot k).outcome = some { void := true, cause := .mark .aborted } ∧
          t.ctx.phase = s.ctx.phase ∧ t.ctx.resident = s.ctx.resident ∧ t.ctx.binding = s.ctx.binding ∧
          t.ctx.queue = s.ctx.queue ∧ t.ctx.changeover = s.ctx.changeover ∧ (∀ j, j ≠ k → t.slot j = s.slot j) ∧
          t.live = s.live ∧ t.msq = s.msq ∧ t.lch = s.lch ∧ t.flu = s.flu))

/-- A RESUME that passes the checks of R28 raises OPERATOR in SERVICE, with the parked slot as incoming; in IDLE the
test is RESIDENT at once, the phase TEST, with its STEP, HOLDPT and RMFAIL marks removed and the active bank it saved
(R28, R29, R37).  The checks that come first are refused as R28 orders them. -/
def Obligations.ResumeTakesUpAParkedTest : Prop :=
  ∀ (p : Port) (tag b : Byte) (k : SlotId) (s : State), CanTake p s → p ∈ senders .resume → b.toNat = k.val →
    ((s.slot k).state ≠ .parked ∨ (s.ctx.phase ≠ .service ∧ s.ctx.phase ≠ .idle) →
      Refuses (.resume p tag [b]) s p .resume tag .state) ∧
    ((s.slot k).state = .parked → s.ctx.phase = .service → p = .supervisor → s.ctx.holder ≠ some .supervisor →
      Refuses (.resume p tag [b]) s p .resume tag .notHolder) ∧
    ((s.slot k).state = .parked →
      s.ctx.phase = .idle ∨ (s.ctx.phase = .service ∧ (p = .supervisor → s.ctx.holder = some .supervisor)) →
      (s.ctx.changeover ≠ none → Refuses (.resume p tag [b]) s p .resume tag .changeover) ∧
      (s.ctx.changeover = none → ∀ i, firstUnmet k [.calWindow, .guard, .grips, .faultLine, .tables] s = some i →
        OnlyAnswers (.resume p tag [b]) s p .resume tag (Reply.notReady i)) ∧
      (s.ctx.changeover = none → firstUnmet k [.calWindow, .guard, .grips, .faultLine, .tables] s = none →
        ∀ rt, (s.slot k).runtime = some rt →
        (rt.source = .ext → s.xch.state ≠ .attached →
          OnlyAnswers (.resume p tag [b]) s p .resume tag (Reply.notReady .extensometer)) ∧
        (rt.source = .xhd ∨ s.xch.state = .attached →
          (s.ctx.phase = .service → s.ctx.resident = some .service →
            Answers (.resume p tag [b]) s p .resume tag (Reply.only .ok)
              (raiseEvent (some p) (.changeoverBegun .operator (.port p) .service (some (.test k)))
                { huntAgain p s with
                  msq := { s.msq with stillCount := 0 }
                  ctx := { s.ctx with changeover := some (requested p .service (some (.test k))) } })) ∧
          (s.ctx.phase = .idle →
            ∃ t, exec (.resume p tag [b]) s = .next t ∧ Serves t p .resume tag (Reply.only .ok) ∧
              (t.slot k).state = .resident ∧ (t.slot k).order = (s.slot k).order ∧
              (∀ m ∈ [Mark.step, .holdpt, .rmfail], m ∉ (t.slot k).marks) ∧
              (∀ m ∈ (s.slot k).marks, m ∉ [Mark.step, .holdpt, .rmfail] → m ∈ (t.slot k).marks) ∧
              (∀ j, j ≠ k → t.slot j = s.slot j) ∧ t.ctx.phase = .test ∧ t.ctx.resident = some (.test k) ∧
              t.flu.drvEn = true ∧ t.lch.lock = true ∧ t.msq.active = rt.active ∧ t.msq.inactive = none ∧
              t.msq.prevDemand = 0 ∧ t.msq.ring = [] ∧ t.live.map (·.rt.count) = some rt.count ∧
              t.live.map (·.rt.elapsed) = some rt.elapsed ∧ t.live.map (·.rt.source) = some rt.source))))

/-- The checks of a CLEAR in their order (R170); an accepted CLEAR empties the fault set, turns ALARM off, drops the
safe context with the phase IDLE, and queues PHASE and then CLEARED with the number of entries (R171). -/
def Obligations.ClearEmptiesTheFaultSet : Prop :=
  ∀ (p : Port) (tag : Byte) (s : State), CanTake p s → p ∈ senders .clear →
    (s.ctx.phase ≠ .safe → Refuses (.clear p tag []) s p .clear tag .state) ∧
    (s.ctx.phase = .safe →
      ((∃ fn ∈ [LineFn.estop, .limitUp, .limitLo, .driveFault], lineActive s fn = true) →
        OnlyAnswers (.clear p tag []) s p .clear tag (Reply.notReady .faultLine)) ∧
      ((∀ fn ∈ [LineFn.estop, .limitUp, .limitLo, .driveFault], lineActive s fn = false) →
        (s.smu.delivered < 3 → OnlyAnswers (.clear p tag []) s p .clear tag (Reply.notReady .stream)) ∧
        (3 ≤ s.smu.delivered → s.lch.hard = true →
          OnlyAnswers (.clear p tag []) s p .clear tag (Reply.notReady .hardLoad)) ∧
        (3 ≤ s.smu.delivered → s.lch.hard = false →
          Answers (.clear p tag []) s p .clear tag (Reply.only .ok)
            (raiseEvent (some p) (.cleared s.flu.faults.length)
              (raiseEvent none (.phase .idle none)
                { huntAgain p s with
                  flu := { s.flu with faults := [], alarm := false, drvEn := false }
                  ctx := { s.ctx with phase := .idle, resident := none } })))))

/-! ### Motion requests and the tare (chapters 2, 4 and 7) -/

/-- The checks of a TARE in their order; an accepted TARE is answered ACCEPTED and begins to collect for its port
(R88). -/
def Obligations.TareBegins : Prop :=
  ∀ (p : Port) (tag : Byte) (s : State), CanTake p s → p ∈ senders .tare →
    (s.ctx.phase ≠ .idle → s.ctx.phase ≠ .service → Refuses (.tare p tag []) s p .tare tag .state) ∧
    (s.ctx.phase = .idle ∨ s.ctx.phase = .service →
      (s.ctx.changeover ≠ none → Refuses (.tare p tag []) s p .tare tag .changeover) ∧
      (s.ctx.changeover = none → s.lch.tareRun ≠ none → Refuses (.tare p tag []) s p .tare tag .busy) ∧
      (s.ctx.changeover = none → s.lch.tareRun = none → tablesProgrammed s.cst.work = false →
        OnlyAnswers (.tare p tag []) s p .tare tag (Reply.notReady .tables)) ∧
      (s.ctx.changeover = none → s.lch.tareRun = none → tablesProgrammed s.cst.work = true →
        Answers (.tare p tag []) s p .tare tag (Reply.only .accepted)
          { huntAgain p s with
            lch := { s.lch with tareRun := some { kind := .port p, sum := 0, count := 0 } } }))

/-- JOG and JOG_STOP in SERVICE: the service segment takes the rate of the velocity, limited to the jog max, or 0; any
target is cleared, and the pendant holds the service context (R54, R56).  JOG in IDLE makes the service context resident
with the pendant as holder and the phase SERVICE (R27).  Both are refused CHANGEOVER while one is pending, JOG STATE in
TEST and SAFE, JOG_STOP STATE outside SERVICE; JOG in IDLE is refused NOT_READY while a write window is open.  That a
pending changeover is looked at before the phase for JOG_STOP too is the model's choice (log entry 17). -/
def Obligations.JogMovesTheCrosshead : Prop :=
  ∀ (tag : Byte) (body : List Byte) (v : Int) (s : State), CanTake .pendant s → readJog body = some v →
    (s.ctx.changeover ≠ none →
      Refuses (.jog .pendant tag body) s .pendant .jog tag .changeover ∧
      Refuses (.jogStop .pendant tag []) s .pendant .jogStop tag .changeover) ∧
    (s.ctx.changeover = none →
      (s.ctx.phase = .test ∨ s.ctx.phase = .safe → Refuses (.jog .pendant tag body) s .pendant .jog tag .state) ∧
      (s.ctx.phase ≠ .service → Refuses (.jogStop .pendant tag []) s .pendant .jogStop tag .state) ∧
      (s.ctx.phase = .idle → s.cst.window ≠ .closed →
        OnlyAnswers (.jog .pendant tag body) s .pendant .jog tag (Reply.notReady .calWindow)) ∧
      (s.ctx.phase = .service →
        Answers (.jog .pendant tag body) s .pendant .jog tag
          (Reply.only (if -s.frame.jogMax ≤ v ∧ v ≤ s.frame.jogMax then .ok else .clamped))
          { huntAgain .pendant s with
            msq := { s.msq with
              active := s.msq.active.map fun b =>
                { b with rate := roundDiv (clamp (-s.frame.jogMax) s.frame.jogMax v) 100 }
              target := none
              speed := 0 }
            ctx := { s.ctx with holder := some .pendant } } ∧
        Answers (.jogStop .pendant tag []) s .pendant .jogStop tag (Reply.only .ok)
          { huntAgain .pendant s with
            msq := { s.msq with active := s.msq.active.map fun b => { b with rate := 0 }, target := none, speed := 0 }
            ctx := { s.ctx with holder := some .pendant } }) ∧
      (s.ctx.phase = .idle → s.cst.window = .closed → s.inForce.frame.isSome = true →
        ∃ t, exec (.jog .pendant tag body) s = .next t ∧
          Serves t .pendant .jog tag (Reply.only (if -s.frame.jogMax ≤ v ∧ v ≤ s.frame.jogMax then .ok else .clamped)) ∧
          t.ctx.phase = .service ∧ t.ctx.resident = some .service ∧ t.ctx.holder = some .pendant ∧
          t.flu.drvEn = true ∧ t.msq.inactive = none ∧ t.msq.prevDemand = 0 ∧ t.msq.target = none ∧
          t.msq.active = some
            { seg := 0, mode := .position, rate := roundDiv (clamp (-s.frame.jogMax) s.frame.jogMax v) 100
              vmax := s.frame.jogMax, kp := 2560 } ∧
          t.ctx.slots = s.ctx.slots ∧ t.ctx.queue = s.ctx.queue ∧ t.ctx.binding = s.ctx.binding ∧
          t.lch = s.lch ∧ t.smu = s.smu ∧ t.cst = s.cst))

/-- MOVE in SERVICE, where the holder is NONE or the supervisor: the target is limited to the hard window, the rate is
that of the speed, limited to the jog max, toward the target from the setpoint, and the supervisor holds the service
context (R55, R56).  It is refused NOT_HOLDER while the pendant holds it, then RANGE for a speed below 100; the checks
of R54 come first.  A MOVE in IDLE makes the service context resident with the supervisor as holder and the phase
SERVICE, the target and the speed stored (R27).  That the NOT_READY of R54 for the tables reads the FRAME table the
readers have taken up is the model's choice (log entry 9). -/
def Obligations.MoveSetsATarget : Prop :=
  ∀ (tag : Byte) (body : List Byte) (target speed : Int) (s : State), CanTake .supervisor s →
    readMove body = some (target, speed) →
    (s.ctx.changeover ≠ none → Refuses (.move .supervisor tag body) s .supervisor .move tag .changeover) ∧
    (s.ctx.changeover = none →
      (s.ctx.phase = .test ∨ s.ctx.phase = .safe → Refuses (.move .supervisor tag body) s .supervisor .move tag .state) ∧
      (s.ctx.phase = .idle → s.cst.window ≠ .closed →
        OnlyAnswers (.move .supervisor tag body) s .supervisor .move tag (Reply.notReady .calWindow)) ∧
      (s.ctx.phase = .idle → s.cst.window = .closed → s.inForce.frame.isNone = true →
        OnlyAnswers (.move .supervisor tag body) s .supervisor .move tag (Reply.notReady .tables)) ∧
      (s.ctx.phase = .service →
        (∀ q, s.ctx.holder = some q → q ≠ .supervisor →
          Refuses (.move .supervisor tag body) s .supervisor .move tag .notHolder) ∧
        (s.ctx.holder = none ∨ s.ctx.holder = some .supervisor →
          (speed < 100 → Refuses (.move .supervisor tag body) s .supervisor .move tag .range) ∧
          (100 ≤ speed → ∀ q, s.msq.qSet = some q →
            Answers (.move .supervisor tag body) s .supervisor .move tag
              (Reply.only
                (if speed ≤ s.frame.jogMax ∧ clamp s.frame.hardLo s.frame.hardHi target = target then .ok
                 else .clamped))
              { huntAgain .supervisor s with
                msq := { s.msq with
                  active := s.msq.active.map fun b =>
                    { b with
                      rate := signI (clamp s.frame.hardLo s.frame.hardHi target - q) *
                        roundDiv (min speed s.frame.jogMax) 100 }
                  target := some (clamp s.frame.hardLo s.frame.hardHi target)
                  speed := roundDiv (min speed s.frame.jogMax) 100 }
                ctx := { s.ctx with holder := some .supervisor } })))) ∧
    (s.ctx.changeover = none → s.ctx.phase = .idle → s.cst.window = .closed → s.inForce.frame.isSome = true →
      (speed < 100 → Refuses (.move .supervisor tag body) s .supervisor .move tag .range) ∧
      (100 ≤ speed →
        ∃ t, exec (.move .supervisor tag body) s = .next t ∧
          Serves t .supervisor .move tag (Reply.only
            (if speed ≤ s.frame.jogMax ∧ clamp s.frame.hardLo s.frame.hardHi target = target then .ok else .clamped)) ∧
          t.ctx.phase = .service ∧ t.ctx.resident = some .service ∧ t.ctx.holder = some .supervisor ∧
          t.flu.drvEn = true ∧ t.msq.inactive = none ∧ t.msq.prevDemand = 0 ∧
          t.msq.target = some (clamp s.frame.hardLo s.frame.hardHi target) ∧
          t.msq.speed = roundDiv (min speed s.frame.jogMax) 100 ∧
          t.msq.active.map (fun b => (b.seg, b.mode, b.vmax, b.kp)) = some (0, .position, s.frame.jogMax, 2560) ∧
          t.ctx.slots = s.ctx.slots ∧ t.ctx.queue = s.ctx.queue ∧ t.ctx.binding = s.ctx.binding ∧
          t.lch = s.lch ∧ t.smu = s.smu ∧ t.cst = s.cst))

/-- The checks of an AMEND in their order; an accepted AMEND stages the active bank with the new rate and `v_max`,
limited as at LOAD, in the inactive bank, and the port of an amendment that it replaces gets STAGE_SUPERSEDED (R50).  A
`v_max` below 0 staged as 0 is the model's choice (log entry 11). -/
def Obligations.AmendStagesAChange : Prop :=
  ∀ (p : Port) (tag : Byte) (body : List Byte) (rate : Int) (vmax : Option Int) (b : Bank) (s : State),
    CanTake p s → p ∈ senders .amend → readAmend body = some (rate, vmax) → s.msq.active = some b →
    (s.ctx.phase ≠ .test → Refuses (.amend p tag body) s p .amend tag .state) ∧
    (s.ctx.phase = .test →
      (s.ctx.changeover ≠ none → Refuses (.amend p tag body) s p .amend tag .changeover) ∧
      (s.ctx.changeover = none →
        (startTareRunning s = true → Refuses (.amend p tag body) s p .amend tag .state) ∧
        (startTareRunning s = false →
          (∀ g, s.msq.inactive = some (.transition g) → Refuses (.amend p tag body) s p .amend tag .staged) ∧
          ((∀ g, s.msq.inactive ≠ some (.transition g)) →
            (rate = 0 → activeEndKind b s = some .qReach → Refuses (.amend p tag body) s p .amend tag .malformed) ∧
            (rate ≠ 0 ∨ activeEndKind b s ≠ some .qReach →
              ∃ (rate' vmax' : Int) (st : Status) (t : State),
                rate' = (if b.mode = .position then clamp (-(s.frame.vfs / 100)) (s.frame.vfs / 100) rate else rate) ∧
                vmax' = (vmax.map fun v => clamp 0 s.frame.vfs v).getD b.vmax ∧
                st = (if rate' = rate ∧ (∀ v, vmax = some v → vmax' = v) then .ok else .clamped) ∧
                Answers (.amend p tag body) s p .amend tag (Reply.only st) t ∧
                t = { (match s.msq.inactive with
                    | some (.amendment old q) => raiseEvent (some q) (.stageSuperseded s.residentSlot old.seg) (huntAgain p s)
                    | _ => huntAgain p s) with
                  msq := { s.msq with
                    inactive := some (.amendment { b with rate := rate', vmax := vmax' } p) } })))))

/-- ZERO_POSITION in IDLE sets the crosshead count to 0 and is answered with the count it replaced; the position history
is emptied, and a PARKED test's saved reference position is decreased by the count (R69, R109, R178).  In another phase
it is refused STATE. -/
def Obligations.ZeroPositionMovesTheOrigin : Prop :=
  ∀ (tag : Byte) (s : State), CanTake .supervisor s →
    (s.ctx.phase ≠ .idle → Refuses (.zeroPosition .supervisor tag []) s .supervisor .zeroPosition tag .state) ∧
    (s.ctx.phase = .idle →
      ∃ t, Answers (.zeroPosition .supervisor tag []) s .supervisor .zeroPosition tag
          { status := .ok, results := be32 s.smu.xh } t ∧
        t = { huntAgain .supervisor s with
          smu := { s.smu with xh := 0 }
          msq := { s.msq with history := [], velocity := none }
          ctx := { s.ctx with slots := t.ctx.slots } } ∧
        (∀ k : SlotId, (s.slot k).state ≠ .parked → t.slot k = s.slot k) ∧
        ∀ (k : SlotId) (rt : Runtime), (s.slot k).state = .parked → (s.slot k).runtime = some rt →
          t.slot k = { s.slot k with
            runtime := some { rt with posRef := rt.posRef.map fun x => sat32 (x - s.smu.xh) } })

/-! ### The calibration store (chapter 4) -/

/-- The checks of a CAL_OPEN and of a CAL_DATA in their order; a quoted revision that differs from the counter and a
CAL_DATA to a CLOSED window set the lock.  An accepted CAL_OPEN opens the window with an empty buffer, an accepted
CAL_DATA replaces the buffer, and nothing else changes (R98 to R100).  That a CAL_DATA whose table byte names no table
is judged at the fifth check, and a CAL_OPEN likewise at its place, is the model's choice (log entry 14). -/
def Obligations.TheWriteWindowOpens : Prop :=
  ∀ (p : Port) (tag : Byte) (body : List Byte) (s : State), CanTake p s → p ∈ senders .calOpen →
    (∀ n revision, readCalOpen body = some (n, revision) →
      (s.cst.lock = true → Refuses (.calOpen p tag body) s p .calOpen tag .locked) ∧
      (s.cst.lock = false → s.cst.window ≠ .closed → Refuses (.calOpen p tag body) s p .calOpen tag .busy) ∧
      (s.cst.lock = false → s.cst.window = .closed →
        (s.ctx.phase ≠ .idle → Refuses (.calOpen p tag body) s p .calOpen tag .state) ∧
        (s.ctx.phase = .idle → 6 ≤ n → Refuses (.calOpen p tag body) s p .calOpen tag .malformed) ∧
        (s.ctx.phase = .idle → ∀ t, tableCode t = n →
          (4294967295 ≤ s.cst.nv.revision → Refuses (.calOpen p tag body) s p .calOpen tag .range) ∧
          (s.cst.nv.revision < 4294967295 → revision ≠ s.cst.nv.revision →
            Answers (.calOpen p tag body) s p .calOpen tag (Reply.only .mismatch)
              { huntAgain p s with cst := { s.cst with lock := true } }) ∧
          (s.cst.nv.revision < 4294967295 → revision = s.cst.nv.revision →
            Answers (.calOpen p tag body) s p .calOpen tag (Reply.only .ok)
              { huntAgain p s with cst := { s.cst with window := .opened t p none } })))) ∧
    ∀ t content, readCalData body = some (t, content) →
      (s.cst.lock = true → Refuses (.calData p tag body) s p .calData tag .locked) ∧
      (s.cst.lock = false →
        (s.cst.window = .closed →
          Answers (.calData p tag body) s p .calData tag (Reply.only .locked)
            { huntAgain p s with cst := { s.cst with lock := true } }) ∧
        (∀ t0 q c, s.cst.window = .writing t0 q c → Refuses (.calData p tag body) s p .calData tag .busy) ∧
        ∀ t0 q buffer, s.cst.window = .opened t0 q buffer →
          (p ≠ q → Refuses (.calData p tag body) s p .calData tag .notHolder) ∧
          (p = q → t ≠ some t0 ∨ (∀ c, readContent t0 content = some c → contentValid c = false) →
            Refuses (.calData p tag body) s p .calData tag .malformed) ∧
          (p = q → t = some t0 → ∀ c, readContent t0 content = some c → contentValid c = true →
            Answers (.calData p tag body) s p .calData tag (Reply.only .ok)
              { huntAgain p s with cst := { s.cst with window := .opened t0 q (some c) } }))

/-- The checks of a CAL_COMMIT and of a CAL_CLOSE in their order.  An accepted CAL_COMMIT is answered ACCEPTED: the
window is WRITING and the nonvolatile mark of its table is clear, the working copies and the counter as they were.  An
accepted CAL_CLOSE closes the window and changes no table (R96, R98, R101, R102). -/
def Obligations.TheWriteWindowCloses : Prop :=
  ∀ (p : Port) (tag : Byte) (s : State), CanTake p s → p ∈ senders .calCommit →
    (s.cst.lock = true →
      Refuses (.calCommit p tag []) s p .calCommit tag .locked ∧ Refuses (.calClose p tag []) s p .calClose tag .locked) ∧
    (s.cst.lock = false →
      (s.cst.window = .closed →
        Answers (.calCommit p tag []) s p .calCommit tag (Reply.only .locked)
          { huntAgain p s with cst := { s.cst with lock := true } } ∧
        Refuses (.calClose p tag []) s p .calClose tag .state) ∧
      (∀ t q c, s.cst.window = .writing t q c →
        Refuses (.calCommit p tag []) s p .calCommit tag .busy ∧ Refuses (.calClose p tag []) s p .calClose tag .busy) ∧
      ∀ t q buffer, s.cst.window = .opened t q buffer →
        (p ≠ q →
          Refuses (.calCommit p tag []) s p .calCommit tag .notHolder ∧
          Refuses (.calClose p tag []) s p .calClose tag .notHolder) ∧
        (p = q →
          Answers (.calClose p tag []) s p .calClose tag (Reply.only .ok)
            { huntAgain p s with cst := { s.cst with window := .closed } } ∧
          (s.ctx.phase ≠ .idle ∨ buffer = none → Refuses (.calCommit p tag []) s p .calCommit tag .state) ∧
          (s.ctx.phase = .idle → ∀ c, buffer = some c →
            ∃ u : State,
              Answers (.calCommit p tag []) s p .calCommit tag (Reply.only .accepted) u ∧
              u = { huntAgain p s with cst :=
                { s.cst with
                  nv := { s.cst.nv with tables := u.cst.nv.tables }
                  window := .writing t q c } } ∧
              tableBytes u.cst.nv.tables t = none ∧
              ∀ t', t' ≠ t → tableBytes u.cst.nv.tables t' = tableBytes s.cst.nv.tables t')))

/-- The completion of a write puts the buffer in the nonvolatile and the working table, with the counter one higher and
the window CLOSED, and queues CAL_DONE for the opener; a reset that waited takes effect after it (R97, R101, R103).
With no write running it does nothing. -/
def Obligations.AWriteCompletes : Prop :=
  ∀ s : State, s.power = true →
    (∀ (t : TableId) (q : Port) (c : TableContent), s.cst.window = .writing t q c →
      ∃ u : State,
        u = raiseEvent (some q) (.calDone t (s.cst.nv.revision + 1))
          { s with cst :=
            { s.cst with
              nv := { tables := putTable c t s.cst.nv.tables, revision := s.cst.nv.revision + 1 }
              work := putTable c t s.cst.work
              window := .closed
              armsAt := if t = .arms then s.cst.nv.revision + 1 else s.cst.armsAt } } ∧
        (s.ptu.resetWait = none → exec .calWriteComplete s = .next u) ∧
        ∀ cause, s.ptu.resetWait = some cause → exec .calWriteComplete s = .next (applyReset cause u)) ∧
    ((∀ t q c, s.cst.window ≠ .writing t q c) → exec .calWriteComplete s = .next s)

/-! ### What the part reports -/

/-- READ_CONTEXT, GET_RESULTS, STATUS and CAL_READ are answered and change nothing.  READ_CONTEXT and GET_RESULTS are
refused STATE for an EMPTY slot (R6, R157).  Part 1 of READ_CONTEXT carries the fields of 10.3 and the results that R141
and R147 have it report; that they stand behind those fields as GET_RESULTS lays them out is the model's choice (log
entry 42).  STATUS is always answered, with 187 bytes of state (R205); CAL_READ is
answered BUSY while a write runs, and otherwise with the mark, the counter and the content of the table (R104). -/
def Obligations.ReadingChangesNothing : Prop :=
  (∀ (p : Port) (tag b part : Byte) (k : SlotId) (s : State), CanTake p s → b.toNat = k.val →
    part.toNat = 1 ∨ part.toNat = 2 →
    ((s.slot k).state = .empty →
      Refuses (.readContext p tag [b, part]) s p .readContext tag .state ∧
      Refuses (.getResults p tag [b]) s p .getResults tag .state) ∧
    ((s.slot k).state ≠ .empty →
      ∃ record : List Byte, record.length = 74 ∧
        OnlyAnswers (.readContext p tag [b, part]) s p .readContext tag
          { status := .ok
            results :=
              if part.toNat = 1 then contextFields k s ++ record else contextPart2 k s } ∧
        OnlyAnswers (.getResults p tag [b]) s p .getResults tag
          { status := .ok, results := [byte k.val, byte (slotStateCode (s.slot k).state)] ++ record })) ∧
  (∀ (p : Port) (tag : Byte) (s : State), CanTake p s → s.flu.faults.length ≤ 10 →
    ∃ results : List Byte, results.length = 187 ∧
      results.take 3 =
        [byte (phaseCode s.ctx.phase), byte (contextCodeOpt s.ctx.resident), byte (slotCodeOpt s.ctx.binding)] ∧
      OnlyAnswers (.status p tag []) s p .status tag { status := .ok, results := results }) ∧
  ∀ (p : Port) (tag b : Byte) (t : TableId) (s : State), CanTake p s → b.toNat = tableCode t →
    (∀ t0 q c, s.cst.window = .writing t0 q c → Refuses (.calRead p tag [b]) s p .calRead tag .busy) ∧
    ((∀ t0 q c, s.cst.window ≠ .writing t0 q c) →
      OnlyAnswers (.calRead p tag [b]) s p .calRead tag
        { status := .ok
          results := [b, if (tableBytes s.cst.work t).isSome then 1 else 0] ++ natBytes32 s.cst.nv.revision ++
            (tableBytes s.cst.work t).getD [] })

/-- READ_RECORDS takes whole records from the head while they fit in the maximum, 120 words at most: the records taken
and those left are the stream as it was, what is taken fits, and the next record would not.  The reply carries the words
left, the gap state and the records; it is refused RANGE where the head record does not fit (R192).  A removal that
leaves 1,536 words or less arms STREAM_HIGH again (R191), and an open gap is closed when 512 words are free, its GAP
record being an admission that can raise STREAM_HIGH in its turn (R190, R191).  Nothing else changes.  That the words
left are counted before the GAP record is the model's choice (log entry 19). -/
def Obligations.ReadRecordsTakesTheOldest : Prop :=
  ∀ (tag high low : Byte) (s : State), CanTake .supervisor s →
    ∃ (taken left : List (List Word16)) (room : Nat) (armed : Bool) (t : State) (reply : Reply),
      room = min 120 (high.toNat * 256 + low.toNat) ∧ s.rst.records = taken ++ left ∧ occupancy taken ≤ room ∧
      (∀ r rest, left = r :: rest → room < occupancy taken + r.length) ∧
      Answers (.readRecords .supervisor tag [high, low]) s .supervisor .readRecords tag reply t ∧
      reply.results = natBytes16 (occupancy left) ++ [if t.rst.gap.isSome then 1 else 0] ++
        taken.flatten.flatMap (fun w => bytes16 w) ∧
      (taken = [] → t = huntAgain .supervisor s) ∧
      (taken = [] → left ≠ [] → reply.status = .range) ∧
      (left = [] ∨ taken ≠ [] →
        reply.status = (if 120 < high.toNat * 256 + low.toNat then .clamped else .ok)) ∧
      (taken ≠ [] →
        armed = (decide (occupancy left ≤ 1536) || s.rst.armed) ∧
        ((s.rst.gap = none ∨ 2048 < occupancy left + 512) →
          t = { huntAgain .supervisor s with rst := { records := left, gap := s.rst.gap, armed := armed } }) ∧
        ∀ g, s.rst.gap = some g → occupancy left + 512 ≤ 2048 →
          t.rst.records = left ++ [gapRecord g] ∧ t.rst.gap = none ∧
          (occupancy left + (gapRecord g).length ≤ 1536 →
            t = { huntAgain .supervisor s with rst := { records := left ++ [gapRecord g], gap := none, armed := true } }) ∧
          (1536 < occupancy left + (gapRecord g).length →
            t = { raiseEvent none (.streamHigh (occupancy left + (gapRecord g).length) true) (huntAgain .supervisor s) with
              rst := { records := left ++ [gapRecord g], gap := none, armed := false } }))

/-! ### Resets and the supply -/

/-- RESET and a fall of RESET_N reset the part, or wait for the calibration write that is running; a fall counts only
after RESET_N has been seen high, and a RESET that waits leaves its port serving it without a reply (R103, R179, R207).
The reset makes every RESIDENT and PARKED slot VOID with the RESET mark, keeps queue and binding, leaves the phase IDLE
with nothing resident or pending (R33), keeps the crosshead and the arm counts and drops the set being assembled with
its runs (R77, R78), keeps the tare but no collection and no hard overload (R94), keeps the tables and closes the window
(R98), leaves the extension channel DETACHED (R127), the motion sequencer at rest with both banks empty (R37, R58), the
fault set empty and the outputs off (R180), the stream empty (R181), the LOAD assembly empty (R210), the cause of the
reset standing (R206) and RESET_DONE alone in each queue (R208). -/
def Obligations.ResetsTakeEffect : Prop :=
  (∀ (tag : Byte) (s : State), CanTake .supervisor s →
    (calWriting s = false → exec (.reset .supervisor tag []) s = .next (applyReset .request (huntAgain .supervisor s))) ∧
    (calWriting s = true →
      ∃ t, exec (.reset .supervisor tag []) s = .next t ∧ t.ptu.resetWait = some .request ∧
        (t.port .supervisor).serving = some { tag := tag, code := 0x08, reply := none } ∧ t.ctx = s.ctx ∧
        t.cst = s.cst ∧ t.rst = s.rst ∧ t.lch = s.lch ∧ t.msq = s.msq)) ∧
  (∀ s : State, s.power = true →
    (s.ptu.lineArmed = false → exec .resetLine s = .next s) ∧
    (s.ptu.lineArmed = true → calWriting s = false →
      exec .resetLine s = .next (applyReset .line { s with ptu := { s.ptu with lineArmed := false } })) ∧
    (s.ptu.lineArmed = true → calWriting s = true →
      exec .resetLine s = .next { s with ptu := { s.ptu with lineArmed := false, resetWait := some .line } }) ∧
    exec .resetNHigh s = .next { s with ptu := { s.ptu with lineArmed := true } }) ∧
  ∀ (cause : ResetCause) (s : State),
    (∀ k : SlotId, (s.slot k).state = .resident ∨ (s.slot k).state = .parked →
      ((applyReset cause s).slot k).state = .void ∧ Mark.reset ∈ ((applyReset cause s).slot k).marks ∧
      ((applyReset cause s).slot k).outcome = some { void := true, cause := .mark .reset }) ∧
    (∀ k : SlotId, (s.slot k).state ≠ .resident → (s.slot k).state ≠ .parked → (applyReset cause s).slot k = s.slot k) ∧
    (∀ t, t = applyReset cause s →
      t.ctx.queue = s.ctx.queue ∧ t.ctx.binding = s.ctx.binding ∧ t.ctx.phase = .idle ∧ t.ctx.resident = none ∧
      t.ctx.changeover = none ∧ t.ctx.holder = none ∧ t.live = none ∧
      t.smu.xh = s.smu.xh ∧ t.smu.armA = s.smu.armA ∧ t.smu.armB = s.smu.armB ∧ t.smu.assembling = none ∧
      t.smu.missRun = 0 ∧ t.smu.delivered = 0 ∧
      t.lch.tare = s.lch.tare ∧ t.lch.range = .r1 ∧ t.lch.lock = false ∧ t.lch.hard = false ∧ t.lch.tareRun = none ∧
      t.cst.nv = s.cst.nv ∧ t.cst.work = s.cst.work ∧ t.cst.window = .closed ∧ t.cst.lock = false ∧
      t.xch.state = .detached ∧ t.xch.slipped = false ∧ t.xch.diverge = false ∧ t.xch.laneA.zero = none ∧
      t.xch.laneB.zero = none ∧ t.xch.laneA.jump = false ∧ t.xch.laneB.jump = false ∧ t.xch.lastGood = none ∧
      t.xch.timer = .stopped ∧ t.xch.owner = none ∧ t.xch.extRel = false ∧
      t.msq.active = none ∧ t.msq.inactive = none ∧ t.msq.prevDemand = 0 ∧ t.msq.dac = 0 ∧ t.msq.ring = [] ∧
      t.msq.history = [] ∧ t.msq.velocity = none ∧ t.msq.stillCount = 0 ∧ t.msq.ceilingRun = 0 ∧
      t.msq.target = none ∧
      t.flu.drvEn = false ∧ t.flu.alarm = false ∧ t.flu.faults = [] ∧ t.rst.records = [] ∧ t.rst.gap = none ∧
      t.ptu.assembly = none ∧ t.ptu.misoSent = 0 ∧ t.ptu.lastCause = cause ∧ t.ptu.resetWait = none ∧
      ∀ p : Port, (t.port p).queue = [.resetDone cause] ∧ (t.port p).serving = none ∧ (t.port p).rx = [] ∧
        (t.port p).mask = defaultMask p)

/-- POWER_ON starts every block with the calibration store as the nonvolatile memory holds it; POWER_LOSS leaves a part
that keeps its nonvolatile memory and hears nothing, so that a table whose write was running is not programmed at the
next POWER_ON and the counter stands as it did (R33, R96, R97).  That a supplied part takes a POWER_ON as a fall and a
rise of its supply, and that an unsupplied part hears nothing, is the model's choice (log entry 24). -/
def Obligations.TheSupplyComesAndGoes : Prop :=
  (∀ s : State, exec .powerOn s = .next { State.initial s.cst.nv with pending := s.pending }) ∧
  (∀ s : State, ∃ t, exec .powerLoss s = .next t ∧ t.power = false ∧ t.cst.nv = s.cst.nv ∧
    (∀ p : Port, hears p t = false) ∧ exec .powerOn t = .next { State.initial s.cst.nv with pending := s.pending }) ∧
  ∀ (p : Port) (tag : Byte) (s : State) (t : TableId) (q : Port) (c : TableContent), CanTake p s →
    p ∈ senders .calCommit → s.cst.lock = false → s.cst.window = .opened t q (some c) → p = q → s.ctx.phase = .idle →
    ∃ u v w, exec (.calCommit p tag []) s = .next u ∧ exec .powerLoss u = .next v ∧ exec .powerOn v = .next w ∧
      tableBytes w.cst.work t = none ∧ w.cst.nv.revision = s.cst.nv.revision

/-! ### Sample instants and sets (chapters 4 and 7) -/

/-- A sample instant at which no set waits for its conversion: the clock goes up by one, the readers take up the working
copies, the lines are filtered, and the set is latched with the counts, the error marks and the filtered lines of the
instant; the conversion is started in the selected range, and the error marks are cleared (R75, R82, R101, R159).  A
crosshead error in the interval has POSLOST in the fault set (R79), at this very instant by the model's choice (log
entry 7).  A fault-class line that becomes active at the instant has its kind in the fault set, in every phase (R163,
R167); named first in the order of the reports it voids the resident test with its mark as end cause (R23, R168).  In
TEST, at an instant with no other report, an open guard has GUARDOPEN and an open grip GRIPLOST in the set, and the end
cause is GUARDOPEN where the guard is open (R164).  With the contexts in agreement, an instant that adds an entry leaves
the phase SAFE with DRV_EN off and ALARM on, and a resident test VOID with the mark of the first entry as its end cause
(R23, R167, R173, R174).  An instant that adds no entry to the fault set changes nothing else. -/
def Obligations.AnInstantLatchesASet : Prop :=
  ∀ (levels : BitVec 8) (order : List LineItem) (w : SetOrder) (s : State), s.power = true → s.smu.assembling = none →
    ∃ t, exec (.sampleInstant levels order w) s = .next t ∧
      t.inForce = s.cst.work ∧ t.cst = s.cst ∧ t.xch = s.xch ∧
      t.flu.lines = filterLines (s.cst.work.frame.getD Frame.blank).map levels 0
        (restartChanged s.frame.map (s.cst.work.frame.getD Frame.blank).map 0 s.flu.lines) ∧
      t.smu = { s.smu with
        clock := s.smu.clock + 1, xhErr := false, armAErr := false, armBErr := false
        assembling := some
          { xh := s.smu.xh, armA := s.smu.armA, armB := s.smu.armB, xhErr := s.smu.xhErr, armAErr := s.smu.armAErr,
            armBErr := s.smu.armBErr, lines := t.flu.lines.map (·.filtered), extSeated := lineActive t .extSeated,
            range := s.lch.range, settling := s.lch.settleNext, tables := s.cst.work, armsAt := s.cst.armsAt } } ∧
      t.lch.driven = s.lch.range ∧ t.lch.range = s.lch.range ∧ t.lch.settleNext = false ∧
      (s.smu.xhErr = true → InFaults .posLost t) ∧
      (t.flu.faults = s.flu.faults →
        t = { s with smu := t.smu, lch := { s.lch with driven := s.lch.range, settleNext := false }, inForce := s.cst.work
                     flu := { s.flu with lines := t.flu.lines } }) ∧
      (∀ (item : LineItem) (fn : LineFn) (kind : FaultKind) (mark : Mark),
        (item, fn, kind, mark) ∈
          [(LineItem.estop, LineFn.estop, FaultKind.estop, Mark.estop), (.limitUp, .limitUp, .limitUp, .limit),
           (.limitLo, .limitLo, .limitLo, .limit), (.driveFault, .driveFault, .drive, .drive)] →
        lineActive (takeUp s) fn = false → lineActive t fn = true →
        InFaults kind t ∧
        (ContextsSuit s → order.head? = some item → ∀ k, s.ctx.resident = some (.test k) →
          mark ∈ (t.slot k).marks ∧ (t.slot k).outcome = some { void := true, cause := .mark mark })) ∧
      (s.ctx.phase = .test → s.smu.xhErr = false →
        (∀ fn ∈ [LineFn.estop, .limitUp, .limitLo, .driveFault],
          lineActive (takeUp s) fn = false → lineActive t fn = false) →
        (lineActive t .guard = false → InFaults .guardOpen t) ∧ (gripsClosed t = false → InFaults .gripLost t) ∧
        (ContextsSuit s → ∀ k, s.ctx.resident = some (.test k) →
          (lineActive t .guard = false →
            (t.slot k).outcome = some { void := true, cause := .mark .guardopen }) ∧
          (lineActive t .guard = true → gripsClosed t = false →
            (t.slot k).outcome = some { void := true, cause := .mark .griplost }))) ∧
      (ContextsSuit s → OutputsFollow s → t.flu.faults ≠ s.flu.faults →
        t.ctx.phase = .safe ∧ t.ctx.resident = some .safe ∧ t.flu.drvEn = false ∧ t.flu.alarm = true ∧
        ∀ k, s.ctx.resident = some (.test k) →
          (t.slot k).state = .void ∧
          ∃ e, t.flu.faults.head? = some e ∧ e.phase = .test ∧ e.voided.map (·.1) = some k ∧
            faultMark e.kind ∈ (t.slot k).marks ∧
            (t.slot k).outcome = some { void := true, cause := .mark (faultMark e.kind) })

/-- A valid transition moves its count by one in its direction, held at the 32-bit limits; a change of both phases
leaves the count and sets the error mark of the interval (R78, R79).  Nothing else changes.  The filters of the frame
lines (R159 to R161), and the instant at which a run count reaches 4: a state-class line that has differed from its
filtered state for three instants and differs at the fourth takes the new state there, and an active fault-class line
that has read inactive for three instants becomes inactive at the fourth. -/
def Obligations.CountsAndLinesFollowTheirInputs : Prop :=
  (∀ s : State, s.power = true →
    (exec (.encoderTransition .crosshead .extend) s = .next { s with smu := { s.smu with xh := sat32 (s.smu.xh + 1) } } ∧
     exec (.encoderTransition .crosshead .retract) s = .next { s with smu := { s.smu with xh := sat32 (s.smu.xh - 1) } } ∧
     exec (.encoderTransition .crosshead .both) s = .next { s with smu := { s.smu with xhErr := true } }) ∧
    (exec (.encoderTransition .armA .extend) s = .next { s with smu := { s.smu with armA := sat32 (s.smu.armA + 1) } } ∧
     exec (.encoderTransition .armA .retract) s = .next { s with smu := { s.smu with armA := sat32 (s.smu.armA - 1) } } ∧
     exec (.encoderTransition .armA .both) s = .next { s with smu := { s.smu with armAErr := true } }) ∧
    (exec (.encoderTransition .armB .extend) s = .next { s with smu := { s.smu with armB := sat32 (s.smu.armB + 1) } } ∧
     exec (.encoderTransition .armB .retract) s = .next { s with smu := { s.smu with armB := sat32 (s.smu.armB - 1) } } ∧
     exec (.encoderTransition .armB .both) s = .next { s with smu := { s.smu with armBErr := true } })) ∧
  (∀ (c : LineCfg) (level : Bool) (l : Line), c.fn ∈ [LineFn.guard, .gripUp, .gripLo, .extSeated] →
    filterLine (some c) level l =
      (if (level != c.activeLow) = l.filtered then { l with level := level, raw := level != c.activeLow, run := 0 }
       else if l.run + 1 < 4 then { l with level := level, raw := level != c.activeLow, run := l.run + 1 }
       else { level := level, raw := level != c.activeLow, filtered := level != c.activeLow, run := 0 })) ∧
  (∀ (c : LineCfg) (level : Bool) (l : Line), c.fn ∈ [LineFn.estop, .limitUp, .limitLo, .driveFault] →
    filterLine (some c) level l =
      (if (level != c.activeLow) = true then { level := level, raw := true, filtered := true, run := 0 }
       else if l.filtered = false then { l with level := level, raw := false }
       else if l.run + 1 < 4 then { l with level := level, raw := false, run := l.run + 1 }
       else { level := level, raw := false, filtered := false, run := 0 })) ∧
  ∀ (levels : BitVec 8) (order : List LineItem) (w : SetOrder) (s : State) (k : Nat) (c : LineCfg) (l : Line),
    s.power = true → s.smu.assembling = none → s.inForce.frame = s.cst.work.frame →
    s.frame.map[k]? = some c → s.flu.lines[k]? = some l → c.fn ≠ .unused → l.run = 3 →
    (levels.getLsbD k != c.activeLow) ≠ l.filtered →
    ∃ t, exec (.lineFilterSettle levels order w) s = .next t ∧ exec (.sampleInstant levels order w) s = .next t ∧
      t.flu.lines[k]? = some
        { level := levels.getLsbD k, raw := levels.getLsbD k != c.activeLow
          filtered := levels.getLsbD k != c.activeLow, run := 0 }

/-- The arrival of a conversion completes the set that waits for it: the miss run is 0 and the delivered run one higher
(R76).  A valid conversion gives the force before tare on the segment of its range's table that contains the code, the
first and the last segment extending (R85), and 0 while the tables are not programmed; the next range, by the thresholds
of R81 and, for a saturated code, one step toward range 1 (R83), never a higher range while the lock is set (R84); a
settling conversion after a switch (R82); and the hard overload state (R93).  A settling conversion is discarded and the
channel keeps what it held (R82).  The force after tare is the force before tare less the tare (R86), as held sets will
carry it unless a tare completes at this very set, and 0 while the tables are not programmed; above `F_lim` it sets
OVERLOAD in the resident test, unless a HARDLOAD of this very set may void the test first (R92).  A hard overload that
becomes active has HARDLOAD in the fault set and the phase SAFE (R93, R167).  A word that belongs to an earlier instant
changes nothing.  That forces stop at -2,147,483,647 is the model's choice (log entry 31). -/
def Obligations.AConversionArrives : Prop :=
  ∀ (code : BitVec 24) (w : SetOrder) (s : State), s.power = true →
    exec (.conversionArrival code true w) s = .next s ∧
    ∀ x, s.smu.assembling = some x →
      ∃ t, exec (.conversionArrival code false w) s = .next t ∧
        t.smu = { s.smu with assembling := none, missRun := 0, delivered := min 65535 (s.smu.delivered + 1) } ∧
        (x.settling = false → ∀ (c F : Int) (ends : Prop), c = code.toInt → F = t.lch.lastBefore →
          (ends ↔ c = 8388607 ∨ c = -8388608) →
          t.lch.lastRange = x.range ∧ (t.lch.settleNext = true ↔ t.lch.range ≠ x.range) ∧
          (tablesProgrammed x.tables = false →
            F = 0 ∧ (t.lch.hard = true ↔ ends ∧ x.range = .r1) ∧ (¬ends → t.lch.range = x.range) ∧
            (ends → t.lch.range = (match x.range with | .r3 => .r2 | .r2 => .r1 | .r1 => .r1))) ∧
          ∀ f, tablesProgrammed x.tables = true → x.tables.frame = some f →
            (∀ (i : Nat) (p q : LoadPoint), (rangeTable x.tables x.range).Pairwise (fun a b => a.count < b.count) →
              (rangeTable x.tables x.range)[i]? = some p → (rangeTable x.tables x.range)[i + 1]? = some q →
              (i = 0 ∨ p.count ≤ c) → (c < q.count ∨ (rangeTable x.tables x.range)[i + 2]? = none) →
              F = clamp (-2147483647) 2147483647
                (p.force + roundDiv ((c - p.count) * (q.force - p.force)) (q.count - p.count))) ∧
            (t.lch.hard = true ↔ 105 * f.fnom < 100 * absI F ∨ (ends ∧ x.range = .r1)) ∧
            (x.range = .r1 →
              (t.lch.range = .r2 ↔ s.lch.lock = false ∧ 100 * absI F < 16 * f.fnom) ∧ t.lch.range ≠ .r3) ∧
            (x.range = .r2 →
              (t.lch.range = .r1 ↔ ends ∨ 18 * f.fnom < 100 * absI F) ∧
              (t.lch.range = .r3 ↔ ¬ends ∧ ¬(18 * f.fnom < 100 * absI F) ∧ s.lch.lock = false ∧
                1000 * absI F < 32 * f.fnom)) ∧
            (x.range = .r3 →
              (t.lch.range = .r2 ↔ ends ∨ 36 * f.fnom < 1000 * absI F) ∧ t.lch.range ≠ .r1)) ∧
        (x.settling = false →
          (∀ after : Int, after =
              (if tablesProgrammed x.tables = true then clamp (-2147483647) 2147483647 (t.lch.lastBefore - s.lch.tare)
               else 0) →
            ((∀ run, s.lch.tareRun = some run → run.count < 63) → t.lch.lastAfter = after) ∧
            ∀ k, s.ctx.resident = some (.test k) → quietSet x (some code) s = true →
              (s.slot k).order.fLim < absI after → Mark.overload ∈ (t.slot k).marks) ∧
          (ContextsSuit s → s.lch.hard = false → t.lch.hard = true → InFaults .hardLoad t ∧ t.ctx.phase = .safe)) ∧
        (x.settling = true →
          t.lch.lastBefore = s.lch.lastBefore ∧ t.lch.lastRange = s.lch.lastRange ∧ t.lch.range = s.lch.range ∧
          t.lch.settleNext = s.lch.settleNext ∧ t.lch.hard = s.lch.hard)

/-- A conversion that does not arrive in time: the set is completed with the force of the set before it, the miss run is
one higher and the delivered run 0, and the load channel decides nothing (R77, R87).  The miss that brings the run to 3
has STREAM in the fault set and the phase SAFE.  The next instant completes such a set before it takes the reports of its
own, unless the order of these gives the set a place among them (log entry 5). -/
def Obligations.AConversionIsMissed : Prop :=
  ∀ (w : SetOrder) (s : State) (x : SampleSet), s.power = true → s.smu.assembling = some x →
    (∃ t, exec (.conversionMiss w) s = .next t ∧
      t.smu = { s.smu with assembling := none, missRun := min 65535 (s.smu.missRun + 1), delivered := 0 } ∧
      t.lch.lastBefore = s.lch.lastBefore ∧ t.lch.lastRange = s.lch.lastRange ∧ t.lch.range = s.lch.range ∧
      t.lch.hard = s.lch.hard) ∧
    (s.smu.missRun = 2 → ContextsSuit s →
      ∃ t, exec (.streamFault w) s = .next t ∧ exec (.conversionMiss w) s = .next t ∧ t.smu.missRun = 3 ∧
        t.smu.delivered = 0 ∧ InFaults .stream t ∧ t.ctx.phase = .safe) ∧
    ∀ (levels : BitVec 8) (order : List LineItem) (u : State), LineItem.missed ∉ order →
      exec (.conversionMiss w) s = .next u →
      exec (.sampleInstant levels order w) s = exec (.sampleInstant levels order w) u

/-- The set that is not held and brings the count of a tare to 64 completes it: the tare is the sum of the 64 forces
before tare over 64, rounded half to even, and no such tare runs any more (R89).  A start tare completes so in TEST
outside a quiesce, and the test has it behind it (R91). -/
def Obligations.ATareCompletes : Prop :=
  ∀ (code : BitVec 24) (w : SetOrder) (s : State) (x : SampleSet) (sum : Int), s.power = true →
    s.smu.assembling = some x → x.settling = false → quietSet x (some code) s = true →
    (∀ p, s.lch.tareRun = some { kind := .port p, sum := sum, count := 63 } →
      ∃ t, exec (.tareComplete code w) s = .next t ∧
        t.lch.tare = satForce (roundDiv (sum + forceBefore x.tables x.range (code24 code)) 64) ∧
        ∀ run, t.lch.tareRun = some run → run.kind = .start) ∧
    (s.lch.tareRun = some { kind := .start, sum := sum, count := 63 } → ContextsSuit s → NothingKeptBack s →
      s.ctx.changeover = none →
      ∃ t, exec (.startTareComplete code w) s = .next t ∧
        t.lch.tare = satForce (roundDiv (sum + forceBefore x.tables x.range (code24 code)) 64) ∧ t.lch.tareRun = none ∧
        t.ctx.phase = .test ∧ t.live.map (·.rt.tareDone) = some true)

/-- The set that brings a running removal timer to its limit with the line still active: the timer is expired, the
channel stays RELEASING, and RMFAIL is set in the removal owner's slot (R121, R122), whatever that slot's state, unless
the very set completes the resume of that test, which removes the mark. -/
def Obligations.ARemovalTimesOut : Prop :=
  ∀ (conv : Option (BitVec 24)) (w : SetOrder) (s : State) (x : SampleSet) (n : Nat) (k : SlotId), s.power = true →
    s.smu.assembling = some x → x.extSeated = true → s.xch.state = .releasing → s.xch.timer = .running n →
    n + 1 = s.xch.limit → s.xch.owner = some k → (∀ c, s.ctx.changeover = some c → c.incoming ≠ some (.test k)) →
    ∃ t, exec (.removalTimeout conv w) s = .next t ∧ t.xch.timer = .expired s.xch.limit ∧ t.xch.state = .releasing ∧
      t.xch.owner = some k ∧ t.xch.extRel = s.xch.extRel ∧ Mark.rmfail ∈ (t.slot k).marks

/-- The extension channel at a completed set whose resident test, if any, does not take its strain from the extensometer
(R114 to R116, R121): DETACHED becomes SEATING when the line reads active; SEATING captures the zeros of the set, with
its flags clear, or returns to DETACHED; ATTACHED goes on with its lanes and their zeros (R105), or, with
no test resident, becomes DETACHED when the line reads inactive, the sticky flags staying; a removal is complete when
the line reads inactive, with EXT_REL off and the timer stopped.  The first set latched after a write of ARMS has each
zero at the new scaled count less the previous extension, whatever the scales written (R107); that this count is the one
of the set before is the model's reading (log entry 20). -/
def Obligations.TheExtensometerIsSeated : Prop :=
  ∀ (code : BitVec 24) (w : SetOrder) (s : State) (x : SampleSet), s.power = true → s.smu.assembling = some x →
    (∀ l, s.live = some l → l.rt.source = .xhd) →
    ∃ t, exec (.conversionArrival code false w) s = .next t ∧ t.xch.armsAt = x.armsAt ∧
      (s.xch.state = .detached → t.xch.state = (if x.extSeated = true then .seating else .detached)) ∧
      (s.xch.state = .seating → x.extSeated = true →
        t.xch.state = .attached ∧ t.xch.slipped = false ∧ t.xch.diverge = false ∧ t.xch.lastGood = some 0 ∧
        t.xch.laneA.zero = some (scaledCount x.armA (armScales x.tables).a) ∧ t.xch.laneA.ext = some 0 ∧
        t.xch.laneA.prev = some 0 ∧ t.xch.laneA.jump = false ∧
        t.xch.laneB.zero = some (scaledCount x.armB (armScales x.tables).b) ∧ t.xch.laneB.ext = some 0 ∧
        t.xch.laneB.prev = some 0 ∧ t.xch.laneB.jump = false) ∧
      (s.xch.state = .attached → x.extSeated = true → x.armsAt = s.xch.armsAt →
        t.xch.state = .attached ∧ t.xch.laneA.zero = s.xch.laneA.zero ∧ t.xch.laneB.zero = s.xch.laneB.zero ∧
        t.xch.laneA.ext =
          some (sat32 (scaledCount x.armA (armScales x.tables).a - s.xch.laneA.zero.getD 0)) ∧
        t.xch.laneB.ext =
          some (sat32 (scaledCount x.armB (armScales x.tables).b - s.xch.laneB.zero.getD 0)) ∧
        (x.armAErr = true → t.xch.laneA.jump = true ∧ t.xch.slipped = true ∧ t.xch.lastGood = s.xch.lastGood) ∧
        (x.armBErr = true → t.xch.laneB.jump = true ∧ t.xch.slipped = true ∧ t.xch.lastGood = s.xch.lastGood)) ∧
      (∀ zA zB pA pB : Int, s.xch.state = .attached → x.extSeated = true → x.armsAt ≠ s.xch.armsAt →
        s.xch.laneA.zero.isSome = true → s.xch.laneB.zero.isSome = true → s.xch.laneA.prev = some pA →
        s.xch.laneB.prev = some pB → zA = sat32 (scaledCount s.xch.laneA.count (armScales x.tables).a - pA) →
        zB = sat32 (scaledCount s.xch.laneB.count (armScales x.tables).b - pB) →
        t.xch.state = .attached ∧ t.xch.laneA.zero = some zA ∧ t.xch.laneB.zero = some zB ∧
        t.xch.laneA.ext = some (sat32 (scaledCount x.armA (armScales x.tables).a - zA)) ∧
        t.xch.laneB.ext = some (sat32 (scaledCount x.armB (armScales x.tables).b - zB))) ∧
      (x.extSeated = false →
        (s.xch.state = .seating ∨ s.xch.state = .releasing ∨
          (s.xch.state = .attached ∧ ∀ k, s.ctx.resident ≠ some (.test k))) →
        t.xch.state = .detached ∧ t.xch.laneA.zero = none ∧ t.xch.laneB.zero = none ∧ t.xch.laneA.ext = none ∧
        t.xch.laneB.ext = none ∧ t.xch.extRel = false ∧ t.xch.timer = .stopped ∧
        t.xch.laneA.jump = s.xch.laneA.jump ∧ t.xch.laneB.jump = s.xch.laneB.jump ∧
        t.xch.diverge = s.xch.diverge ∧ t.xch.slipped = s.xch.slipped)

/-- At every set of a resident test whose source is EXT, the strain in use is an extensometer strain: that of the set
while the lanes are valid, and that of the last good extension otherwise (R110, R111).  With invalid lanes the slipped
mark is set (R117), and with a removal EXT_REL is on, the timer runs from 0 and the owner and the limit are the test's
(R120); in both the source is XHD from this set on, the offset is the strain carried across less the crosshead strain,
and the strain in use is the strain carried across, where the offset does not saturate.  A removal begins at exactly the
evaluated sets with valid lanes at which the removal strain is not 0, the strain has reached it, and the elastic results
are settled, or, forced, at which they are not and the strain is 2,000,000 beyond it (R119). -/
def Obligations.AHandoverKeepsTheStrain : Prop :=
  ∀ (fl : Flight) (f : LaneFacts) (k : SlotId) (s : State) (l : Live), s.residentSlot = some k → s.live = some l →
    l.rt.source = .ext →
    ∀ carried off ex : Int, ∀ r : State × Int × Option Bool,
      carried = extStrain ((if f.valid = true then s.xch.delta else s.xch.lastGood).getD 0) (s.slot k).order.l0 →
      ex = crossheadStrain fl.set.xh (l.rt.posRef.getD fl.set.xh) fl.after (complianceOf fl.set.tables)
        (s.slot k).order.lc →
      off = carried - ex → r = residentStrain fl f k s →
      (off = sat32 off → r.2.1 = carried) ∧
      (f.valid = true → r.2.2 = none → r.1.live.map (·.rt.source) = some .ext ∧ r.1.xch = s.xch ∧ r.2.1 = carried) ∧
      (f.valid = true → ∀ evaluated : Prop,
        (evaluated ↔ fl.tareSet = false ∧ l.rt.eval.opened = true ∧ (s.slot k).order.eRm ≠ 0 ∧
          (s.slot k).order.eRm ≤ carried) →
        (r.2.2 = some false ↔ evaluated ∧ l.rt.eval.settled = true) ∧
        (r.2.2 = some true ↔ evaluated ∧ l.rt.eval.settled = false ∧
          sat32 ((s.slot k).order.eRm + 2000000) ≤ carried)) ∧
      (f.valid = false → r.2.2 = none ∧ r.1.xch = { s.xch with slipped := true }) ∧
      (r.2.2 ≠ none →
        r.1.xch.state = .releasing ∧ r.1.xch.extRel = true ∧ r.1.xch.timer = .running 0 ∧ r.1.xch.owner = some k ∧
        r.1.xch.limit = (s.slot k).order.rmTimeout ∧ r.1.xch.laneA.zero = s.xch.laneA.zero ∧
        r.1.xch.laneB.zero = s.xch.laneB.zero ∧ (s.slot k).order.eRm ≠ 0 ∧ (s.slot k).order.eRm ≤ carried) ∧
      (f.valid = false ∨ r.2.2 ≠ none →
        r.1.live.map (·.rt.source) = some .xhd ∧ r.1.live.map (·.rt.offset) = some (some (sat32 off)))

/-- The tested sample at which the elapsed count of a TIME segment equals its end value ends it (R42): the next segment
is staged in the inactive bank and the segment index is one higher, or, after the last segment, END is raised and is
pending unless a cause of higher rank is (R45).  That the count is unsigned is the model's choice (log entry 50). -/
def Obligations.ATimeSegmentEnds : Prop :=
  ∀ (conv : Option (BitVec 24)) (w : SetOrder) (s : State) (x : SampleSet) (k : SlotId) (l : Live) (b : Bank)
    (g : Segment), s.power = true → ContextsSuit s → NothingKeptBack s → s.smu.assembling = some x →
    quietSet x conv s = true → s.ctx.resident = some (.test k) → s.live = some l → s.ctx.changeover = none →
    s.lch.tareRun = none → s.msq.active = some b → (∀ g', s.msq.inactive ≠ some (.transition g')) →
    (s.slot k).order.segments[b.seg - 1]? = some g → g.endKind = .time →
    g.endValue = some ((l.rt.elapsed : Int) + 1) → l.rt.elapsed + 1 ≤ 4294967295 →
    ∃ t, exec (.segmentTimeEnd conv w) s = .next t ∧ t.ctx.phase = .test ∧ t.ctx.resident = some (.test k) ∧
      t.live.map (·.rt.elapsed) = some (l.rt.elapsed + 1) ∧
      (b.seg < (s.slot k).order.segments.length →
        t.msq.inactive = (bankOf (s.slot k).order (b.seg + 1)).map .transition ∧
        t.live.map (·.rt.segIndex) = some (b.seg + 1)) ∧
      ((s.slot k).order.segments.length ≤ b.seg →
        ∃ c, t.ctx.changeover = some c ∧ c.outgoing = .test k ∧ c.incoming = none ∧
          (c.cause = .endTest ∨ c.cause = .terminate))

/-- The tests of a sample of a resident test that neither quiesces nor tares (R38, R40): the elapsed count goes up by
one; a hold point reached for the first time is passed, with HOLDPT set and a changeover pending (R48); an end condition
met (R41 to R44) stages the next segment and moves the segment index, with STEP set and a changeover pending where STEP
is on (R45, R46), or raises END after the last segment; a YIELD segment that ends at its backup strain queues
YIELD_BACKUP (R43); and with neither met nothing else changes.  The flips around the tests: a transition becomes active
with an elapsed count of 0, and seats the setpoint only where the mode changes; an amendment becomes active and changes
nothing else (R38, R39).  That the count is unsigned is the model's choice (log entry 50). -/
def Obligations.SegmentsEnd : Prop :=
  (∀ (fl : Flight) (x : Measured) (k : SlotId) (l : Live) (b : Bank) (g : Segment) (s : State),
    s.ctx.resident = some (.test k) → (s.slot k).state = .resident → s.live = some l → s.msq.active = some b →
    (s.slot k).order.segments[b.seg - 1]? = some g → fl.quiesce = false → fl.tareSet = false →
    l.rt.elapsed + 1 ≤ 4294967295 →
    ∀ (t : State) (held met backup : Prop), t = segmentTests fl x s →
      (held ↔ (s.slot k).order.holdptOn = true ∧ l.rt.holdPassed = false ∧
        ∃ e, (s.slot k).order.holdptStrain = some e ∧ e ≤ x.strain) →
      (met ↔ EndMet g b (l.rt.elapsed + 1) (yieldSeen l.rt.eval) s.xch.state x) →
      (backup ↔ g.endKind = .yield ∧ yieldSeen l.rt.eval = false ∧ ∃ e, g.backup = some e ∧ e ≤ x.strain) →
      t.live.map (·.rt.elapsed) = some (l.rt.elapsed + 1) ∧ t.msq.active = some b ∧
      (¬held → ¬met → ¬backup →
        t = { s with live := some { l with rt := { l.rt with elapsed := l.rt.elapsed + 1 } } }) ∧
      (held → t.live.map (·.rt.holdPassed) = some true ∧ Mark.holdpt ∈ (t.slot k).marks ∧
        (Mark.holdpt ∉ (s.slot k).marks → t.ctx.changeover.isSome = true)) ∧
      (¬met → ¬backup → t.msq.inactive = s.msq.inactive ∧ t.live.map (·.rt.segIndex) = some l.rt.segIndex) ∧
      (met ∨ backup →
        (b.seg < (s.slot k).order.segments.length →
          t.msq.inactive = (bankOf (s.slot k).order (b.seg + 1)).map .transition ∧
          t.live.map (·.rt.segIndex) = some (b.seg + 1) ∧
          ((s.slot k).order.stepOn = true → Mark.step ∈ (t.slot k).marks ∧
            (Mark.step ∉ (s.slot k).marks → t.ctx.changeover.isSome = true))) ∧
        ((s.slot k).order.segments.length ≤ b.seg →
          t.msq.inactive = s.msq.inactive ∧ t.live.map (·.rt.segIndex) = some l.rt.segIndex ∧
          ∃ c, t.ctx.changeover = some c ∧ (c.cause = .endTest ∨ c.cause = .terminate))) ∧
      (backup → ∀ p : Port, (s.port p).mask.getLsbD 4 = true →
        .yieldBackup k x.strain ∈ (t.port p).queue ∨ (t.port p).overflow = true)) ∧
  (∀ (x : Measured) (k : SlotId) (l : Live) (b b' : Bank) (s : State),
    s.ctx.resident = some (.test k) → s.live = some l → s.msq.active = some b → s.msq.target = none →
    s.msq.inactive = some (.transition b') →
    (transitionFlip x s).msq.active = some b' ∧ (transitionFlip x s).msq.inactive = none ∧
    (transitionFlip x s).msq.prevDemand = s.msq.prevDemand ∧
    (transitionFlip x s).live = some { l with rt := { l.rt with elapsed := 0 } } ∧
    (b.mode = b'.mode → (transitionFlip x s).msq = { s.msq with active := some b', inactive := none }) ∧
    (b.mode ≠ b'.mode → (transitionFlip x s).msq.remainder = 0 ∧
      (transitionFlip x s).msq.qSet = some
        (match b'.mode with
         | .position => clamp (s.slot k).order.winLo (s.slot k).order.winHi x.pos
         | .stress => x.stress
         | .strain => x.strain))) ∧
  ∀ (b : Bank) (p : Port) (s : State), s.msq.inactive = some (.amendment b p) →
    amendmentFlip s = { s with msq := { s.msq with active := some b, inactive := none } }

/-- The sample that is the 200th in a row at the ceiling: the ceiling run is 200, and TRACK is set in the test (R62).
Stated for a POSITION segment, whose raw velocity does not depend on the force. -/
def Obligations.TheCeilingRunSetsTrack : Prop :=
  ∀ (conv : Option (BitVec 24)) (w : SetOrder) (s : State) (x : SampleSet) (k : SlotId) (b : Bank) (q q' raw : Int),
    s.power = true → ContextsSuit s → OutputsFollow s → NothingKeptBack s → s.smu.assembling = some x →
    quietSet x conv s = true → s.ctx.resident = some (.test k) → s.ctx.changeover = none → s.lch.tareRun = none →
    s.msq.active = some b → s.msq.inactive = none → s.msq.seat = false → s.msq.target = none → b.mode = .position →
    s.msq.qSet = some q → s.msq.ceilingRun = 199 →
    q' = clamp (s.slot k).order.winLo (s.slot k).order.winHi (advance b.rate q s.msq.remainder).1 →
    raw = rawVelocity positionK (innerRate b.rate b.kp (errorOf q' x.xh)) →
    clamp (-(ceilingOf s.frame.vfs b.vmax)) (ceilingOf s.frame.vfs b.vmax) raw ≠ raw →
    ∃ t, exec (.trackCeilingRun conv w) s = .next t ∧ t.msq.ceilingRun = 200 ∧ Mark.track ∈ (t.slot k).marks ∧
      t.ctx.phase = .test

/-- The sample at which a quiesce completes, the demand 0 and the crosshead at rest for the tenth time within the
timeout (R21, R22).  A test outgoing by TERMINATE is VOID with the end cause of the changeover, and a service context
left by LEAVE is dropped: the phase is IDLE with DRV_EN off, nothing is resident or pending, the lock is clear and the
demand 0.  A test that nothing else can end at this sample (its stop enables off, and no fracture possible) is DONE by a
pending END, and is PARKED with its runtime part by a pending OPERATOR, the phase SERVICE and the requesting port the
holder (R14, R22).  A RESUME leaves SERVICE: the parked test is RESIDENT with its saved runtime part and without its
STEP, HOLDPT and RMFAIL marks, the phase TEST and the lock set (R22, R29). -/
def Obligations.AChangeoverCompletes : Prop :=
  ∀ (conv : Option (BitVec 24)) (w : SetOrder) (s : State) (x : SampleSet) (c : Changeover) (old : Int)
    (rest : List Int), s.power = true → ContextsSuit s → NothingKeptBack s → s.smu.assembling = some x →
    quietSet x conv s = true → s.ctx.changeover = some c → s.msq.inactive = none → s.msq.prevDemand = 0 →
    0 ≤ s.frame.aMax → (∀ b, s.msq.active = some b → 0 ≤ ceilingOf s.frame.vfs b.vmax) →
    s.msq.history = old :: rest → rest.length = 15 →
    absI (sat32 ((x.xh - old) * 6250)) ≤ s.frame.vStill → 9 ≤ s.msq.stillCount →
    c.elapsed + 1 ≤ s.frame.quiesceTimeout →
    (∀ k e, c.cause = .terminate → c.outgoing = .test k → c.endCause = some e →
      ∃ t, exec (.changeoverCompletion conv w) s = .next t ∧ (t.slot k).state = .void ∧
        (t.slot k).outcome = some { void := true, cause := e } ∧ t.ctx.phase = .idle ∧ t.ctx.resident = none ∧
        t.ctx.changeover = none ∧ t.ctx.binding = s.ctx.binding ∧ t.lch.lock = false ∧ t.live = none ∧
        t.flu.drvEn = false ∧ t.msq.dac = 0 ∧ t.msq.active = none) ∧
    (∀ k e, c.cause = .endTest → c.outgoing = .test k → c.endCause = some e → NoStops (s.slot k).order →
      ∃ t, exec (.changeoverCompletion conv w) s = .next t ∧ (t.slot k).state = .done ∧
        (t.slot k).outcome = some { void := false, cause := e } ∧ t.ctx.phase = .idle ∧ t.ctx.resident = none ∧
        t.ctx.changeover = none ∧ t.ctx.binding = s.ctx.binding ∧ t.lch.lock = false ∧ t.live = none ∧
        t.flu.drvEn = false ∧ t.msq.dac = 0 ∧ t.msq.active = none) ∧
    (∀ k l, c.cause = .operator → c.outgoing = .test k → s.live = some l → s.msq.target = none →
      NoStops (s.slot k).order → NoFracture (s.slot k).order (forceOf x conv s) l.rt.eval →
      ∃ t rt, exec (.changeoverCompletion conv w) s = .next t ∧ (t.slot k).state = .parked ∧
        (t.slot k).runtime = some rt ∧ rt.count = min 4294967296 (l.rt.count + 1) ∧ rt.elapsed = l.rt.elapsed ∧
        rt.segIndex = l.rt.segIndex ∧ rt.active = s.msq.active ∧
        (l.rt.eval.opened = true → rt.eval.window ≠ .opened) ∧
        (t.slot k).order = (s.slot k).order ∧ t.ctx.phase = .service ∧ t.ctx.resident = some .service ∧
        t.ctx.holder = requesterPort c.requester ∧ t.ctx.changeover = none ∧ t.ctx.binding = s.ctx.binding ∧
        t.lch.lock = false ∧ t.live = none ∧ t.flu.drvEn = true ∧ t.msq.dac = 0 ∧ t.msq.inactive = none ∧
        t.msq.active = some { seg := 0, mode := .position, rate := 0, vmax := s.frame.jogMax, kp := 2560 }) ∧
    (∀ k rt, c.cause = .operator → c.outgoing = .service → c.incoming = some (.test k) →
      (s.slot k).runtime = some rt →
      ∃ t, exec (.changeoverCompletion conv w) s = .next t ∧ (t.slot k).state = .resident ∧
        (t.slot k).order = (s.slot k).order ∧ (∀ m ∈ [Mark.step, .holdpt, .rmfail], m ∉ (t.slot k).marks) ∧
        t.ctx.phase = .test ∧ t.ctx.resident = some (.test k) ∧ t.ctx.holder = none ∧ t.ctx.changeover = none ∧
        t.ctx.binding = some k ∧ t.lch.lock = true ∧ t.flu.drvEn = true ∧ t.msq.active = rt.active ∧
        t.msq.inactive = none ∧ t.msq.dac = 0 ∧ t.msq.ring = [] ∧ t.live.map (·.rt.count) = some rt.count ∧
        t.live.map (·.rt.elapsed) = some rt.elapsed ∧ t.live.map (·.rt.segIndex) = some rt.segIndex) ∧
    (c.cause = .operator → c.outgoing = .service → c.incoming = none → s.ctx.binding = none →
      ∃ t, exec (.changeoverCompletion conv w) s = .next t ∧ t.ctx.phase = .idle ∧ t.ctx.resident = none ∧
        t.ctx.changeover = none ∧ t.ctx.holder = none ∧ t.flu.drvEn = false ∧ t.msq.dac = 0 ∧
        t.msq.active = none ∧ t.msq.target = none)

/-- The sample at which the elapsed count of a quiesce exceeds the timeout: DRIFT is in the fault set, the changeover is
gone, and the phase is SAFE with DRV_EN off and ALARM on; a test that was resident is VOID with DRIFT as its end cause
(R21, R23, R173, R174). -/
def Obligations.AQuiesceTimesOut : Prop :=
  ∀ (conv : Option (BitVec 24)) (w : SetOrder) (s : State) (x : SampleSet) (c : Changeover), s.power = true →
    ContextsSuit s → OutputsFollow s → NothingKeptBack s → s.smu.assembling = some x → quietSet x conv s = true →
    s.ctx.changeover = some c → s.frame.quiesceTimeout < c.elapsed + 1 →
    ∃ t, exec (.quiesceTimeout conv w) s = .next t ∧ InFaults .drift t ∧ t.ctx.phase = .safe ∧
      t.ctx.resident = some .safe ∧ t.ctx.changeover = none ∧ t.flu.drvEn = false ∧ t.flu.alarm = true ∧
      t.msq.dac = 0 ∧
      ∀ k, c.outgoing = .test k →
        (t.slot k).state = .void ∧ Mark.drift ∈ (t.slot k).marks ∧
        (t.slot k).outcome = some { void := true, cause := .mark .drift }

/-- With autostart set, a set after which the BOUND slot is start-ready starts its test with no request: the slot is
RESIDENT, the phase TEST with DRV_EN on and the lock set (R17, R18).  Stated for a test that does not use the
extensometer. -/
def Obligations.AutostartBeginsTheTest : Prop :=
  ∀ (conv : Option (BitVec 24)) (w : SetOrder) (s : State) (x : SampleSet) (f : Frame) (k : SlotId), s.power = true →
    ContextsSuit s → NothingKeptBack s → s.smu.assembling = some x → quietSet x conv s = true →
    x.tables.frame = some f → f.autostart = true → s.ctx.binding = some k → (s.slot k).state = .bound →
    (s.slot k).order.usesExt = false → (∀ i ∈ startItems, itemHolds k s i = true) →
    ∃ t, exec (.autostart conv w) s = .next t ∧ (t.slot k).state = .resident ∧ t.ctx.phase = .test ∧
      t.ctx.resident = some (.test k) ∧ t.flu.drvEn = true ∧ t.lch.lock = true ∧ t.msq.dac = 0 ∧
      t.live.map (·.rt.segIndex) = some 1 ∧ t.live.map (·.rt.count) = some 0

/-! ### Shared rules -/

/-- A mark already set changes nothing.  A new one joins the condition set of its slot, every mark already there
staying, and no other slot changes; outside RESIDENT no record is offered and no cause raised; in the resident test a
terminate-class mark whose stop enable is on makes TERMINATE pending unless FRACTURE is set, and an operator-class mark
whose stop enable is on leaves some changeover pending (R19, R31, R32).  A cause raised with a context resident becomes
pending, its quiesce at the beginning, when none is; it replaces a pending cause of lower rank, whose elapsed count goes
on, and changes nothing against one of equal or higher rank (R19, R20). -/
def Obligations.MarksAndCausesAct : Prop :=
  (∀ (k : SlotId) (m : Mark) (value : Int) (index : BitVec 32) (s : State),
    (m ∈ (s.slot k).marks → setMark k m value index s = s) ∧
    (m ∉ (s.slot k).marks →
      m ∈ ((setMark k m value index s).slot k).marks ∧
      (∀ m' ∈ (s.slot k).marks, m' ∈ ((setMark k m value index s).slot k).marks) ∧
      ((setMark k m value index s).slot k).state = (s.slot k).state ∧
      (∀ j, j ≠ k → (setMark k m value index s).slot j = s.slot j) ∧
      ((s.slot k).state ≠ .resident →
        (setMark k m value index s).rst = s.rst ∧ (setMark k m value index s).ctx.changeover = s.ctx.changeover ∧
        (setMark k m value index s).msq = s.msq) ∧
      ((s.slot k).state = .resident → s.ctx.resident = some (.test k) → stopEnabled (s.slot k).order m = true →
        (markClass m = .terminate → Mark.fracture ∉ (s.slot k).marks →
          ∃ c, (setMark k m value index s).ctx.changeover = some c ∧ c.cause = .terminate) ∧
        (markClass m = .operator → ((setMark k m value index s).ctx.changeover).isSome = true)))) ∧
  ∀ (cause : Cause) (r : Requester) (incoming : Option Context) (e : Option EndCause) (out : Context) (s : State),
    s.ctx.resident = some out →
    (s.ctx.changeover = none →
      (raiseCause cause r incoming e s).ctx.changeover = some
        { cause := cause, requester := r, outgoing := out, incoming := incoming, elapsed := 0, endCause := e } ∧
      (raiseCause cause r incoming e s).msq.stillCount = 0) ∧
    ∀ old, s.ctx.changeover = some old →
      (causeRank old.cause < causeRank cause →
        (raiseCause cause r incoming e s).ctx.changeover = some
          { cause := cause, requester := r, outgoing := out, incoming := incoming, elapsed := old.elapsed
            endCause := e } ∧
        (raiseCause cause r incoming e s).msq = s.msq) ∧
      (causeRank cause ≤ causeRank old.cause → raiseCause cause r incoming e s = s)

/-- The stream takes an offer whole or drops it (R188): a SAMPLE is admitted when 64 words stay free behind it and no
gap is open, any other offer when it fits.  The admission that takes the armed stream above 1,536 words raises
STREAM_HIGH with the words held and the gap state, once until it is armed again (R191).  A drop opens the gap with its
index twice and its count, or makes its index the last one and adds its count to the tally, which stops at 65,535
(R189); nothing else changes.  A drop for a test sets GAP in its slot, with no other slot touched, and in the resident
test makes TERMINATE pending where the stop enable of GAP is on and FRACTURE is not set (R31, R189); an offer that is
admitted, or dropped with GAP set, does no more. -/
def Obligations.TheStreamTakesOffers : Prop :=
  (∀ (o : Offer) (s : State), occupancy s.rst.records ≤ 2048 →
    ((offerRaw o s).2 = true ↔
      if o.sample = true then occupancy s.rst.records + occupancy o.records + 64 ≤ 2048 ∧ s.rst.gap = none
      else occupancy s.rst.records + occupancy o.records ≤ 2048) ∧
    ((offerRaw o s).2 = true → ∀ n, n = occupancy s.rst.records + occupancy o.records →
      (1536 < n ∧ s.rst.armed = true →
        (offerRaw o s).1 = raiseEvent none (.streamHigh n s.rst.gap.isSome)
          { s with rst := { s.rst with records := s.rst.records ++ o.records, armed := false } }) ∧
      (n ≤ 1536 ∨ s.rst.armed = false →
        (offerRaw o s).1 = { s with rst := { s.rst with records := s.rst.records ++ o.records } })) ∧
    ((offerRaw o s).2 = false →
      ∃ g : Gap, g.first = (s.rst.gap.map (·.first)).getD o.index ∧ g.last = o.index ∧
        g.tally = min 65535 ((s.rst.gap.map (·.tally)).getD 0 + o.records.length) ∧
        (offerRaw o s).1 = { s with rst := { s.rst with gap := some g } })) ∧
  ∀ (o : Offer) (k : SlotId) (s : State),
    ((offerRaw o s).2 = true ∨ Mark.gap ∈ (s.slot k).marks → offer true o k s = (offerRaw o s).1) ∧
    ((offerRaw o s).2 = false →
      Mark.gap ∈ ((offer true o k s).slot k).marks ∧ (∀ j, j ≠ k → (offer true o k s).slot j = s.slot j) ∧
      (offer true o k s).rst.gap.isSome = true ∧
      ((s.slot k).state = .resident → s.ctx.resident = some (.test k) → (s.slot k).order.tGap = true →
        Mark.gap ∉ (s.slot k).marks → Mark.fracture ∉ (s.slot k).marks →
        ∃ c, (offer true o k s).ctx.changeover = some c ∧ c.cause = .terminate) ∧
      ((s.slot k).state ≠ .resident ∨ (s.slot k).order.tGap = false ∨ Mark.fracture ∈ (s.slot k).marks →
        (offer true o k s).ctx.changeover = s.ctx.changeover))

/-- Rounding is to the nearest, half to even, of the exact quotient (R1): the result differs from the quotient by at
most a half, and by a half only when it is even. -/
def Obligations.RoundingIsHalfToEven : Prop :=
  ∀ a b : Int, 0 < b →
    -b ≤ 2 * (a - b * roundDiv a b) ∧ 2 * (a - b * roundDiv a b) ≤ b ∧
    (2 * (a - b * roundDiv a b) = b ∨ 2 * (a - b * roundDiv a b) = -b → roundDiv a b % 2 = 0) ∧
    roundDiv a (-b) = roundDiv (-a) b

/-- The demand of a sample (R62 to R65, R71): with DRV_EN on and no start tare, it never exceeds the ceiling of the active
bank, it is never directed outward at or beyond a bound of the travel window, and it is the demand that the DAC code is
made of.  In a quiesce it is the ramp of the previous demand toward 0 within those bounds, and setpoint and remainder
stand (R71).  Outside one the setpoint advances by the thousandth of the rate with the fraction carried, stops a MOVE at
its target with the rate 0, and is held within the window in POSITION mode (R55, R59); the error sets the inner rate
(R60), this the raw velocity by the k of the mode (R61), and the demand is that velocity clamped to the ceiling, stopped
by the window, slewed from the previous demand and bounded again (R62 to R64).  That the remainder has advanced where a
MOVE stops is the model's choice (log entry 37). -/
def Obligations.TheDemandIsBounded : Prop :=
  ∀ (fl : Flight) (x : Measured) (s : State) (b : Bank), s.msq.active = some b → s.flu.drvEn = true →
    fl.tareSet = false → 0 ≤ ceilingOf s.frame.vfs b.vmax →
    absI (demandOf fl x s).msq.prevDemand ≤ ceilingOf s.frame.vfs b.vmax ∧
    outward (demandOf fl x s).msq.prevDemand x.pos (travelWindow s).1 (travelWindow s).2 = false ∧
    (demandOf fl x s).msq.dac =
      clamp (-32767) 32767 (roundDiv (32767 * (demandOf fl x s).msq.prevDemand) s.frame.vfs) ∧
    ∀ lo hi C step prev : Int, (lo, hi) = travelWindow s → C = ceilingOf s.frame.vfs b.vmax →
      step = s.frame.aMax / 1000 → prev = s.msq.prevDemand →
      (fl.quiesce = true → ∀ ramp v : Int,
        ramp = (if step < prev then prev - step else if prev < -step then prev + step else 0) →
        v = clamp (-C) C ramp →
        (demandOf fl x s).msq.prevDemand = (if outward v x.pos lo hi = true then 0 else v) ∧
        (demandOf fl x s).msq.qSet = s.msq.qSet ∧ (demandOf fl x s).msq.remainder = s.msq.remainder) ∧
      (fl.quiesce = false → ∀ (q next aim rate set K measured inner raw v stopped bounded : Int) (n : Nat),
        s.msq.qSet = some q → n = s.msq.remainder + b.rate.natAbs % 1000 →
        next = sat32 (q + b.rate.tdiv 1000 + (if 1000 ≤ n then signI b.rate else 0)) →
        (aim, rate) =
          (match s.msq.target with
           | some target => if b.rate ≠ 0 ∧ Reached b.rate next target then (target, 0) else (next, b.rate)
           | none => (next, b.rate)) →
        set = (if b.mode = .position then clamp lo hi aim else aim) →
        (K, measured) =
          (match b.mode with
           | .position => (1677721600, x.pos)
           | .stress => (((s.live.map (·.rt.kS)).getD 1677721600), x.stress)
           | .strain => (((s.live.map (·.rt.kE)).getD 1677721600), x.strain)) →
        inner = sat32 (rate + roundDiv (b.kp * clamp (-2147483647) 2147483647 (set - measured)) 256) →
        raw = sat32 (roundDiv (K * inner) 16777216) → v = clamp (-C) C raw →
        stopped = (if outward v x.pos lo hi = true then 0 else v) →
        bounded = clamp (-C) C (clamp (prev - step) (prev + step) stopped) →
        (demandOf fl x s).msq.prevDemand = (if outward bounded x.pos lo hi = true then 0 else bounded) ∧
        (demandOf fl x s).msq.qSet = some set ∧ (demandOf fl x s).msq.active = some { b with rate := rate } ∧
        (demandOf fl x s).msq.remainder = (if 1000 ≤ n then n - 1000 else n))

/-- The compliance tracker at a sample of a resident test (R66 to R68): the ring takes the triple of the sample and
never holds more than 64; the estimates stand until the ring is full, and from then on each is the update against the
oldest triple, clamped, within its bounds; a clamp that changes a value sets KCLAMP and raises no cause, the drop of its
record in a full stream apart, which sets GAP (R189).  An update closes one eighth of the distance to the fresh
measurement, to within half a unit of rounding, and an estimate holds where the quantity moved by less than 500 or
against the crosshead, or the crosshead stood (R67). -/
def Obligations.TheTrackerFollowsTheStiffness : Prop :=
  (∀ (x : Measured) (s : State) (k : SlotId) (l : Live) (now : Triple), s.residentSlot = some k → s.live = some l →
    now = { pos := x.pos, stress := x.stress, strain := x.strain } → s.msq.ring.length ≤ 64 →
    (trackCompliance x s).msq.ring.length = min 64 (s.msq.ring.length + 1) ∧
    (s.msq.ring.length < 64 →
      trackCompliance x s = { s with msq := { s.msq with ring := s.msq.ring ++ [now] } }) ∧
    ∀ old rest, s.msq.ring = old :: rest → rest.length = 63 →
      ∀ kS kE : Int, kS = kUpdate (x.stress - old.stress) ((x.pos - old.pos) * 100) l.rt.kS →
        kE = kUpdate (x.strain - old.strain) ((x.pos - old.pos) * 100) l.rt.kE →
        (trackCompliance x s).msq.ring = rest ++ [now] ∧
        (occupancy s.rst.records + 6 ≤ 2048 ∨ (s.slot k).order.tGap = false ∨ Mark.gap ∈ (s.slot k).marks ∨
            Mark.fracture ∈ (s.slot k).marks →
          (trackCompliance x s).msq = { s.msq with ring := rest ++ [now] } ∧
          (trackCompliance x s).ctx.changeover = s.ctx.changeover) ∧
        (trackCompliance x s).live.map (fun l' => (l'.rt.kS, l'.rt.kE)) =
          some (clamp (s.slot k).order.kSMin (s.slot k).order.kSMax kS,
            clamp (s.slot k).order.kEMin (s.slot k).order.kEMax kE) ∧
        ((s.slot k).order.kSMin ≤ (s.slot k).order.kSMax →
          (s.slot k).order.kSMin ≤ clamp (s.slot k).order.kSMin (s.slot k).order.kSMax kS ∧
          clamp (s.slot k).order.kSMin (s.slot k).order.kSMax kS ≤ (s.slot k).order.kSMax) ∧
        ((kS < (s.slot k).order.kSMin ∨ (s.slot k).order.kSMax < kS ∨ kE < (s.slot k).order.kEMin ∨
            (s.slot k).order.kEMax < kE) →
          (s.slot k).order.kSMin ≤ (s.slot k).order.kSMax → (s.slot k).order.kEMin ≤ (s.slot k).order.kEMax →
          Mark.kclamp ∈ ((trackCompliance x s).slot k).marks)) ∧
  ∀ dq dp k fresh : Int, fresh = roundDiv (dp * 16777216) dq →
    ((500 ≤ absI dq ∧ dp ≠ 0 ∧ (0 < dq ↔ 0 < dp)) →
      -4 ≤ 8 * (kUpdate dq dp k - k) - (fresh - k) ∧ 8 * (kUpdate dq dp k - k) - (fresh - k) ≤ 4) ∧
    (¬(500 ≤ absI dq ∧ dp ≠ 0 ∧ (0 < dq ↔ 0 < dp)) → kUpdate dq dp k = k)

/-- The modulus window opens at the first set, not held, at or above the lower stress, and a held set leaves it alone.
An open window that meets neither its upper stress nor 4,096 sets stays open, with the count and the four exact sums of
the sets that were not held (R132).  Its close gives the fit of R134: FIT_SHORT below 32 sets; FIT_FLAT where the
determinant, the numerator or the rounded slope is not above 0, resp. is 0; and otherwise the slope, which is above 0,
the intercept and the modulus, each rounded once and saturated.  A close above the upper stress carries no close mark,
the 4,096th set FIT_FULL (R133).  The bending is determined for a fit on the extensometer whose last extensions have a
sum above 0, and is marked above its limit (R136). -/
def Obligations.TheFitGivesTheModulus : Prop :=
  (∀ (o : TestOrder) (i : EvalIn) (ev : Eval), ev.window = .notOpened →
    (i.held = true ∨ i.stress < o.sLo → evalWindowStep o i ev = ev) ∧
    (i.held = false → o.sLo ≤ i.stress → (evalWindowStep o i ev).window ≠ .notOpened)) ∧
  (∀ (o : TestOrder) (sets taken : List EvalIn) (ev : Eval), taken = sets.filter (fun i => !i.held) →
    (∀ i ∈ taken, i.stress ≤ o.sHi) → taken.length < 4096 →
    ev = sets.foldl (fun ev i => evalWindowStep o i ev) { Eval.start with window := .opened } →
    ev.window = .opened ∧ ev.n = taken.length ∧ ev.results.fit = none ∧
    ev.fitSource = taken.head?.map (·.source) ∧ ev.lastExts = taken.getLast?.bind (·.exts) ∧
    ∀ sumE sumS sumEE sumES num den b : Int, sumE = (taken.map (·.strain)).sum → sumS = (taken.map (·.stress)).sum →
      sumEE = (taken.map fun i => i.strain * i.strain).sum → sumES = (taken.map fun i => i.strain * i.stress).sum →
      num = taken.length * sumES - sumE * sumS → den = taken.length * sumEE - sumE * sumE →
      b = roundDiv (num * 65536) den →
      ∀ (i : EvalIn) (t : Eval), t = evalWindowStep o i ev → i.held = false → o.sHi < i.stress →
        t.window = .closed ∧ t.yState = .rising ∧ t.results.closeMark = none ∧ t.results.fitN = taken.length ∧
        (taken.length < 32 → t.results.fit = none ∧ t.results.failMark = some .fitShort) ∧
        (32 ≤ taken.length → den ≤ 0 ∨ num ≤ 0 ∨ b = 0 → t.results.fit = none ∧ t.results.failMark = some .fitFlat) ∧
        (32 ≤ taken.length → 0 < den → 0 < num → b ≠ 0 →
          0 < b ∧ t.results.failMark = none ∧
          ∃ f, t.results.fit = some f ∧ 0 < f.b ∧ f.b = min 2147483647 b ∧
            f.a = sat32 (roundDiv (sumS * 65536 - f.b * sumE) (taken.length * 65536)) ∧
            f.e = sat32 (roundDiv (f.b * 100000) 65536)) ∧
        (∀ a b : Int, ev.fitSource = some .ext → ev.lastExts = some (a, b) → 0 < a + b →
          t.results.bending = some (sat32 (roundDiv (1000 * absI (a - b)) (a + b))) ∧
          (t.results.bendHigh = true ↔ o.bendLim < sat32 (roundDiv (1000 * absI (a - b)) (a + b)))) ∧
        (ev.fitSource ≠ some .ext ∨ ev.lastExts = none → t.results.bending = none ∧ t.results.bendHigh = false)) ∧
  ∀ (o : TestOrder) (i : EvalIn) (ev : Eval), ev.window = .opened → i.held = false → i.stress ≤ o.sHi → ev.n = 4095 →
    (evalWindowStep o i ev).window = .closed ∧ (evalWindowStep o i ev).results.closeMark = some .fitFull ∧
    (evalWindowStep o i ev).results.fitN = 4096

/-- In RISING the peak candidate follows the stress; a stress more than the drop below it determines ReH and enters
PLATEAU (R138).  A plateau lasts while no set is above ReH or at the plateau strain; at its end Ae is determined, and
ReL as the least stress from the 26th set behind the drop on, or over the whole plateau with its mark where the end
comes at that set or before (R139).  A running offset proof finds Rp at the first set on or below the offset line:
interpolated against the set before, or as it stands, with its mark, at its first set (R142, R143).  An Rp found in
RISING enters HARDENING as the yield; found at the set of the drop, or later, it leaves yield state and kind alone
(R144).  That the strain behind the offset does not saturate within the exact product of R142 is the model's choice (log
entry 34). -/
def Obligations.TheCurveYields : Prop :=
  (∀ (o : TestOrder) (i : EvalIn) (ev : Eval) (pk : Point) (t : Eval), ev.window = .closed → ev.yState = .rising →
    ev.peak = some pk → t = evalTail o ev i ev →
    (∀ pk', pk' = (if pk.stress < i.stress then { stress := i.stress, strain := i.strain } else pk) →
      (i.stress < pk'.stress - o.dDrop →
        t.yState = .plateau ∧ t.results.reH = some pk' ∧ t.results.yieldKind = some .reH ∧
        t.plateau = some { drop := i.index, minAll := i.stress, minAfter := none }) ∧
      (pk'.stress - o.dDrop ≤ i.stress →
        t.peak = some pk' ∧ t.results.reH = ev.results.reH ∧ t.plateau = ev.plateau ∧
        (ev.offset ≠ .running → t.yState = .rising)))) ∧
  (∀ (o : TestOrder) (d : Nat) (s0 : Int) (h : Point) (ev0 ev t : Eval) (sets : List EvalIn) (i : EvalIn),
    ev0.yState = .plateau → ev0.results.reH = some h →
    ev0.plateau = some { drop := d, minAll := s0, minAfter := none } →
    sets.map (·.index) = List.range' (d + 1) sets.length → i.index = d + 1 + sets.length →
    (∀ j ∈ sets, j.stress ≤ h.stress ∧ j.strain < sat32 (h.strain + o.ePlat)) →
    h.stress < i.stress ∨ sat32 (h.strain + o.ePlat) ≤ i.strain →
    ev = sets.foldl (fun ev j => plateauStep o j ev) ev0 → t = plateauStep o i ev →
    ev.yState = .plateau ∧ ev.results = ev0.results ∧ t.yState = .hardening ∧
    t.results.ae = some (sat32 (i.strain - h.strain)) ∧
    ∃ m, t.results.reL = some m ∧
      (i.index ≤ d + 26 → t.results.reLTransient = true ∧ m ∈ s0 :: sets.map (·.stress) ∧
        ∀ v ∈ s0 :: sets.map (·.stress), m ≤ v) ∧
      (d + 26 < i.index → t.results.reLTransient = ev0.results.reLTransient ∧
        m ∈ (sets.drop 25).map (·.stress) ∧ ∀ v ∈ (sets.drop 25).map (·.stress), m ≤ v)) ∧
  ∀ (o : TestOrder) (i : EvalIn) (ev : Eval) (f : Fit) (d : Int) (t : Eval), ev.window = .closed →
    ev.offset = .running → ev.results.fit = some f → ev.yState ≠ .waitFit → t = evalTail o ev i ev →
    d = sat32 (i.stress - sat32 (f.a + roundDiv (f.b * (i.strain - o.eP)) 65536)) →
    (0 < d → t.prevD = some d ∧ t.offset = .running ∧ t.results.rp = ev.results.rp) ∧
    (d ≤ 0 → ev.prevD = none →
      t.offset = .stopped ∧ t.results.rpAtClose = true ∧
      t.results.rp = some { stress := i.stress, strain := i.strain, source := i.source }) ∧
    (∀ d0 p, d ≤ 0 → ev.prevD = some d0 → 0 < d0 → ev.prev = some p →
      t.offset = .stopped ∧ t.results.rpAtClose = false ∧
      t.results.rp = some
        { stress := sat32 (p.stress + roundDiv ((i.stress - p.stress) * d0) (d0 - d))
          strain := sat32 (p.strain + roundDiv ((i.strain - p.strain) * d0) (d0 - d))
          source := i.source }) ∧
    (d ≤ 0 → (∀ d0, ev.prevD = some d0 → 0 < d0 ∧ ev.prev.isSome = true) →
      (∀ pk, ev.yState = .rising → ev.peak = some pk →
        0 ≤ o.dDrop → pk.stress - o.dDrop ≤ i.stress →
        t.yState = .hardening ∧ t.results.yieldKind = some .rp) ∧
      (∀ pk, ev.yState = .rising → ev.peak = some pk → 0 ≤ o.dDrop → i.stress < pk.stress - o.dDrop →
        t.yState = .plateau ∧ t.results.yieldKind = some .reH) ∧
      (ev.yState ≠ .rising → t.results.yieldKind = ev.results.yieldKind))

/-- The force test of an armed detector (R150): at or below the set fraction of the maximum, or, with ten forces behind
it, at or below the set part of the force ten sets ago where that force is at least half the maximum; with both, SHARP.
At a fracture set the elongation is that of the set before it on the fitted slope, the fracture fields are those of the
set, the maxima are determined, the evaluation is closed, and nothing else of the set is evaluated; at any other set it
stays open (R151).  That the maxima are compared at a held set too is the model's choice (log entry 41).  At the context
store FRACTURE is set, and END is pending with FRACTURE as end cause unless END or TERMINATE is pending already (R19,
R151). -/
def Obligations.AFractureEndsTheTest : Prop :=
  (∀ (o : TestOrder) (i : EvalIn) (ev t : Eval) (out : Option Criterion), ev.opened = true → ev.window = .closed →
    i.removal = none → i.resumed = false → (t, out) = evalSet o i ev →
    ∃ (fm rm eFm : Int) (source : Source),
      (ev.maxT = none → fm = i.force ∧ rm = i.stress ∧ eFm = i.strain ∧ source = i.source) ∧
      (∀ m, ev.maxT = some m → fm = max m.fm i.force ∧ rm = max m.rm i.stress ∧
        (m.fm < i.force → eFm = i.strain ∧ source = i.source) ∧
        (i.force ≤ m.fm → eFm = m.eFm ∧ source = m.source)) ∧
      ∀ level sharp : Prop,
        (level ↔ (ev.armed = true ∨ o.fArm ≤ fm) ∧ i.force ≤ roundDiv (fm * o.pFrac) 100) →
        (sharp ↔ (ev.armed = true ∨ o.fArm ≤ fm) ∧ ∃ f10 rest, ev.history = f10 :: rest ∧ rest.length = 9 ∧
          fm ≤ 2 * f10 ∧ i.force ≤ roundDiv (f10 * (100 - o.pSharp)) 100) →
        (sharp → out = some .sharp) ∧ (¬sharp → level → out = some .level) ∧
        (¬sharp → ¬level → out = none ∧ t.opened = true ∧ t.results.fracture = ev.results.fracture ∧
          t.maxT = some { fm := fm, rm := rm, eFm := eFm, source := source } ∧
          (t.armed = true ↔ ev.armed = true ∨ o.fArm ≤ fm)) ∧
        (∀ c, out = some c →
          t.opened = false ∧ t.yState = ev.yState ∧ t.history = ev.history ∧ t.prev = ev.prev ∧
          t.results.fracture = some { criterion := c, force := i.force, index := i.index } ∧
          t.results.rm = some rm ∧ t.results.fm = some { force := fm, strain := eFm } ∧
          (∀ f, ev.results.fit = some f →
            t.results.ag = some { value := sat32 (eFm - roundDiv (rm * 65536) f.b), source := source } ∧
            ∀ p, ev.prev = some p → t.results.elong = some
              { value := sat32 (p.strain - roundDiv (p.stress * 65536) f.b), source := p.source }) ∧
          (ev.results.fit = none → t.results.ag = none ∧ t.results.elong = none))) ∧
  ∀ (k : SlotId) (n : Nat) (c : Criterion) (force fm : Int) (s t : State), s.ctx.resident = some (.test k) →
    (s.slot k).state = .resident → Mark.fracture ∉ (s.slot k).marks → t = takeReport s (.fracture k n c force fm) →
    Mark.fracture ∈ (t.slot k).marks ∧ t.ctx.phase = s.ctx.phase ∧ t.ctx.resident = s.ctx.resident ∧
    (∀ j, j ≠ k → t.slot j = s.slot j) ∧
    ((∀ old, s.ctx.changeover = some old → old.cause = .operator) →
      t.ctx.changeover = some
        { cause := .endTest, requester := .internal, outgoing := .test k, incoming := none
          elapsed := (s.ctx.changeover.map (·.elapsed)).getD 0, endCause := some (.mark .fracture) }) ∧
    (∀ old, s.ctx.changeover = some old → old.cause ≠ .operator → t.ctx.changeover = some old)

/-- The evaluation settles its results once (R133, R134, R141, R156): an evaluated set never opens a closed window again
nor changes what its fit gave, never takes back a yield, and leaves a closed evaluation's results alone at the closing
steps.  ReL never exceeds ReH, and ReH never the maximum stress: every evaluated set of an open evaluation, the step at
a park and the closing steps keep that (R156); a held set is compared with the maximum too by the model's choice (log
entry 41). -/
def Obligations.ResultsAreDeterminedOnce : Prop :=
  (∀ (o : TestOrder) (i : EvalIn) (ev : Eval), (ev.window ≠ .closed → ev.yState = .waitFit) →
    ((evalSet o i ev).1.window ≠ .closed → (evalSet o i ev).1.yState = .waitFit) ∧
    (ev.window = .closed →
      (evalSet o i ev).1.window = .closed ∧ (evalSet o i ev).1.results.fit = ev.results.fit ∧
      (evalSet o i ev).1.results.closeMark = ev.results.closeMark ∧
      (evalSet o i ev).1.results.fitN = ev.results.fitN) ∧
    (yieldSeen ev = true → yieldSeen (evalSet o i ev).1 = true) ∧
    (ev.opened = false → closingSteps o ev = ev) ∧
    ((closingSteps o ev).opened = false ∧ closingSteps o (closingSteps o ev) = closingSteps o ev)) ∧
  YieldsOrdered Eval.start ∧
  ∀ (o : TestOrder) (ev : Eval), 0 ≤ o.dDrop → YieldsOrdered ev →
    (∀ i : EvalIn, ev.opened = true → YieldsOrdered (evalSet o i ev).1) ∧ YieldsOrdered (parkEval o ev) ∧
    YieldsOrdered (closingSteps o ev)
end

