-- ==== Sys2Proof/Laws/State.lean ====
section
/-! SUPPORT. One lemma per field per update of the state, so that no proof unfolds a record update. -/

namespace Sys2Proof.Machine

@[simp] theorem State.setPort_power (s : State) (p : Port) (x : PortState) :
    (s.setPort p x).power = s.power := rfl

@[simp] theorem State.setPort_pending (s : State) (p : Port) (x : PortState) :
    (s.setPort p x).pending = s.pending := rfl

@[simp] theorem State.setPort_smu (s : State) (p : Port) (x : PortState) :
    (s.setPort p x).smu = s.smu := rfl

@[simp] theorem State.setPort_lch (s : State) (p : Port) (x : PortState) :
    (s.setPort p x).lch = s.lch := rfl

@[simp] theorem State.setPort_cst (s : State) (p : Port) (x : PortState) :
    (s.setPort p x).cst = s.cst := rfl

@[simp] theorem State.setPort_inForce (s : State) (p : Port) (x : PortState) :
    (s.setPort p x).inForce = s.inForce := rfl

@[simp] theorem State.setPort_xch (s : State) (p : Port) (x : PortState) :
    (s.setPort p x).xch = s.xch := rfl

@[simp] theorem State.setPort_live (s : State) (p : Port) (x : PortState) :
    (s.setPort p x).live = s.live := rfl

@[simp] theorem State.setPort_msq (s : State) (p : Port) (x : PortState) :
    (s.setPort p x).msq = s.msq := rfl

@[simp] theorem State.setPort_ctx (s : State) (p : Port) (x : PortState) :
    (s.setPort p x).ctx = s.ctx := rfl

@[simp] theorem State.setPort_flu (s : State) (p : Port) (x : PortState) :
    (s.setPort p x).flu = s.flu := rfl

@[simp] theorem State.setPort_rst (s : State) (p : Port) (x : PortState) :
    (s.setPort p x).rst = s.rst := rfl

@[simp] theorem State.setPort_ptu (s : State) (p : Port) (x : PortState) :
    (s.setPort p x).ptu = s.ptu.setPort p x := rfl

@[simp] theorem State.setSlot_power (s : State) (k : SlotId) (x : Slot) :
    (s.setSlot k x).power = s.power := rfl

@[simp] theorem State.setSlot_pending (s : State) (k : SlotId) (x : Slot) :
    (s.setSlot k x).pending = s.pending := rfl

@[simp] theorem State.setSlot_smu (s : State) (k : SlotId) (x : Slot) :
    (s.setSlot k x).smu = s.smu := rfl

@[simp] theorem State.setSlot_lch (s : State) (k : SlotId) (x : Slot) :
    (s.setSlot k x).lch = s.lch := rfl

@[simp] theorem State.setSlot_cst (s : State) (k : SlotId) (x : Slot) :
    (s.setSlot k x).cst = s.cst := rfl

@[simp] theorem State.setSlot_inForce (s : State) (k : SlotId) (x : Slot) :
    (s.setSlot k x).inForce = s.inForce := rfl

@[simp] theorem State.setSlot_xch (s : State) (k : SlotId) (x : Slot) :
    (s.setSlot k x).xch = s.xch := rfl

@[simp] theorem State.setSlot_live (s : State) (k : SlotId) (x : Slot) :
    (s.setSlot k x).live = s.live := rfl

@[simp] theorem State.setSlot_msq (s : State) (k : SlotId) (x : Slot) :
    (s.setSlot k x).msq = s.msq := rfl

@[simp] theorem State.setSlot_flu (s : State) (k : SlotId) (x : Slot) :
    (s.setSlot k x).flu = s.flu := rfl

@[simp] theorem State.setSlot_rst (s : State) (k : SlotId) (x : Slot) :
    (s.setSlot k x).rst = s.rst := rfl

@[simp] theorem State.setSlot_ptu (s : State) (k : SlotId) (x : Slot) :
    (s.setSlot k x).ptu = s.ptu := rfl

@[simp] theorem State.setSlot_queue (s : State) (k : SlotId) (x : Slot) :
    (s.setSlot k x).ctx.queue = s.ctx.queue := rfl

@[simp] theorem State.setSlot_binding (s : State) (k : SlotId) (x : Slot) :
    (s.setSlot k x).ctx.binding = s.ctx.binding := rfl

@[simp] theorem State.setSlot_phase (s : State) (k : SlotId) (x : Slot) :
    (s.setSlot k x).ctx.phase = s.ctx.phase := rfl

@[simp] theorem State.setSlot_resident (s : State) (k : SlotId) (x : Slot) :
    (s.setSlot k x).ctx.resident = s.ctx.resident := rfl

@[simp] theorem State.setSlot_changeover (s : State) (k : SlotId) (x : Slot) :
    (s.setSlot k x).ctx.changeover = s.ctx.changeover := rfl

@[simp] theorem State.setSlot_holder (s : State) (k : SlotId) (x : Slot) :
    (s.setSlot k x).ctx.holder = s.ctx.holder := rfl

@[simp] theorem State.setSlot_transit (s : State) (k : SlotId) (x : Slot) :
    (s.setSlot k x).ctx.transit = s.ctx.transit := rfl

@[simp] theorem Ptu.setPort_cellDe (u : Ptu) (p : Port) (x : PortState) :
    (u.setPort p x).cellDe = u.cellDe := by cases p <;> rfl

@[simp] theorem Ptu.setPort_misoSent (u : Ptu) (p : Port) (x : PortState) :
    (u.setPort p x).misoSent = u.misoSent := by cases p <;> rfl

@[simp] theorem Ptu.setPort_assembly (u : Ptu) (p : Port) (x : PortState) :
    (u.setPort p x).assembly = u.assembly := by cases p <;> rfl

@[simp] theorem Ptu.setPort_lastCause (u : Ptu) (p : Port) (x : PortState) :
    (u.setPort p x).lastCause = u.lastCause := by cases p <;> rfl

@[simp] theorem Ptu.setPort_resetWait (u : Ptu) (p : Port) (x : PortState) :
    (u.setPort p x).resetWait = u.resetWait := by cases p <;> rfl

@[simp] theorem Ptu.setPort_lineArmed (u : Ptu) (p : Port) (x : PortState) :
    (u.setPort p x).lineArmed = u.lineArmed := by cases p <;> rfl

@[simp] theorem Ptu.port_setPort_same (u : Ptu) (p : Port) (x : PortState) : (u.setPort p x).port p = x := by
  cases p <;> rfl

theorem Ptu.port_setPort_other (u : Ptu) {p q : Port} (x : PortState) (h : q ≠ p) :
    (u.setPort p x).port q = u.port q := by
  cases p <;> cases q <;> first | rfl | exact absurd rfl h

@[simp] theorem Ptu.setPort_setPort (u : Ptu) (p : Port) (x y : PortState) :
    (u.setPort p x).setPort p y = u.setPort p y := by
  cases p <;> rfl

@[simp] theorem Ptu.setPort_port (u : Ptu) (p : Port) : u.setPort p (u.port p) = u := by cases p <;> rfl

@[simp] theorem State.port_setPort_same (s : State) (p : Port) (x : PortState) : (s.setPort p x).port p = x :=
  Ptu.port_setPort_same s.ptu p x

theorem State.port_setPort_other (s : State) {p q : Port} (x : PortState) (h : q ≠ p) :
    (s.setPort p x).port q = s.port q := Ptu.port_setPort_other s.ptu x h

@[simp] theorem State.setPort_setPort (s : State) (p : Port) (x y : PortState) :
    (s.setPort p x).setPort p y = s.setPort p y := by
  simp [State.setPort]

@[simp] theorem State.setPort_self (s : State) (p : Port) : s.setPort p (s.port p) = s := by
  simp [State.setPort, State.port]

@[simp] theorem State.slot_setSlot_same (s : State) (k : SlotId) (x : Slot) : (s.setSlot k x).slot k = x := by
  simp [State.slot, State.setSlot]

theorem State.slot_setSlot_other (s : State) {k j : SlotId} (x : Slot) (h : j ≠ k) :
    (s.setSlot k x).slot j = s.slot j := by
  simp [State.slot, State.setSlot, Fin.val_inj, Ne.symm h]

/-- A slot after a slot is replaced. -/
theorem State.slot_setSlot (s : State) (k j : SlotId) (x : Slot) :
    (s.setSlot k x).slot j = if j = k then x else s.slot j := by
  by_cases h : j = k
  · subst h; simp
  · simp [h, State.slot_setSlot_other s x h]

@[simp] theorem State.setSlot_setSlot (s : State) (k : SlotId) (x y : Slot) :
    (s.setSlot k x).setSlot k y = s.setSlot k y := by
  simp [State.setSlot]

@[simp] theorem State.slot_setPort (s : State) (p : Port) (x : PortState) (k : SlotId) :
    (s.setPort p x).slot k = s.slot k := rfl

@[simp] theorem State.port_setSlot (s : State) (p : Port) (x : Slot) (k : SlotId) :
    (s.setSlot k x).port p = s.port p := rfl

@[simp] theorem State.frame_setPort (s : State) (p : Port) (x : PortState) : (s.setPort p x).frame = s.frame := rfl

@[simp] theorem State.residentSlot_setPort (s : State) (p : Port) (x : PortState) :
    (s.setPort p x).residentSlot = s.residentSlot := rfl

/-- Two states with the same context store have the same slots. -/
theorem State.slot_congr {s t : State} (h : s.ctx.slots = t.ctx.slots) (k : SlotId) : s.slot k = t.slot k := by
  simp [State.slot, h]

end Sys2Proof.Machine
end

