-- ==== Sys2Proof/Laws/Frames.lean ====
section
/-! SUPPORT. What the shared operations that queue events, offer records, set marks and raise causes can do: one frame
for each kind, with one lemma for each operation. -/

namespace Sys2Proof.Machine

/-! ### Events -/

/-- A port whose queue, overflow mark and attention line may have changed, nothing else. -/
def PortEvents (x y : PortState) : Prop := y = { x with queue := y.queue, overflow := y.overflow, atn := y.atn }

theorem PortEvents.refl (x : PortState) : PortEvents x x := rfl

theorem PortEvents.trans {x y z : PortState} (h : PortEvents x y) (g : PortEvents y z) : PortEvents x z := by
  unfold PortEvents at *
  rw [g, h]

/-- Only the event queues may have changed, and they still fit. -/
structure EventFrame (s t : State) : Prop where
  rest : t = { s with ptu := t.ptu }
  unit : t.ptu = { s.ptu with supervisor := t.ptu.supervisor, cell := t.ptu.cell, pendant := t.ptu.pendant }
  ports : ∀ p, PortEvents (s.port p) (t.port p)
  fit : QueuesFit s → QueuesFit t

theorem EventFrame.refl (s : State) : EventFrame s s := ⟨rfl, rfl, fun _ => rfl, id⟩

theorem EventFrame.trans {s t u : State} (h : EventFrame s t) (g : EventFrame t u) : EventFrame s u where
  rest := by rw [g.rest, h.rest]
  unit := by rw [g.unit, h.unit]
  ports p := (h.ports p).trans (g.ports p)
  fit x := g.fit (h.fit x)

theorem queueFits_pushEvent (e : Event) (x : PortState) (h : QueueFits x) : QueueFits (pushEvent e x) := by
  unfold pushEvent
  split
  · refine ⟨?_, by simp⟩
    simp only [List.length_append, List.length_singleton]
    omega
  · exact h

theorem portEvents_pushEvent (e : Event) (x : PortState) : PortEvents x (pushEvent e x) := by
  unfold pushEvent PortEvents; split <;> rfl

theorem deliverTo_frame (n : Option Port) (e : Event) (s : State) (p : Port) : EventFrame s (deliverTo n e s p) := by
  unfold deliverTo
  split
  · refine ⟨rfl, by cases p <;> rfl, fun q => ?_, fun h => ?_⟩
    · by_cases hq : q = p
      · subst hq; simpa using portEvents_pushEvent e _
      · rw [State.port_setPort_other _ _ hq]; rfl
    · obtain ⟨h1, h2, h3⟩ := h
      cases p
      · exact ⟨queueFits_pushEvent e _ h1, h2, h3⟩
      · exact ⟨h1, queueFits_pushEvent e _ h2, h3⟩
      · exact ⟨h1, h2, queueFits_pushEvent e _ h3⟩
  · exact .refl s

/-- An event changes the event queues and nothing else. -/
theorem raiseEvent_frame (n : Option Port) (e : Event) (s : State) : EventFrame s (raiseEvent n e s) :=
  ((deliverTo_frame n e s _).trans (deliverTo_frame n e _ _)).trans (deliverTo_frame n e _ _)

/-- What an event does to each queue (R200, R201). -/
theorem raiseEvent_port (n : Option Port) (e : Event) (s : State) (p : Port) :
    (raiseEvent n e s).port p = if delivers n e p (s.port p) then pushEvent e (s.port p) else s.port p := by
  have other : ∀ (s : State) (q : Port), p ≠ q → (deliverTo n e s q).port p = s.port p := by
    intro s q h
    unfold deliverTo
    split
    · exact State.port_setPort_other s _ h
    · rfl
  have same : ∀ s : State, (deliverTo n e s p).port p =
      if delivers n e p (s.port p) then pushEvent e (s.port p) else s.port p := by
    intro s
    unfold deliverTo
    split
    · simp
    · rfl
  unfold raiseEvent allPorts
  cases p <;> simp only [List.foldl_cons, List.foldl_nil]
  · rw [other _ _ (by decide), other _ _ (by decide), same]
  · rw [other _ _ (by decide), same, other _ _ (by decide)]
  · rw [same, other _ _ (by decide), other _ _ (by decide)]

@[simp] theorem raiseEvent_power (n : Option Port) (e : Event) (s : State) : (raiseEvent n e s).power = s.power := by
  rw [(raiseEvent_frame n e s).rest]

@[simp] theorem raiseEvent_pending (n : Option Port) (e : Event) (s : State) :
    (raiseEvent n e s).pending = s.pending := by
  rw [(raiseEvent_frame n e s).rest]

@[simp] theorem raiseEvent_smu (n : Option Port) (e : Event) (s : State) : (raiseEvent n e s).smu = s.smu := by
  rw [(raiseEvent_frame n e s).rest]

@[simp] theorem raiseEvent_lch (n : Option Port) (e : Event) (s : State) : (raiseEvent n e s).lch = s.lch := by
  rw [(raiseEvent_frame n e s).rest]

@[simp] theorem raiseEvent_cst (n : Option Port) (e : Event) (s : State) : (raiseEvent n e s).cst = s.cst := by
  rw [(raiseEvent_frame n e s).rest]

@[simp] theorem raiseEvent_inForce (n : Option Port) (e : Event) (s : State) :
    (raiseEvent n e s).inForce = s.inForce := by
  rw [(raiseEvent_frame n e s).rest]

@[simp] theorem raiseEvent_xch (n : Option Port) (e : Event) (s : State) : (raiseEvent n e s).xch = s.xch := by
  rw [(raiseEvent_frame n e s).rest]

@[simp] theorem raiseEvent_live (n : Option Port) (e : Event) (s : State) : (raiseEvent n e s).live = s.live := by
  rw [(raiseEvent_frame n e s).rest]

@[simp] theorem raiseEvent_msq (n : Option Port) (e : Event) (s : State) : (raiseEvent n e s).msq = s.msq := by
  rw [(raiseEvent_frame n e s).rest]

@[simp] theorem raiseEvent_ctx (n : Option Port) (e : Event) (s : State) : (raiseEvent n e s).ctx = s.ctx := by
  rw [(raiseEvent_frame n e s).rest]

@[simp] theorem raiseEvent_flu (n : Option Port) (e : Event) (s : State) : (raiseEvent n e s).flu = s.flu := by
  rw [(raiseEvent_frame n e s).rest]

@[simp] theorem raiseEvent_rst (n : Option Port) (e : Event) (s : State) : (raiseEvent n e s).rst = s.rst := by
  rw [(raiseEvent_frame n e s).rest]

@[simp] theorem raiseEvent_slot (n : Option Port) (e : Event) (s : State) (k : SlotId) :
    (raiseEvent n e s).slot k = s.slot k := State.slot_congr (by simp) k

@[simp] theorem raiseEvent_residentSlot (n : Option Port) (e : Event) (s : State) :
    (raiseEvent n e s).residentSlot = s.residentSlot := by simp [State.residentSlot]

/-! ### Records -/

/-- Only the event queues and the record stream may have changed, and both still fit. -/
structure RecordFrame (s t : State) : Prop where
  rest : t = { s with ptu := t.ptu, rst := t.rst }
  unit : t.ptu = { s.ptu with supervisor := t.ptu.supervisor, cell := t.ptu.cell, pendant := t.ptu.pendant }
  ports : ∀ p, PortEvents (s.port p) (t.port p)
  fit : QueuesFit s → QueuesFit t
  stream : StreamFits s → StreamFits t

theorem RecordFrame.refl (s : State) : RecordFrame s s := ⟨rfl, rfl, fun _ => rfl, id, id⟩

theorem RecordFrame.trans {s t u : State} (h : RecordFrame s t) (g : RecordFrame t u) : RecordFrame s u where
  rest := by rw [g.rest, h.rest]
  unit := by rw [g.unit, h.unit]
  ports p := (h.ports p).trans (g.ports p)
  fit x := g.fit (h.fit x)
  stream x := g.stream (h.stream x)

theorem EventFrame.record {s t : State} (h : EventFrame s t) : RecordFrame s t where
  rest := by rw [h.rest]
  unit := h.unit
  ports := h.ports
  fit := h.fit
  stream x := by rw [h.rest]; exact x

/-- The occupancy of records joined to a stream. -/
theorem occupancy_append (a b : List (List Word16)) : occupancy (a ++ b) = occupancy a + occupancy b := by
  simp [occupancy]

/-- An admission that fits changes the stream and the queues only. -/
theorem admitRecords_frame (words : List (List Word16)) (s : State)
    (h : occupancy s.rst.records + occupancy words ≤ Config.streamWords) : RecordFrame s (admitRecords words s) := by
  have key : ∀ r : Rst, occupancy r.records ≤ Config.streamWords → r.gap = s.rst.gap →
      RecordFrame s { s with rst := r } := by
    intro r hr hg
    exact ⟨rfl, rfl, fun _ => rfl, id, fun x => ⟨hr, by rw [hg]; exact x.2⟩⟩
  have h' : occupancy (s.rst.records ++ words) ≤ Config.streamWords := by rw [occupancy_append]; exact h
  unfold admitRecords
  dsimp only
  split
  · exact (key { s.rst with records := s.rst.records ++ words, armed := false } h' rfl).trans
      (raiseEvent_frame _ _ _).record
  · exact key { s.rst with records := s.rst.records ++ words } h' rfl

theorem admits_fits (o : Offer) (r : Rst) (h : admits o r = true) :
    occupancy r.records + occupancy o.records ≤ Config.streamWords := by
  unfold admits at h
  simp only [Bool.and_eq_true, decide_eq_true_eq] at h
  omega

/-- An offer, admitted or dropped, changes the stream and the queues only (R188, R189). -/
theorem offerRaw_frame (o : Offer) (s : State) : RecordFrame s (offerRaw o s).1 := by
  unfold offerRaw
  split
  case isTrue h => exact admitRecords_frame o.records s (admits_fits o s.rst h)
  · refine ⟨rfl, rfl, fun _ => rfl, id, fun x => ⟨x.1, ?_⟩⟩
    rintro g ⟨⟩
    unfold gapAfterDrop
    split
    · exact Nat.min_le_left _ _
    · exact Nat.min_le_left _ _

end Sys2Proof.Machine
end

