-- ==== Sys2Proof/Laws/Marks.lean ====
section
/-! SUPPORT. What raising a cause, setting a mark and offering a record for a test can do (R19, R31, R32, R188, R189). -/

namespace Sys2Proof.Machine

/-- The elapsed count a raised cause continues with (R19). -/
def continuedCount : Option Changeover → Nat
  | none => 0
  | some c => c.elapsed

/-- The still-count at a raised cause: a quiesce that begins starts it at 0, one in progress goes on (R19, R72). -/
def continuedStill (m : Msq) : Option Changeover → Nat
  | none => 0
  | some _ => m.stillCount

/-- The changeover a cause makes pending (R19). -/
def raisedChangeover (cause : Cause) (r : Requester) (out : Context) (i : Option Context) (e : Option EndCause)
    (old : Option Changeover) : Changeover :=
  { cause := cause, requester := r, outgoing := out, incoming := i, elapsed := continuedCount old, endCause := e }

/-- A cause that is raised with nothing resident, or that R19 discards, changes nothing. -/
theorem raiseCause_refused (cause : Cause) (r : Requester) (i : Option Context) (e : Option EndCause) (s : State)
    (h : s.ctx.resident = none ∨ causeAccepted cause s = false) : raiseCause cause r i e s = s := by
  unfold raiseCause
  rcases h with h | h
  · rw [h]
  · unfold causeAccepted at h
    split <;> [rfl; skip]
    split at h
    · cases h
    · rw [if_neg (by simpa using h)]

/-- A cause that R19 accepts becomes the pending changeover; beside it the still-count and the event queues are all that
can change. -/
theorem raiseCause_accepted (cause : Cause) (r : Requester) (i : Option Context) (e : Option EndCause) (s : State)
    {out : Context} (h : s.ctx.resident = some out) (ha : causeAccepted cause s = true) :
    EventFrame
      { s with
        ctx := { s.ctx with changeover := some (raisedChangeover cause r out i e s.ctx.changeover) }
        msq := { s.msq with stillCount := continuedStill s.msq s.ctx.changeover } }
      (raiseCause cause r i e s) := by
  unfold raiseCause
  rw [h]
  dsimp only
  unfold causeAccepted at ha
  split at ha
  · rename_i hc
    rw [hc]
    exact raiseEvent_frame _ _ _
  · rename_i old hc
    rw [hc]
    rw [if_pos (by simpa using ha)]
    unfold beginChangeover supersede
    refine EventFrame.trans ?_ (raiseEvent_frame _ _ _)
    split
    · have f := raiseEvent_frame (some ‹Port›) (.superseded old.cause) s
      refine ⟨?_, ?_, ?_, ?_⟩
      · simp [raisedChangeover, continuedCount, continuedStill]
      · exact f.unit
      · exact f.ports
      · exact f.fit
    · exact EventFrame.refl _

/-- The changeovers a mark can make pending (R19, R31). -/
structure MarkCause (s : State) (c : Changeover) : Prop where
  resident : ∃ k, (s.slot k).state = .resident ∨ s.ctx.resident = some (.test k)
  outgoing : s.ctx.resident = some c.outgoing
  shape : (c.cause ≠ .operator ∧ c.incoming = none ∧ c.endCause.isSome = true) ∨
    (c.cause = .operator ∧ c.incoming = some .service)

/-- Only event queues, the record stream, condition sets, the pending changeover and the still-count may have
changed: marks are only added, and a changeover that is new is one that a mark raises. -/
structure MarkFrame (s t : State) : Prop where
  rest : t = { s with
    ptu := t.ptu, rst := t.rst
    ctx := { s.ctx with slots := t.ctx.slots, changeover := t.ctx.changeover }
    msq := { s.msq with stillCount := t.msq.stillCount } }
  unit : t.ptu = { s.ptu with supervisor := t.ptu.supervisor, cell := t.ptu.cell, pendant := t.ptu.pendant }
  ports : ∀ p, PortEvents (s.port p) (t.port p)
  fit : QueuesFit s → QueuesFit t
  stream : StreamFits s → StreamFits t
  slots : ∀ k, t.slot k = { s.slot k with marks := (t.slot k).marks }
  marks : ∀ k, ∀ m ∈ (s.slot k).marks, m ∈ (t.slot k).marks
  cause : t.ctx.changeover = s.ctx.changeover ∨ ∃ c, t.ctx.changeover = some c ∧ MarkCause s c

namespace MarkFrame

theorem refl (s : State) : MarkFrame s s := ⟨rfl, rfl, fun _ => rfl, id, id, fun _ => rfl, fun _ _ h => h, .inl rfl⟩

variable {s t u : State}

theorem power (h : MarkFrame s t) : t.power = s.power := by rw [h.rest]
theorem pending (h : MarkFrame s t) : t.pending = s.pending := by rw [h.rest]
theorem smu (h : MarkFrame s t) : t.smu = s.smu := by rw [h.rest]
theorem lch (h : MarkFrame s t) : t.lch = s.lch := by rw [h.rest]
theorem cst (h : MarkFrame s t) : t.cst = s.cst := by rw [h.rest]
theorem inForce (h : MarkFrame s t) : t.inForce = s.inForce := by rw [h.rest]
theorem xch (h : MarkFrame s t) : t.xch = s.xch := by rw [h.rest]
theorem live (h : MarkFrame s t) : t.live = s.live := by rw [h.rest]
theorem flu (h : MarkFrame s t) : t.flu = s.flu := by rw [h.rest]
theorem queue (h : MarkFrame s t) : t.ctx.queue = s.ctx.queue := by rw [h.rest]
theorem binding (h : MarkFrame s t) : t.ctx.binding = s.ctx.binding := by rw [h.rest]
theorem phase (h : MarkFrame s t) : t.ctx.phase = s.ctx.phase := by rw [h.rest]
theorem resident (h : MarkFrame s t) : t.ctx.resident = s.ctx.resident := by rw [h.rest]
theorem holder (h : MarkFrame s t) : t.ctx.holder = s.ctx.holder := by rw [h.rest]
theorem transit (h : MarkFrame s t) : t.ctx.transit = s.ctx.transit := by rw [h.rest]
theorem active (h : MarkFrame s t) : t.msq.active = s.msq.active := by rw [h.rest]
theorem inactive (h : MarkFrame s t) : t.msq.inactive = s.msq.inactive := by rw [h.rest]

theorem residentSlot (h : MarkFrame s t) : t.residentSlot = s.residentSlot := by
  simp [State.residentSlot, h.resident]

theorem state (h : MarkFrame s t) (k : SlotId) : (t.slot k).state = (s.slot k).state := by rw [h.slots k]
theorem order (h : MarkFrame s t) (k : SlotId) : (t.slot k).order = (s.slot k).order := by rw [h.slots k]
theorem runtime (h : MarkFrame s t) (k : SlotId) : (t.slot k).runtime = (s.slot k).runtime := by rw [h.slots k]
theorem s0 (h : MarkFrame s t) (k : SlotId) : (t.slot k).s0 = (s.slot k).s0 := by rw [h.slots k]
theorem dims (h : MarkFrame s t) (k : SlotId) : (t.slot k).dims = (s.slot k).dims := by rw [h.slots k]
theorem outcome (h : MarkFrame s t) (k : SlotId) : (t.slot k).outcome = (s.slot k).outcome := by rw [h.slots k]

theorem trans (h : MarkFrame s t) (g : MarkFrame t u) : MarkFrame s u where
  rest := by rw [g.rest, h.rest]
  unit := by rw [g.unit, h.unit]
  ports p := (h.ports p).trans (g.ports p)
  fit x := g.fit (h.fit x)
  stream x := g.stream (h.stream x)
  slots k := by rw [g.slots k, h.slots k]
  marks k m x := g.marks k m (h.marks k m x)
  cause := by
    rcases g.cause with e | ⟨c, e, r, o, w⟩
    · rw [e]; exact h.cause
    · refine .inr ⟨c, e, ?_, ?_, w⟩
      · obtain ⟨k, r⟩ := r
        exact ⟨k, by rw [← h.state k, ← h.resident]; exact r⟩
      · rw [← h.resident]; exact o

end MarkFrame

theorem RecordFrame.mark {s t : State} (h : RecordFrame s t) : MarkFrame s t where
  rest := by rw [h.rest]
  unit := h.unit
  ports := h.ports
  fit := h.fit
  stream := h.stream
  slots k := by rw [h.rest]; rfl
  marks k m x := by rw [h.rest]; exact x
  cause := by rw [h.rest]; exact .inl rfl

theorem EventFrame.mark {s t : State} (h : EventFrame s t) : MarkFrame s t := h.record.mark

/-- A mark added to a slot. -/
theorem addMark_frame (k : SlotId) (m : Mark) (s : State) : MarkFrame s (addMark k m s) := by
  unfold addMark
  refine MarkFrame.trans (t := s.setSlot k _) ?_ (raiseEvent_frame _ _ _).mark
  refine ⟨rfl, rfl, fun _ => rfl, id, id, fun j => ?_, fun j x h => ?_, .inl rfl⟩
  · rw [State.slot_setSlot]
    split
    · rename_i h; subst h; rfl
    · rfl
  · rw [State.slot_setSlot]
    split
    · rename_i e; subst e; exact List.mem_append_left _ h
    · exact h

@[simp] theorem mem_addMark (k : SlotId) (m : Mark) (s : State) : m ∈ ((addMark k m s).slot k).marks := by
  simp [addMark]

/-- A cause that a mark raises. -/
theorem raiseCause_frame (cause : Cause) (r : Requester) (i : Option Context) (e : Option EndCause) (s : State)
    (k : SlotId) (hk : (s.slot k).state = .resident ∨ s.ctx.resident = some (.test k))
    (h : (cause ≠ .operator ∧ i = none ∧ e.isSome = true) ∨ (cause = .operator ∧ i = some .service)) :
    MarkFrame s (raiseCause cause r i e s) := by
  rcases hr : s.ctx.resident with _ | out
  · rw [raiseCause_refused _ _ _ _ _ (.inl hr)]; exact .refl s
  · rcases ha : causeAccepted cause s with _ | _
    · rw [raiseCause_refused _ _ _ _ _ (.inr ha)]; exact .refl s
    · refine MarkFrame.trans ?_ (raiseCause_accepted cause r i e s hr ha).mark
      refine ⟨rfl, rfl, fun _ => rfl, id, id, fun _ => rfl, fun _ _ x => x, .inr ⟨_, rfl, ⟨k, hk⟩, hr, h⟩⟩

theorem raiseMarkCause_frame (k : SlotId) (m : Mark) (s : State) (hk : (s.slot k).state = .resident) :
    MarkFrame s (raiseMarkCause k m s) := by
  unfold raiseMarkCause
  split
  · split
    · split
      · exact .refl s
      · exact raiseCause_frame _ _ _ _ _ k (.inl hk) (.inl ⟨by decide, rfl, rfl⟩)
    · exact raiseCause_frame _ _ _ _ _ k (.inl hk) (.inr ⟨rfl, rfl⟩)
    · exact .refl s
    · exact .refl s
  · exact .refl s

theorem reportGap_frame (b : Bool) (k : SlotId) (n : BitVec 32) (s : State) : MarkFrame s (reportGap b k n s) := by
  unfold reportGap
  split
  · exact .refl s
  · dsimp only
    have f := addMark_frame k .gap s
    split
    · rename_i hr
      have g := (offerRaw_frame (Offer.one false (eventRecord .markSet n k (markNumber .gap) 0) n) (addMark k .gap s)).mark
      split
      · exact (f.trans g).trans (raiseMarkCause_frame _ _ _ (by rw [g.state]; exact hr))
      · exact f.trans g
    · exact f

/-- An offer for a test (R188, R189). -/
theorem offer_frame (b : Bool) (o : Offer) (k : SlotId) (s : State) : MarkFrame s (offer b o k s) := by
  have f := (offerRaw_frame o s).mark
  unfold offer
  dsimp only
  split
  · exact f
  · exact f.trans (reportGap_frame _ _ _ _)

theorem offerEvent_frame (e : RecordEvent) (n : BitVec 32) (k : SlotId) (sub : Nat) (v : Int) (s : State) :
    MarkFrame s (offerEvent e n k sub v s) := offer_frame _ _ _ _

/-- A mark that reaches a slot (R31, R32). -/
theorem setMark_frame (k : SlotId) (m : Mark) (v : Int) (n : BitVec 32) (s : State) :
    MarkFrame s (setMark k m v n s) := by
  unfold setMark
  split
  · exact .refl s
  · dsimp only
    have f := addMark_frame k m s
    split
    · rename_i hr
      have g := offerEvent_frame .markSet n k (markNumber m) v (addMark k m s)
      exact (f.trans g).trans (raiseMarkCause_frame _ _ _ (by rw [g.state]; exact hr))
    · exact f

/-- A mark that reaches a slot is in its condition set. -/
theorem mem_setMark (k : SlotId) (m : Mark) (v : Int) (n : BitVec 32) (s : State) :
    m ∈ ((setMark k m v n s).slot k).marks := by
  unfold setMark
  split
  · assumption
  · dsimp only
    have h := mem_addMark k m s
    split
    · rename_i hr
      have g := offerEvent_frame .markSet n k (markNumber m) v (addMark k m s)
      exact (raiseMarkCause_frame k m _ (by rw [g.state]; exact hr)).marks k m (g.marks k m h)
    · exact h

theorem offerMark_frame (m : MarkKind) (k : SlotId) (n : BitVec 32) (s : State) : MarkFrame s (offerMark m k n s) :=
  offer_frame _ _ _ _

theorem offerEnd_frame (k : SlotId) (s : State) : MarkFrame s (offerEnd k s) := by
  unfold offerEnd
  exact (offerMark_frame _ _ _ _).trans (offer_frame _ _ _ _)

theorem offerResume_frame (k : SlotId) (s : State) : MarkFrame s (offerResume k s) := offerMark_frame _ _ _ _

theorem announcePhase_frame (s : State) : EventFrame s (announcePhase s) := raiseEvent_frame _ _ _

theorem announceEnd_frame (c : Context) (o : Option TestOutcome) (s : State) : EventFrame s (announceEnd c o s) := by
  unfold announceEnd
  split
  · exact raiseEvent_frame _ _ _
  · exact .refl s

theorem supersede_frame (c : Changeover) (s : State) : EventFrame s (supersede c s) := by
  unfold supersede
  split
  · exact raiseEvent_frame _ _ _
  · exact .refl s

end Sys2Proof.Machine
end

