-- ==== Sys2Proof/Laws/Chain.lean ====
section
/-! SUPPORT. What the blocks of the chain can do to the contexts while they handle a sample set, faults and completions
aside: one frame, with one lemma for each operation of a block. -/

namespace Sys2Proof.Machine

/-- What stays of the contexts through the handling of a sample set: everything the context store holds but condition
sets, runtime contents, the pending changeover and the reports kept back; a running tare may go on or end. -/
structure ChainFrame (s t : State) : Prop where
  power : t.power = s.power
  pending : t.pending = s.pending
  cst : t.cst = s.cst
  inForce : t.inForce = s.inForce
  flu : t.flu = s.flu
  queue : t.ctx.queue = s.ctx.queue
  binding : t.ctx.binding = s.ctx.binding
  phase : t.ctx.phase = s.ctx.phase
  resident : t.ctx.resident = s.ctx.resident
  holder : t.ctx.holder = s.ctx.holder
  live : t.live.isSome = s.live.isSome
  lock : t.lch.lock = s.lch.lock
  tare : t.lch.tareRun.map (·.kind) = s.lch.tareRun.map (·.kind) ∨ t.lch.tareRun = none
  banks : (t.msq.active.isSome || t.msq.inactive.isSome) = (s.msq.active.isSome || s.msq.inactive.isSome)
  state : ∀ k, (t.slot k).state = (s.slot k).state
  order : ∀ k, (t.slot k).order = (s.slot k).order
  s0 : ∀ k, (t.slot k).s0 = (s.slot k).s0
  runtime : ∀ k, (t.slot k).runtime.isSome = (s.slot k).runtime.isSome
  marks : ∀ k, ∀ m ∈ (s.slot k).marks, m ∈ (t.slot k).marks
  cause : t.ctx.changeover = s.ctx.changeover ∨ ∃ c, t.ctx.changeover = some c ∧ MarkCause s c
  ports : ∀ p, PortEvents (s.port p) (t.port p)
  fit : QueuesFit s → QueuesFit t
  stream : StreamFits s → StreamFits t

namespace ChainFrame

theorem refl (s : State) : ChainFrame s s where
  power := rfl
  pending := rfl
  cst := rfl
  inForce := rfl
  flu := rfl
  queue := rfl
  binding := rfl
  phase := rfl
  resident := rfl
  holder := rfl
  live := rfl
  lock := rfl
  tare := .inl rfl
  banks := rfl
  state _ := rfl
  order _ := rfl
  s0 _ := rfl
  runtime _ := rfl
  marks _ _ h := h
  cause := .inl rfl
  ports _ := rfl
  fit := id
  stream := id

theorem trans {s t u : State} (h : ChainFrame s t) (g : ChainFrame t u) : ChainFrame s u where
  power := g.power.trans h.power
  pending := g.pending.trans h.pending
  cst := g.cst.trans h.cst
  inForce := g.inForce.trans h.inForce
  flu := g.flu.trans h.flu
  queue := g.queue.trans h.queue
  binding := g.binding.trans h.binding
  phase := g.phase.trans h.phase
  resident := g.resident.trans h.resident
  holder := g.holder.trans h.holder
  live := g.live.trans h.live
  lock := g.lock.trans h.lock
  tare := by
    rcases g.tare with e | e
    · rcases h.tare with f | f
      · exact .inl (e.trans f)
      · rw [f] at e
        exact .inr (by simpa using e)
    · exact .inr e
  banks := g.banks.trans h.banks
  state k := (g.state k).trans (h.state k)
  order k := (g.order k).trans (h.order k)
  s0 k := (g.s0 k).trans (h.s0 k)
  runtime k := (g.runtime k).trans (h.runtime k)
  marks k m x := g.marks k m (h.marks k m x)
  cause := by
    rcases g.cause with e | ⟨c, e, r, o, w⟩
    · rw [e]; exact h.cause
    · refine .inr ⟨c, e, ?_, ?_, w⟩
      · obtain ⟨k, r⟩ := r
        exact ⟨k, by rw [← h.state k, ← h.resident]; exact r⟩
      · rw [← h.resident]; exact o
  ports p := (h.ports p).trans (g.ports p)
  fit x := g.fit (h.fit x)
  stream x := g.stream (h.stream x)

theorem residentSlot {s t : State} (h : ChainFrame s t) : t.residentSlot = s.residentSlot := by
  simp [State.residentSlot, h.resident]

end ChainFrame

theorem MarkFrame.chain {s t : State} (h : MarkFrame s t) : ChainFrame s t where
  power := h.power
  pending := h.pending
  cst := h.cst
  inForce := h.inForce
  flu := h.flu
  queue := h.queue
  binding := h.binding
  phase := h.phase
  resident := h.resident
  holder := h.holder
  live := by rw [h.live]
  lock := by rw [h.lch]
  tare := .inl (by rw [h.lch])
  banks := by rw [h.active, h.inactive]
  state := h.state
  order := h.order
  s0 := h.s0
  runtime k := by rw [h.runtime]
  marks := h.marks
  cause := h.cause
  ports := h.ports
  fit := h.fit
  stream := h.stream

/-- An update of the fields that no frame watches. -/
theorem chain_of_same {s t : State} (power : t.power = s.power) (pending : t.pending = s.pending) (cst : t.cst = s.cst)
    (inForce : t.inForce = s.inForce) (flu : t.flu = s.flu) (ctx : t.ctx = { s.ctx with transit := t.ctx.transit })
    (live : t.live.isSome = s.live.isSome) (lock : t.lch.lock = s.lch.lock)
    (tare : t.lch.tareRun.map (·.kind) = s.lch.tareRun.map (·.kind) ∨ t.lch.tareRun = none)
    (banks : (t.msq.active.isSome || t.msq.inactive.isSome) = (s.msq.active.isSome || s.msq.inactive.isSome))
    (rst : t.rst = s.rst) (ptu : t.ptu = s.ptu) :
    ChainFrame s t := by
  have slot : ∀ k, t.slot k = s.slot k := fun k => State.slot_congr (by rw [ctx]) k
  exact
    { power := power, pending := pending, cst := cst, inForce := inForce, flu := flu
      queue := by rw [ctx], binding := by rw [ctx], phase := by rw [ctx], resident := by rw [ctx]
      holder := by rw [ctx], live := live, lock := lock, tare := tare, banks := banks
      state := fun k => by rw [slot], order := fun k => by rw [slot], s0 := fun k => by rw [slot]
      runtime := fun k => by rw [slot], marks := fun k m h => by rw [slot]; exact h
      cause := by rw [ctx]; exact .inl rfl
      ports := fun p => by simp [State.port, ptu, PortEvents]
      fit := fun h => by unfold QueuesFit; rw [ptu]; exact h
      stream := fun h => by unfold StreamFits; rw [rst]; exact h }

end Sys2Proof.Machine
end

