-- ==== Sys2Proof/Laws/Blocks.lean ====
section
/-! SUPPORT. What each operation of the load channel, the extension channel and the evaluation unit can do to the
contexts (chapters 4 to 6), as one `ChainFrame` each. -/

namespace Sys2Proof.Machine

/-- An update of the load channel that keeps the lock and the tare. -/
theorem chain_lch (s : State) (l : Lch) (lock : l.lock = s.lch.lock)
    (tare : l.tareRun.map (·.kind) = s.lch.tareRun.map (·.kind) ∨ l.tareRun = none) :
    ChainFrame s { s with lch := l } :=
  chain_of_same rfl rfl rfl rfl rfl rfl rfl lock tare rfl rfl rfl

/-- An update of the extension channel. -/
theorem chain_xch (s : State) (x : Xch) : ChainFrame s { s with xch := x } :=
  chain_of_same rfl rfl rfl rfl rfl rfl rfl rfl (.inl rfl) rfl rfl rfl

/-- An update of what the blocks hold live. -/
theorem chain_live (s : State) (l : Option Live) (h : l.isSome = s.live.isSome) : ChainFrame s { s with live := l } :=
  chain_of_same rfl rfl rfl rfl rfl rfl h rfl (.inl rfl) rfl rfl rfl

theorem chain_liveMap (s : State) (f : Live → Live) : ChainFrame s { s with live := s.live.map f } :=
  chain_live s _ (by simp)

/-- An update of the motion sequencer that keeps whether the banks are empty. -/
theorem chain_msq (s : State) (m : Msq)
    (banks : (m.active.isSome || m.inactive.isSome) = (s.msq.active.isSome || s.msq.inactive.isSome)) :
    ChainFrame s { s with msq := m } :=
  chain_of_same rfl rfl rfl rfl rfl rfl rfl rfl (.inl rfl) banks rfl rfl

/-- Reports kept back. -/
theorem chain_transit (s : State) (l : List Report) : ChainFrame s { s with ctx := { s.ctx with transit := l } } :=
  chain_of_same rfl rfl rfl rfl rfl rfl rfl rfl (.inl rfl) rfl rfl rfl

/-- A mark reported for a slot, at once or kept back (R32). -/
theorem post_mark_chain (b : Bool) (k : SlotId) (m : Mark) (v : Int) (n : BitVec 32) (s : State) :
    ChainFrame s (post b (.mark k m v n) s) := by
  unfold post
  split
  · exact chain_transit s _
  · exact (setMark_frame k m v n s).chain

/-! ### Load channel -/

theorem settleMark_chain (fl : Flight) (s : State) : ChainFrame s (settleMark fl s) := by
  unfold settleMark
  split
  · split
    · exact post_mark_chain _ _ _ _ _ _
    · exact .refl s
  · exact .refl s

theorem overloadCheck_chain (fl : Flight) (s : State) : ChainFrame s (overloadCheck fl s) := by
  unfold overloadCheck
  split
  · split
    · exact post_mark_chain _ _ _ _ _ _
    · exact .refl s
  · exact .refl s

theorem finishTare_chain (run : TareRun) (s : State) : ChainFrame s (finishTare run s) := by
  unfold finishTare
  dsimp only
  have f : ∀ t : Int, ChainFrame s { s with lch :=
      { s.lch with tare := t, tareRun := none, lastAfter := satForce (s.lch.lastBefore - t) } } :=
    fun t => chain_lch s _ rfl (.inr rfl)
  split
  · exact (f _).trans (raiseEvent_frame _ _ _).mark.chain
  · exact (((f (satForce (roundDiv run.sum 64))).trans (chain_liveMap _ _)).trans
      (raiseEvent_frame _ _ _).mark.chain).trans (offerEvent_frame _ _ _ _ _ _).chain
  · exact f _

theorem collectTare_chain (fl : Flight) (s : State) : ChainFrame s (collectTare fl s) := by
  unfold collectTare
  split
  · rename_i run h
    split
    · dsimp only
      split
      · exact finishTare_chain _ s
      · exact chain_lch s _ rfl (.inl (by rw [h]; rfl))
    · exact .refl s
  · exact .refl s

/-- The conversion of a set, apart from the HARDLOAD it may report. -/
theorem lchAfter_chain (fl : Flight) (c : Int) (s : State) : ChainFrame s { s with lch := lchAfter s.lch fl c } :=
  chain_lch s _ rfl (.inl rfl)

/-! ### Extension channel -/

theorem announceDetached_frame (st : ChannelState) (o : Option SlotId) (v : Int) (s : State) :
    MarkFrame s (announceDetached st o v s) := by
  unfold announceDetached
  dsimp only
  split
  · exact (raiseEvent_frame _ _ _).mark.trans (offerEvent_frame _ _ _ _ _ _)
  · exact (raiseEvent_frame _ _ _).mark

theorem removalTimedOut_chain (fl : Flight) (s : State) : ChainFrame s (removalTimedOut fl s) := by
  unfold removalTimedOut
  split
  · exact post_mark_chain _ _ _ _ _ _
  · exact .refl s

theorem releasingStep_chain (fl : Flight) (s : State) : ChainFrame s (releasingStep fl s) := by
  unfold releasingStep
  dsimp only
  split
  · split
    · split
      · exact (chain_xch s _).trans (removalTimedOut_chain _ _)
      · exact chain_xch s _
    · exact .refl s
  · exact (chain_xch s _).trans (announceDetached_frame _ _ _ _).chain

theorem channelStep_chain (fl : Flight) (s : State) : ChainFrame s (channelStep fl s).1 := by
  unfold channelStep
  split
  · split
    · exact chain_xch s _
    · exact .refl s
  · split
    · exact chain_xch s _
    · exact (chain_xch s _).trans (announceDetached_frame _ _ _ _).chain
  · split
    · exact .refl s
    · exact (chain_xch s _).trans (announceDetached_frame _ _ _ _).chain
  · exact releasingStep_chain fl s

theorem lanesStep_chain (fl : Flight) (b : Bool) (s : State) : ChainFrame s (lanesStep fl b s).1 := by
  unfold lanesStep
  dsimp only
  split
  · split
    · exact chain_xch s _
    · exact chain_xch s _
  · exact chain_xch s _

theorem handover_chain (k : SlotId) (c : HandoverCause) (v ex : Int) (s : State) :
    ChainFrame s (handover k c v ex s) := by
  unfold handover
  dsimp only
  exact (chain_liveMap _ _).trans ((raiseEvent_frame _ _ _).mark.chain.trans (offerEvent_frame _ _ _ _ _ _).chain)

theorem setSlipped_chain (s : State) : ChainFrame s (setSlipped s) := chain_xch s _

theorem slipStep_chain (fl : Flight) (f : LaneFacts) (ex : Int) (s : State) : ChainFrame s (slipStep fl f ex s) := by
  have g : ChainFrame s (if f.bad then setSlipped s else s) := by
    split
    · exact setSlipped_chain s
    · exact .refl s
  unfold slipStep
  split
  · dsimp only
    split
    · split
      · exact .refl s
      · exact ((setSlipped_chain s).trans (handover_chain _ _ _ _ _)).trans (post_mark_chain _ _ _ _ _ _)
    · exact g.trans (handover_chain _ _ _ _ _)
    · exact g
  · exact g

theorem beginRemoval_chain (k : SlotId) (e ex : Int) (s : State) : ChainFrame s (beginRemoval k e ex s) := by
  unfold beginRemoval
  exact (handover_chain _ _ _ _ _).trans (chain_xch _ _)

theorem parkedWatch_chain (s : State) : ChainFrame s (parkedWatch s) := by
  unfold parkedWatch
  split
  · rename_i k _
    split
    · rename_i rt hp hr
      split
      · refine
          { (ChainFrame.refl s) with
            state := fun j => ?_, order := fun j => ?_, s0 := fun j => ?_, runtime := fun j => ?_, marks := fun j => ?_ }
        all_goals
          by_cases hj : j = k
          · subst hj; simp [hr]
          · simp [State.slot_setSlot_other s _ hj]
      · exact .refl s
    · exact .refl s
  · exact .refl s

theorem seatPosRef_chain (p : Int) (s : State) : ChainFrame s (seatPosRef p s) := chain_liveMap s _

theorem residentStrain_chain (fl : Flight) (f : LaneFacts) (k : SlotId) (s : State) :
    ChainFrame s (residentStrain fl f k s).1 := by
  have g : ∀ ex, ChainFrame s (slipStep fl f ex (seatPosRef fl.set.xh s)) :=
    fun ex => (seatPosRef_chain _ _).trans (slipStep_chain _ _ _ _)
  unfold residentStrain
  dsimp only
  split
  · exact g _
  · split
    · exact (g _).trans (beginRemoval_chain _ _ _ _)
    · exact g _

/-- A set at the extension channel (R113). -/
theorem xchStep_chain (fl : Flight) (s : State) : ChainFrame s (xchStep fl s).1 := by
  have g := (channelStep_chain fl s).trans (lanesStep_chain fl (channelStep fl s).2 _)
  unfold xchStep
  dsimp only
  split
  · exact g.trans ((residentStrain_chain _ _ _ _).trans (parkedWatch_chain _))
  · exact g.trans ((slipStep_chain _ _ _ _).trans (parkedWatch_chain _))

/-! ### Evaluation unit -/

theorem announceYield_frame (k : SlotId) (n : Nat) (ev : Eval) (s : State) :
    MarkFrame s (announceYield k n ev s) := by
  unfold announceYield
  split
  · exact (raiseEvent_frame _ _ _).mark.trans (offer_frame _ _ _ _)
  · exact .refl s

/-- A fracture at the context store (R151). -/
theorem takeFracture_frame (k : SlotId) (n : Nat) (c : Criterion) (f fm : Int) (s : State) :
    MarkFrame s (takeReport s (.fracture k n c f fm)) := by
  unfold takeReport
  dsimp only
  have g := setMark_frame k .fracture f (BitVec.ofNat 32 n) s
  split
  · rename_i h
    exact (g.trans (raiseCause_frame _ _ _ _ _ k (.inr h) (.inl ⟨by decide, rfl, rfl⟩))).trans (raiseEvent_frame _ _ _).mark
  · exact g.trans (raiseEvent_frame _ _ _).mark

theorem post_fracture_chain (b : Bool) (k : SlotId) (n : Nat) (c : Criterion) (f fm : Int) (s : State) :
    ChainFrame s (post b (.fracture k n c f fm) s) := by
  unfold post
  split
  · exact chain_transit s _
  · exact (takeFracture_frame _ _ _ _ _ _).chain

theorem evaluate_chain (fl : Flight) (x : XOut) (k : SlotId) (l : Live) (st : Int) (s : State)
    (h : s.live = some l) : ChainFrame s (evaluate fl x k l st s) := by
  unfold evaluate
  dsimp only
  have g : ∀ e, ChainFrame s { s with live := some { l with rt := { l.rt with eval := e } } } :=
    fun e => chain_live s _ (by rw [h]; rfl)
  have y : ∀ (e : Eval) (b : Bool) (n : Nat), ChainFrame s
      (if b then announceYield k n e { s with live := some { l with rt := { l.rt with eval := e } } }
       else { s with live := some { l with rt := { l.rt with eval := e } } }) := by
    intro e b n
    split
    · exact (g e).trans (announceYield_frame _ _ _ _).chain
    · exact g e
  split
  · exact (y _ _ _).trans (post_fracture_chain _ _ _ _ _ _ _)
  · exact y _ _ _

/-- A set at the evaluation unit (R129 to R131). -/
theorem evuStep_chain (fl : Flight) (x : XOut) (s : State) : ChainFrame s (evuStep fl x s).1 := by
  unfold evuStep
  split
  · rename_i h
    dsimp only
    split
    · exact evaluate_chain _ _ _ _ _ _ h
    · exact .refl s
  · exact .refl s

/-- The examination at the first resumed sample (R29). -/
theorem examineResumed_chain (s : State) : ChainFrame s (examineResumed s) := by
  unfold examineResumed
  split
  · rename_i k l hk hl
    split
    · split
      · refine (raiseCause_frame _ _ _ _ _ k (.inr ?_) (.inl ⟨by decide, rfl, rfl⟩)).chain
        unfold State.residentSlot at hk
        split at hk
        · rename_i h; rw [h]; cases hk; rfl
        · cases hk
      · exact .refl s
    · exact .refl s
  · exact .refl s

end Sys2Proof.Machine
end

