-- ==== Sys2Proof/Laws/Sequencer.lean ====
section
/-! SUPPORT. What each operation of the motion sequencer can do to the contexts (chapters 2 and 3), as one `ChainFrame`
each. -/

namespace Sys2Proof.Machine

theorem markTravel_frame (b : Bool) (x : Measured) (s : State) : MarkFrame s (markTravel b x s) := by
  unfold markTravel
  split
  · exact setMark_frame _ _ _ _ _
  · exact .refl s

theorem putSetpoint_chain (m : Mode) (q : Int) (x : Measured) (s : State) : ChainFrame s (putSetpoint m q x s) := by
  unfold putSetpoint
  dsimp only
  refine ChainFrame.trans ?_ (markTravel_frame _ _ _).chain
  exact chain_msq s _ rfl

/-- Setting a setpoint leaves the banks, and the target and speed of a MOVE, alone. -/
theorem putSetpoint_banks (m : Mode) (q : Int) (x : Measured) (s : State) :
    (putSetpoint m q x s).msq.active = s.msq.active ∧ (putSetpoint m q x s).msq.inactive = s.msq.inactive := by
  unfold putSetpoint
  dsimp only
  exact ⟨(markTravel_frame _ _ _).active, (markTravel_frame _ _ _).inactive⟩

theorem seatSetpoint_chain (b : Bank) (x : Measured) (s : State) (h : s.msq.active.isSome = true) :
    ChainFrame s (seatSetpoint b x s) := by
  have g : ChainFrame s { s with msq := { s.msq with remainder := 0, seat := false } } := chain_msq s _ rfl
  unfold seatSetpoint
  dsimp only
  have p := putSetpoint_banks b.mode (measuredQ b.mode x) x { s with msq := { s.msq with remainder := 0, seat := false } }
  split
  · refine (g.trans (putSetpoint_chain _ _ _ _)).trans (chain_msq _ _ ?_)
    rw [p.1]
    simp [h]
  · exact g.trans (putSetpoint_chain _ _ _ _)

theorem countSample_chain (s : State) : ChainFrame s (countSample s) := chain_liveMap s _

theorem transitionFlip_chain (x : Measured) (s : State) : ChainFrame s (transitionFlip x s) := by
  unfold transitionFlip
  split
  · rename_i b h
    dsimp only
    have g : ChainFrame s { s with
        msq := { s.msq with active := some b, inactive := none }
        live := s.live.map fun l => { l with rt := { l.rt with elapsed := 0 } } } :=
      chain_of_same rfl rfl rfl rfl rfl rfl (by simp) rfl (.inl rfl) (by simp [h]) rfl rfl
    split
    · exact g
    · exact g.trans (seatSetpoint_chain _ _ _ rfl)
  · exact .refl s

theorem firstSeat_chain (fl : Flight) (x : Measured) (s : State) : ChainFrame s (firstSeat fl x s) := by
  unfold firstSeat
  split
  · rename_i b h
    split
    · exact seatSetpoint_chain _ _ _ (by simp [h])
    · exact .refl s
  · exact .refl s

theorem supersedeStage_frame (s : State) : EventFrame s (supersedeStage s) := by
  unfold supersedeStage
  split
  · exact raiseEvent_frame _ _ _
  · exact .refl s

theorem segmentEnd_chain (k : SlotId) (b : Bank) (s : State) (hb : s.msq.active.isSome = true)
    (hk : s.residentSlot = some k) : ChainFrame s (segmentEnd k b s) := by
  unfold segmentEnd
  dsimp only
  split
  · have f := (supersedeStage_frame s).mark
    have g : ChainFrame (supersedeStage s) { supersedeStage s with
        msq := { (supersedeStage s).msq with
          inactive := (bankOf (s.slot k).order (b.seg + 1)).map .transition }
        live := (supersedeStage s).live.map fun l => { l with rt := { l.rt with segIndex := b.seg + 1 } } } :=
      chain_of_same rfl rfl rfl rfl rfl rfl (by simp) rfl (.inl rfl) (by simp [f.active, hb]) rfl rfl
    split
    · exact (f.chain.trans g).trans (setMark_frame _ _ _ _ _).chain
    · exact f.chain.trans g
  · refine (raiseCause_frame _ _ _ _ _ k (.inr ?_) (.inl ⟨by decide, rfl, rfl⟩)).chain
    unfold State.residentSlot at hk
    split at hk
    · rename_i h; rw [h]; cases hk; rfl
    · cases hk

theorem holdPoint_chain (k : SlotId) (x : Measured) (s : State) : ChainFrame s (holdPoint k x s) := by
  unfold holdPoint
  dsimp only
  split
  · rename_i l h
    split
    · refine (chain_live s _ ?_).trans (setMark_frame _ _ _ _ _).chain
      rw [h]; rfl
    · exact .refl s
  · exact .refl s

theorem yieldBackup_frame (k : SlotId) (x : Measured) (s : State) : MarkFrame s (yieldBackup k x s) := by
  unfold yieldBackup
  exact (raiseEvent_frame _ _ _).mark.trans (offerEvent_frame _ _ _ _ _ _)

theorem endTest_chain (k : SlotId) (x : Measured) (s : State) (hk : s.residentSlot = some k) :
    ChainFrame s (endTest k x s) := by
  unfold endTest
  split
  · rename_i hb
    split
    · split
      · exact .refl s
      · exact segmentEnd_chain _ _ _ (by simp [hb]) hk
      · have f := yieldBackup_frame k x s
        refine f.chain.trans (segmentEnd_chain _ _ _ ?_ ?_)
        · simp [f.active, hb]
        · rw [f.residentSlot]; exact hk
    · exact .refl s
  · exact .refl s

theorem countElapsed_chain (s : State) : ChainFrame s (countElapsed s) := chain_liveMap s _

/-- Step 2 of R38. -/
theorem segmentTests_chain (fl : Flight) (x : Measured) (s : State) : ChainFrame s (segmentTests fl x s) := by
  unfold segmentTests
  split
  · rename_i k hk
    split
    · exact .refl s
    · have f := (countElapsed_chain s).trans (holdPoint_chain k x _)
      exact f.trans (endTest_chain k x _ (by rw [f.residentSlot]; exact hk))
  · exact .refl s

theorem amendmentFlip_chain (s : State) : ChainFrame s (amendmentFlip s) := by
  unfold amendmentFlip
  split
  · rename_i h
    exact chain_msq s _ (by simp [h])
  · exact .refl s

theorem advanceSetpoint_chain (b : Bank) (q : Int) (x : Measured) (s : State) (h : s.msq.active.isSome = true) :
    ChainFrame s (advanceSetpoint b q x s) := by
  have g : ∀ n, ChainFrame s { s with msq := { s.msq with remainder := n } } := fun n => chain_msq s _ rfl
  unfold advanceSetpoint
  dsimp only
  split
  · split
    · refine (g (advance b.rate q s.msq.remainder).2).trans ?_
      refine ChainFrame.trans (chain_msq _ _ ?_) (putSetpoint_chain _ _ _ _)
      simp [h]
    · exact (g _).trans (putSetpoint_chain _ _ _ _)
  · exact (g _).trans (putSetpoint_chain _ _ _ _)

theorem writeDemand_chain (v : Int) (s : State) : ChainFrame s (writeDemand v s) := chain_msq s _ rfl

theorem trackMark_frame (b : Bool) (s : State) : MarkFrame s (trackMark b s) := by
  unfold trackMark
  split
  · split
    · exact setMark_frame _ _ _ _ _
    · exact .refl s
  · exact .refl s

theorem demandSteps_chain (b : Bank) (x : Measured) (s : State) : ChainFrame s (demandSteps b x s) := by
  unfold demandSteps
  dsimp only
  refine ChainFrame.trans (ChainFrame.trans (ChainFrame.trans ?_ (trackMark_frame _ _).chain)
    (markTravel_frame _ _ _).chain) (writeDemand_chain _ _)
  exact chain_msq s _ rfl

theorem quiesceDemand_chain (b : Bank) (x : Measured) (s : State) : ChainFrame s (quiesceDemand b x s) := by
  unfold quiesceDemand
  dsimp only
  refine ChainFrame.trans (ChainFrame.trans ?_ (markTravel_frame _ _ _).chain) (writeDemand_chain _ _)
  exact chain_msq s _ rfl

theorem zeroDemand_chain (s : State) : ChainFrame s (zeroDemand s) := chain_msq s _ rfl

/-- The demand of a sample (3.2). -/
theorem demandOf_chain (fl : Flight) (x : Measured) (s : State) : ChainFrame s (demandOf fl x s) := by
  unfold demandOf
  split
  · rename_i b h
    split
    · exact zeroDemand_chain s
    · split
      · exact quiesceDemand_chain _ _ _
      · exact (advanceSetpoint_chain _ _ _ _ (by simp [h])).trans (demandSteps_chain _ _ _)
  · exact zeroDemand_chain s

theorem trackPosition_chain (p : Int) (s : State) : ChainFrame s { s with msq := trackPosition p s.msq } := by
  refine chain_msq s _ ?_
  simp [trackPosition]

theorem stillStep_chain (v : Int) (s : State) : ChainFrame s { s with msq := stillStep v s.msq } :=
  chain_msq s _ rfl

theorem trackCompliance_chain (x : Measured) (s : State) : ChainFrame s (trackCompliance x s) := by
  unfold trackCompliance
  split
  · rename_i k l hk hl
    dsimp only
    split
    · have g : ∀ (r : List Triple) (a b : Int), ChainFrame s { s with
          msq := { s.msq with ring := r }
          live := some { l with rt := { l.rt with kS := a, kE := b } } } :=
        fun r a b => chain_of_same rfl rfl rfl rfl rfl rfl (by simp [hl]) rfl (.inl rfl) rfl rfl rfl
      split
      · exact (g _ _ _).trans (setMark_frame _ _ _ _ _).chain
      · exact g _ _ _
    · exact chain_msq s _ rfl
  · exact .refl s

theorem offerLast_chain (b : Bool) (k : SlotId) (s : State) : ChainFrame s (offerLast b k s) := by
  unfold offerLast
  split
  · rename_i l h
    split
    · exact (chain_live s _ (by simp [h])).trans (offer_frame _ _ _ _).chain
    · exact .refl s
  · exact .refl s

/-- The SAMPLE candidate of a sample (R182, R183). -/
theorem sampleCandidate_chain (fl : Flight) (e : Option (Int × Int)) (x : Measured) (s : State) :
    ChainFrame s (sampleCandidate fl e x s) := by
  unfold sampleCandidate
  split
  · rename_i k l hk hl
    dsimp only
    split
    · exact (chain_live s _ (by simp [hl])).trans (offerLast_chain _ _ _)
    · exact chain_live s _ (by simp [hl])
  · exact .refl s

end Sys2Proof.Machine
end

