-- ==== Sys2Proof/Laws/Contexts.lean ====
section
/-! SUPPORT. What the context store's operations do to the agreement of the contexts (chapter 1): one `Keeps` for each
operation, beside frames that say what a completion, a fault, a start and a resume leave. -/

namespace Sys2Proof.Machine

/-- An operation leaves the queue of commands, and keeps what every state of the part keeps to. -/
structure Keeps (s t : State) : Prop where
  pending : t.pending = s.pending
  power : t.power = s.power
  stream : StreamFits s → StreamFits t
  fit : QueuesFit s → QueuesFit t
  outputs : OutputsFollow s → OutputsFollow t
  suit : ContextsSuit s → ContextsSuit t

theorem Keeps.refl (s : State) : Keeps s s := ⟨rfl, rfl, id, id, id, id⟩

theorem Keeps.trans {s t u : State} (h : Keeps s t) (g : Keeps t u) : Keeps s u :=
  ⟨g.pending.trans h.pending, g.power.trans h.power, g.stream ∘ h.stream, g.fit ∘ h.fit, g.outputs ∘ h.outputs,
   g.suit ∘ h.suit⟩

/-- The part of it that every operation keeps, whatever the contexts. -/
structure Bounds (s t : State) : Prop where
  pending : t.pending = s.pending
  power : t.power = s.power
  stream : StreamFits s → StreamFits t
  fit : QueuesFit s → QueuesFit t
  outputs : OutputsFollow s → OutputsFollow t

theorem Bounds.refl (s : State) : Bounds s s := ⟨rfl, rfl, id, id, id⟩

theorem Bounds.trans {s t u : State} (h : Bounds s t) (g : Bounds t u) : Bounds s u :=
  ⟨g.pending.trans h.pending, g.power.trans h.power, g.stream ∘ h.stream, g.fit ∘ h.fit, g.outputs ∘ h.outputs⟩

theorem Keeps.of_bounds {s t : State} (h : Bounds s t) (suit : ContextsSuit s → ContextsSuit t) : Keeps s t :=
  ⟨h.pending, h.power, h.stream, h.fit, h.outputs, suit⟩

theorem Keeps.bounds {s t : State} (h : Keeps s t) : Bounds s t :=
  ⟨h.pending, h.power, h.stream, h.fit, h.outputs⟩

theorem ChainFrame.bounds {s t : State} (h : ChainFrame s t) : Bounds s t :=
  ⟨h.pending, h.power, h.stream, h.fit, fun g => by unfold OutputsFollow at *; rw [h.flu, h.phase]; exact g⟩

/-- An update of fields that no bound watches. -/
theorem bounds_of_same {s t : State} (pending : t.pending = s.pending) (power : t.power = s.power)
    (rst : t.rst = s.rst) (ptu : t.ptu = s.ptu) (flu : t.flu = s.flu) (phase : t.ctx.phase = s.ctx.phase) :
    Bounds s t :=
  ⟨pending, power, fun h => by unfold StreamFits; rw [rst]; exact h, fun h => by unfold QueuesFit; rw [ptu]; exact h,
   fun h => by unfold OutputsFollow; rw [flu, phase]; exact h⟩

/-- A running tare that went on or ended still suits the phase. -/
theorem tareFits_of {ph : Phase} {a b : Option TareRun} (h : b.map (·.kind) = a.map (·.kind) ∨ b = none)
    (ha : tareFits ph a = true) : tareFits ph b = true := by
  rcases h with h | h
  · cases a with
    | none => cases b <;> simp_all [tareFits]
    | some x =>
      cases b with
      | none => rfl
      | some y =>
        obtain ⟨kx, _, _⟩ := x
        obtain ⟨ky, _, _⟩ := y
        simp only [Option.map_some, Option.some.injEq] at h
        subst h
        cases ky <;> simpa [tareFits] using ha
  · rw [h]; rfl

/-- The resident test is the one the context store names. -/
theorem residentSlot_eq_some {s : State} {k : SlotId} : s.residentSlot = some k ↔ s.ctx.resident = some (.test k) := by
  unfold State.residentSlot
  split
  · rename_i h; rw [h]; simp
  · rename_i h
    constructor
    · intro x; cases x
    · intro x; exact absurd x (h k)

/-- What stays while a set is handled keeps the contexts in agreement: the changeover that a mark raises is one of the
causes table. -/
theorem ChainFrame.suit {s t : State} (h : ChainFrame s t) (g : ContextsSuit s) : ContextsSuit t where
  faults := by
    have := g.faults
    unfold FaultsWhileSafe at *
    rw [h.flu, h.phase]; exact this
  queue := by
    refine ⟨by rw [h.queue]; exact g.queue.1, fun k => ?_⟩
    rw [h.queue, h.state]; exact g.queue.2 k
  binding := by
    refine ⟨fun k hk => ?_, fun k hk => ?_⟩
    · rw [h.state] at hk; rw [h.binding]; exact g.binding.1 k hk
    · rw [h.binding] at hk; rw [h.state]; exact g.binding.2 k hk
  resident := by
    refine ⟨by rw [h.phase, h.resident]; exact g.resident.1, fun k => ?_, by rw [h.live, h.phase]; exact g.resident.2.2⟩
    rw [h.state, h.resident]; exact g.resident.2.1 k
  changeover := by
    intro c hc
    rcases h.cause with e | ⟨d, e, r, o, w⟩
    · rw [e] at hc
      have := g.changeover c hc
      refine ⟨by rw [h.resident]; exact this.1, this.2.1, this.2.2.1, fun k hk => ?_, this.2.2.2.2⟩
      rw [h.state]; exact this.2.2.2.1 k hk
    · rw [e] at hc
      cases hc
      obtain ⟨k, hk⟩ := r
      have hres : s.ctx.resident = some (.test k) := by
        rcases hk with hk | hk
        · exact (g.resident.2.1 k).1 hk
        · exact hk
      have hout : c.outgoing = .test k := by rw [hres] at o; exact (Option.some.inj o).symm
      refine ⟨by rw [h.resident]; exact o, ?_, ?_, ?_, ?_, ?_⟩
      · rw [hout]; simp
      · rcases w with w | w
        · rw [w.2.1]; simp
        · rw [w.2]; simp
      · intro j hj
        rcases w with w | w
        · rw [w.2.1] at hj; cases hj
        · rw [w.2] at hj; cases hj
      · intro hne
        rcases w with w | w
        · exact ⟨by rw [hout]; simp, w.2⟩
        · exact absurd w.1 hne
      · intro _ he
        rcases w with w | w
        · exact absurd he w.1
        · exact w.2
  slots := by
    intro k
    have := g.slots k
    refine ⟨fun hk => ?_, fun hk => ?_⟩
    · rw [h.runtime]; rw [h.state] at hk; exact this.1 hk
    · rw [h.s0]; rw [h.state] at hk; exact this.2 hk
  blocks := by
    have := g.blocks
    refine ⟨by rw [h.holder, h.phase]; exact this.1, by rw [h.lock, h.phase]; exact this.2.1,
      by rw [h.banks, h.phase]; exact this.2.2.1, ?_, by rw [h.cst, h.phase]; exact this.2.2.2.2⟩
    rw [h.phase]
    exact tareFits_of h.tare this.2.2.2.1

theorem ChainFrame.keeps {s t : State} (h : ChainFrame s t) : Keeps s t := .of_bounds h.bounds h.suit

theorem EventFrame.keeps {s t : State} (h : EventFrame s t) : Keeps s t := h.mark.chain.keeps
theorem RecordFrame.keeps {s t : State} (h : RecordFrame s t) : Keeps s t := h.mark.chain.keeps
theorem MarkFrame.keeps {s t : State} (h : MarkFrame s t) : Keeps s t := h.chain.keeps

end Sys2Proof.Machine
end

