-- ==== Sys2Proof/Laws/View.lean ====
section
/-! SUPPORT. What the agreement of the contexts looks at, as one small record: an operation that is described by its
view needs no other argument to keep the agreement. -/

namespace Sys2Proof.Machine

/-- What the agreement looks at in a slot. -/
structure SlotView where
  state : SlotState
  runtime : Bool
  s0 : Bool

/-- What the agreement looks at. -/
structure View where
  slots : SlotId → SlotView
  queue : List SlotId
  binding : Option SlotId
  phase : Phase
  resident : Option Context
  changeover : Option Changeover
  holder : Bool
  live : Bool
  lock : Bool
  banks : Bool
  tare : Option TareKind
  window : Bool
  calLock : Bool
  faults : List FaultKind

def Slot.view (x : Slot) : SlotView := { state := x.state, runtime := x.runtime.isSome, s0 := x.s0.isSome }

def State.view (s : State) : View :=
  { slots := fun k => (s.slot k).view
    queue := s.ctx.queue
    binding := s.ctx.binding
    phase := s.ctx.phase
    resident := s.ctx.resident
    changeover := s.ctx.changeover
    holder := s.ctx.holder.isSome
    live := s.live.isSome
    lock := s.lch.lock
    banks := s.msq.active.isSome || s.msq.inactive.isSome
    tare := s.lch.tareRun.map (·.kind)
    window := s.cst.window != .closed
    calLock := s.cst.lock
    faults := s.flu.faults.map (·.kind) }

/-- A tare kind suits a phase. -/
def kindFits (ph : Phase) : Option TareKind → Bool
  | none => true
  | some .start => ph == .test
  | some (.port _) => ph == .idle || ph == .service

/-- The agreement, on the view. -/
structure View.Suits (v : View) : Prop where
  faults : v.faults ≠ [] ↔ v.phase = .safe
  kinds : v.faults.Nodup
  nodup : v.queue.Nodup
  queue : ∀ k, k ∈ v.queue ↔ (v.slots k).state = .loaded
  grips : ∀ k, inGrips (v.slots k).state = true → v.binding = some k
  bound : ∀ k, v.binding = some k → bindable (v.slots k).state = true
  phase : residentFits v.phase v.resident = true
  resident : ∀ k, (v.slots k).state = .resident ↔ v.resident = some (.test k)
  live : v.live = (v.phase == .test)
  outgoing : ∀ c, v.changeover = some c → v.resident = some c.outgoing ∧ c.outgoing ≠ .safe ∧ c.incoming ≠ some .safe ∧
    (∀ k, c.incoming = some (.test k) → c.outgoing = .service ∧ (v.slots k).state = .parked) ∧
    (c.cause ≠ .operator → c.outgoing ≠ .service ∧ c.incoming = none ∧ c.endCause.isSome = true) ∧
    (c.outgoing ≠ .service → c.cause = .operator → c.incoming = some .service)
  parked : ∀ k, (v.slots k).state = .parked → (v.slots k).runtime = true
  section_ : ∀ k, inGrips (v.slots k).state = true → (v.slots k).s0 = true
  holder : v.holder = true → v.phase = .service
  lock : v.lock = (v.phase == .test)
  banks : v.banks = true → v.phase = .test ∨ v.phase = .service
  tare : kindFits v.phase v.tare = true
  window : v.window = true → v.calLock = false ∧ (v.phase = .idle ∨ v.phase = .safe)

theorem kindFits_eq (ph : Phase) (t : Option TareRun) : kindFits ph (t.map (·.kind)) = tareFits ph t := by
  cases t with
  | none => rfl
  | some x => obtain ⟨k, _, _⟩ := x; cases k <;> rfl

theorem suit_iff_view {s : State} : ContextsSuit s ↔ s.view.Suits := by
  constructor
  · intro h
    exact
      { faults := by have := h.faults.1; simpa [State.view] using this
        kinds := h.faults.2
        nodup := h.queue.1
        queue := h.queue.2
        grips := h.binding.1
        bound := fun k hk => h.binding.2 k hk
        phase := h.resident.1
        resident := h.resident.2.1
        live := h.resident.2.2
        outgoing := fun c hc => h.changeover c hc
        parked := fun k => (h.slots k).1
        section_ := fun k => (h.slots k).2
        holder := by have := h.blocks.1; simpa [State.view, Option.isSome_iff_ne_none] using this
        lock := h.blocks.2.1
        banks := h.blocks.2.2.1
        tare := by have := h.blocks.2.2.2.1; simpa [State.view, kindFits_eq] using this
        window := by have := h.blocks.2.2.2.2; simpa [State.view] using this }
  · intro h
    exact
      { faults := ⟨by simpa [State.view] using h.faults, h.kinds⟩
        queue := ⟨h.nodup, h.queue⟩
        binding := ⟨h.grips, fun k hk => h.bound k hk⟩
        resident := ⟨h.phase, h.resident, h.live⟩
        changeover := fun c hc => h.outgoing c hc
        slots := fun k => ⟨h.parked k, h.section_ k⟩
        blocks := ⟨by simpa [State.view, Option.isSome_iff_ne_none] using h.holder, h.lock, h.banks,
          by simpa [State.view, kindFits_eq] using h.tare, by simpa [State.view] using h.window⟩ }

/-- The handling of a set shows in the view at most as a new changeover and the end of a tare. -/
theorem ChainFrame.view {s t : State} (h : ChainFrame s t) :
    ∃ c r, t.view = { s.view with changeover := c, tare := r } ∧ (r = s.view.tare ∨ r = none) := by
  refine ⟨t.ctx.changeover, t.lch.tareRun.map (·.kind), ?_, ?_⟩
  · unfold State.view
    simp only [View.mk.injEq, true_and]
    refine ⟨?_, h.queue, h.binding, h.phase, h.resident, by rw [h.holder], h.live, h.lock, h.banks,
      by rw [h.cst], by rw [h.cst], by rw [h.flu]⟩
    funext k
    simp [Slot.view, h.state, h.runtime, h.s0]
  · rcases h.tare with e | e
    · exact .inl e
    · exact .inr (by rw [e]; rfl)

/-- The view of a slot in a part with one slot replaced. -/
theorem State.view_setSlot (s : State) (k : SlotId) (x : Slot) :
    (s.setSlot k x).view = { s.view with slots := Function.update s.view.slots k x.view } := by
  unfold State.view
  simp only [State.setSlot_queue, State.setSlot_binding, State.setSlot_phase, State.setSlot_resident,
    State.setSlot_changeover, State.setSlot_holder, State.setSlot_live, State.setSlot_lch, State.setSlot_msq,
    State.setSlot_cst, State.setSlot_flu, View.mk.injEq, and_true]
  funext j
  by_cases h : j = k
  · subst h; simp
  · simp [Function.update_of_ne h, State.slot_setSlot_other s _ h]

/-- Queuing events shows nowhere in the view. -/
@[simp] theorem view_raiseEvent (n : Option Port) (e : Event) (s : State) : (raiseEvent n e s).view = s.view := by
  unfold State.view
  simp

theorem EventFrame.view {s t : State} (h : EventFrame s t) : t.view = s.view := by
  rw [h.rest]; rfl

theorem RecordFrame.view {s t : State} (h : RecordFrame s t) : t.view = s.view := by
  rw [h.rest]; rfl

theorem MarkFrame.view {s t : State} (h : MarkFrame s t) :
    ∃ c, t.view = { s.view with changeover := c } := by
  obtain ⟨c, r, e, _⟩ := h.chain.view
  have : t.view.tare = s.view.tare := by simp [State.view, h.lch]
  refine ⟨c, ?_⟩
  rw [e] at this
  simp only at this
  rw [e, this]

/-- An operation within the bounds whose view keeps to what every view keeps to. -/
theorem keeps_of_view {s t : State} (h : Bounds s t) (suits : s.view.Suits → t.view.Suits) : Keeps s t :=
  .of_bounds h fun g => suit_iff_view.2 (suits (suit_iff_view.1 g))

end Sys2Proof.Machine
end

