-- ==== Sys2Proof/Laws/Completion.lean ====
section
/-! SUPPORT. What leaving, entering, completing and faulting do (R22, R23, R29, R167): the bounds and the view of
each. -/

namespace Sys2Proof.Machine

/-! ### Tares and the phase -/

/-- The tare that was running is gone. -/
theorem dropTare_chain (s : State) : ChainFrame s { s with lch := { s.lch with tareRun := none } } :=
  chain_lch s _ rfl (.inr rfl)

theorem abandonStartTare_chain (b : Bool) (k : SlotId) (s : State) : ChainFrame s (abandonStartTare b k s) := by
  unfold abandonStartTare
  split
  · dsimp only
    refine ChainFrame.trans ?_ (offer_frame _ _ _ _).chain
    refine ChainFrame.trans ?_ (raiseEvent_frame _ _ _).mark.chain
    exact dropTare_chain s
  · exact .refl s

theorem abandonPortTare_chain (s : State) : ChainFrame s (abandonPortTare s) := by
  unfold abandonPortTare
  split
  · refine ChainFrame.trans ?_ (raiseEvent_frame _ _ _).mark.chain
    exact dropTare_chain s
  · exact .refl s

/-- After a start tare is abandoned none runs (R91). -/
theorem abandonStartTare_tare (b : Bool) (k : SlotId) (s : State) :
    (abandonStartTare b k s).view.tare ≠ some .start := by
  unfold abandonStartTare
  split
  · dsimp only
    have h := (offer_frame b (Offer.one false (eventRecord .tare (lastIndex s k 1) k 2
      (raiseEvent none (.tareAbandoned (some k)) { s with lch := { s.lch with tareRun := none } }).lch.tare)
      (lastIndex s k 1)) k (raiseEvent none (.tareAbandoned (some k)) { s with lch := { s.lch with tareRun := none } })).lch
    show Option.map _ _ ≠ _
    rw [h]
    simp
  · rename_i h
    show Option.map _ _ ≠ _
    rcases ht : s.lch.tareRun with _ | ⟨kd, a, n⟩
    · simp
    · cases kd with
      | start => exact absurd ht (h a n)
      | port p => simp

theorem abandonPortTare_tare (s : State) : ∀ p, (abandonPortTare s).view.tare ≠ some (.port p) := by
  intro q
  unfold abandonPortTare
  split
  · simp [State.view]
  · rename_i h
    show Option.map _ _ ≠ _
    rcases ht : s.lch.tareRun with _ | ⟨kd, a, n⟩
    · simp
    · cases kd with
      | start => simp
      | port p => exact absurd ht (h p a n)

/-- A port tare that is abandoned changes nothing else in the view (R90). -/
theorem abandonPortTare_view (s : State) : ∃ r, (abandonPortTare s).view = { s.view with tare := r } ∧
    (r = s.view.tare ∨ r = none) ∧ ∀ p, r ≠ some (.port p) := by
  have h := abandonPortTare_tare s
  unfold abandonPortTare at *
  split
  · exact ⟨none, view_raiseEvent _ _ _, .inr rfl, by simp⟩
  · refine ⟨s.view.tare, rfl, .inl rfl, ?_⟩
    split at h
    · rename_i hn _ _ _ _ ht; exact absurd ht (hn _ _ _)
    · exact h

/-- Whether a phase abandons a port tare (R90). -/
def dropsPortTare : Phase → Bool
  | .test | .safe => true
  | .idle | .service => false

/-- Setting the phase sets DRV_EN with it, and ends at most a port tare (R90, R173). -/
theorem setPhase_view (p : Phase) (s : State) :
    ∃ r, (setPhase p s).view = { s.view with phase := p, tare := r } ∧
      (r = s.view.tare ∨ r = none) ∧ (dropsPortTare p = true → ∀ q, r ≠ some (.port q)) ∧
      (dropsPortTare p = false → r = s.view.tare) := by
  unfold setPhase
  dsimp only
  split
  · rename_i hp
    obtain ⟨r, e, h, hn⟩ := abandonPortTare_view { s with
      ctx := { s.ctx with phase := p }
      flu := { s.flu with drvEn := p == .test || p == .service } }
    refine ⟨r, e, h, fun _ => hn, fun hd => ?_⟩
    rcases hp with rfl | rfl <;> cases hd
  · rename_i hp
    refine ⟨s.view.tare, rfl, .inl rfl, fun hd => ?_, fun _ => rfl⟩
    cases p <;> simp_all [dropsPortTare]

theorem setPhase_bounds (p : Phase) (s : State) : Bounds s (setPhase p s) := by
  have h : Bounds s { s with
      ctx := { s.ctx with phase := p }
      flu := { s.flu with drvEn := p == .test || p == .service } } := ⟨rfl, rfl, id, id, fun h => ⟨rfl, h.2⟩⟩
  unfold setPhase
  dsimp only
  split
  · exact h.trans (abandonPortTare_chain _).bounds
  · exact h

@[simp] theorem setPhase_live (p : Phase) (s : State) : (setPhase p s).live.isSome = s.live.isSome := by
  obtain ⟨r, e, _⟩ := setPhase_view p s
  exact congrArg View.live e

/-! ### Leaving -/

/-- A test that has left: its runtime part written back, its state and outcome set, the lock clear (R22). -/
def leftTest (k : SlotId) (o : Option TestOutcome) (l : Live) (s : State) : State :=
  { s with live := none, lch := { s.lch with lock := false } }.setSlot k
    { s.slot k with
      state := leavingState o
      runtime := some (leavingRuntime (s.slot k).order s.msq l o)
      outcome := o }

/-- Beside what `leftTest` says, records, events and a GAP that a dropped record reports are all that leaving adds. -/
theorem leaveTest_frame (k : SlotId) (o : Option TestOutcome) (s : State) (l : Live) (h : s.live = some l) :
    MarkFrame (leftTest k o l s) (leaveTest k o s) := by
  unfold leaveTest
  rw [h]
  dsimp only
  split
  · exact offerMark_frame _ _ _ _
  · exact offerEnd_frame _ _

theorem leftTest_view (k : SlotId) (o : Option TestOutcome) (l : Live) (s : State) :
    (leftTest k o l s).view =
      { s.view with
        slots := Function.update s.view.slots k { (s.slot k).view with state := leavingState o, runtime := true }
        live := false
        lock := false } := by
  unfold leftTest
  rw [State.view_setSlot]
  rfl

theorem leaveTest_bounds (k : SlotId) (o : Option TestOutcome) (s : State) : Bounds s (leaveTest k o s) := by
  rcases h : s.live with _ | l
  · unfold leaveTest; rw [h]; exact .refl s
  · exact (bounds_of_same (s := s) (t := leftTest k o l s) rfl rfl rfl rfl rfl rfl).trans (leaveTest_frame k o s l h).chain.bounds

/-- The view of a test that has left. -/
theorem leaveTest_view (k : SlotId) (o : Option TestOutcome) (s : State) (h : s.live.isSome = true) :
    ∃ c, (leaveTest k o s).view =
      { s.view with
        slots := Function.update s.view.slots k { (s.slot k).view with state := leavingState o, runtime := true }
        live := false
        lock := false
        changeover := c } := by
  obtain ⟨l, hl⟩ := Option.isSome_iff_exists.1 h
  obtain ⟨c, e⟩ := (leaveTest_frame k o s l hl).view
  exact ⟨c, by rw [e, leftTest_view]⟩

/-! ### Entering -/

theorem beginStartTare_view (o : TestOrder) (rt : Runtime) (s : State) :
    ∃ r, (beginStartTare o rt s).view = { s.view with tare := r } ∧ (r = s.view.tare ∨ r = some .start) := by
  unfold beginStartTare
  split
  · exact ⟨some .start, rfl, .inr rfl⟩
  · exact ⟨s.view.tare, rfl, .inl rfl⟩

theorem beginStartTare_bounds (o : TestOrder) (rt : Runtime) (s : State) : Bounds s (beginStartTare o rt s) := by
  unfold beginStartTare
  split
  · exact bounds_of_same rfl rfl rfl rfl rfl rfl
  · exact .refl s

theorem handBack_view (k : SlotId) (rt : Runtime) (s : State) :
    (handBack k rt s).view =
      { s.view with
        slots := Function.update s.view.slots k { (s.slot k).view with state := .resident }
        resident := some (.test k)
        holder := false
        live := true
        lock := true
        banks := rt.active.isSome } := by
  have h := State.view_setSlot s k { s.slot k with state := .resident, marks := resumedMarks (s.slot k).marks }
  have hs := congrArg View.slots h
  unfold handBack
  simp only [State.view, View.mk.injEq, true_and]
  exact ⟨hs, rfl, rfl, rfl, by simp [seatMsq]⟩

theorem enterResumed_bounds (k : SlotId) (s : State) : Bounds s (enterResumed k s) := by
  unfold enterResumed
  split
  · exact .refl s
  · dsimp only
    refine Bounds.trans ?_ (beginStartTare_bounds _ _ _)
    refine Bounds.trans ?_ (setPhase_bounds _ _)
    exact bounds_of_same rfl rfl rfl rfl rfl rfl

/-- The view of a resumed test (R29). -/
theorem enterResumed_view (k : SlotId) (s : State) (h : (s.slot k).runtime.isSome = true) :
    ∃ r b, (enterResumed k s).view =
      { s.view with
        slots := Function.update s.view.slots k { (s.slot k).view with state := .resident }
        phase := .test
        resident := some (.test k)
        holder := false
        live := true
        lock := true
        banks := b
        tare := r } ∧ ∀ p, r ≠ some (.port p) := by
  obtain ⟨rt0, hr⟩ := Option.isSome_iff_exists.1 h
  unfold enterResumed
  rw [hr]
  dsimp only
  obtain ⟨r, e, c⟩ := beginStartTare_view (s.slot k).order (resumedRuntime (s.slot k).order rt0)
    (setPhase .test (handBack k (resumedRuntime (s.slot k).order rt0) s))
  obtain ⟨r', e', c', d', _⟩ := setPhase_view .test (handBack k (resumedRuntime (s.slot k).order rt0) s)
  refine ⟨r, _, by rw [e, e', handBack_view], fun p => ?_⟩
  rw [e'] at c
  simp only at c
  rcases c with rfl | rfl
  · exact d' rfl p
  · simp

/-! ### Starting -/

theorem beginTest_view (k : SlotId) (o : TestOrder) (s : State) :
    (beginTest k o s).view =
      { s.view with
        slots := Function.update s.view.slots k { (s.slot k).view with state := .resident, runtime := true }
        resident := some (.test k)
        live := true
        lock := true
        banks := (startRuntime o).active.isSome } := by
  have h := State.view_setSlot s k
    { s.slot k with state := .resident, order := o, runtime := some (startRuntime o) }
  have hs := congrArg View.slots h
  unfold beginTest
  simp only [State.view, View.mk.injEq, true_and]
  exact ⟨hs, rfl, rfl, by simp [seatMsq]⟩

theorem markSinglePoint_frame (k : SlotId) (s : State) : MarkFrame s (markSinglePoint k s) := by
  unfold markSinglePoint
  split
  · exact setMark_frame _ _ _ _ _
  · exact .refl s

/-- A start, with its records and events left out (R18). -/
def startedTest (k : SlotId) (s : State) : State :=
  beginStartTare (startOrder k s) (startRuntime (startOrder k s)) (setPhase .test (beginTest k (startOrder k s) s))

/-- Beside `startedTest`, a start sets at most TRAVEL and a GAP, and offers records and events. -/
theorem startTest_frame (k : SlotId) (s : State) : MarkFrame (startedTest k s) (startTest k s) := by
  unfold startTest
  exact ((offerMark_frame _ _ _ _).trans (markSinglePoint_frame _ _)).trans (announcePhase_frame _).mark

theorem startTest_bounds (k : SlotId) (s : State) : Bounds s (startTest k s) := by
  refine Bounds.trans ?_ (startTest_frame k s).chain.bounds
  unfold startedTest
  refine Bounds.trans ?_ (beginStartTare_bounds _ _ _)
  refine Bounds.trans ?_ (setPhase_bounds _ _)
  exact bounds_of_same rfl rfl rfl rfl rfl rfl

/-- The view of a start before its records (R18). -/
theorem startedTest_view (k : SlotId) (s : State) :
    ∃ r b, (startedTest k s).view =
      { s.view with
        slots := Function.update s.view.slots k { (s.slot k).view with state := .resident, runtime := true }
        phase := .test
        resident := some (.test k)
        live := true
        lock := true
        banks := b
        tare := r } ∧ ∀ p, r ≠ some (.port p) := by
  unfold startedTest
  obtain ⟨r, e, c⟩ := beginStartTare_view (startOrder k s) (startRuntime (startOrder k s))
    (setPhase .test (beginTest k (startOrder k s) s))
  obtain ⟨r', e', c', d', _⟩ := setPhase_view .test (beginTest k (startOrder k s) s)
  refine ⟨r, _, by rw [e, e', beginTest_view], fun p => ?_⟩
  rw [e'] at c
  simp only at c
  rcases c with rfl | rfl
  · exact d' rfl p
  · simp

theorem enterService_bounds (h : Option Port) (s : State) : Bounds s (enterService h s) :=
  Bounds.trans (t := { s with
      msq := seatMsq (some (serviceBank s.frame)) s.msq
      ctx := { s.ctx with resident := some .service, holder := h } })
    (bounds_of_same rfl rfl rfl rfl rfl rfl) (setPhase_bounds .service _)

theorem enterService_view (h : Option Port) (s : State) :
    (enterService h s).view =
      { s.view with
        phase := .service, resident := some .service, holder := h.isSome, banks := true } := by
  unfold enterService
  obtain ⟨r, e, _, _, d⟩ := setPhase_view .service { s with
    msq := seatMsq (some (serviceBank s.frame)) s.msq
    ctx := { s.ctx with resident := some .service, holder := h } }
  rw [e, d rfl]
  rfl

theorem enterIdle_bounds (s : State) : Bounds s (enterIdle s) :=
  Bounds.trans (t := { s with msq := restMsq s.msq, ctx := { s.ctx with resident := none, holder := none } })
    (bounds_of_same rfl rfl rfl rfl rfl rfl) (setPhase_bounds .idle _)

theorem enterIdle_view (s : State) :
    (enterIdle s).view =
      { s.view with phase := .idle, resident := none, holder := false, banks := false } := by
  unfold enterIdle
  obtain ⟨r, e, _, _, d⟩ := setPhase_view .idle { s with
    msq := restMsq s.msq
    ctx := { s.ctx with resident := none, holder := none } }
  rw [e, d rfl]
  rfl

end Sys2Proof.Machine
end

