-- ==== Sys2Proof/Laws/Agreement.lean ====
section
/-! SUPPORT. The operations of the context store that change the resident context keep the agreement of the contexts
(R13, R18, R22, R23, R29). -/

namespace Sys2Proof.Machine

/-- The part of a view that a change of the resident context sets. -/
structure Stage where
  phase : Phase
  resident : Option Context
  holder : Bool
  banks : Bool
  tare : Option TareKind
  faults : List FaultKind

/-- A stage that suits itself (R13, R14, R37, R90, R91, R166, R167). -/
structure Stage.Suits (g : Stage) : Prop where
  resident : residentFits g.phase g.resident = true
  holder : g.holder = true → g.phase = .service
  banks : g.banks = true → g.phase = .test ∨ g.phase = .service
  tare : kindFits g.phase g.tare = true
  faults : g.faults ≠ [] ↔ g.phase = .safe
  kinds : g.faults.Nodup

/-- A view on a new stage, with no changeover pending. -/
def View.staged (v : View) (g : Stage) : View :=
  { v with
    phase := g.phase
    resident := g.resident
    changeover := none
    holder := g.holder
    live := g.phase == .test
    lock := g.phase == .test
    banks := g.banks
    tare := g.tare
    faults := g.faults }

/-- A view with one slot replaced. -/
def View.withSlot (v : View) (k : SlotId) (x : SlotView) : View := { v with slots := Function.update v.slots k x }

/-- The grips hold at most one test (R9). -/
theorem View.Suits.grips_unique {v : View} (h : v.Suits) {j k : SlotId} (hj : inGrips (v.slots j).state = true)
    (hk : inGrips (v.slots k).state = true) : j = k := by
  have a := h.grips j hj
  have b := h.grips k hk
  rw [a] at b
  exact Option.some.inj b

/-- The slot in the grips changes state together with the stage. -/
theorem View.Suits.change {v : View} (h : v.Suits) {k : SlotId} (hk : inGrips (v.slots k).state = true) {x : SlotView}
    (bound : bindable x.state = true) (runtime : x.state = .parked → x.runtime = true)
    (s0 : inGrips x.state = true → x.s0 = true) {g : Stage} (hg : g.Suits)
    (resident : ∀ j, g.resident = some (.test j) ↔ j = k ∧ x.state = .resident)
    (window : v.window = true → g.phase = .idle ∨ g.phase = .safe) :
    ((v.withSlot k x).staged g).Suits := by
  have unloaded : x.state ≠ .loaded := by intro e; rw [e] at bound; cases bound
  have was : (v.slots k).state ≠ .loaded := by intro e; rw [e] at hk; cases hk
  have hbind := h.grips k hk
  refine
    { faults := hg.faults, kinds := hg.kinds, nodup := h.nodup, queue := fun j => ?_, grips := fun j hj => ?_,
      bound := fun j hj => ?_, phase := hg.resident, resident := fun j => ?_, live := rfl,
      outgoing := (fun c e => nomatch e), parked := fun j => ?_, section_ := fun j => ?_, holder := hg.holder,
      lock := rfl, banks := hg.banks, tare := hg.tare, window := fun e => ⟨(h.window e).1, window e⟩ }
  all_goals simp only [View.staged, View.withSlot] at *
  · by_cases hjk : j = k
    · subst hjk; simp [h.queue, was, unloaded]
    · simp [Function.update_of_ne hjk, h.queue]
  · by_cases hjk : j = k
    · subst hjk; exact hbind
    · rw [Function.update_of_ne hjk] at hj; exact h.grips j hj
  · by_cases hjk : j = k
    · subst hjk; simpa using bound
    · rw [Function.update_of_ne hjk]; exact h.bound j hj
  · rw [resident j]
    by_cases hjk : j = k
    · subst hjk; simp
    · rw [Function.update_of_ne hjk]
      simp only [hjk, false_and, iff_false]
      intro e
      exact hjk (h.grips_unique (by rw [e]; rfl) hk)
  · by_cases hjk : j = k
    · subst hjk; simpa using runtime
    · rw [Function.update_of_ne hjk]; exact h.parked j
  · by_cases hjk : j = k
    · subst hjk; simpa using s0
    · rw [Function.update_of_ne hjk]; exact h.section_ j

/-- The stage changes while no test is resident, before or after. -/
theorem View.Suits.stage {v : View} (h : v.Suits) {g : Stage} (hg : g.Suits) (was : v.phase ≠ .test)
    (now : g.phase ≠ .test) (window : v.window = true → g.phase = .idle ∨ g.phase = .safe) : (v.staged g).Suits := by
  have none_ : ∀ {ph : Phase} {r : Option Context}, residentFits ph r = true → ph ≠ .test →
      ∀ k, r ≠ some (.test k) := by
    intro ph r hf hp k e
    subst e
    cases ph <;> simp_all [residentFits]
  refine
    { h with
      faults := hg.faults, kinds := hg.kinds, phase := hg.resident, resident := fun j => ?_, live := ?_,
      outgoing := (fun c e => nomatch e), holder := hg.holder, lock := rfl, banks := hg.banks, tare := hg.tare,
      window := fun e => ⟨(h.window e).1, window e⟩ }
  · have a := h.resident j
    have b := none_ h.phase was j
    have c := none_ hg.resident now j
    simp only [View.staged]
    simp [a, b, c]
  · rfl

/-- A resident test is in the grips. -/
theorem View.Suits.resident_grips {v : View} (h : v.Suits) {k : SlotId} (hk : v.resident = some (.test k)) :
    inGrips (v.slots k).state = true := by
  rw [(h.resident k).2 hk]; rfl

/-- A resident test has the phase TEST. -/
theorem View.Suits.phase_of_test {v : View} (h : v.Suits) {k : SlotId} (hk : v.resident = some (.test k)) :
    v.phase = .test := by
  have := h.phase
  rw [hk] at this
  cases hp : v.phase <;> simp_all [residentFits]

/-! ### Start and resume -/

/-- A start of a BOUND slot in IDLE keeps the agreement (R18). -/
theorem startTest_keeps (k : SlotId) (s : State) (hk : (s.slot k).state = .bound) (hp : s.ctx.phase = .idle)
    (hc : s.ctx.changeover = none) (hw : s.cst.window = .closed) : Keeps s (startTest k s) := by
  obtain ⟨r, b, e, hr⟩ := startedTest_view k s
  have key : (startedTest k s).view =
      (s.view.withSlot k { (s.slot k).view with state := .resident, runtime := true }).staged
        { phase := .test, resident := some (.test k), holder := s.ctx.holder.isSome, banks := b, tare := r,
          faults := s.view.faults } := by
    rw [e]
    simp [View.staged, View.withSlot, State.view, hc]
  have hkv : (s.view.slots k).state = .bound := hk
  have pre : s.view.Suits → (startedTest k s).view.Suits := by
    intro h
    have hh : s.ctx.holder.isSome = false := by
      have := h.holder
      cases hx : s.ctx.holder.isSome with
      | false => rfl
      | true => have := this hx; rw [show s.view.phase = .idle from hp] at this; cases this
    rw [key]
    refine h.change (by rw [hkv]; rfl) rfl (fun x => by cases x) (fun _ => ?_)
      { resident := rfl, holder := fun x => ?_, banks := fun _ => .inl rfl, tare := ?_, faults := ?_, kinds := h.kinds }
      (fun j => ?_) (fun x => ?_)
    · exact h.section_ k (by rw [hkv]; rfl)
    · simp only [hh] at x; cases x
    · cases r with
      | none => rfl
      | some t => cases t with
        | start => rfl
        | port p => exact absurd rfl (hr p)
    · have := h.faults
      rw [show s.view.phase = .idle from hp] at this
      simpa using this
    · simp [eq_comm]
    · simp [State.view, hw] at x
  have mid : Bounds s (startedTest k s) := by
    unfold startedTest
    refine Bounds.trans ?_ (beginStartTare_bounds _ _ _)
    refine Bounds.trans ?_ (setPhase_bounds _ _)
    exact bounds_of_same rfl rfl rfl rfl rfl rfl
  exact (keeps_of_view mid pre).trans (startTest_frame k s).keeps

/-- A resume that is accepted in IDLE keeps the agreement (R28, R29). -/
theorem enterResumed_keeps (k : SlotId) (s : State) (hk : (s.slot k).state = .parked) (hp : s.ctx.phase = .idle)
    (hc : s.ctx.changeover = none) (hw : s.cst.window = .closed) (hr : (s.slot k).runtime.isSome = true) :
    Keeps s (enterResumed k s) := by
  obtain ⟨r, b, e, hr⟩ := enterResumed_view k s hr
  have key : (enterResumed k s).view =
      (s.view.withSlot k { (s.slot k).view with state := .resident }).staged
        { phase := .test, resident := some (.test k), holder := false, banks := b, tare := r,
          faults := s.view.faults } := by
    rw [e]
    simp [View.staged, View.withSlot, State.view, hc]
  have hkv : (s.view.slots k).state = .parked := hk
  refine keeps_of_view (enterResumed_bounds k s) (fun h => ?_)
  rw [key]
  refine h.change (by rw [hkv]; rfl) rfl (fun x => by cases x) (fun _ => ?_)
    { resident := rfl, holder := (fun x => nomatch x), banks := fun _ => .inl rfl, tare := ?_, faults := ?_,
      kinds := h.kinds } (fun j => ?_) (fun x => ?_)
  · exact h.section_ k (by rw [hkv]; rfl)
  · cases r with
    | none => rfl
    | some t => cases t with
      | start => rfl
      | port p => exact absurd rfl (hr p)
  · have := h.faults
    rw [show s.view.phase = .idle from hp] at this
    simpa using this
  · simp [eq_comm]
  · simp [State.view, hw] at x

/-- The service context becomes resident from IDLE (R27). -/
theorem enterService_keeps (o : Option Port) (s : State) (hp : s.ctx.phase = .idle)
    (hc : s.ctx.changeover = none) (hw : s.cst.window = .closed) : Keeps s (enterService o s) := by
  have key : s.view.Suits → (enterService o s).view =
      s.view.staged
        { phase := .service, resident := some .service, holder := o.isSome, banks := true, tare := s.view.tare,
          faults := s.view.faults } := by
    intro h
    have a := h.live
    have b := h.lock
    rw [show s.view.phase = .idle from hp] at a b
    rw [enterService_view]
    simp only [View.staged, View.mk.injEq, true_and]
    simp [State.view, hc] at a b ⊢
    exact ⟨a, b⟩
  refine keeps_of_view (enterService_bounds o s) (fun h => ?_)
  rw [key h]
  have hp' : s.view.phase = .idle := hp
  refine h.stage
    { resident := rfl, holder := fun _ => rfl, banks := fun _ => .inr rfl, tare := ?_, faults := ?_, kinds := h.kinds }
    (by rw [hp']; simp) (by simp) (fun x => ?_)
  · have := h.tare
    rw [hp'] at this
    show kindFits .service s.view.tare = true
    rcases ht : s.view.tare with _ | t
    · rfl
    · rw [ht] at this
      cases t <;> simp_all [kindFits]
  · have := h.faults
    rw [hp'] at this
    simpa using this
  · simp [State.view, hw] at x

end Sys2Proof.Machine
end

