-- ==== Sys2Proof/Laws/Ending.lean ====
section
/-! SUPPORT. A completion and a fault keep the agreement of the contexts (R22, R23, R167). -/

namespace Sys2Proof.Machine

/-- The part with no changeover pending. -/
theorem view_clearChangeover (s : State) :
    ({ s with ctx := { s.ctx with changeover := none } } : State).view = { s.view with changeover := none } := rfl

theorem leavingState_bindable (o : Option TestOutcome) : bindable (leavingState o) = true := by
  unfold leavingState
  split
  · rfl
  · split <;> rfl

theorem leavingState_resident (o : Option TestOutcome) : leavingState o ≠ .resident := by
  unfold leavingState
  split
  · simp
  · split <;> simp

/-- A tare that is no start tare and suits TEST is none. -/
theorem kindFits_test {t : Option TareKind} (h : kindFits .test t = true) (hn : t ≠ some .start) : t = none := by
  rcases t with _ | (_ | p)
  · rfl
  · cases h
  · exact absurd rfl hn

/-- A tare that suits SERVICE suits IDLE. -/
theorem kindFits_idle {t : Option TareKind} (h : kindFits .service t = true) : kindFits .idle t = true := by
  rcases t with _ | (_ | p) <;> simp_all [kindFits]

/-! ### A test leaves (R22) -/

/-- A test leaves for a stage without a test. -/
theorem View.Suits.leave {v : View} (h : v.Suits) {k : SlotId} (hk : v.resident = some (.test k)) {st : SlotState}
    (bound : bindable st = true) (hst : st ≠ .resident) {g : Stage} (hg : g.Suits) (now : g.phase ≠ .test)
    (window : v.window = true → g.phase = .idle ∨ g.phase = .safe) :
    ((v.withSlot k { v.slots k with state := st, runtime := true }).staged g).Suits := by
  have hgr := h.resident_grips hk
  refine View.Suits.change h (x := { v.slots k with state := st, runtime := true }) hgr bound (fun _ => rfl)
    (fun _ => h.section_ k hgr) hg (fun j => ?_) window
  have hr := hg.resident
  constructor
  · intro e
    rw [e] at hr
    cases hp : g.phase <;> simp_all [residentFits]
  · intro e
    exact absurd e.2 hst

/-- What a completion makes resident, as a stage, when a test leaves. -/
def leftStage (c : Changeover) (f : List FaultKind) : Stage :=
  match c.cause with
  | .operator =>
    { phase := .service, resident := some .service, holder := (holderAfter c).isSome, banks := true, tare := none,
      faults := f }
  | .endTest | .terminate =>
    { phase := .idle, resident := none, holder := false, banks := false, tare := none, faults := f }

theorem leftStage_suits (c : Changeover) : (leftStage c []).Suits := by
  unfold leftStage
  split
  all_goals exact ⟨rfl, by simp, by simp, rfl, by simp, by simp⟩

/-- The completion of a changeover whose outgoing context is a test. -/
theorem completeTest_view (c : Changeover) (k : SlotId) (s : State) (h : s.view.Suits)
    (hc : s.ctx.changeover = some c) (hk : c.outgoing = .test k) (ht : s.view.tare ≠ some .start) :
    (completeChangeover c s).view =
      (s.view.withSlot k { s.view.slots k with state := leavingState (outcomeOf c), runtime := true }).staged
        (leftStage c s.view.faults) := by
  obtain ⟨hres, _, _, _, hnop, hop⟩ := h.outgoing c hc
  rw [hk] at hres
  have hph := h.phase_of_test hres
  have hlive : s.live.isSome = true := by
    have := h.live
    rw [hph] at this
    simpa [State.view] using this
  have htare : s.view.tare = none := kindFits_test (by have := h.tare; rwa [hph] at this) ht
  obtain ⟨d, e⟩ := leaveTest_view k (outcomeOf c) s hlive
  unfold completeChangeover
  dsimp only
  rw [hk]
  dsimp only
  rw [(announceEnd_frame _ _ _).view, (announcePhase_frame _).view, view_clearChangeover]
  cases hca : c.cause with
  | operator =>
    have hi := hop (by rw [hk]; simp) hca
    unfold enterIncoming
    rw [hi]
    dsimp only
    rw [enterService_view, e]
    simp only [View.staged, View.withSlot, leftStage, hca, htare]
    rfl
  | endTest =>
    have hi := (hnop (by rw [hca]; simp)).2.1
    unfold enterIncoming
    rw [hi]
    dsimp only
    rw [enterIdle_view, e]
    simp only [View.staged, View.withSlot, leftStage, hca, htare]
    rfl
  | terminate =>
    have hi := (hnop (by rw [hca]; simp)).2.1
    unfold enterIncoming
    rw [hi]
    dsimp only
    rw [enterIdle_view, e]
    simp only [View.staged, View.withSlot, leftStage, hca, htare]
    rfl

theorem enterIncoming_bounds (c : Changeover) (s : State) : Bounds s (enterIncoming c s) := by
  unfold enterIncoming
  split
  · exact (offerResume_frame _ s).chain.bounds.trans (enterResumed_bounds _ _)
  · exact enterService_bounds _ _
  · exact .refl s
  · exact enterIdle_bounds s

theorem completeChangeover_bounds (c : Changeover) (s : State) : Bounds s (completeChangeover c s) := by
  unfold completeChangeover
  dsimp only
  refine Bounds.trans ?_ (announceEnd_frame _ _ _).mark.chain.bounds
  refine Bounds.trans ?_ (announcePhase_frame _).mark.chain.bounds
  refine Bounds.trans (t := enterIncoming c (match c.outgoing with
    | .test k => leaveTest k (outcomeOf c) s
    | _ => s)) ?_ (bounds_of_same rfl rfl rfl rfl rfl rfl)
  refine Bounds.trans ?_ (enterIncoming_bounds _ _)
  split
  · exact leaveTest_bounds _ _ _
  · exact .refl s

/-- The completion of a changeover whose outgoing context is the service context (R22, R28). -/
theorem completeService_view (c : Changeover) (s : State) (h : s.view.Suits)
    (hc : s.ctx.changeover = some c) (hs : c.outgoing = .service) :
    (∃ k r b, c.incoming = some (.test k) ∧ (∀ p, r ≠ some (.port p)) ∧
      (completeChangeover c s).view =
        (s.view.withSlot k { s.view.slots k with state := .resident }).staged
          { phase := .test, resident := some (.test k), holder := false, banks := b, tare := r,
            faults := s.view.faults }) ∨
    (c.incoming = some .service ∧ (completeChangeover c s).view = s.view.staged
        { phase := .service, resident := some .service, holder := (holderAfter c).isSome, banks := true,
          tare := s.view.tare, faults := s.view.faults }) ∨
    (c.incoming = none ∧ (completeChangeover c s).view = s.view.staged
        { phase := .idle, resident := none, holder := false, banks := false, tare := s.view.tare,
          faults := s.view.faults }) := by
  obtain ⟨hres, _, hsafe, hpark, hnop, _⟩ := h.outgoing c hc
  rw [hs] at hres
  have hph : s.view.phase = .service := by
    have := h.phase
    rw [hres] at this
    cases hp : s.view.phase <;> simp_all [residentFits]
  have hl : s.view.live = false := by rw [h.live, hph]; rfl
  have hk : s.view.lock = false := by rw [h.lock, hph]; rfl
  unfold completeChangeover
  dsimp only
  rw [hs]
  dsimp only
  rw [(announceEnd_frame _ _ _).view, (announcePhase_frame _).view, view_clearChangeover]
  rcases hi : c.incoming with _ | (k | _ | _)
  · refine .inr (.inr ⟨rfl, ?_⟩)
    unfold enterIncoming
    rw [hi]
    dsimp only
    rw [enterIdle_view]
    simp [View.staged, hl, hk]
  · left
    have hp := (hpark k hi).2
    have f := offerResume_frame k s
    have hrun : ((offerResume k s).slot k).runtime.isSome = true := by
      rw [f.runtime]; exact h.parked k hp
    obtain ⟨r, b, e, hr⟩ := enterResumed_view k (offerResume k s) hrun
    obtain ⟨d, e'⟩ := f.view
    refine ⟨k, r, b, rfl, hr, ?_⟩
    unfold enterIncoming
    rw [hi]
    dsimp only
    rw [e, e']
    have : ((offerResume k s).slot k).view = s.view.slots k := by
      have := congrArg (fun v => v.slots k) e'
      exact this
    simp [View.staged, View.withSlot, this]
  · refine .inr (.inl ⟨rfl, ?_⟩)
    unfold enterIncoming
    rw [hi]
    dsimp only
    rw [enterService_view]
    simp [View.staged, hl, hk]
  · exact absurd hi hsafe

/-- The completion of the pending changeover keeps the agreement (R22). -/
theorem completeChangeover_keeps (c : Changeover) (s : State) (hc : s.ctx.changeover = some c)
    (ht : ∀ k, c.outgoing = .test k → s.view.tare ≠ some .start) : Keeps s (completeChangeover c s) := by
  refine keeps_of_view (completeChangeover_bounds c s) (fun h => ?_)
  obtain ⟨hres, hns, _, hpark, _, _⟩ := h.outgoing c hc
  have hfa := h.faults
  have hwin := h.window
  rcases ho : c.outgoing with k | _ | _
  · rw [ho] at hres
    have hph := h.phase_of_test hres
    rw [hph] at hfa hwin
    rw [completeTest_view c k s h hc ho (ht k ho)]
    have hnil : s.view.faults = [] := by simpa using hfa
    rw [hnil]
    refine h.leave hres (leavingState_bindable _) (leavingState_resident _) (leftStage_suits c) ?_ (fun x => ?_)
    · unfold leftStage; split <;> simp
    · exact absurd (hwin x).2 (by simp)
  · rw [ho] at hres
    have hph : s.view.phase = .service := by
      have := h.phase
      rw [hres] at this
      cases hp : s.view.phase <;> simp_all [residentFits]
    have hta := h.tare
    rw [hph] at hfa hwin hta
    rcases completeService_view c s h hc ho with ⟨k, r, b, hi, hr, e⟩ | ⟨hi, e⟩ | ⟨hi, e⟩
    · rw [e]
      have hp : (s.view.slots k).state = .parked := (hpark k hi).2
      refine h.change (x := { s.view.slots k with state := .resident }) (by rw [hp]; rfl) rfl (fun x => by cases x)
        (fun _ => h.section_ k (by rw [hp]; rfl))
        { resident := rfl, holder := (fun x => nomatch x), banks := fun _ => .inl rfl, tare := ?_, faults := ?_,
          kinds := h.kinds } (fun j => ?_) (fun x => ?_)
      · rcases r with _ | (p | _)
        · rfl
        · exact absurd rfl (hr p)
        · rfl
      · simpa using hfa
      · simp [eq_comm]
      · exact absurd (hwin x).2 (by simp)
    · rw [e]
      refine h.stage
        { resident := rfl, holder := fun _ => rfl, banks := fun _ => .inr rfl, tare := hta, faults := by simpa using hfa,
          kinds := h.kinds }
        (by rw [hph]; simp) (by simp) (fun x => ?_)
      exact absurd (hwin x).2 (by simp)
    · rw [e]
      exact h.stage
        { resident := rfl, holder := (fun x => nomatch x), banks := (fun x => nomatch x), tare := kindFits_idle hta,
          faults := by simpa using hfa, kinds := h.kinds }
        (by rw [hph]; simp) (by simp) (fun x => .inl rfl)
  · exact absurd ho hns

/-- A quiesce that completes keeps the agreement (R21, R22). -/
theorem completePending_keeps (s : State) : Keeps s (completePending s) := by
  unfold completePending
  rcases hk : s.residentSlot with _ | k
  · dsimp only
    split
    · rename_i c hc
      by_cases hs : s.view.Suits
      · refine completeChangeover_keeps c s hc (fun k ho => ?_)
        have hres := (hs.outgoing c hc).1
        rw [ho] at hres
        rw [residentSlot_eq_some.2 hres] at hk
        cases hk
      · exact .of_bounds (completeChangeover_bounds c s) (fun g => absurd (suit_iff_view.1 g) hs)
    · exact .refl s
  · dsimp only
    have f := (offerLast_chain true k s).trans (abandonStartTare_chain true k (offerLast true k s))
    split
    · rename_i c hc
      exact f.keeps.trans (completeChangeover_keeps c _ hc (fun _ _ => abandonStartTare_tare _ _ _))
    · exact f.keeps

/-! ### Faults (R23, R167) -/

/-- The stage of a part that a fault has been taken in. -/
def faultStage (f : List FaultKind) : Stage :=
  { phase := .safe, resident := some .safe, holder := false, banks := false, tare := none, faults := f }

theorem faultLeaves_bounds (m : Mark) (s : State) : Bounds s (faultLeaves m s) := by
  unfold faultLeaves
  split
  · rename_i k _
    exact ((offerLast_chain false k s).trans (abandonStartTare_chain false k _)).bounds.trans (leaveTest_bounds _ _ _)
  · exact .refl s

theorem faultClears_bounds (s : State) : Bounds s (faultClears s) := by
  unfold faultClears
  split
  · refine Bounds.trans ?_ (supersede_frame _ _).mark.chain.bounds
    exact bounds_of_same rfl rfl rfl rfl rfl rfl
  · exact .refl s

theorem faultClears_view (s : State) : (faultClears s).view = { s.view with changeover := none } := by
  unfold faultClears
  split
  · rw [(supersede_frame _ _).view]; rfl
  · rename_i h
    simp [State.view, h]

theorem takeFault_bounds (m : Mark) (s : State) : Bounds s (takeFault m s) := by
  unfold takeFault
  dsimp only
  have f : Bounds s (announcePhase (setPhase .safe { faultClears (faultLeaves m s) with
      msq := restMsq (faultClears (faultLeaves m s)).msq
      ctx := { (faultClears (faultLeaves m s)).ctx with resident := some .safe, holder := none } })) := by
    refine Bounds.trans ?_ (announcePhase_frame _).mark.chain.bounds
    refine Bounds.trans ?_ (setPhase_bounds _ _)
    refine Bounds.trans ((faultLeaves_bounds m s).trans (faultClears_bounds _)) ?_
    exact bounds_of_same rfl rfl rfl rfl rfl rfl
  split
  · exact f.trans (raiseEvent_frame _ _ _).mark.chain.bounds
  · exact f

/-- What the view shows of the tail of a fault (R23). -/
theorem takeFault_tail (m : Mark) (s : State) : ∃ r, (takeFault m s).view =
    { (faultLeaves m s).view with
      phase := .safe, resident := some .safe, changeover := none, holder := false, banks := false, tare := r } ∧
    (r = (faultLeaves m s).view.tare ∨ r = none) ∧ ∀ p, r ≠ some (.port p) := by
  obtain ⟨r, e, h, hp, _⟩ := setPhase_view .safe { faultClears (faultLeaves m s) with
      msq := restMsq (faultClears (faultLeaves m s)).msq
      ctx := { (faultClears (faultLeaves m s)).ctx with resident := some .safe, holder := none } }
  have c := faultClears_view (faultLeaves m s)
  refine ⟨r, ?_, ?_, hp rfl⟩
  · unfold takeFault
    dsimp only
    have g : (announcePhase (setPhase .safe { faultClears (faultLeaves m s) with
      msq := restMsq (faultClears (faultLeaves m s)).msq
      ctx := { (faultClears (faultLeaves m s)).ctx with resident := some .safe, holder := none } })).view =
        { (faultLeaves m s).view with
          phase := .safe, resident := some .safe, changeover := none, holder := false, banks := false, tare := r } := by
      rw [(announcePhase_frame _).view, e]
      have q : ∀ (u : State), ({ u with msq := restMsq u.msq
                                        ctx := { u.ctx with resident := some .safe, holder := none } } : State).view =
          { u.view with resident := some .safe, holder := false, banks := false } := fun u => rfl
      rw [q, c]
    split
    · rw [view_raiseEvent]; exact g
    · exact g
  · have q : ∀ (u : State), ({ u with msq := restMsq u.msq
                                      ctx := { u.ctx with resident := some .safe, holder := none } } : State).view.tare =
        u.view.tare := fun u => rfl
    rw [q, c] at h
    exact h

/-- A fault in a part that agreed but for the entry that the fault has just made (R167). -/
theorem takeFault_suits (m : Mark) (s : State) (v : View) (h : v.Suits) (f : List FaultKind)
    (hf : f ≠ []) (hd : f.Nodup) (c : Option Changeover) (e : s.view = { v with faults := f, changeover := c }) :
    (takeFault m s).view.Suits := by
  obtain ⟨r, et, hr, hport⟩ := takeFault_tail m s
  have stage : (faultStage f).Suits := ⟨rfl, by simp [faultStage], by simp [faultStage], rfl, by simpa [faultStage] using hf, hd⟩
  have hres : s.ctx.resident = v.resident := congrArg View.resident e
  rcases hk : s.residentSlot with _ | k
  · have hl : faultLeaves m s = s := by unfold faultLeaves; rw [hk]
    have htest : v.phase ≠ .test := by
      intro ht
      have := h.phase
      rw [ht] at this
      rcases hv : v.resident with _ | (k | _ | _) <;> rw [hv] at this <;> try cases this
      rw [residentSlot_eq_some.2 (hres.trans hv)] at hk
      cases hk
    have hlive : v.live = false := by rw [h.live]; simpa using htest
    have hlock : v.lock = false := by rw [h.lock]; simpa using htest
    have hrn : r = none := by
      rw [hl, e] at hr
      simp only at hr
      rcases hr with hr | hr
      · have := h.tare
        rw [← hr] at this
        rcases r with _ | (p | _)
        · rfl
        · exact absurd rfl (hport p)
        · exact absurd (by simpa [kindFits] using this) htest
      · exact hr
    have key : (takeFault m s).view = v.staged (faultStage f) := by
      rw [et, hl, e, hrn]
      simp [View.staged, faultStage, hlive, hlock]
    rw [key]
    exact h.stage stage htest (by simp [faultStage]) (fun _ => .inr rfl)
  · have hvr : v.resident = some (.test k) := hres.symm.trans (residentSlot_eq_some.1 hk)
    have hph := h.phase_of_test hvr
    have g := (offerLast_chain false k s).trans (abandonStartTare_chain false k _)
    have hst := abandonStartTare_tare false k (offerLast false k s)
    obtain ⟨c1, r1, e1, hr1⟩ := g.view
    have hlive : (abandonStartTare false k (offerLast false k s)).live.isSome = true := by
      have a : v.live = true := by rw [h.live, hph]; rfl
      have b := congrArg View.live e1
      have b' := congrArg View.live e
      exact b.trans (b'.trans a)
    obtain ⟨c2, e2⟩ := leaveTest_view k (some { void := true, cause := .mark m }) _ hlive
    have hl : faultLeaves m s =
        leaveTest k (some { void := true, cause := .mark m }) (abandonStartTare false k (offerLast false k s)) := by
      unfold faultLeaves; rw [hk]
    have hrn : r = none := by
      rw [hl, e2] at hr
      simp only at hr
      rcases hr with hr | hr
      · rw [← hr] at hst
        rcases r with _ | (p | _)
        · rfl
        · exact absurd rfl (hport p)
        · exact absurd rfl hst
      · exact hr
    have hsl : ((abandonStartTare false k (offerLast false k s)).slot k).view = v.slots k := by
      have a := congrArg (fun v => v.slots k) e1
      have b := congrArg (fun v => v.slots k) e
      exact a.trans b
    have key : (takeFault m s).view =
        (v.withSlot k { v.slots k with state := .void, runtime := true }).staged (faultStage f) := by
      rw [et, hl, e2, hsl, e1, e, hrn]
      simp [View.staged, View.withSlot, faultStage, leavingState]
    rw [key]
    exact h.leave hvr rfl (by simp) stage (by simp [faultStage]) (fun _ => .inr rfl)

theorem enterFault_bounds (e : FaultEntry) (s : State) : Bounds s (enterFault e s) := by
  unfold enterFault
  refine Bounds.trans ?_ (raiseEvent_frame _ _ _).mark.chain.bounds
  exact ⟨rfl, rfl, id, id, fun h => ⟨h.1, by simp⟩⟩

theorem enterFault_view (e : FaultEntry) (s : State) :
    (enterFault e s).view = { s.view with faults := s.view.faults ++ [e.kind] } := by
  unfold enterFault
  rw [view_raiseEvent]
  simp [State.view]
  rfl

/-- A fault report keeps the agreement (R167). -/
theorem faultReport_keeps (kind : FaultKind) (s : State) : Keeps s (faultReport kind s) := by
  unfold faultReport
  split
  · exact .refl s
  · rename_i hnew
    split
    · rename_i hp
      refine keeps_of_view (enterFault_bounds _ s) (fun h => ?_)
      rw [enterFault_view]
      refine { h with faults := ?_, kinds := ?_ }
      · simpa using show s.view.phase = .safe from hp
      · have : kind ∉ s.view.faults := by
          intro hk
          obtain ⟨e, he, hek⟩ := List.mem_map.1 hk
          exact hnew (List.any_eq_true.2 ⟨e, he, by simp [hek]⟩)
        exact List.nodup_append.2 ⟨h.kinds, by simp, fun a ha b hb e => by
          rw [List.mem_singleton] at hb
          subst e
          subst hb
          exact this ha⟩
    · rename_i hp
      dsimp only
      have hm : ∀ (u : State), MarkFrame u (match (faultEntry kind s).voided with
          | some (k, index) => setMark k (faultMark kind) 0 index u
          | none => u) := by
        intro u
        split
        · exact setMark_frame _ _ _ _ _
        · exact .refl u
      have m := hm (enterFault (faultEntry kind s) s)
      refine keeps_of_view (((enterFault_bounds _ s).trans m.chain.bounds).trans (takeFault_bounds _ _)) (fun h => ?_)
      obtain ⟨c, e⟩ := m.view
      have hnil : s.view.faults = [] := by
        have := h.faults
        by_contra hne
        exact hp (this.1 hne)
      refine takeFault_suits _ _ s.view h [kind] (by simp) (by simp) c ?_
      refine e.trans ?_
      rw [enterFault_view, hnil]
      rfl

/-! ### Reports -/

theorem takeReport_keeps (s : State) (r : Report) : Keeps s (takeReport s r) := by
  cases r with
  | mark k m v n => exact (setMark_frame k m v n s).keeps
  | fracture k n c f fm => exact (takeFracture_frame k n c f fm s).keeps
  | fault kind => exact faultReport_keeps kind s

theorem transit_keeps (s : State) (l : List Report) : Keeps s { s with ctx := { s.ctx with transit := l } } :=
  (chain_transit s l).keeps

theorem post_keeps (b : Bool) (r : Report) (s : State) : Keeps s (post b r s) := by
  unfold post
  split
  · exact transit_keeps s _
  · exact takeReport_keeps s r

/-- Reports taken one after the other keep the agreement. -/
theorem foldl_takeReport_keeps (l : List Report) (s : State) : Keeps s (l.foldl takeReport s) := by
  induction l generalizing s with
  | nil => exact .refl s
  | cons r l ih => exact (takeReport_keeps s r).trans (ih _)

theorem drain_keeps (which : Report → Bool) (s : State) : Keeps s (drain which s) := by
  unfold drain
  exact (transit_keeps s _).trans (foldl_takeReport_keeps _ _)

end Sys2Proof.Machine
end

