-- ==== Sys2Proof/Laws/Sets.lean ====
section
/-! SUPPORT. A sample set on its way down the chain, a start with no request, a sample instant and a reset keep the
agreement of the contexts. -/

namespace Sys2Proof.Machine

/-- Conversion of a set, with the HARDLOAD it may report (R93). -/
theorem lchConvert_keeps (x : SampleSet) (conv : Option (BitVec 24)) (w : SetOrder) (s : State) :
    Keeps s (lchConvert x conv w s).1 := by
  unfold lchConvert
  dsimp only
  split
  · dsimp only
    split
    · exact (lchAfter_chain _ _ s).keeps.trans (post_keeps _ _ _)
    · exact (lchAfter_chain _ _ s).keeps
  · exact .refl s

/-- The elapsed count of a pending changeover goes up (R21). -/
theorem countQuiesce_keeps (c : Changeover) (n : Nat) (s : State) (h : s.ctx.changeover = some c) :
    Keeps s { s with ctx := { s.ctx with changeover := some { c with elapsed := n } } } := by
  refine keeps_of_view (bounds_of_same rfl rfl rfl rfl rfl rfl) (fun g => ?_)
  have e : ({ s with ctx := { s.ctx with changeover := some { c with elapsed := n } } } : State).view =
      { s.view with changeover := some { c with elapsed := n } } := rfl
  rw [e]
  refine { g with outgoing := fun d hd => ?_ }
  cases hd
  exact g.outgoing c h

theorem quiesceSample_keeps (fl : Flight) (s : State) : Keeps s (quiesceSample fl s) := by
  unfold quiesceSample
  split
  · rename_i c hc
    dsimp only
    split
    · have f := countQuiesce_keeps c (c.elapsed + 1) s hc
      split
      · exact f.trans (faultReport_keeps _ _)
      · split
        · exact f.trans (completePending_keeps _)
        · exact f
    · exact .refl s
  · exact .refl s

/-- A set at the motion sequencer (3.2). -/
theorem msqStep_keeps (fl : Flight) (x : Measured) (e : Option (Int × Int)) (s : State) :
    Keeps s (msqStep fl x e s) := by
  unfold msqStep
  dsimp only
  have a := ((countSample_chain s).trans (transitionFlip_chain x _)).trans (firstSeat_chain fl x _)
  have b := a.trans (segmentTests_chain fl x _)
  have c := (b.keeps.trans (drain_keeps Report.isFracture _)).trans
    ((amendmentFlip_chain _).trans (demandOf_chain fl x _)).keeps
  have d := c.trans (trackPosition_chain fl.set.xh _).keeps
  split
  · exact (d.trans (stillStep_chain _ _).keeps).trans
      ((trackCompliance_chain x _).trans (sampleCandidate_chain fl e x _)).keeps
  · exact d.trans ((trackCompliance_chain x _).trans (sampleCandidate_chain fl e x _)).keeps

theorem firstUnmet_none {k : SlotId} {items : List Item} {s : State} (h : firstUnmet k items s = none) :
    ∀ i ∈ items, itemHolds k s i = true := by
  intro i hi
  have := List.find?_eq_none.1 h i hi
  simpa using this

/-- What start-ready says of the contexts (R16). -/
theorem startReady {k : SlotId} {s : State} (h : firstUnmet k startItems s = none) :
    s.ctx.phase = .idle ∧ s.ctx.changeover = none ∧ s.cst.window = .closed := by
  have g := firstUnmet_none h
  have a := g .phase (by decide)
  have b := g .changeover (by decide)
  have c := g .calWindow (by decide)
  refine ⟨by simpa [itemHolds] using a, by simpa [itemHolds] using b, ?_⟩
  simpa [itemHolds, calWindowOpen] using c

/-- A start with no request (R17). -/
theorem autostartWith_keeps (f : Frame) (s : State) : Keeps s (autostartWith f s) := by
  unfold autostartWith
  split
  · split
    · rename_i h
      obtain ⟨a, b, c⟩ := startReady h.2.2
      exact startTest_keeps _ s h.2.1 a b c
    · exact .refl s
  · exact .refl s

/-- A set at the load channel. -/
theorem loadStep_keeps (x : SampleSet) (conv : Option (BitVec 24)) (w : SetOrder) (s : State) :
    Keeps s (loadStep x conv w s).1 := by
  unfold loadStep
  dsimp only
  refine Keeps.trans ?_ (overloadCheck_chain _ _).keeps
  refine Keeps.trans ?_ (collectTare_chain _ _).keeps
  refine Keeps.trans ?_ (settleMark_chain _ _).keeps
  exact (lchConvert_keeps x conv w s).trans (examineResumed_chain _).keeps

/-- A set from the load channel through the motion sequencer. -/
theorem sequenceSet_keeps (x : SampleSet) (conv : Option (BitVec 24)) (w : SetOrder) (s : State) :
    Keeps s (sequenceSet x conv w s).1 := by
  unfold sequenceSet
  dsimp only
  refine Keeps.trans ?_ (msqStep_keeps _ _ _ _)
  refine Keeps.trans ?_ (evuStep_chain _ _ _).keeps
  exact (loadStep_keeps x conv w s).trans (xchStep_chain _ _).keeps

/-- A set that passes down the chain. -/
theorem runSet_keeps (x : SampleSet) (conv : Option (BitVec 24)) (w : SetOrder) (s : State) :
    Keeps s (runSet x conv w s) := by
  unfold runSet quiesceSet
  dsimp only
  refine Keeps.trans ?_ (autostartWith_keeps _ _)
  refine Keeps.trans ?_ (drain_keeps _ _)
  exact (sequenceSet_keeps x conv w s).trans (quiesceSample_keeps _ _)

/-- An update of the sampling unit. -/
theorem smu_keeps (s : State) (u : Smu) : Keeps s { s with smu := u } :=
  (chain_of_same (s := s) (t := { s with smu := u }) rfl rfl rfl rfl rfl rfl rfl rfl (.inl rfl) rfl rfl rfl).keeps

/-- The sampling unit as a set is completed (R76, R77). -/
theorem countSet_keeps (conv : Option (BitVec 24)) (w : SetOrder) (s : State) : Keeps s (countSet conv w s) := by
  unfold countSet
  split
  · exact smu_keeps s _
  · unfold countMiss
    dsimp only
    split
    · exact (smu_keeps s _).trans (post_keeps _ _ _)
    · exact smu_keeps s _

theorem completeSet_keeps (conv : Option (BitVec 24)) (w : SetOrder) (s : State) :
    Keeps s (completeSet conv w s) := by
  unfold completeSet withinSet
  split
  · exact (countSet_keeps conv w s).trans (runSet_keeps _ _ _ _)
  · exact .refl s

theorem arriveSet_keeps (code : BitVec 24) (w : SetOrder) (s : State) : Keeps s (arriveSet code w s) :=
  completeSet_keeps _ _ _

theorem missSet_keeps (w : SetOrder) (s : State) : Keeps s (missSet w s) := completeSet_keeps _ _ _

/-- A set completed where an event happens in it. -/
theorem setWhere_keeps (happens : Option (BitVec 24) → SetOrder → State → Bool) (conv : Option (BitVec 24))
    (w : SetOrder) (s : State) : Keeps s (setWhere happens conv w s) := by
  unfold setWhere
  split
  · exact completeSet_keeps _ _ _
  · exact .refl s

/-! ### The sample instant -/

/-- An update of the line filters and of what the readers have taken up. -/
theorem lines_keeps (s : State) (t : Tables) (l : List Line) :
    Keeps s { s with inForce := t, flu := { s.flu with lines := l } } :=
  keeps_of_view ⟨rfl, rfl, id, id, id⟩ id

/-- Only what the readers have taken up changes. -/
theorem inForce_keeps (s : State) (t : Tables) : Keeps s { s with inForce := t } :=
  keeps_of_view ⟨rfl, rfl, id, id, id⟩ id

/-- A missed set completed among the reports of its instant. -/
theorem missAmong_keeps (w : SetOrder) (old : Tables) (s : State) : Keeps s (missAmong w old s) :=
  ((inForce_keeps s _).trans (missSet_keeps w _)).trans (inForce_keeps _ _)

/-- With no set waiting, the completion among the reports changes nothing. -/
theorem missAmong_none {w : SetOrder} {old : Tables} {s : State} (h : s.smu.assembling = none) :
    missAmong w old s = s := by
  simp [missAmong, missSet, completeSet, withinSet, h]

theorem missFirst_keeps (order : List LineItem) (w : SetOrder) (s : State) : Keeps s (missFirst order w s) := by
  unfold missFirst
  split
  · exact .refl s
  · exact missSet_keeps w s

/-- With no set waiting, nothing is completed ahead of the reports. -/
theorem missFirst_none {order : List LineItem} {w : SetOrder} {s : State} (h : s.smu.assembling = none) :
    missFirst order w s = s := by
  unfold missFirst
  split
  · rfl
  · simp [missSet, completeSet, withinSet, h]

theorem takeItem_keeps (w : SetOrder) (old : Tables) (before s : State) (i : LineItem) :
    Keeps s (takeItem w old before s i) := by
  have line : ∀ fn kind, Keeps s (reportLine fn kind before s) := by
    intro fn kind
    unfold reportLine
    split
    · exact faultReport_keeps _ _
    · exact .refl s
  cases i
  case examine =>
    show Keeps s (examineGuard s)
    unfold examineGuard
    split
    · dsimp only
      split
      · split
        · exact (faultReport_keeps _ _).trans (faultReport_keeps _ _)
        · exact faultReport_keeps _ _
      · split
        · exact faultReport_keeps _ _
        · exact .refl s
    · exact .refl s
  case posLost =>
    show Keeps s (if s.smu.xhErr then faultReport .posLost s else s)
    split
    · exact faultReport_keeps _ _
    · exact .refl s
  case missed => exact missAmong_keeps w old s
  all_goals exact line _ _

theorem foldl_takeItem_keeps (w : SetOrder) (old : Tables) (before : State) (l : List LineItem) (s : State) :
    Keeps s (l.foldl (takeItem w old before) s) := by
  induction l generalizing s with
  | nil => exact .refl s
  | cons i l ih => exact (takeItem_keeps w old before s i).trans (ih _)

@[simp] theorem takeUp_inForce (s : State) : (takeUp s).inForce = s.cst.work := rfl
@[simp] theorem takeUp_ctx (s : State) : (takeUp s).ctx = s.ctx := rfl
@[simp] theorem sampleLines_ctx (levels : BitVec 8) (s : State) : (sampleLines levels s).ctx = s.ctx := rfl
@[simp] theorem missAmong_inForce (w : SetOrder) (old : Tables) (s : State) :
    (missAmong w old s).inForce = s.inForce := rfl
@[simp] theorem latchSet_flu (s : State) : (latchSet s).flu = s.flu := rfl
@[simp] theorem latchSet_ctx (s : State) : (latchSet s).ctx = s.ctx := rfl
@[simp] theorem latchSet_ptu (s : State) : (latchSet s).ptu = s.ptu := rfl

theorem latchSet_keeps (s : State) : Keeps s (latchSet s) :=
  keeps_of_view ⟨rfl, rfl, id, id, id⟩ id

/-- A sample instant (R75). -/
theorem takeInstant_keeps (levels : BitVec 8) (order : List LineItem) (w : SetOrder) (s : State) :
    Keeps s (takeInstant levels order w s) := by
  unfold takeInstant
  dsimp only
  refine Keeps.trans ?_ (latchSet_keeps _)
  refine Keeps.trans ?_ (foldl_takeItem_keeps _ _ _ _ _)
  refine Keeps.trans ?_ (lines_keeps _ _ _)
  refine Keeps.trans ?_ (lines_keeps _ _ _)
  exact (missFirst_keeps order w s).trans (smu_keeps _ _)

/-! ### Requests and resets -/

/-- What a port takes in or gives out shows nowhere else. -/
theorem setPort_keeps (s : State) (p : Port) (x : PortState) (h : QueueFits (s.port p) → QueueFits x) :
    Keeps s (s.setPort p x) := by
  refine keeps_of_view ⟨rfl, rfl, id, fun g => ?_, id⟩ id
  obtain ⟨a, b, c⟩ := g
  cases p
  · exact ⟨h a, b, c⟩
  · exact ⟨a, h b, c⟩
  · exact ⟨a, b, h c⟩

theorem beginServing_keeps (p : Port) (tag code : Byte) (r : Option Reply) (s : State) :
    Keeps s (beginServing p tag code r s) := setPort_keeps s p _ id

theorem huntAgain_keeps (p : Port) (s : State) : Keeps s (huntAgain p s) := setPort_keeps s p _ id

theorem answerBusy_keeps (p : Port) (tag code : Byte) (s : State) : Keeps s (answerBusy p tag code s) := by
  unfold answerBusy
  split
  · exact .refl s
  · exact setPort_keeps s p _ id

theorem takeFrame_keeps (p : Port) (tag code : Byte) (f : State → State) (s : State) (h : ∀ u, Keeps u (f u)) :
    Keeps s (takeFrame p tag code f s) := by
  unfold takeFrame
  split
  · dsimp only
    split
    · exact (huntAgain_keeps p s).trans (answerBusy_keeps _ _ _ _)
    · exact (huntAgain_keeps p s).trans (h _)
  · exact .refl s

/-- Clocking the supervisor link moves its transmit position, within the reply in transmission, and nothing else (R195). -/
theorem clockLink_cases (p : Port) (n : Nat) (s : State) :
    clockLink p n s = s ∨
    (p = .supervisor ∧ s.power = true ∧ ∃ tag code body, readyReply s.ptu.supervisor = some (tag, code, body) ∧
      clockLink p n s = { s with ptu := { s.ptu with misoSent := min (frameLength body) (s.ptu.misoSent + n) } }) := by
  unfold clockLink
  split
  · rename_i tag code body h hr
    simp only [Bool.and_eq_true, beq_iff_eq, hears] at h
    exact .inr ⟨h.2, h.1.1, tag, code, body, hr, rfl⟩
  · exact .inl rfl

theorem clockLink_keeps (p : Port) (n : Nat) (s : State) : Keeps s (clockLink p n s) := by
  rcases clockLink_cases p n s with h | ⟨-, -, _, _, _, -, h⟩
  · rw [h]; exact .refl s
  · rw [h]; exact keeps_of_view ⟨rfl, rfl, id, id, id⟩ id

theorem clockFrame_keeps (p : Port) (body : List Byte) (s : State) : Keeps s (clockFrame p body s) :=
  clockLink_keeps _ _ _

/-- A request keeps what its own function keeps (R196, R197). -/
theorem request_keeps (r : Request) (p : Port) (tag : Byte) (body : List Byte) (f : State → Reply × State) (s : State)
    (h : ∀ u, Keeps u (f u).2) : Keeps s (request r p tag body f s) := by
  refine (clockFrame_keeps p body s).trans (takeFrame_keeps _ _ _ _ _ (fun u => ?_))
  unfold serveRequest
  split
  · exact (h u).trans (beginServing_keeps _ _ _ _ _)
  · exact beginServing_keeps _ _ _ _ _

end Sys2Proof.Machine
end

