-- ==== Sys2Proof/Laws/Requests.lean ====
section
/-! SUPPORT. Every request, byte run and reset keeps the agreement of the contexts and the bounds. -/

namespace Sys2Proof.Machine

/-- A cause of the causes table that is raised (R19). -/
theorem raiseCause_keeps (cause : Cause) (r : Requester) (i : Option Context) (e : Option EndCause) (s : State)
    (h : ∀ out, s.ctx.resident = some out → s.view.Suits → out ≠ .safe ∧ i ≠ some .safe ∧
      (∀ k, i = some (.test k) → out = .service ∧ (s.view.slots k).state = .parked) ∧
      (cause ≠ .operator → out ≠ .service ∧ i = none ∧ e.isSome = true) ∧
      (out ≠ .service → cause = .operator → i = some .service)) : Keeps s (raiseCause cause r i e s) := by
  rcases hr : s.ctx.resident with _ | out
  · rw [raiseCause_refused _ _ _ _ _ (.inl hr)]; exact .refl s
  · rcases ha : causeAccepted cause s with _ | _
    · rw [raiseCause_refused _ _ _ _ _ (.inr ha)]; exact .refl s
    · refine Keeps.trans ?_ (raiseCause_accepted cause r i e s hr ha).keeps
      refine keeps_of_view (bounds_of_same rfl rfl rfl rfl rfl rfl) (fun g => ?_)
      have hv : (State.view { s with
        ctx := { s.ctx with changeover := some (raisedChangeover cause r out i e s.ctx.changeover) }
        msq := { s.msq with stillCount := continuedStill s.msq s.ctx.changeover } }) =
        { s.view with changeover := some (raisedChangeover cause r out i e s.ctx.changeover) } := rfl
      rw [hv]
      refine { g with outgoing := fun c hc => ?_ }
      cases hc
      exact ⟨hr, h out hr g⟩

theorem setSlot_bounds (k : SlotId) (x : Slot) (s : State) : Bounds s (s.setSlot k x) :=
  bounds_of_same rfl rfl rfl rfl rfl rfl
theorem setQueue_bounds (q : List SlotId) (s : State) : Bounds s (s.setQueue q) :=
  bounds_of_same rfl rfl rfl rfl rfl rfl

theorem setSlot_same_keeps (k : SlotId) (x : Slot) (s : State) (h : x.view = (s.slot k).view) :
    Keeps s (s.setSlot k x) := by
  refine keeps_of_view (setSlot_bounds k x s) (fun g => ?_)
  have : (s.setSlot k x).view = s.view := by
    rw [State.view_setSlot, h]
    have : Function.update s.view.slots k (s.slot k).view = s.view.slots := Function.update_eq_self k s.view.slots
    rw [this]
  rw [this]; exact g

theorem view_setQueue (q : List SlotId) (s : State) : (s.setQueue q).view = { s.view with queue := q } := rfl


/-- One slot changes state, with the queue and the binding, and the stage stays. -/
theorem View.Suits.reslot {v : View} (h : v.Suits) {k : SlotId} {x : SlotView} {q : List SlotId} {b : Option SlotId}
    (nodup : q.Nodup) (queue : ∀ j, j ∈ q ↔ (j ≠ k ∧ j ∈ v.queue) ∨ (j = k ∧ x.state = .loaded))
    (was : (v.slots k).state ≠ .resident) (now : x.state ≠ .resident)
    (inc : ∀ c, v.changeover = some c → c.incoming ≠ some (.test k))
    (grips : ∀ j, j ≠ k → inGrips (v.slots j).state = true → b = some j) (gripk : inGrips x.state = true → b = some k)
    (bound : ∀ j, j ≠ k → b = some j → bindable (v.slots j).state = true) (boundk : b = some k → bindable x.state =
        true)
    (parked : x.state = .parked → x.runtime = true) (s0 : inGrips x.state = true → x.s0 = true) :
    ({ v with slots := Function.update v.slots k x, queue := q, binding := b } : View).Suits := by
  refine
    { h with
      nodup := nodup, queue := fun j => ?_, grips := fun j hj => ?_, bound := fun j hj => ?_,
      resident := fun j => ?_, outgoing := fun c hc => ?_, parked := fun j hj => ?_, section_ := fun j hj => ?_ }
  all_goals simp only at *
  · rw [queue]
    by_cases hjk : j = k
    · subst hjk; simp
    · simp [hjk, h.queue]
  · by_cases hjk : j = k
    · subst hjk; simp at hj; exact gripk hj
    · rw [Function.update_of_ne hjk] at hj; exact grips j hjk hj
  · by_cases hjk : j = k
    · subst hjk; simpa using boundk hj
    · rw [Function.update_of_ne hjk]; exact bound j hjk hj
  · by_cases hjk : j = k
    · subst hjk
      have := h.resident j
      simp [was] at this
      simp [this, now]
    · rw [Function.update_of_ne hjk]; exact h.resident j
  · obtain ⟨a, b, c', d, f⟩ := h.outgoing c hc
    refine ⟨a, b, c', fun j hj => ?_, f⟩
    have := d j hj
    by_cases hjk : j = k
    · subst hjk
      exact absurd hj (inc c hc)
    · rw [Function.update_of_ne hjk]; exact this
  · by_cases hjk : j = k
    · subst hjk; simp at hj ⊢; exact parked hj
    · rw [Function.update_of_ne hjk] at hj ⊢; exact h.parked j hj
  · by_cases hjk : j = k
    · subst hjk; simp at hj ⊢; exact s0 hj
    · rw [Function.update_of_ne hjk] at hj ⊢; exact h.section_ j hj

theorem View.Suits.incoming_ne {v : View} (h : v.Suits) {k : SlotId} (hk : (v.slots k).state ≠ .parked) :
    ∀ c, v.changeover = some c → c.incoming ≠ some (.test k) := by
  intro c hc e
  exact hk ((h.outgoing c hc).2.2.2.1 k e).2

/-- A LOAD (R3). -/
theorem loadOrder_keeps (k : SlotId) (header : TestOrder) (gs : List SegmentBody) (s : State) :
    Keeps s (loadOrder k header gs s).2 := by
  unfold loadOrder
  split
  · exact .refl s
  · rename_i he
    rw [not_not] at he
    split
    · exact .refl s
    · dsimp only
      refine keeps_of_view (bounds_of_same rfl rfl rfl rfl rfl rfl) (fun g => ?_)
      have he' : (s.view.slots k).state = .empty := he
      have e := State.view_setSlot s k { Slot.blank with state := .loaded, order := limitOrder s.inForce (withProgram header gs) }
      have hk : k ∉ s.view.queue := by rw [g.queue, he']; simp
      show ({ State.view (s.setSlot k { Slot.blank with state := .loaded, order := limitOrder s.inForce (withProgram header gs) }) with
        queue := s.view.queue ++ [k] } : View).Suits
      rw [e]
      refine g.reslot (b := s.view.binding) (List.nodup_append.2 ⟨g.nodup, by simp,
          fun a ha b hb e => ?_⟩) (fun j => ?_) (by rw [he']; simp) (by simp [Slot.view])
        (g.incoming_ne (by rw [he']; simp)) (fun j _ => g.grips j) (fun x => by simp [Slot.view,
            inGrips] at x) (fun j _ => g.bound j)
        (fun x => ?_) (fun x => by simp [Slot.view] at x) (fun x => by simp [Slot.view, inGrips] at x)
      · rw [List.mem_singleton] at hb
        exact hk (by rw [← hb, ← e]; exact ha)
      · by_cases hjk : j = k
        · subst hjk; simp [Slot.view]
        · simp [hjk]
      · have := g.bound k x
        rw [he'] at this; cases this

theorem assembly_keeps (s : State) (a : Option Assembly) : Keeps s { s with ptu := { s.ptu with assembly := a } } :=
  keeps_of_view ⟨rfl, rfl, id, id, id⟩ id

theorem serveLoad_keeps (body : List Byte) (s : State) : Keeps s (serveLoad body s).2 := by
  unfold serveLoad
  split
  · exact .refl s
  · split
    · unfold serveHeader
      split
      · exact assembly_keeps s _
      · exact .refl s
    · split
      · unfold serveProgram
        split
        · exact assembly_keeps s _
        · split
          · exact .refl s
          · split
            · exact (assembly_keeps s _).trans (loadOrder_keeps _ _ _ _)
            · exact assembly_keeps s _
      · exact .refl s

theorem servePromote_keeps (body : List Byte) (s : State) : Keeps s (servePromote body s).2 := by
  unfold servePromote
  split
  · rename_i k _
    unfold promoteSlot
    split
    · rename_i hk
      refine keeps_of_view (setQueue_bounds _ s) (fun g => ?_)
      rw [view_setQueue]
      have hk' : (s.view.slots k).state = .loaded := hk
      refine
        { g with
          nodup := List.nodup_cons.2 ⟨fun x => (g.nodup.mem_erase_iff.1 x).1 rfl, g.nodup.erase k⟩,
          queue := fun j => ?_ }
      have := g.queue j
      by_cases hjk : j = k
      · subst hjk; simp [hk']
      · rw [← this]
        simp only [List.mem_cons, hjk, false_or]
        change j ∈ s.view.queue.erase k ↔ _
        rw [g.nodup.mem_erase_iff]
        exact ⟨fun x => x.2, fun x => ⟨hjk, x⟩⟩
    · exact .refl s
  · exact .refl s

theorem xch_keeps (s : State) (x : Xch) : Keeps s { s with xch := x } := (chain_xch s x).keeps

theorem mem_erase_iff_of {v : View} (h : v.Suits) (j k : SlotId) : j ∈ v.queue.erase k ↔ j ≠ k ∧ j ∈ v.queue :=
  h.nodup.mem_erase_iff

theorem serveFree_keeps (body : List Byte) (s : State) : Keeps s (serveFree body s).2 := by
  unfold serveFree
  split
  · rename_i k _
    unfold freeSlot
    split
    · rename_i hf
      unfold emptySlot
      dsimp only
      have key : Keeps s ((s.setSlot k Slot.blank).setQueue (s.ctx.queue.erase k)) := by
        refine keeps_of_view ((setSlot_bounds k _ s).trans (setQueue_bounds _ _)) (fun g => ?_)
        rw [view_setQueue, State.view_setSlot]
        have hst : (s.view.slots k).state = .loaded ∨ (((s.view.slots k).state = .done ∨ (s.view.slots k).state =
            .void) ∧ s.ctx.binding ≠ some k) := by
          unfold freeable at hf
          have e : (s.view.slots k).state = (s.slot k).state := rfl
          rw [e]
          split at hf <;> simp_all
        refine g.reslot (b := s.view.binding) (g.nodup.erase k) (fun j => ?_) ?_ (by simp [Slot.view,
            Slot.blank]) (g.incoming_ne ?_) (fun j _ => g.grips j)
          (fun x => by simp [Slot.view, Slot.blank, inGrips] at x) (fun j _ => g.bound j) (fun x => ?_) (fun x => by
              simp [Slot.view, Slot.blank] at x)
          (fun x => by simp [Slot.view, Slot.blank, inGrips] at x)
        · change j ∈ s.view.queue.erase k ↔ _
          rw [mem_erase_iff_of g]; simp [Slot.view, Slot.blank]
        · rcases hst with e | ⟨e | e, _⟩ <;> rw [e] <;> simp
        · rcases hst with e | ⟨e | e, _⟩ <;> rw [e] <;> simp
        · rcases hst with e | ⟨_, e⟩
          · have := g.bound k x; rw [e] at this; cases this
          · exact absurd x e
      split
      · exact key.trans (xch_keeps _ _)
      · exact key
    · exact .refl s
  · exact .refl s

theorem serveClearCondition_keeps (body : List Byte) (s : State) : Keeps s (serveClearCondition body s).2 := by
  unfold serveClearCondition
  split
  · unfold clearMark
    split
    · exact .refl s
    · split
      · exact .refl s
      · split
        · exact setSlot_same_keeps _ _ s rfl
        · exact .refl s
  · exact .refl s

theorem serveNext_keeps (body : List Byte) (s : State) : Keeps s (serveNext body s).2 := by
  unfold serveNext
  split <;> exact .refl s

theorem serveBind_keeps (body : List Byte) (s : State) : Keeps s (serveBind body s).2 := by
  unfold serveBind
  split
  · exact .refl s
  · rename_i b _
    split
    · exact .refl s
    · rename_i hr
      dsimp only
      refine Keeps.trans ?_ (autostartWith_keeps _ _)
      unfold bindRefusal at hr
      dsimp only at hr
      split at hr
      · cases hr
      rename_i hst
      rw [not_not] at hst
      split at hr
      · cases hr
      rename_i hbp
      simp only [not_or, Bool.not_eq_true, Option.isSome_eq_false_iff, Option.isNone_iff_eq_none, not_not] at hbp
      unfold bindSlot
      dsimp only
      refine Keeps.trans ?_ (raiseEvent_frame _ _ _).keeps
      refine keeps_of_view (bounds_of_same rfl rfl rfl rfl rfl rfl) (fun g => ?_)
      have e := State.view_setSlot s b.slot { s.slot b.slot with
          state := .bound
          dims := some { first := b.first, second := b.second }
          s0 := some (crossSection (s.slot b.slot).order.shape b.first b.second) }
      show ({ State.view (s.setSlot b.slot { s.slot b.slot with
          state := .bound
          dims := some { first := b.first, second := b.second }
          s0 := some (crossSection (s.slot b.slot).order.shape b.first b.second) }) with
        queue := s.view.queue.erase b.slot, binding := some b.slot } : View).Suits
      rw [e]
      have hst' : (s.view.slots b.slot).state = .loaded := hst
      have hb : s.view.binding = none := hbp.1
      refine g.reslot (g.nodup.erase _) (fun j => ?_) (by rw [hst']; simp) (by simp [Slot.view]) (g.incoming_ne (by
          rw [hst']; simp))
        (fun j _ hj => ?_) (fun _ => rfl) (fun j hj hjb => ?_) (fun _ => rfl) (fun x => by simp [Slot.view] at x)
            (fun _ => rfl)
      · rw [mem_erase_iff_of g]; simp [Slot.view]
      · have := g.grips j hj; rw [hb] at this; cases this
      · exact absurd (Option.some.inj hjb).symm hj

theorem unbind_keeps (k : SlotId) (s : State) (x : Slot) (q : List SlotId)
    (h : s.view.Suits →
      ({ s.view with slots := Function.update s.view.slots k x.view, queue := q, binding := none } : View).Suits) :
    Keeps s (unbind k ((s.setSlot k x).setQueue q)) := by
  unfold unbind
  refine Keeps.trans ?_ (raiseEvent_frame _ _ _).keeps
  refine keeps_of_view (bounds_of_same rfl rfl rfl rfl rfl rfl) (fun g => ?_)
  show ({ State.view (s.setSlot k x) with queue := q, binding := none } : View).Suits
  rw [State.view_setSlot]
  exact h g

theorem serveRelease_keeps (body : List Byte) (s : State) : Keeps s (serveRelease body s).2 := by
  unfold serveRelease
  split
  · exact .refl s
  · rename_i k _ hb
    have hb' : s.view.binding = some k := hb
    have other : s.view.Suits → ∀ j, j ≠ k → inGrips (s.view.slots j).state = true → (none : Option SlotId) = some j
        := by
      intro g j hj hg
      have := g.grips j hg
      rw [hb'] at this
      exact absurd (Option.some.inj this).symm hj
    have dv : ∀ (st : SlotState), st = .done ∨ st = .void → (s.slot k).state = st → Keeps s (unbind k s) := by
      intro st hd hk
      have hk' : (s.view.slots k).state = st := hk
      have : unbind k s = unbind k ((s.setSlot k (s.slot k)).setQueue s.ctx.queue) := by
        simp [State.setSlot, State.setQueue, State.slot]
      rw [this]
      refine unbind_keeps k s _ _ (fun g => ?_)
      refine g.reslot g.nodup (fun j => ?_) ?_ ?_ (g.incoming_ne ?_) (other g) (fun x => ?_) (fun j _ x => by cases
          x) (fun x => by cases x)
        (fun x => ?_) (fun x => ?_)
      · have hq := g.queue j
        change j ∈ s.view.queue ↔ _
        have hh : (s.slot k).view.state = st := hk
        rw [hh]
        by_cases hjk : j = k
        · subst hjk; rw [hq, hk']; rcases hd with rfl | rfl <;> simp
        · simp [hjk]
      · rw [hk']; rcases hd with rfl | rfl <;> simp
      · rw [show (s.slot k).view.state = st from hk]; rcases hd with rfl | rfl <;> simp
      · rw [hk']; rcases hd with rfl | rfl <;> simp
      · rw [show (s.slot k).view.state = st from hk] at x; rcases hd with rfl | rfl <;> cases x
      · rw [show (s.slot k).view.state = st from hk] at x; rcases hd with rfl | rfl <;> cases x
      · rw [show (s.slot k).view.state = st from hk] at x; rcases hd with rfl | rfl <;> cases x
    unfold releaseSlot
    split
    · rename_i hk
      have hk' : (s.view.slots k).state = .bound := hk
      dsimp only
      refine unbind_keeps k s _ _ (fun g => ?_)
      have hn : k ∉ s.view.queue := by rw [g.queue, hk']; simp
      refine g.reslot (List.nodup_cons.2 ⟨hn, g.nodup⟩) (fun j => ?_) (by rw [hk']; simp) (by simp [Slot.view])
          (g.incoming_ne (by rw [hk']; simp)) (other g)
        (fun x => by simp [Slot.view, inGrips] at x) (fun j _ x => by cases x) (fun x => by cases x) (fun x => by
            simp [Slot.view] at x) (fun x => by simp [Slot.view, inGrips] at x)
      by_cases hjk : j = k
      · subst hjk; simp [Slot.view]
      · simp [hjk]; rfl
    · rename_i hk; exact dv _ (.inl rfl) hk
    · rename_i hk; exact dv _ (.inr rfl) hk
    · exact .refl s
  · exact .refl s

theorem startBound_keeps (s : State) : Keeps s (startBound s).2 := by
  unfold startBound
  split
  · exact .refl s
  · split
    · exact .refl s
    · rename_i hk
      rw [not_not] at hk
      split
      · exact .refl s
      · split
        · exact .refl s
        · rename_i hu
          obtain ⟨a, b, c⟩ := startReady hu
          exact startTest_keeps _ s hk a b c

theorem serveStart_keeps (body : List Byte) (s : State) : Keeps s (serveStart body s).2 := by
  unfold serveStart
  split
  · exact startBound_keeps s
  · exact .refl s

theorem residentTest_of_phase {s : State} (g : s.view.Suits) (h : s.ctx.phase = .test) {out : Context}
    (ho : s.ctx.resident = some out) : ∃ k, out = .test k := by
  have := g.phase
  rw [show s.view.phase = .test from h, show s.view.resident = some out from ho] at this
  cases out <;> simp_all [residentFits]

theorem residentService_of_phase {s : State} (g : s.view.Suits) (h : s.ctx.phase = .service) {out : Context}
    (ho : s.ctx.resident = some out) : out = .service := by
  have := g.phase
  rw [show s.view.phase = .service from h, show s.view.resident = some out from ho] at this
  cases out <;> simp_all [residentFits]

theorem serveHold_keeps (p : Port) (body : List Byte) (s : State) : Keeps s (serveHold p body s).2 := by
  unfold serveHold
  split
  · exact .refl s
  · split
    · exact .refl s
    · rename_i hp
      rw [not_not] at hp
      split
      · exact .refl s
      · refine raiseCause_keeps _ _ _ _ s (fun out ho g => ?_)
        obtain ⟨k, rfl⟩ := residentTest_of_phase g hp ho
        simp

/-- A PARKED test that is aborted (R25). -/
theorem directVoid_keeps (k : SlotId) (s : State) (hk : (s.slot k).state = .parked) (hi : incomingPending k s =
    false) :
    Keeps s (directVoid k s) := by
  have key : ∀ u : State, (u.slot k).state = .parked → (∀ c, u.ctx.changeover = some c → c.incoming ≠ some (.test k))
      → Keeps u (u.setSlot k { u.slot k with
      state := .void
      runtime := (u.slot k).runtime.map fun rt => { rt with eval := closingSteps (u.slot k).order rt.eval }
      outcome := some abortOutcome }) := by
    intro u hu hc
    refine keeps_of_view (setSlot_bounds k _ u) (fun g => ?_)
    rw [State.view_setSlot]
    have hu' : (u.view.slots k).state = .parked := hu
    have hb := g.grips k (by rw [hu']; rfl)
    refine g.reslot (q := u.view.queue) (b := u.view.binding) g.nodup (fun j => ?_) (by rw [hu']; simp) (by simp
        [Slot.view]) (fun c hcc => hc c hcc)
      (fun j _ => g.grips j) (fun x => by simp [Slot.view, inGrips] at x) (fun j _ => g.bound j) (fun _ => rfl) (fun
          x => by simp [Slot.view] at x) (fun x => by simp [Slot.view, inGrips] at x)
    by_cases hjk : j = k
    · subst hjk
      have := g.queue j
      rw [hu'] at this
      simp [Slot.view, this]
    · simp [hjk]
  unfold directVoid
  dsimp only
  have hinc : ∀ c, s.ctx.changeover = some c → c.incoming ≠ some (.test k) := by
    intro c hc e
    unfold incomingPending at hi
    rw [hc] at hi
    simp [e] at hi
  have f := setMark_frame k .aborted 0 (lastIndex s k 9) s
  refine Keeps.trans ?_ (raiseEvent_frame _ _ _).keeps
  refine Keeps.trans ?_ (offerEnd_frame _ _).keeps
  by_cases hs : ContextsSuit s
  · refine f.keeps.trans (key _ (by rw [f.state]; exact hk) (fun c hc => ?_))
    rcases f.cause with e | ⟨d, e, w⟩
    · rw [e] at hc; exact hinc c hc
    · rw [e] at hc
      cases hc
      rcases w.shape with x | x
      · rw [x.2.1]; simp
      · rw [x.2]; simp
  · exact .of_bounds (f.keeps.bounds.trans (setSlot_bounds _ _ _)) (fun g => absurd g hs)

theorem serveAbort_keeps (p : Port) (body : List Byte) (s : State) : Keeps s (serveAbort p body s).2 := by
  unfold serveAbort
  split
  · rename_i k _
    unfold abortSlot
    split
    · rename_i hk
      split
      · dsimp only
        refine Keeps.trans ?_ (setMark_frame _ _ _ _ _).keeps
        refine raiseCause_keeps _ _ _ _ s (fun out ho g => ?_)
        have := (g.resident k).1 hk
        rw [show s.view.resident = some out from ho] at this
        cases this
        simp
      · exact .refl s
    · rename_i hk
      split
      · exact .refl s
      · rename_i hi
        exact directVoid_keeps k s hk (by simpa using hi)
    · exact .refl s
  · exact .refl s

theorem serveResume_keeps (p : Port) (body : List Byte) (s : State) : Keeps s (serveResume p body s).2 := by
  unfold serveResume
  split
  · rename_i k _
    unfold resumeSlot
    split
    · exact .refl s
    · rename_i hr
      unfold resumeRefusal at hr
      split at hr
      · cases hr
      rename_i hk
      rw [not_not] at hk
      split at hr
      · cases hr
      rename_i hph
      split at hr
      · cases hr
      split at hr
      · cases hr
      rename_i hc
      simp only [Bool.not_eq_true, Option.isSome_eq_false_iff, Option.isNone_iff_eq_none] at hc
      split at hr
      · cases hr
      rename_i hu
      have hw : s.cst.window = .closed := by
        have := firstUnmet_none hu .calWindow (by decide)
        simpa [itemHolds, calWindowOpen] using this
      dsimp only
      split
      · rename_i hs
        refine raiseCause_keeps _ _ _ _ s (fun out ho g => ?_)
        rw [residentService_of_phase g hs ho]
        refine ⟨by simp, by simp, fun j hj => ?_, by simp, by simp⟩
        cases hj
        exact ⟨rfl, hk⟩
      · rename_i hs
        have hidle : s.ctx.phase = .idle := by
          by_contra hx
          exact hph ⟨hs, hx⟩
        refine Keeps.trans ?_ (announcePhase_frame _).keeps
        have f := offerResume_frame k s
        by_cases hsu : ContextsSuit s
        · have g := suit_iff_view.1 hsu
          refine f.keeps.trans (enterResumed_keeps k _ (by rw [f.state]; exact hk) (by rw [f.phase]; exact hidle) ?_
              (by rw [f.cst]; exact hw)
            (by rw [f.runtime]; exact g.parked k hk))
          rcases f.cause with e | ⟨c, e, w⟩
          · rw [e]; exact hc
          · have := w.outgoing
            have p := g.phase
            rw [show s.view.phase = .idle from hidle, show s.view.resident = some c.outgoing from this] at p
            simp [residentFits] at p
        · exact .of_bounds (f.chain.bounds.trans (enterResumed_bounds _ _)) (fun g => absurd g hsu)
  · exact .refl s

theorem serveLeave_keeps (p : Port) (body : List Byte) (s : State) : Keeps s (serveLeave p body s).2 := by
  unfold serveLeave
  split
  · exact .refl s
  · split
    · exact .refl s
    · rename_i hp
      rw [not_not] at hp
      split
      · exact .refl s
      · split
        · exact .refl s
        · split
          · exact .refl s
          · refine raiseCause_keeps _ _ _ _ s (fun out ho g => ?_)
            rw [residentService_of_phase g hp ho]
            simp

theorem serveClear_keeps (p : Port) (body : List Byte) (s : State) : Keeps s (serveClear p body s).2 := by
  unfold serveClear
  split
  · exact .refl s
  · split
    · exact .refl s
    · rename_i hr
      unfold clearRefusal at hr
      split at hr
      · cases hr
      rename_i hp
      rw [not_not] at hp
      unfold clearFaults
      dsimp only
      refine Keeps.trans ?_ (raiseEvent_frame _ _ _).keeps
      refine Keeps.trans ?_ (announcePhase_frame _).keeps
      have b : Bounds s { s with
          flu := { s.flu with faults := [], alarm := false }
          ctx := { s.ctx with resident := none } } := ⟨rfl, rfl, id, id, fun h => ⟨h.1, rfl⟩⟩
      refine keeps_of_view (b.trans (setPhase_bounds _ _)) (fun g => ?_)
      obtain ⟨r, e, _, _, d⟩ := setPhase_view .idle { s with
          flu := { s.flu with faults := [], alarm := false }
          ctx := { s.ctx with resident := none } }
      rw [e, d rfl]
      have hp' : s.view.phase = .safe := hp
      have hres : s.view.resident = some .safe := by
        have := g.phase
        rw [hp'] at this
        rcases hx : s.view.resident with _ | (k | _ | _) <;> rw [hx] at this <;> first | rfl | cases this
      have key : ({ State.view { s with
          flu := { s.flu with faults := [], alarm := false }
          ctx := { s.ctx with resident := none } } with phase := Phase.idle, tare := (State.view { s with
          flu := { s.flu with faults := [], alarm := false }
          ctx := { s.ctx with resident := none } }).tare } : View) =
          s.view.staged
            { phase := .idle, resident := none, holder := false, banks := false, tare := none, faults := [] } := by
        have h1 := g.live
        have h2 := g.lock
        have h3 := g.holder
        have h4 := g.banks
        have h5 := g.tare
        have h6 : s.view.changeover = none := by
          rcases hc : s.view.changeover with _ | c
          · rfl
          · have := g.outgoing c hc
            rw [hres] at this
            exact absurd (Option.some.inj this.1).symm this.2.1
        rw [hp'] at h1 h2 h3 h4 h5
        have h3' : s.view.holder = false := by simpa using h3
        have h4' : s.view.banks = false := by simpa using h4
        have h5' : s.view.tare = none := by
          rcases ht : s.view.tare with _ | (q | _)
          · rfl
          · rw [ht] at h5; cases h5
          · rw [ht] at h5; cases h5
        change ({ s.view with faults := [], resident := none, phase := .idle } : View) = _
        simp [View.staged, h1, h2, h3', h4', h5', h6]
      rw [key]
      exact g.stage ⟨rfl, by simp, by simp, rfl, by simp, by simp⟩ (by rw [hp']; simp) (by simp) (fun _ => .inl rfl)

theorem setService_keeps (p : Port) (rate : Int) (t : Option Int) (v : Int) (s : State) (h : s.ctx.phase = .service) :
    Keeps s (setService p rate t v s) := by
  refine keeps_of_view (bounds_of_same rfl rfl rfl rfl rfl rfl) (fun g => ?_)
  have : (setService p rate t v s).view = { s.view with holder := true } := by
    simp [setService, State.view]
    rfl
  rw [this]
  exact { g with holder := fun _ => h }

theorem ensureService_keeps (p : Port) (s : State) (h : motionRefusal s = none) :
    Keeps s (ensureService p s) ∧ (ensureService p s).ctx.phase = .service := by
  unfold motionRefusal at h
  split at h
  · cases h
  rename_i hc
  simp only [Bool.not_eq_true, Option.isSome_eq_false_iff, Option.isNone_iff_eq_none] at hc
  unfold ensureService
  split at h
  · rename_i hp
    rw [if_neg (by rw [hp]; simp)]
    exact ⟨.refl s, hp⟩
  · split at h
    · cases h
    rename_i hp
    rw [not_not] at hp
    split at h
    · cases h
    rename_i hw
    rw [if_pos hp]
    refine ⟨(enterService_keeps _ s hp hc (by simpa [calWindowOpen] using hw)).trans (announcePhase_frame _).keeps,
        ?_⟩
    rw [show (announcePhase (enterService (some p) s)).ctx = (enterService (some p) s).ctx from by simp
        [announcePhase]]
    have := congrArg View.phase (enterService_view (some p) s)
    exact this

theorem serveJog_keeps (p : Port) (body : List Byte) (s : State) : Keeps s (serveJog p body s).2 := by
  unfold serveJog
  split
  · unfold jogAt
    split
    · exact .refl s
    · rename_i h
      obtain ⟨a, b⟩ := ensureService_keeps p s h
      exact a.trans (setService_keeps _ _ _ _ _ b)
  · exact .refl s

theorem serveJogStop_keeps (p : Port) (body : List Byte) (s : State) : Keeps s (serveJogStop p body s).2 := by
  unfold serveJogStop
  split
  · exact .refl s
  · split
    · exact .refl s
    · split
      · exact .refl s
      · rename_i h
        rw [not_not] at h
        exact setService_keeps _ _ _ _ _ h

theorem serveMove_keeps (p : Port) (body : List Byte) (s : State) : Keeps s (serveMove p body s).2 := by
  unfold serveMove
  split
  · unfold moveTo
    split
    · exact .refl s
    · rename_i h
      have : motionRefusal s = none := by
        unfold moveRefusal at h
        split at h
        · cases h
        · assumption
      obtain ⟨a, b⟩ := ensureService_keeps p s this
      exact a.trans (setService_keeps _ _ _ _ _ b)
  · exact .refl s

theorem serveAmend_keeps (p : Port) (body : List Byte) (s : State) : Keeps s (serveAmend p body s).2 := by
  unfold serveAmend
  split
  · unfold amendActive
    split
    · exact .refl s
    · rename_i b hb
      split
      · exact .refl s
      · dsimp only
        have f := supersedeStage_frame s
        refine f.keeps.trans (chain_msq _ _ ?_).keeps
        simp [f.mark.active, hb]
  · exact .refl s

theorem shiftPosRef_view (c : Int) (x : Slot) : (shiftPosRef c x).view = x.view := by
  unfold shiftPosRef
  split
  · simp [Slot.view]
  · rfl

theorem serveZeroPosition_keeps (body : List Byte) (s : State) : Keeps s (serveZeroPosition body s).2 := by
  unfold serveZeroPosition
  split
  · exact .refl s
  · split
    · refine keeps_of_view (bounds_of_same rfl rfl rfl rfl rfl rfl) (fun g => ?_)
      have : (zeroPosition s).view = s.view := by
        unfold zeroPosition State.view
        simp only [View.mk.injEq, and_true]
        funext k
        simp [State.slot, shiftPosRef_view]
      show (zeroPosition s).view.Suits
      rw [this]; exact g
    · exact .refl s

theorem serveTare_keeps (p : Port) (body : List Byte) (s : State) : Keeps s (serveTare p body s).2 := by
  unfold serveTare
  split
  · exact .refl s
  · split
    · exact .refl s
    · rename_i hp
      split
      · exact .refl s
      · split
        · exact .refl s
        · split
          · exact .refl s
          · refine keeps_of_view (bounds_of_same rfl rfl rfl rfl rfl rfl) (fun g => ?_)
            change ({ s.view with tare := some (.port p) } : View).Suits
            refine { g with tare := ?_ }
            show kindFits s.ctx.phase (some (.port p)) = true
            cases hx : s.ctx.phase <;> simp_all [kindFits]

theorem lockStore_keeps (s : State) (h : s.cst.window = .closed) : Keeps s (lockStore s) := by
  refine keeps_of_view (bounds_of_same rfl rfl rfl rfl rfl rfl) (fun g => ?_)
  change ({ s.view with calLock := true } : View).Suits
  refine { g with window := fun x => ?_ }
  have : s.view.window = false := by simp [State.view, h]
  rw [show ({ s.view with calLock := true } : View).window = s.view.window from rfl, this] at x
  cases x

theorem window_keeps (s : State) (w : CalWindow) (nv : Nonvolatile) (tb : Tables) (n : Nat) (h : ContextsSuit s →
    w ≠ .closed → s.cst.lock = false ∧ (s.ctx.phase = .idle ∨ s.ctx.phase = .safe)) :
    Keeps s { s with cst := { s.cst with nv := nv, work := tb, window := w, armsAt := n } } := by
  refine keeps_of_view (bounds_of_same rfl rfl rfl rfl rfl rfl) (fun g => ?_)
  change ({ s.view with window := w != .closed } : View).Suits
  exact { g with window := fun x => h (suit_iff_view.2 g) (by simpa using x) }

theorem serveCalOpen_keeps (p : Port) (body : List Byte) (s : State) : Keeps s (serveCalOpen p body s).2 := by
  unfold serveCalOpen
  split
  · unfold calOpen
    split
    · exact .refl s
    · rename_i hl
      split
      · exact .refl s
      · rename_i hw
        rw [not_not] at hw
        split
        · exact .refl s
        · rename_i hp
          rw [not_not] at hp
          split
          · exact .refl s
          · split
            · exact .refl s
            · split
              · exact lockStore_keeps s hw
              · exact window_keeps s _ s.cst.nv s.cst.work s.cst.armsAt (fun _ _ => ⟨by simpa using hl, .inl hp⟩)
  · exact .refl s

theorem opened_suits {s : State} (h : s.cst.window ≠ .closed) (g : ContextsSuit s) : s.cst.lock = false ∧
    (s.ctx.phase = .idle ∨ s.ctx.phase = .safe) :=
  g.blocks.2.2.2.2 h

theorem serveCalData_keeps (p : Port) (body : List Byte) (s : State) : Keeps s (serveCalData p body s).2 := by
  unfold serveCalData
  split
  · unfold calData
    split
    · exact .refl s
    · split
      · rename_i hw; exact lockStore_keeps s hw
      · exact .refl s
      · rename_i hw
        split
        · exact .refl s
        · split
          · exact window_keeps s _ s.cst.nv s.cst.work s.cst.armsAt (fun g _ => opened_suits (by rw [hw]; simp) g)
          · exact .refl s
  · exact .refl s

theorem serveCalCommit_keeps (p : Port) (body : List Byte) (s : State) : Keeps s (serveCalCommit p body s).2 := by
  unfold serveCalCommit
  split
  · exact .refl s
  · split
    · exact .refl s
    · split
      · rename_i hw; exact lockStore_keeps s hw
      · exact .refl s
      · rename_i hw
        split
        · exact .refl s
        · split
          · exact .refl s
          · split
            · exact .refl s
            · exact window_keeps s _ _ s.cst.work s.cst.armsAt (fun g _ => opened_suits (by rw [hw]; simp) g)

theorem serveCalClose_keeps (p : Port) (body : List Byte) (s : State) : Keeps s (serveCalClose p body s).2 := by
  unfold serveCalClose
  split
  · exact .refl s
  · split
    · exact .refl s
    · split
      · exact .refl s
      · exact .refl s
      · split
        · exact .refl s
        · exact window_keeps s _ s.cst.nv s.cst.work s.cst.armsAt (fun _ x => absurd rfl x)

theorem serveCalRead_keeps (body : List Byte) (s : State) : Keeps s (serveCalRead body s).2 := by
  unfold serveCalRead
  split
  · exact .refl s
  · split
    · exact .refl s
    · split <;> exact .refl s

theorem resetSlot_view (m : Msq) (l : Option Live) (x : Slot) :
    ((resetSlot m l x).view.state ≠ .resident ∧ (resetSlot m l x).view.state ≠ .parked) ∧
    ((resetSlot m l x).view.state = .loaded ↔ x.state = .loaded) ∧
    (inGrips (resetSlot m l x).view.state = true → resetSlot m l x = x) ∧
    (bindable x.state = true → bindable (resetSlot m l x).view.state = true) ∧ 
    (inGrips (resetSlot m l x).view.state = true → inGrips x.state = true) := by
  unfold resetSlot
  cases hx : x.state <;> simp [Slot.view, hx, inGrips, bindable]
  split <;> simp

/-- A reset (R33). -/
theorem applyReset_keeps (c : ResetCause) (s : State) : Keeps s (applyReset c s) := by
  refine keeps_of_view ⟨rfl, rfl, fun _ => ⟨by show 0 ≤ 2048; decide, by simp [applyReset, Rst.initial]⟩,
      fun _ => ⟨⟨by show 1 ≤ 16; decide, rfl⟩, ⟨by show 1 ≤ 16; decide, rfl⟩, ⟨by show 1 ≤ 16; decide, rfl⟩⟩,
      fun _ => ⟨rfl, rfl⟩⟩ (fun g => ?_)
  have hs : ∀ k, (applyReset c s).view.slots k = (resetSlot s.msq s.live (s.slot k)).view := by
    intro k
    simp [applyReset, State.view, State.slot]
  refine
    { faults := by simp [applyReset, State.view], kinds := by simp [applyReset, State.view], nodup := g.nodup,
      queue := fun j => ?_, grips := fun j hj => ?_, bound := fun j hj => ?_, phase := rfl, resident := fun j => ?_,
      live := rfl, outgoing := (fun c hc => nomatch hc), parked := fun j hj => ?_, section_ := fun j hj => ?_,
      holder := (fun x => nomatch x), lock := rfl, banks := (fun x => nomatch x), tare := rfl,
      window := (fun x => nomatch x) }
  all_goals simp only [hs] at *
  all_goals obtain ⟨⟨a, a'⟩, b, c', d, e⟩ := resetSlot_view s.msq s.live (s.slot j)
  · rw [b]; exact g.queue j
  · exact g.grips j (e hj)
  · exact d (g.bound j hj)
  · simp [a, applyReset, State.view]
  · exact absurd hj a'
  · rw [c' hj]; exact g.section_ j (e hj)

theorem resetWait_keeps (s : State) (r : Option ResetCause) (b : Bool) : Keeps s { s with ptu := { s.ptu with
    resetWait := r, lineArmed := b } } :=
  keeps_of_view ⟨rfl, rfl, id, id, id⟩ id

theorem resetArrives_keeps (c : ResetCause) (s : State) : Keeps s (resetArrives c s) := by
  unfold resetArrives
  split
  · exact resetWait_keeps s _ s.ptu.lineArmed
  · exact applyReset_keeps c s

/-- The completion of a write (R101, R103). -/
theorem completeWrite_keeps (s : State) : Keeps s (completeWrite s) := by
  unfold completeWrite
  split
  · dsimp only
    unfold deferredReset
    have f : ∀ tb c n e, Keeps s (raiseEvent n e { s with cst := writtenStore tb c s.cst }) := fun tb c n e =>
      (window_keeps s .closed _ _ _ (fun _ x => absurd rfl x)).trans (raiseEvent_frame _ _ _).keeps
    split
    · exact (f _ _ _ _).trans (applyReset_keeps _ _)
    · exact f _ _ _ _
  · exact .refl s

theorem rst_keeps (s : State) (r : Rst) (h : StreamFits s → occupancy r.records ≤ Config.streamWords ∧ ∀ g ∈ r.gap,
    g.tally ≤ Config.maxU16) :
    Keeps s { s with rst := r } :=
  keeps_of_view ⟨rfl, rfl, h, id, id⟩ id

theorem afterRead_keeps (s : State) : Keeps s (afterRead s) := by
  have arm : ∀ u : State, Keeps u (if occupancy u.rst.records ≤ Config.streamHigh then { u with rst := { u.rst with
      armed := true } } else u) := by
    intro u
    split
    · exact rst_keeps u _ (fun h => h)
    · exact .refl u
  unfold afterRead
  dsimp only
  have f := arm s
  generalize (if occupancy s.rst.records ≤ Config.streamHigh then { s with rst := { s.rst with armed := true } } else
      s) = u at *
  split
  · exact f
  · rename_i g _
    split
    · rename_i h
      refine f.trans ?_
      have a := admitRecords_frame [gapRecord g] u (by
        unfold freeWords at h
        have : occupancy [gapRecord g] = 6 := by simp [occupancy, gapRecord, words32]
        rw [this]
        simp only [Config.gapCloseFree, Config.streamWords] at *
        omega)
      refine a.keeps.trans (rst_keeps _ _ (fun h => ⟨h.1, by simp⟩))
    · exact f

theorem takeRecords_occ (n : Nat) (l : List (List Word16)) : occupancy (takeRecords n l).2 ≤ occupancy l := by
  induction l generalizing n with
  | nil => simp [takeRecords]
  | cons r l ih =>
    unfold takeRecords
    split
    · dsimp only
      refine (ih _).trans ?_
      simp [occupancy]
    · exact Nat.le_refl _

theorem serveReadRecords_keeps (body : List Byte) (s : State) : Keeps s (serveReadRecords body s).2 := by
  unfold serveReadRecords
  split
  · unfold readStream
    dsimp only
    split
    · exact .refl s
    · exact .refl s
    · refine Keeps.trans ?_ (afterRead_keeps _)
      exact rst_keeps s _ (fun h => ⟨(takeRecords_occ _ _).trans h.1, h.2⟩)
  · exact .refl s

theorem serveGetEvent_keeps (p : Port) (body : List Byte) (s : State) : Keeps s (serveGetEvent p body s).2 := by
  unfold serveGetEvent
  split
  · refine setPort_keeps s p _ (fun h => ⟨?_, rfl⟩)
    have := h.1
    simp [takeEvent]
    omega
  · exact .refl s

theorem serveSetEvents_keeps (p : Port) (body : List Byte) (s : State) : Keeps s (serveSetEvents p body s).2 := by
  unfold serveSetEvents
  split
  · exact setPort_keeps s p _ id
  · exact .refl s

theorem serveReadContext_keeps (body : List Byte) (s : State) : Keeps s (serveReadContext body s).2 := by
  unfold serveReadContext; split <;> exact .refl s
theorem serveGetResults_keeps (body : List Byte) (s : State) : Keeps s (serveGetResults body s).2 := by
  unfold serveGetResults; split <;> exact .refl s
theorem serveStatus_keeps (p : Port) (body : List Byte) (s : State) : Keeps s (serveStatus p body s).2 := by
  unfold serveStatus; split <;> exact .refl s

/-- Every request keeps the agreement. -/
theorem serveBody_keeps (r : Request) (p : Port) (body : List Byte) (s : State) : Keeps s (serveBody r p body s).2 :=
    by
  cases r
  case load => exact serveLoad_keeps body s
  case promote => exact servePromote_keeps body s
  case free => exact serveFree_keeps body s
  case clearCondition => exact serveClearCondition_keeps body s
  case readRecords => exact serveReadRecords_keeps body s
  case move => exact serveMove_keeps p body s
  case zeroPosition => exact serveZeroPosition_keeps body s
  case reset => exact .refl s
  case next => exact serveNext_keeps body s
  case bind => exact serveBind_keeps body s
  case release => exact serveRelease_keeps body s
  case jog => exact serveJog_keeps p body s
  case jogStop => exact serveJogStop_keeps p body s
  case hold => exact serveHold_keeps p body s
  case start => exact serveStart_keeps body s
  case abort => exact serveAbort_keeps p body s
  case resume => exact serveResume_keeps p body s
  case leave => exact serveLeave_keeps p body s
  case tare => exact serveTare_keeps p body s
  case clear => exact serveClear_keeps p body s
  case amend => exact serveAmend_keeps p body s
  case calOpen => exact serveCalOpen_keeps p body s
  case calData => exact serveCalData_keeps p body s
  case calCommit => exact serveCalCommit_keeps p body s
  case calClose => exact serveCalClose_keeps p body s
  case readContext => exact serveReadContext_keeps body s
  case getResults => exact serveGetResults_keeps body s
  case status => exact serveStatus_keeps p body s
  case getEvent => exact serveGetEvent_keeps p body s
  case setEvents => exact serveSetEvents_keeps p body s
  case calRead => exact serveCalRead_keeps body s

theorem serveReset_keeps (p : Port) (tag : Byte) (body : List Byte) (s : State) : Keeps s (serveReset p tag body s)
    := by
  unfold serveReset
  split
  · split
    · unfold takeReset
      split
      · exact (beginServing_keeps _ _ _ _ _).trans (resetArrives_keeps _ _)
      · exact resetArrives_keeps _ _
    · exact beginServing_keeps _ _ _ _ _
  · exact beginServing_keeps _ _ _ _ _

theorem frameArrives_keeps (p : Port) (tag code : Byte) (body : List Byte) (s : State) : Keeps s (frameArrives p tag
    code body s) := by
  refine takeFrame_keeps _ _ _ _ _ (fun u => ?_)
  unfold serveCode
  split
  · exact beginServing_keeps _ _ _ _ _
  · exact serveReset_keeps _ _ _ _
  · rename_i r _ _
    unfold serveRequest
    split
    · exact (serveBody_keeps r p body u).trans (beginServing_keeps _ _ _ _ _)
    · exact beginServing_keeps _ _ _ _ _

/-- Bytes at a receiver (R194). -/
theorem receive_keeps (gap : Bool) (p : Port) (n : Nat) (l : List Byte) (s : State) : Keeps s (receive gap p n l s)
    := by
  induction n generalizing l s with
  | zero => exact .refl s
  | succ n ih =>
    unfold receive
    split
    · exact huntAgain_keeps p s
    · split
      · exact (frameArrives_keeps _ _ _ _ _).trans (ih _ _)
      · exact ih _ _
      · split
        · exact ih _ _
        · exact setPort_keeps s p _ id

theorem feed_keeps (gap : Bool) (p : Port) (l : List Byte) (s : State) : Keeps s (feed gap p l s) := by
  unfold feed
  split
  · exact (clockLink_keeps _ _ _).trans (receive_keeps _ _ _ _ _)
  · exact .refl s

theorem replyDone_fits (x : PortState) (h : QueueFits x) : QueueFits (replyDone x) := by
  unfold replyDone
  split
  · exact h
  · split
    · exact h
    · split
      · exact h
      · split <;> exact h

theorem powered_keeps (f : State → State) (s : State) (h : ∀ u, Keeps u (f u)) : Keeps s (powered f s) := by
  unfold powered; split
  · exact h s
  · exact .refl s

/-- Every slot is EMPTY after POWER_ON (R33). -/
theorem initial_slot (nv : Nonvolatile) (k : SlotId) : (State.initial nv).slot k = Slot.blank := by
  simp [State.slot, State.initial, Ctx.initial]

theorem initial_slotView (nv : Nonvolatile) (k : SlotId) : (State.initial nv).view.slots k = Slot.blank.view :=
  congrArg Slot.view (initial_slot nv k)

/-- The part after POWER_ON agrees. -/
theorem initial_suits (nv : Nonvolatile) : ContextsSuit (State.initial nv) := by
  rw [suit_iff_view]
  refine
    { faults := by simp [State.view, State.initial, Flu.initial, Ctx.initial],
      kinds := by simp [State.view, State.initial, Flu.initial],
      nodup := by simp [State.view, State.initial, Ctx.initial], queue := fun j => ?_, grips := fun j hj => ?_,
      bound := (fun j hj => nomatch hj), phase := rfl, resident := fun j => ?_, live := rfl,
      outgoing := (fun c hc => nomatch hc), parked := fun j hj => ?_, section_ := fun j hj => ?_,
      holder := (fun x => nomatch x), lock := rfl, banks := (fun x => nomatch x), tare := rfl,
      window := (fun x => nomatch x) }
  · rw [initial_slotView]; simp [State.view, State.initial, Ctx.initial, Slot.blank, Slot.view]
  · rw [initial_slotView] at hj; cases hj
  · rw [initial_slotView]; simp [State.view, State.initial, Ctx.initial, Slot.blank, Slot.view]
  · rw [initial_slotView] at hj; cases hj
  · rw [initial_slotView] at hj; cases hj

end Sys2Proof.Machine
end

