-- ==== Sys2Proof/Laws/Answers.lean ====
section
/-! SUPPORT. A request on a port that can take it: what the port unit adds around the request's own function (R196,
R197), and the fields that taking a frame off a receiver leaves alone. -/

namespace Sys2Proof.Machine

section
variable (p : Port) (s : State)

@[simp] theorem huntAgain_power : (huntAgain p s).power = s.power := rfl
@[simp] theorem huntAgain_ctx : (huntAgain p s).ctx = s.ctx := rfl
@[simp] theorem huntAgain_slot (k : SlotId) : (huntAgain p s).slot k = s.slot k := rfl
@[simp] theorem huntAgain_xch : (huntAgain p s).xch = s.xch := rfl
@[simp] theorem huntAgain_msq : (huntAgain p s).msq = s.msq := rfl
@[simp] theorem huntAgain_lch : (huntAgain p s).lch = s.lch := rfl
@[simp] theorem huntAgain_smu : (huntAgain p s).smu = s.smu := rfl
@[simp] theorem huntAgain_cst : (huntAgain p s).cst = s.cst := rfl
@[simp] theorem huntAgain_flu : (huntAgain p s).flu = s.flu := rfl
@[simp] theorem huntAgain_rst : (huntAgain p s).rst = s.rst := rfl
@[simp] theorem huntAgain_inForce : (huntAgain p s).inForce = s.inForce := rfl
@[simp] theorem huntAgain_live : (huntAgain p s).live = s.live := rfl
@[simp] theorem huntAgain_frame : (huntAgain p s).frame = s.frame := rfl

@[simp] theorem huntAgain_port : (huntAgain p s).port p = { s.port p with rx := [] } := by
  unfold huntAgain
  rw [State.port_setPort_same]

@[simp] theorem huntAgain_assembly : (huntAgain p s).ptu.assembly = s.ptu.assembly := by
  cases p <;> rfl

end

/-- A frame on a port that can take it is served. -/
theorem takeFrame_taken {p : Port} {tag code : Byte} {f : State → State} {s : State} (h : CanTake p s) :
    takeFrame p tag code f s = f (huntAgain p s) := by
  have e : ((huntAgain p s).port p).serving = none := by simpa using h.2
  unfold takeFrame
  rw [if_pos h.1]
  simp only [e]

@[simp] theorem clockLink_port (p q : Port) (n : Nat) (s : State) : (clockLink p n s).port q = s.port q := by
  rcases clockLink_cases p n s with h | ⟨-, -, _, _, _, -, h⟩ <;> rw [h]
  cases q <;> rfl

@[simp] theorem hears_clockLink (p q : Port) (n : Nat) (s : State) : hears q (clockLink p n s) = hears q s := by
  rcases clockLink_cases p n s with h | ⟨-, -, _, _, _, -, h⟩ <;> rw [h]
  rfl

/-- Two runs of bytes are clocked as one. -/
theorem clockLink_clockLink (p : Port) (m n : Nat) (s : State) :
    clockLink p n (clockLink p m s) = clockLink p (m + n) s := by
  by_cases h : (hears p s && p == .supervisor) = true
  · rcases hr : readyReply s.ptu.supervisor with _ | ⟨tag, code, body⟩
    · simp [clockLink, h, hr]
    · have e : clockLink p m s =
          { s with ptu := { s.ptu with misoSent := min (frameLength body) (s.ptu.misoSent + m) } } := by
        simp [clockLink, h, hr]
      have h' : (hears p (clockLink p m s) && p == .supervisor) = true := by rw [hears_clockLink]; exact h
      rw [e] at h' ⊢
      simp only [clockLink, h, h', hr]
      congr 2
      omega
  · have e : ∀ t : State, hears p t = hears p s → ∀ k, clockLink p k t = t := fun t ht k => by
      simp only [clockLink, ht]
      split
      · rename_i g _
        exact absurd g h
      · rfl
    rw [e s rfl, e s rfl, e s rfl]

/-- A FREE port has no reply in transmission for a clock to move (R195, R197). -/
theorem clockLink_free {p : Port} {s : State} (h : CanTake p s) (n : Nat) : clockLink p n s = s := by
  rcases clockLink_cases p n s with e | ⟨rfl, -, _, _, _, hr, -⟩
  · exact e
  · have hs : s.ptu.supervisor.serving = none := h.2
    simp [readyReply, hs] at hr

theorem clockFrame_free {p : Port} {s : State} (h : CanTake p s) (body : List Byte) : clockFrame p body s = s :=
  clockLink_free h _

/-- A permitted request on a port that can take it is answered by its own function. -/
theorem request_taken {r : Request} {p : Port} {tag : Byte} {body : List Byte} {f : State → Reply × State} {s : State}
    (h : CanTake p s) (hp : permitted r p = true) :
    request r p tag body f s = beginServing p tag (requestCode r) (some (f (huntAgain p s)).1) (f (huntAgain p s)).2 := by
  unfold request
  rw [clockFrame_free h, takeFrame_taken h]
  unfold serveRequest
  rw [if_pos hp]

/-- The table of R199. -/
theorem permitted_iff (r : Request) (p : Port) : permitted r p = true ↔ p ∈ senders r := by
  cases r <;> cases p <;> decide

/-- A body of one byte that names a slot (R209). -/
theorem readSlot_one {b : Byte} {k : SlotId} (h : b.toNat = k.val) : readSlot [b] = some k := by
  simp [readSlot, rd8, slotOf, h, rdEnd]

@[simp] theorem serves_beginServing (p : Port) (tag code : Byte) (r : Option Reply) (s : State) :
    ((beginServing p tag code r s).port p).serving = some { tag := tag, code := code, reply := r } := by
  unfold beginServing
  rw [State.port_setPort_same]

section
variable (p : Port) (tag code : Byte) (r : Option Reply) (s : State)

@[simp] theorem beginServing_ctx : (beginServing p tag code r s).ctx = s.ctx := rfl
@[simp] theorem beginServing_slot (k : SlotId) : (beginServing p tag code r s).slot k = s.slot k := rfl
@[simp] theorem beginServing_xch : (beginServing p tag code r s).xch = s.xch := rfl
@[simp] theorem beginServing_msq : (beginServing p tag code r s).msq = s.msq := rfl
@[simp] theorem beginServing_lch : (beginServing p tag code r s).lch = s.lch := rfl
@[simp] theorem beginServing_smu : (beginServing p tag code r s).smu = s.smu := rfl
@[simp] theorem beginServing_cst : (beginServing p tag code r s).cst = s.cst := rfl
@[simp] theorem beginServing_flu : (beginServing p tag code r s).flu = s.flu := rfl
@[simp] theorem beginServing_rst : (beginServing p tag code r s).rst = s.rst := rfl
@[simp] theorem beginServing_live : (beginServing p tag code r s).live = s.live := rfl

end

/-! ### The slot a mark or a record is for -/

/-- Raising a cause touches no slot. -/
theorem raiseCause_slots (cause : Cause) (r : Requester) (i : Option Context) (e : Option EndCause) (s : State) :
    (raiseCause cause r i e s).ctx.slots = s.ctx.slots := by
  rcases hr : s.ctx.resident with _ | out
  · rw [raiseCause_refused _ _ _ _ _ (.inl hr)]
  · rcases ha : causeAccepted cause s with _ | _
    · rw [raiseCause_refused _ _ _ _ _ (.inr ha)]
    · rw [(raiseCause_accepted cause r i e s hr ha).rest]

@[simp] theorem raiseCause_slot (cause : Cause) (r : Requester) (i : Option Context) (e : Option EndCause) (s : State)
    (k : SlotId) : (raiseCause cause r i e s).slot k = s.slot k := State.slot_congr (raiseCause_slots _ _ _ _ s) k

section
variable {k j : SlotId} (h : j ≠ k)
include h

theorem addMark_other (m : Mark) (s : State) : (addMark k m s).slot j = s.slot j := by
  unfold addMark
  rw [raiseEvent_slot, State.slot_setSlot_other _ _ h]

omit h in
theorem raiseMarkCause_slot (m : Mark) (s : State) : (raiseMarkCause k m s).slot j = s.slot j := by
  unfold raiseMarkCause
  split
  · split
    · split
      · rfl
      · rw [raiseCause_slot]
    · rw [raiseCause_slot]
    · rfl
    · rfl
  · rfl

omit h in
theorem offerRaw_slot (o : Offer) (s : State) (i : SlotId) : (offerRaw o s).1.slot i = s.slot i := by
  rw [(offerRaw_frame o s).rest]
  rfl

theorem reportGap_other (b : Bool) (n : BitVec 32) (s : State) : (reportGap b k n s).slot j = s.slot j := by
  unfold reportGap
  split
  · rfl
  · dsimp only
    split
    · split
      · rw [raiseMarkCause_slot, offerRaw_slot, addMark_other h]
      · rw [offerRaw_slot, addMark_other h]
    · rw [addMark_other h]

/-- A record offered for a test touches no slot but that test's. -/
theorem offer_other (b : Bool) (o : Offer) (s : State) : (offer b o k s).slot j = s.slot j := by
  unfold offer
  dsimp only
  split
  · rw [offerRaw_slot]
  · rw [reportGap_other h, offerRaw_slot]

/-- A mark touches no slot but its own. -/
theorem setMark_other (m : Mark) (v : Int) (n : BitVec 32) (s : State) : (setMark k m v n s).slot j = s.slot j := by
  unfold setMark
  split
  · rfl
  · dsimp only
    split
    · unfold offerEvent
      rw [raiseMarkCause_slot, offer_other h, addMark_other h]
    · rw [addMark_other h]

theorem offerMark_other (m : MarkKind) (n : BitVec 32) (s : State) : (offerMark m k n s).slot j = s.slot j :=
  offer_other h _ _ _

theorem offerEnd_other (s : State) : (offerEnd k s).slot j = s.slot j := by
  unfold offerEnd
  dsimp only
  rw [offer_other h, offerMark_other h]

theorem abandonStartTare_other (b : Bool) (s : State) : (abandonStartTare b k s).slot j = s.slot j := by
  unfold abandonStartTare
  split
  · dsimp only
    rw [offer_other h, raiseEvent_slot]
    rfl
  · rfl

theorem leaveTest_other (o : Option TestOutcome) (s : State) : (leaveTest k o s).slot j = s.slot j := by
  unfold leaveTest
  split
  · rfl
  · dsimp only
    split
    · rw [offerMark_other h, State.slot_setSlot_other _ _ h]
      rfl
    · rw [offerEnd_other h, State.slot_setSlot_other _ _ h]
      rfl

omit h in
theorem setPhase_slot (ph : Phase) (s : State) (i : SlotId) : (setPhase ph s).slot i = s.slot i := by
  unfold setPhase abandonPortTare
  dsimp only
  split
  · split
    · rw [raiseEvent_slot]
      rfl
    · rfl
  · rfl

/-- A start touches no slot but the one that starts. -/
theorem startTest_other (s : State) : (startTest k s).slot j = s.slot j := by
  unfold startTest markSinglePoint announcePhase
  dsimp only
  rw [raiseEvent_slot]
  have e : ((beginStartTare (startOrder k s) (startRuntime (startOrder k s))
      (setPhase .test (beginTest k (startOrder k s) s))).slot j) = s.slot j := by
    unfold beginStartTare
    split
    · show (setPhase _ _).slot j = _
      rw [setPhase_slot]
      exact State.slot_setSlot_other _ _ h
    · rw [setPhase_slot]
      exact State.slot_setSlot_other _ _ h
  split
  · rw [setMark_other h, offerMark_other h, e]
  · rw [offerMark_other h, e]

/-- A resume touches no slot but the one that is resumed. -/
theorem enterResumed_other (s : State) : (enterResumed k s).slot j = s.slot j := by
  unfold enterResumed
  split
  · rfl
  · dsimp only
    unfold beginStartTare
    split
    · show (setPhase _ _).slot j = _
      rw [setPhase_slot]
      exact State.slot_setSlot_other _ _ h
    · rw [setPhase_slot]
      exact State.slot_setSlot_other _ _ h

end

end Sys2Proof.Machine
end

