-- ==== Sys2Proof/Laws/Evaluation.lean ====
section
/-! SUPPORT. What each step of the evaluation unit can do (chapter 6): one lemma a step, in the order of R129. -/

namespace Sys2Proof.Machine

/-! ### The close of a window (R133 to R137) -/

@[simp] theorem closeFit_opened (o : TestOrder) (m : Option CloseMark) (ev : Eval) :
    (closeFit o m ev).opened = ev.opened := rfl
@[simp] theorem closeFit_window (o : TestOrder) (m : Option CloseMark) (ev : Eval) :
    (closeFit o m ev).window = .closed := rfl
@[simp] theorem closeFit_yState (o : TestOrder) (m : Option CloseMark) (ev : Eval) :
    (closeFit o m ev).yState = ev.yState := rfl
@[simp] theorem closeFit_peak (o : TestOrder) (m : Option CloseMark) (ev : Eval) : (closeFit o m ev).peak = ev.peak := rfl
@[simp] theorem closeFit_plateau (o : TestOrder) (m : Option CloseMark) (ev : Eval) :
    (closeFit o m ev).plateau = ev.plateau := rfl
@[simp] theorem closeFit_offset (o : TestOrder) (m : Option CloseMark) (ev : Eval) :
    (closeFit o m ev).offset = ev.offset := rfl
@[simp] theorem closeFit_maxT (o : TestOrder) (m : Option CloseMark) (ev : Eval) : (closeFit o m ev).maxT = ev.maxT := rfl
@[simp] theorem closeFit_reH (o : TestOrder) (m : Option CloseMark) (ev : Eval) :
    (closeFit o m ev).results.reH = ev.results.reH := rfl
@[simp] theorem closeFit_reL (o : TestOrder) (m : Option CloseMark) (ev : Eval) :
    (closeFit o m ev).results.reL = ev.results.reL := rfl
@[simp] theorem closeFit_rp (o : TestOrder) (m : Option CloseMark) (ev : Eval) :
    (closeFit o m ev).results.rp = ev.results.rp := rfl
@[simp] theorem closeFit_rm (o : TestOrder) (m : Option CloseMark) (ev : Eval) :
    (closeFit o m ev).results.rm = ev.results.rm := rfl
@[simp] theorem closeFit_yieldKind (o : TestOrder) (m : Option CloseMark) (ev : Eval) :
    (closeFit o m ev).results.yieldKind = ev.results.yieldKind := rfl
@[simp] theorem closeFit_fit (o : TestOrder) (m : Option CloseMark) (ev : Eval) :
    (closeFit o m ev).results.fit = (fitOf ev).1 := rfl
@[simp] theorem closeFit_closeMark (o : TestOrder) (m : Option CloseMark) (ev : Eval) :
    (closeFit o m ev).results.closeMark = m := rfl
@[simp] theorem closeFit_failMark (o : TestOrder) (m : Option CloseMark) (ev : Eval) :
    (closeFit o m ev).results.failMark = (fitOf ev).2 := rfl
@[simp] theorem closeFit_fitN (o : TestOrder) (m : Option CloseMark) (ev : Eval) :
    (closeFit o m ev).results.fitN = ev.n := rfl
@[simp] theorem closeFit_bending (o : TestOrder) (m : Option CloseMark) (ev : Eval) :
    (closeFit o m ev).results.bending = bendingOf ev := rfl

/-- The start of offset detection touches nothing but its state (R137). -/
theorem startOffset_cases (o : TestOrder) (ev : Eval) :
    startOffset o ev = ev ∨
    (ev.results.fit.isSome = true ∧ 0 < o.eP ∧ ev.removalSeen = false ∧ startOffset o ev = { ev with offset := .running }) := by
  unfold startOffset
  split
  · rename_i h
    simp only [Bool.and_eq_true, decide_eq_true_eq, Bool.not_eq_true'] at h
    exact .inr ⟨h.1.1, h.1.2, h.2, rfl⟩
  · exact .inl rfl

/-- A close is the fit with, it may be, offset detection running (R133, R137). -/
theorem closeWindow_eq (o : TestOrder) (m : Option CloseMark) (ev : Eval) :
    closeWindow o m ev = { closeFit o m ev with offset := (closeWindow o m ev).offset } := by
  unfold closeWindow
  rcases startOffset_cases o (closeFit o m ev) with h | ⟨-, -, -, h⟩ <;> rw [h]

@[simp] theorem closeWindow_window (o : TestOrder) (m : Option CloseMark) (ev : Eval) :
    (closeWindow o m ev).window = .closed := by rw [closeWindow_eq]; rfl
@[simp] theorem closeWindow_opened (o : TestOrder) (m : Option CloseMark) (ev : Eval) :
    (closeWindow o m ev).opened = ev.opened := by rw [closeWindow_eq]; rfl
@[simp] theorem closeWindow_yState (o : TestOrder) (m : Option CloseMark) (ev : Eval) :
    (closeWindow o m ev).yState = ev.yState := by rw [closeWindow_eq]; rfl
@[simp] theorem closeWindow_peak (o : TestOrder) (m : Option CloseMark) (ev : Eval) :
    (closeWindow o m ev).peak = ev.peak := by rw [closeWindow_eq]; rfl
@[simp] theorem closeWindow_plateau (o : TestOrder) (m : Option CloseMark) (ev : Eval) :
    (closeWindow o m ev).plateau = ev.plateau := by rw [closeWindow_eq]; rfl
@[simp] theorem closeWindow_maxT (o : TestOrder) (m : Option CloseMark) (ev : Eval) :
    (closeWindow o m ev).maxT = ev.maxT := by rw [closeWindow_eq]; rfl
@[simp] theorem closeWindow_results (o : TestOrder) (m : Option CloseMark) (ev : Eval) :
    (closeWindow o m ev).results = (closeFit o m ev).results := by rw [closeWindow_eq]

/-! ### The steps of a set (R129) -/

/-- The step at a removal-start mark or a change of source (R133, R145): nothing, or an open window closes and RISING is
entered, and the mark stops the offset proof. -/
theorem evalSourceStep_cases (o : TestOrder) (i : EvalIn) (ev : Eval) :
    (i.removal = none ∧ (evalSourceStep o i ev = ev ∨
      (ev.window = .opened ∧ ev.fitSource ≠ some i.source ∧
        evalSourceStep o i ev = enterRising i (closeWindow o (some .cutSlip) ev)))) ∨
    ∃ forced ev', i.removal = some forced ∧
      ((ev.window ≠ .opened ∧ ev' = { ev with removalSeen := true }) ∨
        (ev.window = .opened ∧ ev' = enterRising i (closeWindow o (some .cutRemoval) { ev with removalSeen := true }))) ∧
      evalSourceStep o i ev = { ev' with
        offset := .stopped
        results := { ev'.results with
          rpCut := ev'.results.rpCut || ev'.results.rp.isNone, rmForced := ev'.results.rmForced || forced } } := by
  unfold evalSourceStep
  cases hr : i.removal with
  | none =>
    refine .inl ⟨rfl, ?_⟩
    dsimp only
    split
    · rename_i h
      exact .inr ⟨h.1, h.2.2, rfl⟩
    · exact .inl rfl
  | some forced =>
    refine .inr ⟨forced, _, rfl, ?_, rfl⟩
    dsimp only
    split
    · rename_i h
      exact .inr ⟨h, rfl⟩
    · rename_i h
      exact .inl ⟨h, rfl⟩

/-- The maximum tracker holds the greatest force and stress so far, and nothing else changes but the arming (R147, R149). -/
theorem evalMaxStep_eq (o : TestOrder) (i : EvalIn) (ev : Eval) :
    ∃ m, evalMaxStep o i ev = { ev with maxT := some m, armed := ev.armed || decide (o.fArm ≤ m.fm) } ∧
      i.force ≤ m.fm ∧ i.stress ≤ m.rm ∧ ∀ m0, ev.maxT = some m0 → m0.fm ≤ m.fm ∧ m0.rm ≤ m.rm := by
  refine ⟨_, rfl, ?_⟩
  cases ev.maxT with
  | none => simp
  | some m0 =>
    simp only [Option.some.injEq, forall_eq']
    by_cases hf : m0.fm < i.force
    · rw [if_pos hf]
      by_cases hs : m0.rm < i.stress
      · rw [if_pos hs]; dsimp only; omega
      · rw [if_neg hs]; dsimp only; omega
    · rw [if_neg hf]
      by_cases hs : m0.rm < i.stress
      · rw [if_pos hs]; dsimp only; omega
      · rw [if_neg hs]; omega

/-- The window at a set (R132, R133): nothing changes, or the set joins the sums of a window that stays open, or the window
closes and RISING is entered. -/
theorem evalWindowStep_cases (o : TestOrder) (i : EvalIn) (ev : Eval) :
    evalWindowStep o i ev = ev ∨
    (i.held = false ∧ ev.window ≠ .closed ∧
      ((i.stress ≤ o.sHi ∧ ev.n + 1 < Config.fitFull ∧
          evalWindowStep o i ev = accumulate i { ev with window := .opened }) ∨
       (o.sHi < i.stress ∧
          evalWindowStep o i ev = enterRising i (closeWindow o none { ev with window := .opened })) ∨
       (i.stress ≤ o.sHi ∧ Config.fitFull ≤ ev.n + 1 ∧
          evalWindowStep o i ev =
            enterRising i (closeWindow o (some .fitFull) (accumulate i { ev with window := .opened }))))) := by
  unfold evalWindowStep
  cases hh : i.held with
  | true => exact .inl rfl
  | false =>
    rw [if_neg Bool.false_ne_true]
    by_cases ho : (if ev.window = .notOpened ∧ o.sLo ≤ i.stress then { ev with window := .opened } else ev).window = .opened
    · have he : (if ev.window = .notOpened ∧ o.sLo ≤ i.stress then { ev with window := .opened } else ev) =
          { ev with window := .opened } := by
        split at ho
        · rename_i h; rw [if_pos h]
        · rename_i h
          rw [if_neg h]
          cases ev
          cases ho
          rfl
      have hw : ev.window ≠ .closed := by
        intro hc
        rw [if_neg (by simp [hc])] at ho
        simp [hc] at ho
      refine .inr ⟨rfl, hw, ?_⟩
      simp only [he, if_true]
      by_cases hs : o.sHi < i.stress
      · exact .inr (.inl ⟨hs, by rw [if_pos hs]⟩)
      · rw [if_neg hs]
        by_cases hn : Config.fitFull ≤ ev.n + 1
        · exact .inr (.inr ⟨by omega, hn, by rw [if_pos (by simpa [accumulate] using hn)]⟩)
        · exact .inl ⟨by omega, by omega, by rw [if_neg (by simpa [accumulate] using hn)]⟩
    · dsimp only
      rw [if_neg ho]
      split at ho
      · exact absurd rfl ho
      · rename_i h
        rw [if_neg h]
        exact .inl rfl

/-- A set that finds the window closed leaves it alone. -/
theorem evalWindowStep_closed (o : TestOrder) (i : EvalIn) (ev : Eval) (h : ev.window = .closed) :
    evalWindowStep o i ev = ev := by
  rcases evalWindowStep_cases o i ev with e | ⟨-, hw, -⟩
  · exact e
  · exact absurd h hw

/-- RISING at a set with a peak candidate (R138): the candidate follows, and a drop determines ReH. -/
theorem risingStep_some (o : TestOrder) (i : EvalIn) (ev : Eval) (pk : Point) (h : ev.peak = some pk) :
    ∃ pk', pk' = (if pk.stress < i.stress then { stress := i.stress, strain := i.strain } else pk) ∧
      ((i.stress < pk'.stress - o.dDrop ∧ risingStep o i ev = { ev with
          peak := some pk', yState := .plateau
          plateau := some { drop := i.index, minAll := i.stress, minAfter := none }
          results := { ev.results with reH := some pk', yieldKind := some .reH } }) ∨
       (pk'.stress - o.dDrop ≤ i.stress ∧ risingStep o i ev = { ev with peak := some pk' })) := by
  obtain ⟨pk', hp⟩ : ∃ p : Point,
      p = if pk.stress < i.stress then { stress := i.stress, strain := i.strain } else pk := ⟨_, rfl⟩
  refine ⟨pk', hp, ?_⟩
  unfold risingStep
  rw [h]
  dsimp only
  rw [← hp]
  split
  · rename_i hd; exact .inl ⟨hd, rfl⟩
  · rename_i hd; exact .inr ⟨by omega, rfl⟩

/-- The yield step runs the step of the state that the set found, if it is still there (R138, R139, R154). -/
theorem evalYieldStep_cases (o : TestOrder) (was : YieldState) (i : EvalIn) (ev : Eval) :
    evalYieldStep o was i ev = ev ∨
    (ev.yState = .waitFit ∧ ev.window = .closed ∧ evalYieldStep o was i ev = enterRising i ev) ∨
    (was = .rising ∧ ev.yState = .rising ∧ evalYieldStep o was i ev = risingStep o i ev) ∨
    (was = .plateau ∧ ev.yState = .plateau ∧ evalYieldStep o was i ev = plateauStep o i ev) := by
  unfold evalYieldStep
  split
  · rename_i hy
    split
    · rename_i h; exact .inr (.inl ⟨hy, h.2, rfl⟩)
    · exact .inl rfl
  · rename_i hy; exact .inr (.inr (.inl ⟨rfl, hy, rfl⟩))
  · rename_i hy; exact .inr (.inr (.inr ⟨rfl, hy, rfl⟩))
  · exact .inl rfl

/-- An Rp found touches the offset proof and Rp, and, in RISING, makes it the yield (R142 to R144). -/
theorem foundRp_cases (stress strain : Int) (source : Source) (atClose : Bool) (ev : Eval) :
    ∃ r, r = { ev.results with rp := some { stress := stress, strain := strain, source := source }, rpAtClose := atClose } ∧
      ((ev.yState = .rising ∧ foundRp stress strain source atClose ev =
          { ev with offset := .stopped, yState := .hardening, results := { r with yieldKind := some .rp } }) ∨
       (ev.yState ≠ .rising ∧ foundRp stress strain source atClose ev =
          { ev with offset := .stopped, results := r })) := by
  refine ⟨_, rfl, ?_⟩
  unfold foundRp
  cases h : ev.yState <;> simp

/-- The offset proof at a set: the distance is kept, or an Rp is found (R142, R143). -/
theorem evalOffsetStep_cases (o : TestOrder) (i : EvalIn) (ev : Eval) :
    evalOffsetStep o i ev = ev ∨ (∃ d, evalOffsetStep o i ev = { ev with prevD := some d }) ∨
    ∃ stress strain atClose, evalOffsetStep o i ev = foundRp stress strain i.source atClose ev := by
  unfold evalOffsetStep
  split
  · exact .inl rfl
  · dsimp only
    split
    · split
      · exact .inr (.inr ⟨_, _, _, rfl⟩)
      · exact .inr (.inl ⟨_, rfl⟩)
    · split
      · exact .inr (.inr ⟨_, _, _, rfl⟩)
      · exact .inr (.inl ⟨_, rfl⟩)

/-! ### Parks and the closing steps (R153, R155) -/

/-- A park closes an open window and does nothing else. -/
theorem parkEval_cases (o : TestOrder) (ev : Eval) :
    parkEval o ev = ev ∨ (ev.window = .opened ∧ parkEval o ev = closeWindow o (some .fitCut) ev) := by
  unfold parkEval
  split
  · rename_i h; exact .inr ⟨h.2, rfl⟩
  · exact .inl rfl

/-- The closing steps of a closed evaluation do nothing (R156). -/
theorem closingSteps_closed (o : TestOrder) (ev : Eval) (h : ev.opened = false) : closingSteps o ev = ev := by
  simp [closingSteps, h]

/-- The closing steps of an open evaluation: the fit of a window still open, the plateau cut, the maxima determined. -/
theorem closingSteps_opened (o : TestOrder) (ev : Eval) (h : ev.opened = true) :
    closingSteps o ev =
      { determineMaxima (cutPlateau (if ev.window = .opened then closeFit o (some .fitCut) ev else ev)) with
        opened := false } := by
  simp [closingSteps, h]

end Sys2Proof.Machine
end

