-- ==== Sys2Proof/Tests/Slice0.lean ====
section
/-! SUPPORT. The model's own tests.  The expected values come from the spec: its worked cases, its tables, or a hand
calculation from its rules, as each test says. -/

open Sys2Proof Sys2Proof.Machine

namespace Sys2Proof.Tests

set_option Elab.async false

/-! ### Small states -/

/-- A frame map with the eight functions in order, every input active high. -/
def frame1 : Frame :=
  { map := [.estop, .limitUp, .limitLo, .driveFault, .guard, .gripUp, .gripLo, .extSeated].map
      fun fn => { fn := fn, activeLow := false }
    fnom := 100000000, vfs := 20000000, aMax := 500000, vStill := 12500, hardLo := -5000000, hardHi := 5000000
    jogMax := 500000, autostart := false, quiesceTimeout := 2000 }

def points1 : List LoadPoint := [{ count := 0, force := 0 }, { count := 4000000, force := 40000000 }]

/-- The range 2 table of the worked case of 4.3. -/
def points2 : List LoadPoint :=
  [{ count := 0, force := 0 }, { count := 2000000, force := 5001200 }, { count := 4000000, force := 10000000 }]

def tables1 : Tables :=
  { frame := some frame1, loadR1 := some points1, loadR2 := some points2, loadR3 := some points1,
    arms := some { a := 1000400, b := 999800 }, compliance := some 2500 }

def timeSegment : Segment :=
  { mode := .position, rate := 4000, vmax := 100000, kp := 512, endKind := .time, endValue := some 1, backup := none }

def order1 : TestOrder :=
  { TestOrder.blank with
    specimenId := [0x41, 0x42], shape := .area, l0 := 5000000, lc := 7500000, kS0 := 20971520, kSMin := 8388608
    kSMax := 25165824, kEMin := 1, kEMax := 1, kE0 := 1, fLim := 1, winLo := -5000000, winHi := 5000000, sLo := 0
    sHi := 1, dDrop := 1, ePlat := 1, fArm := 5000000, jumpLim := 1000, divLim := 500, recordInterval := 1
    rmTimeout := 100, bendLim := 1, pFrac := 40, pSharp := 30, segments := [timeSegment, timeSegment] }

/-- A filtered line. -/
def lineAt (on : Bool) : Line := { level := on, raw := on, filtered := on, run := 0 }

/-- A part in IDLE with its tables programmed, guard and grips closed and a stream of conversions. -/
def idleS : State :=
  { State.initial { tables := tables1, revision := 7 } with
    smu := { Smu.initial with delivered := 3 }
    flu := { Flu.initial with lines := [false, false, false, false, true, true, true, false].map lineAt } }

def slotIn (st : SlotState) : Slot :=
  { Slot.blank with state := st, order := order1, s0 := some 200000, runtime := some (startRuntime order1) }

/-- Slot 0 LOADED and in the queue. -/
def loadedS : State :=
  (idleS.setSlot 0 { Slot.blank with state := .loaded, order := order1 }).setQueue [0]

/-- Slot 0 in the grips, in a slot state. -/
def grippedS (st : SlotState) : State :=
  { idleS.setSlot 0 (slotIn st) with ctx := { (idleS.setSlot 0 (slotIn st)).ctx with binding := some 0 } }

def bank1 : Bank := { seg := 1, mode := .position, rate := 4000, vmax := 100000, kp := 512 }

/-- The test of slot 0 in TEST, its first segment active. -/
def testS : State :=
  let s := grippedS .resident
  { s with
    live := some { rt := startRuntime order1, resumed := false, cand := none, latest := none }
    msq := { s.msq with active := some bank1, qSet := some 0 }
    lch := { s.lch with lock := true }
    flu := { s.flu with drvEn := true }
    ctx := { s.ctx with phase := .test, resident := some (.test 0) } }

/-- The service context resident, with nobody holding it. -/
def serviceOf (s : State) : State :=
  { s with
    msq := { s.msq with active := some { bank1 with seg := 0 }, qSet := some 0 }
    flu := { s.flu with drvEn := true }
    ctx := { s.ctx with phase := .service, resident := some .service } }

def withHolder (p : Port) (s : State) : State := { s with ctx := { s.ctx with holder := some p } }

/-- SAFE with one entry in the fault set. -/
def safeS : State :=
  { idleS with
    flu := { idleS.flu with faults := [{ kind := .estop, phase := .idle, voided := none }], alarm := true }
    ctx := { idleS.ctx with phase := .safe, resident := some .safe } }

def withChangeover (c : Changeover) (s : State) : State := { s with ctx := { s.ctx with changeover := some c } }

def terminating (n : Nat) : Changeover :=
  { cause := .terminate, requester := .internal, outgoing := .test 0, incoming := none, elapsed := n,
    endCause := some (.mark .slip) }

def withWindow (w : CalWindow) (s : State) : State := { s with cst := { s.cst with window := w } }

/-- A set latched in range 2 with the crosshead at a count. -/
def set1 (xh : Int) : SampleSet :=
  { xh := xh, armA := 0, armB := 0, xhErr := false, armAErr := false, armBErr := false,
    lines := [false, false, false, false, true, true, true, false], extSeated := false, range := .r2, settling := false,
    tables := tables1, armsAt := 0 }

def withSet (x : SampleSet) (s : State) : State := { s with smu := { s.smu with assembling := some x } }

def serving (p : Port) (reply : Option Reply) (s : State) : State :=
  s.setPort p { s.port p with serving := some { tag := 1, code := 1, reply := reply } }

/-- What a command makes of a part. -/
def after (c : Instr) (s : State) : State :=
  match exec c s with
  | .next t => t
  | .fault _ => s
  | .refused _ => s

/-! ### Well-formed commands: each check refuses an ill-formed term -/

theorem test_wellFormed_accepts_a_load : (Instr.load .supervisor 0 [2, 0]).wellFormed = true := by decide
theorem test_wellFormed_refuses_a_long_body : (Instr.jog .pendant 0 (List.replicate 251 0)).wellFormed = false := by
  decide +kernel
theorem test_wellFormed_refuses_a_header_without_part_1 : (Instr.loadHeader .supervisor 0 [2]).wellFormed = false := by
  decide
theorem test_wellFormed_refuses_a_load_without_part_2 : (Instr.load .supervisor 0 [1]).wellFormed = false := by decide
theorem test_wellFormed_refuses_a_known_code : (Instr.unknownRequest .cell 0 0x1F []).wellFormed = false := by decide
theorem test_wellFormed_refuses_no_bytes : (Instr.frameDiscard .cell []).wellFormed = false := by decide
theorem test_wellFormed_refuses_a_mark_that_cannot_be_late :
    (Instr.conversionMiss { SetOrder.chain with late := [.track] }).wellFormed = false := by decide
theorem test_wellFormed_refuses_a_late_mark_twice :
    (Instr.conversionMiss { SetOrder.chain with late := [.slip, .slip] }).wellFormed = false := by decide
theorem test_wellFormed_refuses_a_line_item_twice :
    (Instr.sampleInstant 0 [.estop, .estop] SetOrder.chain).wellFormed = false := by decide

/-! ### The spec's worked cases -/

/-- 4.3, conversion on range 2. -/
theorem test_conversion_on_range_2 : forceBefore tables1 .r2 3123457 = 7809168 := by decide

/-- 4.3: with Fnom 100,000,000 that force keeps range 2. -/
theorem test_range_2_is_held : decideRange tables1 false .r2 3123457 = .r2 := by decide

/-- 4.4, a tare over a missed conversion: 80,032 / 64 is 1,250.5 and rounds to even. -/
theorem test_tare_rounds_to_even : roundDiv 80032 64 = 1250 := by decide

/-- 3.2, one demand sample: steps 1, 3, 4, 7 and 8. -/
theorem test_demand_sample :
    advance 20000 0 0 = (20, 0) ∧ innerRate 20000 512 1500 = 23000 ∧ rawVelocity 20971520 23000 = 28750 ∧
    slew 28600 (slewStep 500000) 28750 = 28750 ∧ dacCode 28750 20000000 = 47 := by decide

/-- 3.3, the tracker updates a to d. -/
theorem test_tracker_updates :
    kUpdate 1280 1600 16777216 = 17301504 ∧ kUpdate 400 1300 17301504 = 17301504 ∧
    kUpdate (-900) 2100 17301504 = 17301504 ∧ kUpdate 800 2000 24000000 = 26242880 := by decide

/-- 3.5, a quiesce: the ramp at samples 1, 57 and 58, and the codes. -/
theorem test_quiesce_ramp :
    rampTo0 28750 500 = 28250 ∧ rampTo0 750 500 = 250 ∧ rampTo0 250 500 = 0 ∧ dacCode 28250 20000000 = 46 ∧
    dacCode 27750 20000000 = 45 ∧ dacCode 250 20000000 = 0 := by decide

/-- 5.2, lane extensions. -/
theorem test_lane_extensions :
    (captureLane 12345 1000400).zero = some 12350 ∧ (captureLane (-2210) 999800).zero = some (-2210) ∧
    (laneStep 112345 1000400 false (some 1000) { captureLane 12345 1000400 with prev := some 100015 }).ext =
      some 100040 := by decide

/-- 5.3, the handover at removal start: the deflection and the crosshead strain of sample n + 1. -/
theorem test_handover_strain :
    deflection 2500 7807918 = 19520 ∧ crossheadStrain 1223203 1204000 7808400 2500 7500000 = 2300120 := by decide

/-- 5.4, the extensometer strain before the slip. -/
theorem test_extensometer_strain : extStrain 42511 5000000 = 850220 := by decide

/-- 6.2, stress. -/
theorem test_stress : stressOf 7807918 200000 = 390396 := by decide

/-- 6.3, the elastic fit. -/
theorem test_elastic_fit :
    (fitOf { Eval.start with
      n := 32, sumE := 3680000, sumS := 7512000, sumEE := 427200000000, sumES := 872064000000 }).1.map
        (fun f => (f.b, f.a)) = some (134087, -541) := by decide

/-- 6.5, an offset crossing. -/
theorem test_offset_crossing :
    offsetDistance { TestOrder.blank with eP := 200000 } { e := 0, b := 134349, a := -1200 } 413020 401950 = 222 ∧
    offsetDistance { TestOrder.blank with eP := 200000 } { e := 0, b := 134349, a := -1200 } 412700 401975 = -149 ∧
    413020 + roundDiv (-320 * 222) 371 = 412829 ∧ 401950 + roundDiv (25 * 222) 371 = 401965 := by decide

/-- 6.8, fracture and elongation. -/
theorem test_elongation :
    25648900 - elasticStrain 447500 134349 = 25430608 ∧ 14200000 - elasticStrain 540000 134349 = 13936586 := by decide

/-- 7.3, a bouncing guard: opening counts from instant 3 and takes at instant 6. -/
theorem test_guard_bounce :
    (([false, true, false, false, false].foldl
        (fun l level => filterLine (some { fn := .guard, activeLow := false }) level l) (lineAt true)).filtered,
     ([false, true, false, false, false, false].foldl
        (fun l level => filterLine (some { fn := .guard, activeLow := false }) level l) (lineAt true)).filtered) =
      (true, false) := by decide

/-- 7.3, a chattering stop chain: active at once, inactive after four instants. -/
theorem test_stop_chain_chatter :
    (([true, false, false, true, false, false, false].foldl
        (fun l level => filterLine (some { fn := .estop, activeLow := false }) level l) (lineAt false)).filtered,
     ([true, false, false, true, false, false, false, false].foldl
        (fun l level => filterLine (some { fn := .estop, activeLow := false }) level l) (lineAt false)).filtered) =
      (true, false) := by decide

/-- 9.1: the CRC over the nine characters 123456789. -/
theorem test_crc_check_value : crc [0x31, 0x32, 0x33, 0x34, 0x35, 0x36, 0x37, 0x38, 0x39] = 0x29B1#16 := by
  decide +kernel

/-- R11, the three shapes: a 20 by 10 mm plate and a 10 mm bar (hand calculation: 1,000,000 × 78.5398163 / 1,000). -/
theorem test_cross_sections :
    crossSection .flat 20000 10000 = 200000 ∧ crossSection .round 10000 0 = 78540 ∧ crossSection .area 99 0 = 100 := by
  decide

/-- 4.3, the three further codes: a tie to even, both extensions, and the switch up to range 1. -/
theorem test_range_2_edges :
    forceBefore tables1 .r2 2002500 = 5007448 ∧ forceBefore tables1 .r2 (-50000) = -125030 ∧
    forceBefore tables1 .r2 8000000 = 19997600 ∧ decideRange tables1 false .r2 8000000 = .r1 := by decide

/-- 8.5: a 14-word SAMPLE is admitted at an occupancy of 1,970 or less, and leaves 64 words free. -/
theorem test_sample_admission :
    (offerRaw (Offer.one true (List.replicate 14 0) 1041)
      { State.reset with rst := { Rst.initial with records := [List.replicate 1970 0] } }).2 = true ∧
    (offerRaw (Offer.one true (List.replicate 14 0) 1042)
      { State.reset with rst := { Rst.initial with records := [List.replicate 1971 0] } }).2 = false := by decide +kernel

/-- 9.6, a busy cell port: BIND taken with tag 31, NEXT answered BUSY with tag 32, STATUS lost, the port FREE after both
replies. -/
theorem test_busy_cell_port :
    let s1 := after (.bind .cell 31 ([0, 2, 0x41, 0x42] ++ be32 200000 ++ be32 0)) loadedS
    let s2 := after (.status .cell 33 []) (after (.next .cell 32 []) s1)
    let s3 := after (.replySent .cell) (after .cellReplyStart s2)
    let s4 := after (.replySent .cell) (after .cellReplyStart s3)
    (s1.port .cell).serving = some { tag := 31, code := 0x0A, reply := some { status := .ok, results := [] } } ∧
    s1.ctx.binding = some 0 ∧ s1.ctx.queue = [] ∧ (s1.slot 0).state = .bound ∧
    (s2.port .cell).busy = some { tag := 32, code := 0x09 } ∧
    (s3.port .cell).busyTurn = true ∧ (s4.port .cell).serving = none ∧ (s4.port .cell).busy = none := by decide +kernel

/-- 7.11, an emergency stop: the instant at which ESTOP reads active takes the FAULT, with the index of the last sample
counted and the events in their order; CLEAR is refused while the line is active. -/
theorem test_emergency_stop :
    let s := { testS with live := testS.live.map fun l => { l with rt := { l.rt with count := 40001 } } }
    let t := after (.sampleInstant 0x71 [] SetOrder.chain) s
    t.flu.faults = [{ kind := .estop, phase := .test, voided := some (0, 40000) }] ∧ t.ctx.phase = .safe ∧
    (t.slot 0).state = .void ∧ t.flu.drvEn = false ∧ t.flu.alarm = true ∧
    (t.port .supervisor).queue.drop 1 =
      [.fault { kind := .estop, phase := .test, voided := some (0, 40000) }, .condition 0 .estop, .phase .safe none,
       .testEnd 0 { void := true, cause := .mark .estop }] ∧
    after (.clear .pendant 1 []) t =
      beginServing .pendant 1 0x14 (some { status := .notReady, results := [6] }) t := by decide +kernel

/-- 1.14: HOLD in TEST is answered OK and makes OPERATOR pending; the completion of the tenth sample at rest parks the test
and makes the pendant the holder. -/
theorem test_hold_parks :
    let s := { testS with msq := { testS.msq with history := List.replicate 16 0 } }
    let t := after (.hold .pendant 1 []) s
    let u := after (.conversionArrival 0 false SetOrder.chain)
      { withSet (set1 0) t with msq := { t.msq with stillCount := 9 } }
    t.ctx.changeover = some (requested .pendant (.test 0) (some .service)) ∧
    ((t.port .pendant).serving.map (·.reply)) = some (some { status := .ok, results := [] }) ∧
    (u.slot 0).state = .parked ∧ u.ctx.phase = .service ∧ u.ctx.resident = some .service ∧
    u.ctx.holder = some .pendant ∧ u.ctx.binding = some 0 := by decide +kernel

/-! ### The hypotheses of the statements are met: for each statement a part and a command that meet them -/

theorem none_of {α : Type} {o : Option α} {P : α → Prop} (h : o = none) : ∀ c, o = some c → P c := by simp [h]

theorem some_of {α : Type} {o : Option α} {P : α → Prop} {x : α} (h : o = some x) (p : P x) : ∀ c, o = some c → P c := by
  simp [h, p]

/-- `ContextsSuit` as a computation. -/
def suitsB (s : State) : Bool :=
  decide (FaultsWhileSafe s) && decide (QueueIsLoaded s) && decide (BindingNames s) && decide (OneResident s) &&
    decide (∀ c ∈ s.ctx.changeover, ChangeoverFits s c) && decide (∀ k : SlotId, SlotFits (s.slot k)) &&
    decide (BlocksFit s)

theorem suits_of (s : State) (h : suitsB s = true) : ContextsSuit s := by
  simp only [suitsB, Bool.and_eq_true, decide_eq_true_eq] at h
  obtain ⟨⟨⟨⟨⟨⟨safe, queue⟩, binding⟩, resident⟩, changeover⟩, slots⟩, blocks⟩ := h
  exact { faults := safe, queue, binding, resident, changeover, slots, blocks }

theorem testS_suits : ContextsSuit testS := suits_of _ (by decide +kernel)
theorem serviceS_suits : ContextsSuit (serviceOf idleS) := suits_of _ (by decide +kernel)
theorem boundS_suits : ContextsSuit (grippedS .bound) := suits_of _ (by decide +kernel)
theorem witness_StepRunsTheFrontCommand : State.reset.pending = [] := by decide +kernel

/-- A full stream with a gap at its greatest tally, and a full queue. -/
def fullS : State :=
  { idleS with
    pending := [.next .cell 0 []]
    rst := { records := List.replicate 512 [0, 0, 0, 0], gap := some { first := 1, last := 2, tally := 65535 }, armed := false }
    ptu := { idleS.ptu with cell := { idleS.ptu.cell with queue := List.replicate 16 (.resetDone .line) } } }

theorem witness_StepKeepsTheBlocks :
    (StreamFits fullS ∧ QueuesFit fullS) ∧ ContextsSuit testS ∧ (∃ t, step fullS = .next t) ∧ ∃ t, step testS = .next t :=
  ⟨by decide +kernel, testS_suits, ⟨_, rfl⟩, _, rfl⟩

/-- The test with the drive at full scale. -/
def fastS : State := { testS with msq := { testS.msq with dac := 32767, prevDemand := 20000000 } }

theorem witness_StepKeepsTheOutputs :
    (OutputsFollow fastS ∧ DemandStands fastS ∧ OutputsFollow safeS ∧ DemandStands safeS) ∧ ContextsSuit safeS ∧
    ∃ t, step fastS = .next t :=
  ⟨by decide +kernel, suits_of _ (by decide +kernel), _, rfl⟩

theorem witness_StepKeepsTheContexts :
    (ContextsSuit testS ∧ NothingKeptBack testS ∧ ∃ t, step testS = .next t) ∧
    ContextsSuit (withChangeover (terminating 5) testS) ∧ ContextsSuit safeS :=
  ⟨⟨testS_suits, by decide +kernel, _, rfl⟩, suits_of _ (by decide +kernel), suits_of _ (by decide +kernel)⟩

theorem witness_RequestsNeedTheirPort :
    CanTake .cell idleS ∧ Instr.jog .cell 0 [0, 0, 0, 0] ∈ rowsOf .cell 0 [0, 0, 0, 0] .jog ∧ Port.cell ∉ senders .jog ∧
    CanTake .pendant idleS ∧ Port.pendant ∈ senders .jog ∧ Request.jog ≠ .reset := by decide +kernel

theorem witness_BodiesOfWrongFormAreRefused :
    CanTake .pendant idleS ∧ Port.pendant ∈ senders .jog ∧ fixedLength .jog = some 4 ∧ ([0, 0, 0] : List Byte).length ≠ 4 ∧
    Instr.jog .pendant 0 [0, 0, 0] ∈ rowsOf .pendant 0 [0, 0, 0] .jog ∧ CanTake .supervisor idleS ∧
    Port.supervisor ∈ senders .free ∧ 8 ≤ (8 : Byte).toNat ∧
    Request.free ∈ [Request.promote, .free, .abort, .resume, .getResults] ∧
    Instr.free .supervisor 0 [8] ∈ rowsOf .supervisor 0 [8] .free ∧
    CanTake .cell idleS ∧ ([0x41, 0x42] ++ be32 200000 ++ be32 0).length = (2 : Byte).toNat + 8 ∧
    ([0x41, 0x42] ++ be32 200000).length ≠ (2 : Byte).toNat + 8 ∧ Port.pendant ∈ senders .calData ∧
    (5 : Byte).toNat = tableCode .compliance ∧ ([0, 0, 1] : List Byte).length ≠ 4 ∧
    (1 : Byte).toNat = tableCode .loadR1 ∧ ([2, 0, 0, 0, 0] : List Byte).length ≠ 1 + 8 * (2 : Byte).toNat ∧
    ([] : List Byte).head? ≠ some 1 ∧ ([3, 0] : List Byte).head? ≠ some 2 ∧
    Instr.load .supervisor 0 [3, 0] ∈ rowsOf .supervisor 0 [3, 0] .load := by decide +kernel

theorem witness_FramesAreAnsweredAndRepliesLeave :
    CanTake .cell idleS ∧ codeUnknown 0 = true ∧ codeUnknown 0x20 = true ∧ hears .cell (serving .cell none idleS) = true ∧
    ((serving .cell none idleS).port .cell).serving = some { tag := 1, code := 1, reply := none } ∧
    Instr.next .cell 0 [] ∈ rowsOf .cell 0 [] .next ∧
    (serving .cell (some malformed) idleS).power = true ∧ (serving .cell (some malformed) idleS).ptu.cellDe = false ∧
    (serving .cell (some malformed) idleS).ptu.cell.serving = some { tag := 1, code := 1, reply := some malformed } ∧
    (after .cellReplyStart (serving .cell (some malformed) idleS)).ptu.cellDe = true ∧
    ((serving .pendant (some malformed) idleS).port .pendant).serving =
      some { tag := 1, code := 1, reply := some malformed } ∧ (some malformed).isSome = true ∧
    (serving .supervisor (some malformed) idleS).ptu.supervisor.serving =
      some { tag := 1, code := 1, reply := some malformed } ∧
    (serving .supervisor (some malformed) idleS).ptu.supervisor.rx = [] ∧
    (serving .supervisor (some malformed) idleS).ptu.supervisor.busyTurn = false ∧
    (wireFrame 1 1 malformed.body)[0]? = some 0xA5 := by decide +kernel

theorem witness_TheReceiverTakesFrames :
    hears .cell idleS = true ∧ (idleS.port .cell).rx = [] ∧ (List.replicate 250 (0 : Byte)).length ≤ 250 ∧
    Instr.status .cell 0 (List.replicate 250 0) ∈ rowsOf .cell 0 (List.replicate 250 0) .status ∧
    (∀ b ∈ ([0xA4, 0xA6] : List Byte), b ≠ 0xA5) ∧ 250 < (251 : Byte).toNat ∧ ([] : List Byte).length ≤ 250 ∧
    ([0, 0] : List Byte).length = 2 ∧ [0, 0] ≠ bytes16 (crc (framed 0 1 [])) ∧ (250 : Byte).toNat ≤ 250 ∧
    (List.replicate 253 (0 : Byte)).length < (250 : Byte).toNat + 4 := by decide +kernel

theorem witness_EventQueuesAreRead :
    CanTake .cell idleS ∧ CanTake .cell fullS ∧ (15 : Byte).toNat < 16 ∧ 16 ≤ (16 : Byte).toNat := by decide +kernel

/-- The body of a LOAD of the test's order, behind its part byte. -/
def headerBody : List Byte :=
  [0, 2, 0x41, 0x42, byte (optionsByte order1), byte (stopsByte order1)] ++ orderBytes order1

def programBody : List Byte := [0, 2] ++ [timeSegment, timeSegment].flatMap segmentBytes

/-- The body of the test's segments. -/
def timeBody : SegmentBody :=
  { mode := 0, endKind := 5, rate := 4000, vmax := 100000, kp := 512, endValue := some 1, backup := none }

/-- A part that holds a header of slot 0. -/
def assembledS (o : TestOrder) (s : State) : State :=
  { s with ptu := { s.ptu with assembly := some { slot := 0, order := { o with segments := [] } } } }

theorem witness_LoadMakesAnOrder :
    CanTake .supervisor idleS ∧ readHeader headerBody = some { slot := 0, order := { order1 with segments := [] } } ∧
    readHeader [] = none ∧ readProgram programBody = some (0, [timeBody, timeBody]) ∧
    readProgram (1 :: programBody.drop 1) = some (1, [timeBody, timeBody]) ∧ readProgram [0, 1] = none ∧
    CanTake .supervisor (assembledS order1 idleS) ∧ (idleS.slot 0).state = .empty ∧
    [timeBody, timeBody].filterMap segmentOf = [timeSegment, timeSegment] ∧
    firstFailure (loadChecks idleS.inForce order1 [timeBody, timeBody]) = none ∧
    firstFailure (loadChecks idleS.inForce { order1 with pFrac := 96 } [timeBody]) = some .range ∧
    (loadedS.slot 0).state ≠ .empty ∧ idleS.ptu.assembly = none := by decide +kernel

theorem witness_OrdersThatAreAccepted :
    firstFailure (loadChecks tables1 order1 [timeBody, timeBody]) = none ∧ order1.kSMin ≤ order1.kSMax ∧
    order1.kEMin ≤ order1.kEMax ∧ tables1.frame = some frame1 ∧ frame1.hardLo ≤ frame1.hardHi ∧
    (limitOrder tables1 order1).segments ≠ [] ∧ timeSegment.mode = .position ∧ 0 ≤ frame1.vfs := by decide +kernel

theorem witness_OrdersReadBack :
    (({ order1 with segments := [] } : TestOrder).specimenId.length ≤ 255 ∧ order1.holdptStrain.isSome = order1.holdptOn ∧
     (∀ x ∈ [order1.l0, order1.lc, order1.fLim, order1.winLo, order1.winHi, order1.sLo, order1.sHi, order1.eP,
        order1.dDrop, order1.ePlat, order1.fArm, order1.eRm, order1.jumpLim, order1.divLim], Fits32 x) ∧
     (∀ x ∈ order1.holdptStrain, Fits32 x) ∧
     (∀ x ∈ [order1.kS0, order1.kE0, order1.kSMin, order1.kSMax, order1.kEMin, order1.kEMax], FitsU32 x) ∧
     order1.recordInterval ≤ 65535 ∧ order1.rmTimeout ≤ 65535 ∧ (0 ≤ order1.bendLim ∧ order1.bendLim ≤ 65535) ∧
     (0 ≤ order1.pFrac ∧ order1.pFrac ≤ 255) ∧ (0 ≤ order1.pSharp ∧ order1.pSharp ≤ 255)) ∧
    ∀ g ∈ order1.segments, Fits32 g.rate ∧ Fits32 g.vmax ∧ (0 ≤ g.kp ∧ g.kp ≤ 65535) ∧ (∀ v ∈ g.endValue, Fits32 v) ∧
      ∀ v ∈ g.backup, Fits32 v := by decide +kernel

theorem witness_TheOrderQueue :
    CanTake .supervisor loadedS ∧ (0 : Byte).toNat = (0 : SlotId).val ∧ (loadedS.slot 0).state = .loaded ∧
    (idleS.slot 0).state ≠ .loaded ∧ CanTake .cell loadedS := by decide +kernel

theorem witness_FreeEmptiesASlot :
    CanTake .supervisor loadedS ∧ (0 : Byte).toNat = (0 : SlotId).val ∧ (loadedS.slot 0).state = .loaded ∧
    ((idleS.setSlot 0 (slotIn .void)).slot 0).state = .void ∧ (idleS.setSlot 0 (slotIn .void)).ctx.binding ≠ some 0 ∧
    ((grippedS .done).slot 0).state = .done ∧ (grippedS .done).ctx.binding = some 0 ∧
    (idleS.slot 0).state = .empty ∧ (testS.slot 0).state = .resident := by decide +kernel

theorem witness_ClearConditionRemovesAMark :
    CanTake .supervisor (grippedS .parked) ∧ (0 : Byte).toNat = (0 : SlotId).val ∧ ((grippedS .parked).slot 0).state = .parked ∧
    (23 : Byte).toNat > 22 ∧ (byte (markNumber .slip)).toNat = markNumber .slip ∧ markClass .slip = .terminate ∧
    (byte (markNumber .travel)).toNat = markNumber .travel ∧ markClass .travel ≠ .terminate ∧
    markClass .travel ≠ .operator ∧ (idleS.slot 0).state ≠ .parked := by decide +kernel

/-- The body of a BIND of slot 0 with an area of 200. -/
def bindBody : List Byte := [0, 2, 0x41, 0x42] ++ be32 200000 ++ be32 0

theorem witness_BindTakesTheGrips :
    CanTake .cell loadedS ∧
    readBind bindBody = some { slot := 0, specimenId := [0x41, 0x42], first := 200000, second := 0 } ∧
    (loadedS.slot 0).state = .loaded ∧ loadedS.ctx.binding = none ∧ loadedS.ctx.phase = .idle ∧ gripsClosed loadedS = true ∧
    [0x41, 0x42] = (loadedS.slot 0).order.specimenId ∧ dimsSuit .area 200000 0 = true ∧ dimsSuit .area 0 0 = false ∧
    loadedS.frame.autostart = false ∧ (idleS.slot 0).state ≠ .loaded ∧ safeS.ctx.phase ≠ .idle ∧
    gripsClosed State.reset = false := by decide +kernel

theorem witness_ReleaseFreesTheGrips :
    CanTake .cell (grippedS .bound) ∧ idleS.ctx.binding = none ∧ (grippedS .bound).ctx.binding = some 0 ∧
    ((grippedS .bound).slot 0).state = .bound ∧ ((grippedS .done).slot 0).state = .done ∧
    ((grippedS .parked).slot 0).state = .parked := by decide +kernel

theorem witness_StartBeginsTheTest :
    CanTake .cell (grippedS .bound) ∧ (grippedS .bound).ctx.binding = some 0 ∧ ((grippedS .bound).slot 0).state = .bound ∧
    (grippedS .bound).ctx.changeover = none ∧ firstUnmet 0 startItems (grippedS .bound) = none ∧
    firstUnmet 0 startItems (withWindow (.opened .arms .pendant none) (grippedS .bound)) = some .calWindow ∧
    (∀ k : SlotId, idleS.ctx.binding = some k → (idleS.slot k).state ≠ .bound) := by decide +kernel

theorem witness_AbortEndsATest :
    CanTake .pendant testS ∧ Port.pendant ∈ senders .abort ∧ (0 : Byte).toNat = (0 : SlotId).val ∧
    (testS.slot 0).state = .resident ∧ testS.ctx.resident = some (.test 0) ∧ testS.ctx.changeover = none ∧
    (withChangeover (terminating 0) testS).ctx.changeover = some (terminating 0) ∧ (terminating 0).cause = .terminate ∧
    ((grippedS .parked).slot 0).state = .parked ∧ (grippedS .parked).ctx.changeover = none ∧
    (idleS.slot 0).state ≠ .resident ∧ (idleS.slot 0).state ≠ .parked := by decide +kernel

theorem witness_ResumeTakesUpAParkedTest :
    CanTake .pendant (grippedS .parked) ∧ Port.pendant ∈ senders .resume ∧ (0 : Byte).toNat = (0 : SlotId).val ∧
    ((grippedS .parked).slot 0).state = .parked ∧ (grippedS .parked).ctx.phase = .idle ∧
    (grippedS .parked).ctx.changeover = none ∧
    firstUnmet 0 [.calWindow, .guard, .grips, .faultLine, .tables] (grippedS .parked) = none ∧
    ((grippedS .parked).slot 0).runtime = some (startRuntime order1) ∧ (startRuntime order1).source = .xhd ∧
    (serviceOf (grippedS .parked)).ctx.phase = .service ∧ (serviceOf (grippedS .parked)).ctx.resident = some .service ∧
    (serviceOf (grippedS .parked)).ctx.holder ≠ some .supervisor := by decide +kernel

theorem witness_HoldAndLeaveRaiseOperator :
    CanTake .pendant testS ∧ testS.ctx.phase = .test ∧ testS.ctx.changeover = none ∧ testS.ctx.resident = some (.test 0) ∧
    idleS.ctx.phase ≠ .test ∧ (withChangeover (terminating 0) testS).ctx.changeover ≠ none ∧
    CanTake .pendant (serviceOf idleS) ∧ Port.pendant ∈ senders .leave ∧ (serviceOf idleS).ctx.phase = .service ∧
    (serviceOf idleS).ctx.changeover = none ∧ (∀ k : SlotId, ((serviceOf idleS).slot k).state ≠ .parked) ∧
    (serviceOf idleS).ctx.resident = some .service ∧ ((serviceOf (grippedS .parked)).slot 0).state = .parked ∧
    (serviceOf idleS).ctx.holder ≠ some .supervisor ∧
    (withHolder .supervisor (serviceOf idleS)).ctx.holder = some .supervisor := by decide +kernel

theorem witness_ClearEmptiesTheFaultSet :
    CanTake .pendant safeS ∧ Port.pendant ∈ senders .clear ∧ safeS.ctx.phase = .safe ∧
    (∀ fn ∈ [LineFn.estop, .limitUp, .limitLo, .driveFault], lineActive safeS fn = false) ∧ 3 ≤ safeS.smu.delivered ∧
    safeS.lch.hard = false ∧ idleS.ctx.phase ≠ .safe := by decide +kernel

theorem witness_TareBegins :
    CanTake .pendant idleS ∧ Port.pendant ∈ senders .tare ∧ idleS.ctx.phase = .idle ∧ idleS.ctx.changeover = none ∧
    idleS.lch.tareRun = none ∧ tablesProgrammed idleS.cst.work = true ∧ tablesProgrammed State.reset.cst.work = false ∧
    testS.ctx.phase ≠ .idle ∧ testS.ctx.phase ≠ .service := by decide +kernel

theorem witness_JogMovesTheCrosshead :
    CanTake .pendant idleS ∧ readJog (be32 500000) = some 500000 ∧ readJog (be32 (-500001)) = some (-500001) ∧
    idleS.ctx.changeover = none ∧ idleS.ctx.phase = .idle ∧ idleS.cst.window = .closed ∧
    idleS.inForce.frame.isSome = true ∧ (serviceOf idleS).ctx.phase = .service ∧ testS.ctx.phase = .test ∧
    (withChangeover (terminating 0) testS).ctx.changeover ≠ none := by decide +kernel

theorem witness_MoveSetsATarget :
    CanTake .supervisor (serviceOf idleS) ∧ readMove (be32 5000000 ++ be32 100) = some (5000000, 100) ∧
    readMove (be32 0 ++ be32 99) = some (0, 99) ∧ (serviceOf idleS).ctx.changeover = none ∧
    (serviceOf idleS).ctx.phase = .service ∧ (serviceOf idleS).ctx.holder = none ∧ (serviceOf idleS).msq.qSet = some 0 ∧
    (withHolder .pendant (serviceOf idleS)).ctx.holder = some .pendant ∧ CanTake .supervisor idleS ∧
    idleS.ctx.changeover = none ∧ idleS.ctx.phase = .idle ∧ idleS.cst.window = .closed ∧
    idleS.inForce.frame.isSome = true ∧ State.reset.inForce.frame.isNone = true := by decide +kernel

theorem witness_AmendStagesAChange :
    CanTake .pendant testS ∧ Port.pendant ∈ senders .amend ∧ readAmend (1 :: be32 200001 ++ be32 20000001) =
      some (200001, some 20000001) ∧ testS.msq.active = some bank1 ∧ testS.ctx.phase = .test ∧
    testS.ctx.changeover = none ∧ startTareRunning testS = false ∧ testS.msq.inactive = none ∧ (200001 : Int) ≠ 0 ∧
    activeEndKind bank1 testS ≠ some .qReach := by decide +kernel

theorem witness_ZeroPositionMovesTheOrigin :
    CanTake .supervisor (grippedS .parked) ∧ (grippedS .parked).ctx.phase = .idle ∧ testS.ctx.phase ≠ .idle ∧
    ((grippedS .parked).slot 0).state = .parked ∧ ((grippedS .parked).slot 0).runtime = some (startRuntime order1) ∧
    ((grippedS .parked).slot 1).state ≠ .parked := by decide +kernel

theorem witness_TheWriteWindowOpens :
    CanTake .pendant idleS ∧ Port.pendant ∈ senders .calOpen ∧ readCalOpen [5, 0, 0, 0, 7] = some (5, 7) ∧
    readCalOpen [6, 0, 0, 0, 7] = some (6, 7) ∧ idleS.cst.lock = false ∧ idleS.cst.window = .closed ∧
    idleS.ctx.phase = .idle ∧ tableCode .compliance = 5 ∧ idleS.cst.nv.revision = 7 ∧
    readCalData [5, 0, 0, 0, 1] = some (some .compliance, [0, 0, 0, 1]) ∧
    readCalData [6, 1] = some (none, [1]) ∧ readCalData [4, 1] = none ∧
    readContent .compliance [0, 0, 0, 1] = some (.compliance 1) ∧ contentValid (.compliance 1) = true ∧
    contentValid (.compliance (-1)) = false := by decide +kernel

theorem witness_TheWriteWindowCloses :
    CanTake .pendant (withWindow (.opened .compliance .pendant (some (.compliance 1))) idleS) ∧
    Port.pendant ∈ senders .calCommit ∧
    (withWindow (.opened .compliance .pendant (some (.compliance 1))) idleS).cst.lock = false ∧
    (withWindow (.opened .compliance .pendant (some (.compliance 1))) idleS).ctx.phase = .idle ∧
    idleS.cst.window = .closed := by decide +kernel

theorem witness_AWriteCompletes :
    (withWindow (.writing .compliance .pendant (.compliance 1)) idleS).power = true ∧
    (withWindow (.writing .compliance .pendant (.compliance 1)) idleS).cst.window =
      .writing .compliance .pendant (.compliance 1) ∧
    (withWindow (.writing .compliance .pendant (.compliance 1)) idleS).ptu.resetWait = none := by decide +kernel

theorem witness_ReadingChangesNothing :
    CanTake .cell loadedS ∧ (0 : Byte).toNat = (0 : SlotId).val ∧ (2 : Byte).toNat = 2 ∧ (loadedS.slot 0).state ≠ .empty ∧
    (idleS.slot 0).state = .empty ∧ loadedS.flu.faults.length ≤ 10 ∧ (5 : Byte).toNat = tableCode .compliance ∧
    loadedS.cst.window = .closed := by decide +kernel

/-- A stream from which one record makes room to close its gap: 509 words are free, and the head holds 4. -/
def gappedS : State :=
  { idleS with
    rst := { records := List.replicate 384 [0, 0, 0, 0] ++ [[0, 0, 0]], gap := some { first := 1, last := 2, tally := 1 }, armed := false } }

theorem witness_ReadRecordsTakesTheOldest :
    CanTake .supervisor fullS ∧ CanTake .supervisor idleS ∧ CanTake .supervisor gappedS ∧
    occupancy gappedS.rst.records + 512 = 2051 ∧
    (after (.readRecords .supervisor 1 [0, 4]) gappedS).rst.gap = none ∧
    occupancy (after (.readRecords .supervisor 1 [0, 4]) gappedS).rst.records =
      1535 + (gapRecord { first := 1, last := 2, tally := 1 }).length := by decide +kernel

theorem witness_ResetsTakeEffect :
    CanTake .supervisor idleS ∧ calWriting idleS = false ∧
    calWriting (withWindow (.writing .compliance .pendant (.compliance 1)) idleS) = true ∧ idleS.power = true ∧
    idleS.ptu.lineArmed = false ∧ (after .resetNHigh idleS).ptu.lineArmed = true ∧ (testS.slot 0).state = .resident ∧
    (idleS.slot 0).state ≠ .resident ∧ (idleS.slot 0).state ≠ .parked := by decide +kernel

theorem witness_TheSupplyComesAndGoes :
    CanTake .pendant (withWindow (.opened .compliance .pendant (some (.compliance 1))) idleS) ∧
    Port.pendant ∈ senders .calCommit ∧ idleS.cst.lock = false ∧ idleS.ctx.phase = .idle := by decide +kernel

theorem witness_AnInstantLatchesASet :
    ContextsSuit testS ∧
    idleS.power = true ∧ idleS.smu.assembling = none ∧
    ({ idleS with smu := { idleS.smu with xhErr := true } } : State).smu.xhErr = true ∧
    (after (.sampleInstant 0x70 [] SetOrder.chain) idleS).flu.faults = idleS.flu.faults ∧
    testS.power = true ∧ testS.smu.assembling = none ∧ testS.smu.xhErr = false ∧ testS.ctx.phase = .test ∧
    testS.ctx.resident = some (.test 0) ∧ OutputsFollow testS :=
  ⟨suits_of _ (by decide +kernel), by decide +kernel⟩

/-- The test with a line that reads open. -/
def openS (n : Nat) : State :=
  { testS with flu := { testS.flu with lines := testS.flu.lines.set n (lineAt false) } }

/-- An instant at which each fault-class line becomes active, and one that finds the guard or a grip open. -/
theorem witness_AnInstantLatchesASet_reports :
    (∀ q ∈ [(LineItem.estop, LineFn.estop, 0x71#8), (.limitUp, .limitUp, 0x72#8), (.limitLo, .limitLo, 0x74#8),
        (.driveFault, .driveFault, 0x78#8)],
      lineActive (takeUp testS) q.2.1 = false ∧
      lineActive (after (.sampleInstant q.2.2 [q.1] SetOrder.chain) testS) q.2.1 = true) ∧
    (∀ n ∈ [4, 5, 6], ∀ fn ∈ [LineFn.estop, .limitUp, .limitLo, .driveFault],
      lineActive (after (.sampleInstant 0x00 [] SetOrder.chain) (openS n)) fn = false) ∧
    lineActive (after (.sampleInstant 0x60 [] SetOrder.chain) (openS 4)) .guard = false ∧
    lineActive (after (.sampleInstant 0x50 [] SetOrder.chain) (openS 5)) .guard = true ∧
    gripsClosed (after (.sampleInstant 0x50 [] SetOrder.chain) (openS 5)) = false ∧
    (after (.sampleInstant 0x50 [] SetOrder.chain) (openS 5)).flu.faults ≠ (openS 5).flu.faults ∧
    (openS 5).smu.xhErr = false ∧ (openS 5).ctx.phase = .test := by decide +kernel

/-- The guard line has read open for three instants. -/
def openingS : State :=
  { idleS with flu := { idleS.flu with lines := idleS.flu.lines.set 4 { level := false, raw := false, filtered := true, run := 3 } } }

theorem witness_CountsAndLinesFollowTheirInputs :
    idleS.power = true ∧ ({ idleS with smu := { idleS.smu with xh := 2147483647 } } : State).power = true ∧
    LineFn.guard ∈ [LineFn.guard, .gripUp, .gripLo, .extSeated] ∧
    LineFn.estop ∈ [LineFn.estop, .limitUp, .limitLo, .driveFault] ∧ openingS.power = true ∧
    openingS.smu.assembling = none ∧ openingS.inForce.frame = openingS.cst.work.frame ∧
    openingS.frame.map[4]? = some { fn := .guard, activeLow := false } ∧
    openingS.flu.lines[4]? = some { level := false, raw := false, filtered := true, run := 3 } ∧ LineFn.guard ≠ .unused ∧
    ((0x60#8).getLsbD 4 != false) ≠ true := by decide +kernel

theorem witness_AConversionArrives :
    (withSet (set1 0) idleS).power = true ∧ (withSet (set1 0) idleS).smu.assembling = some (set1 0) ∧
    (set1 0).settling = false ∧ ({ set1 0 with settling := true } : SampleSet).settling = true ∧
    tablesProgrammed tables1 = true ∧ tables1.frame = some frame1 ∧ tablesProgrammed Tables.blank = false ∧
    points2.Pairwise (fun a b => a.count < b.count) ∧ (0x7FFFFF#24).toInt = 8388607 ∧ (0x800000#24).toInt = -8388608 := by
  decide +kernel

/-- A code of 1,000 on range 2 is 2,501 cN, which is above an `F_lim` of 1; a saturated code in range 1 makes the hard
overload active. -/
theorem witness_AConversionArrives_limits :
    ContextsSuit (withSet { set1 0 with range := .r1 } testS) ∧
    (withSet (set1 0) testS).lch.tareRun = none ∧ (withSet (set1 0) testS).ctx.resident = some (.test 0) ∧
    quietSet (set1 0) (some 1000) (withSet (set1 0) testS) = true ∧ ((withSet (set1 0) testS).slot 0).order.fLim = 1 ∧
    (after (.conversionArrival 1000 false SetOrder.chain) (withSet (set1 0) testS)).lch.lastBefore = 2501 ∧
    (withSet { set1 0 with range := .r1 } testS).lch.hard = false ∧
    (after (.conversionArrival 0x7FFFFF false SetOrder.chain) (withSet { set1 0 with range := .r1 } testS)).lch.hard = true :=
  ⟨suits_of _ (by decide +kernel), by decide +kernel⟩

theorem witness_AConversionIsMissed :
    ContextsSuit (withSet (set1 0) { testS with smu := { testS.smu with missRun := 2 } }) ∧
    (withSet (set1 0) testS).power = true ∧ (withSet (set1 0) testS).smu.assembling = some (set1 0) ∧
    (withSet (set1 0) { testS with smu := { testS.smu with missRun := 2 } }).smu.missRun = 2 ∧
    LineItem.missed ∉ [LineItem.estop] ∧
    (∃ u, exec (.conversionMiss SetOrder.chain) (withSet (set1 0) testS) = .next u) :=
  ⟨suits_of _ (by decide +kernel), by decide +kernel, by decide +kernel, by decide +kernel, by decide, _, rfl⟩

/-- A set waits for its conversion, and a tare of a kind for its last force. -/
def taringS (kind : TareKind) (s : State) : State :=
  withSet (set1 0) { s with lch := { s.lch with tareRun := some { kind := kind, sum := 80032, count := 63 } } }

theorem witness_ATareCompletes :
    ContextsSuit (taringS .start testS) ∧
    (taringS (.port .cell) idleS).power = true ∧ (taringS (.port .cell) idleS).smu.assembling = some (set1 0) ∧
    (set1 0).settling = false ∧ quietSet (set1 0) (some 0) (taringS (.port .cell) idleS) = true ∧
    (taringS (.port .cell) idleS).lch.tareRun = some { kind := .port .cell, sum := 80032, count := 63 } ∧
    quietSet (set1 0) (some 0) (taringS .start testS) = true ∧
    (taringS .start testS).lch.tareRun = some { kind := .start, sum := 80032, count := 63 } ∧
    NothingKeptBack (taringS .start testS) ∧ (taringS .start testS).ctx.changeover = none :=
  ⟨suits_of _ (by decide +kernel), by decide +kernel⟩

/-- A removal one count before its limit. -/
def removingS : State :=
  withSet { set1 0 with extSeated := true }
    { testS with xch := { testS.xch with state := .releasing, timer := .running 99, limit := 100, owner := some 0 } }

theorem witness_ARemovalTimesOut :
    removingS.power = true ∧ removingS.smu.assembling = some { set1 0 with extSeated := true } ∧
    removingS.xch.state = .releasing ∧ removingS.xch.timer = .running 99 ∧ 99 + 1 = removingS.xch.limit ∧
    removingS.xch.owner = some 0 ∧ removingS.ctx.changeover = none := by decide +kernel

/-- The channel in a state, at a set that finds the line so. -/
def channelS (st : ChannelState) (seated : Bool) (s : State) : State :=
  withSet { set1 0 with extSeated := seated } { s with xch := { s.xch with state := st } }

theorem witness_TheExtensometerIsSeated :
    (∀ st ∈ [ChannelState.detached, .seating, .attached, .releasing], ∀ seated ∈ [true, false],
      (channelS st seated idleS).power = true ∧
      (channelS st seated idleS).smu.assembling = some { set1 0 with extSeated := seated } ∧
      (channelS st seated idleS).live = none ∧ (channelS st seated idleS).xch.state = st ∧
      (channelS st seated idleS).ctx.resident = none ∧
      (set1 0).armsAt = (channelS st seated idleS).xch.armsAt) ∧
    (channelS .attached true testS).live.map (·.rt.source) = some .xhd := by decide +kernel

/-- An attached channel at its greatest extension, at the first set under an ARMS table written with the scales in force. -/
def rewrittenS : State :=
  let lane : Lane := { Lane.blank with zero := some (-2147483648), ext := some 2147483647, prev := some 2147483647 }
  withSet { set1 0 with extSeated := true, armsAt := 8 }
    { idleS with xch := { idleS.xch with state := .attached, laneA := lane, laneB := lane } }

/-- R107: the zero is the new scaled count less the previous extension although the scales are the same (hand calculation:
0 less 2,147,483,647), so the extension follows the next movement. -/
theorem witness_TheExtensometerIsSeated_rewrite :
    rewrittenS.live = none ∧ rewrittenS.xch.state = .attached ∧ (8 : Nat) ≠ rewrittenS.xch.armsAt ∧
    rewrittenS.xch.laneA.zero.isSome = true ∧ rewrittenS.xch.laneB.zero.isSome = true ∧
    rewrittenS.xch.laneA.prev = some 2147483647 ∧ rewrittenS.xch.laneB.prev = some 2147483647 ∧
    (after (.conversionArrival 0 false SetOrder.chain) rewrittenS).xch.laneA.zero = some (-2147483647) ∧
    (after (.conversionArrival 0 false SetOrder.chain) rewrittenS).xch.armsAt = 8 := by decide +kernel

/-- The test on its extensometer, its strain past the removal strain and its elastic results settled. -/
def strainedS : State :=
  let s := testS.setSlot 0 { testS.slot 0 with order := { order1 with usesExt := true, eRm := 1900000 } }
  { s with
    xch := { s.xch with state := .attached, delta := some 99960, lastGood := some 99960 }
    live := s.live.map fun l =>
      { l with rt := { l.rt with source := .ext, eval := { l.rt.eval with opened := true, settled := true } } } }

/-- The same test with its elastic results open and its strain a further 2,000,000 on: the removal is forced. -/
def stretchedS : State :=
  { strainedS with
    xch := { strainedS.xch with delta := some 199960, lastGood := some 199960 }
    live := strainedS.live.map fun l =>
      { l with rt := { l.rt with eval := { l.rt.eval with settled := false } } } }

/-- What a set makes of the strain, with lanes that are valid or not. -/
def strainAt (valid : Bool) (s : State) : State × Int × Option Bool :=
  residentStrain (heldFlight s.lch (set1 0) false false false SetOrder.chain)
    { processed := true, valid := valid, bad := false } 0 s

theorem witness_AHandoverKeepsTheStrain :
    strainedS.residentSlot = some 0 ∧ strainedS.live.map (·.rt.source) = some .ext ∧
    extStrain (strainedS.xch.delta.getD 0) (strainedS.slot 0).order.l0 = 1999200 ∧
    (strainAt true strainedS).2 = (1999200, some false) ∧ (strainAt false strainedS).2 = (1999200, none) ∧
    (strainAt true stretchedS).2 = (3999200, some true) := by decide +kernel

theorem witness_ATimeSegmentEnds :
    ContextsSuit (withSet (set1 0) testS) ∧
    (withSet (set1 0) testS).power = true ∧ NothingKeptBack (withSet (set1 0) testS) ∧
    quietSet (set1 0) (some 0) (withSet (set1 0) testS) = true ∧ (withSet (set1 0) testS).ctx.resident = some (.test 0) ∧
    (withSet (set1 0) testS).live.map (·.rt.elapsed) = some 0 ∧ (withSet (set1 0) testS).ctx.changeover = none ∧
    (withSet (set1 0) testS).lch.tareRun = none ∧ (withSet (set1 0) testS).msq.active = some bank1 ∧
    (withSet (set1 0) testS).msq.inactive = none ∧
    ((withSet (set1 0) testS).slot 0).order.segments[bank1.seg - 1]? = some timeSegment ∧ timeSegment.endKind = .time ∧
    timeSegment.endValue = some ((0 : Nat) + 1) :=
  ⟨suits_of _ (by decide +kernel), by decide +kernel⟩

/-- The test at a segment that ends as `kind` and `value` say, stopping at each step and at a strain of 50. -/
def segmentS (kind : EndKind) (value : Option Int) : State :=
  let g := { timeSegment with endKind := kind, endValue := value, backup := if kind = .yield then some 60 else none }
  testS.setSlot 0 { testS.slot 0 with
    order := { order1 with segments := [g, timeSegment], stepOn := true, holdptOn := true, holdptStrain := some 50 } }

/-- What the tests of a sample at a position and a strain make of it. -/
def testedAt (pos strain : Int) (s : State) : State :=
  segmentTests (heldFlight s.lch (set1 pos) false false false SetOrder.chain)
    { pos := pos, stress := 0, strain := strain, force := 0 } s

/-- A reached position steps, a strain holds, a backup strain ends a YIELD segment, and short of each the segment goes on;
the last segment's end is pending as END. -/
theorem witness_SegmentsEnd :
    (segmentS .positionReach (some 9)).ctx.resident = some (.test 0) ∧
    ((segmentS .positionReach (some 9)).slot 0).state = .resident ∧
    (segmentS .positionReach (some 9)).msq.active = some bank1 ∧
    (testedAt 9 49 (segmentS .positionReach (some 9))).msq.inactive =
      some (.transition { bank1 with seg := 2 }) ∧
    ((testedAt 9 49 (segmentS .positionReach (some 9))).slot 0).marks = [.step] ∧
    (testedAt 8 49 (segmentS .positionReach (some 9))).msq.inactive = none ∧
    ((testedAt 8 50 (segmentS .positionReach (some 9))).slot 0).marks = [.holdpt] ∧
    .yieldBackup 0 60 ∈ ((testedAt 0 60 (segmentS .yield none)).port .supervisor).queue ∧
    (testedAt 0 59 (segmentS .yield none)).msq.inactive = none := by decide +kernel

/-- The test with a transition staged into STRAIN. -/
def stagedS (b : Staged) : State := { testS with msq := { testS.msq with inactive := some b } }

theorem witness_SegmentsEnd_flips :
    (stagedS (.transition { bank1 with seg := 2, mode := .strain })).msq.target = none ∧
    (transitionFlip { pos := 9, stress := 8, strain := 7, force := 6 }
      (stagedS (.transition { bank1 with seg := 2, mode := .strain }))).msq.qSet = some 7 ∧
    (amendmentFlip (stagedS (.amendment { bank1 with rate := 5 } .pendant))).msq.active = some { bank1 with rate := 5 } := by
  decide +kernel

/-- A POSITION segment that has been at its ceiling for 199 samples. -/
def ceilingS : State :=
  withSet (set1 0) { testS with msq := { testS.msq with qSet := some 1000, ceilingRun := 199 } }

theorem witness_TheCeilingRunSetsTrack :
    ContextsSuit ceilingS ∧ ceilingS.power = true ∧ OutputsFollow ceilingS ∧ NothingKeptBack ceilingS ∧
    quietSet (set1 0) (some 0) ceilingS = true ∧ ceilingS.ctx.resident = some (.test 0) ∧
    ceilingS.ctx.changeover = none ∧ ceilingS.lch.tareRun = none ∧ ceilingS.msq.active = some bank1 ∧
    ceilingS.msq.inactive = none ∧ ceilingS.msq.seat = false ∧ ceilingS.msq.target = none ∧
    ceilingS.msq.qSet = some 1000 ∧ ceilingS.msq.ceilingRun = 199 ∧
    clamp (-5000000) 5000000 (advance 4000 1000 0).1 = 1004 ∧ errorOf 1004 0 = 1004 ∧
    clamp (-(ceilingOf ceilingS.frame.vfs 100000)) (ceilingOf ceilingS.frame.vfs 100000)
      (rawVelocity positionK (innerRate 4000 512 1004)) ≠ rawVelocity positionK (innerRate 4000 512 1004) :=
  ⟨suits_of _ (by decide +kernel), by decide +kernel⟩

/-- A quiesce at rest, one sample before its tenth. -/
def restS (c : Changeover) (s : State) : State :=
  withChangeover c (withSet (set1 0) { s with msq := { s.msq with history := List.replicate 16 0, stillCount := 9 } })

def leaving (n : Nat) : Changeover := requested .pendant .service none |> fun c => { c with elapsed := n }

def ended (n : Nat) : Changeover :=
  { cause := .endTest, requester := .internal, outgoing := .test 0, incoming := none, elapsed := n,
    endCause := some .programEnd }

def holding : Changeover := requested .pendant (.test 0) (some .service)

def resuming : Changeover := requested .pendant .service (some (.test 0))

/-- The parked test of slot 0, with the service context resident. -/
def parkedServiceS : State := serviceOf (grippedS .parked)

theorem witness_AChangeoverCompletes :
    (ContextsSuit (restS (terminating 1999) testS) ∧ ContextsSuit (restS (ended 1999) testS) ∧
      ContextsSuit (restS holding testS) ∧ ContextsSuit (restS resuming parkedServiceS) ∧
      ContextsSuit (restS (leaving 1999) (serviceOf idleS))) ∧
    (∀ s ∈ [restS (terminating 1999) testS, restS (ended 1999) testS, restS holding testS, restS resuming parkedServiceS,
        restS (leaving 1999) (serviceOf idleS)],
      s.power = true ∧ NothingKeptBack s ∧ quietSet (set1 0) (some 0) s = true ∧ s.msq.inactive = none ∧
      s.msq.prevDemand = 0 ∧ 0 ≤ s.frame.aMax ∧ (∀ b ∈ s.msq.active, 0 ≤ ceilingOf s.frame.vfs b.vmax) ∧
      s.msq.history = 0 :: List.replicate 15 0 ∧ absI (sat32 (((set1 0).xh - 0) * 6250)) ≤ s.frame.vStill ∧
      9 ≤ s.msq.stillCount ∧ s.msq.target = none ∧ ∀ c ∈ s.ctx.changeover, c.elapsed + 1 ≤ s.frame.quiesceTimeout) ∧
    NoStops order1 ∧ NoFracture order1 (forceOf (set1 0) (some 0) (restS holding testS)) Eval.start ∧
    testS.live.map (·.rt.eval) = some Eval.start ∧ (parkedServiceS.slot 0).runtime = some (startRuntime order1) ∧
    (serviceOf idleS).ctx.binding = none :=
  ⟨⟨suits_of _ (by decide +kernel), suits_of _ (by decide +kernel), suits_of _ (by decide +kernel),
    suits_of _ (by decide +kernel), suits_of _ (by decide +kernel)⟩, by decide +kernel⟩

theorem witness_AQuiesceTimesOut :
    ContextsSuit (restS (terminating 2000) testS) ∧ OutputsFollow (restS (terminating 2000) testS) ∧
    NothingKeptBack (restS (terminating 2000) testS) ∧
    quietSet (set1 0) none (restS (terminating 2000) testS) = true ∧
    (restS (terminating 2000) testS).ctx.changeover = some (terminating 2000) ∧
    testS.frame.quiesceTimeout < (terminating 2000).elapsed + 1 :=
  ⟨suits_of _ (by decide +kernel), by decide +kernel⟩

/-- A set latched with autostart set. -/
def autoSet : SampleSet := { set1 0 with tables := { tables1 with frame := some { frame1 with autostart := true } } }

theorem witness_AutostartBeginsTheTest :
    ContextsSuit (withSet autoSet (grippedS .bound)) ∧ NothingKeptBack (withSet autoSet (grippedS .bound)) ∧
    quietSet autoSet (some 0) (withSet autoSet (grippedS .bound)) = true ∧
    autoSet.tables.frame = some { frame1 with autostart := true } ∧
    (withSet autoSet (grippedS .bound)).ctx.binding = some 0 ∧
    ((withSet autoSet (grippedS .bound)).slot 0).state = .bound ∧
    ((withSet autoSet (grippedS .bound)).slot 0).order.usesExt = false ∧
    ∀ i ∈ startItems, itemHolds 0 (withSet autoSet (grippedS .bound)) i = true :=
  ⟨suits_of _ (by decide +kernel), by decide +kernel⟩

theorem witness_MarksAndCausesAct :
    Mark.slip ∉ (testS.slot 0).marks ∧ Mark.slip ∈ ((setMark 0 .slip 0 0 testS).slot 0).marks ∧
    (testS.slot 0).state = .resident ∧ testS.ctx.resident = some (.test 0) ∧
    stopEnabled { order1 with tSlip := true } .slip = true ∧ markClass .slip = .terminate ∧
    stopEnabled { order1 with holdptOn := true } .holdpt = true ∧ markClass .holdpt = .operator ∧
    ((grippedS .parked).slot 0).state ≠ .resident ∧ testS.ctx.changeover = none ∧ causeRank .operator < causeRank .terminate ∧
    causeRank .terminate ≤ causeRank .terminate ∧
    (withChangeover (terminating 3) testS).ctx.changeover = some (terminating 3) := by decide +kernel

/-- The test with a full stream whose gap is at its greatest tally. -/
def crowdedS : State := { testS with rst := fullS.rst }

theorem witness_TheStreamTakesOffers :
    occupancy fullS.rst.records ≤ 2048 ∧
    (offerRaw { sample := false, records := [[0]], index := 3 } fullS).2 = false ∧
    (offerRaw { sample := true, records := [[0]], index := 3 } idleS).2 = true ∧
    (offerRaw { sample := true, records := [[0]], index := 3 } crowdedS).2 = false ∧
    (crowdedS.slot 0).state = .resident ∧ crowdedS.ctx.resident = some (.test 0) ∧ Mark.gap ∉ (crowdedS.slot 0).marks ∧
    Mark.fracture ∉ (crowdedS.slot 0).marks ∧ ({ order1 with tGap := true } : TestOrder).tGap = true ∧
    (offerRaw (Offer.one false (List.replicate 4 0) 3)
      { idleS with rst := { records := [List.replicate 1533 0], gap := none, armed := true } }).1.rst.armed = false := by
  decide +kernel

theorem witness_RoundingIsHalfToEven : (0 : Int) < 64 ∧ 2 * (80032 - 64 * roundDiv 80032 64) = 64 := by decide +kernel

theorem witness_TheDemandIsBounded :
    testS.msq.active = some bank1 ∧ testS.flu.drvEn = true ∧ 0 ≤ ceilingOf testS.frame.vfs bank1.vmax ∧
    (heldFlight testS.lch (set1 0) false false false SetOrder.chain).tareSet = false := by decide +kernel

/-- The demand of a sample at position 0, in a quiesce or not. -/
def demandAt (quiesce : Bool) (s : State) : Msq :=
  (demandOf (heldFlight s.lch (set1 0) false false quiesce SetOrder.chain) { pos := 0, stress := 0, strain := 0, force := 0 }
    s).msq

/-- Hand calculations from R59 to R64 and R71 with a slew step of 500: from rest a rate of 4,000 moves the setpoint by 4 and
the demand by one step; a MOVE to 3 stops there; a quiesce takes 1,200 to 700 and 400 to 0. -/
theorem witness_TheDemandIsBounded_values :
    testS.msq.qSet = some 0 ∧ (demandAt false testS).qSet = some 4 ∧ (demandAt false testS).prevDemand = 500 ∧
    (let s := serviceOf { idleS with msq := { idleS.msq with target := some 3 } }
     s.msq.active = some { bank1 with seg := 0 } ∧ s.msq.qSet = some 0 ∧ (demandAt false s).qSet = some 3 ∧
     (demandAt false s).active = some { bank1 with seg := 0, rate := 0 }) ∧
    (demandAt true { testS with msq := { testS.msq with prevDemand := 1200 } }).prevDemand = 700 ∧
    (demandAt true { testS with msq := { testS.msq with prevDemand := 400 } }).prevDemand = 0 := by decide +kernel

/-- The test with a full ring. -/
def trackedS : State :=
  { testS with msq := { testS.msq with ring := List.replicate 64 { pos := 0, stress := 0, strain := 0 } } }

theorem witness_TheTrackerFollowsTheStiffness :
    testS.residentSlot = some 0 ∧ testS.live.isSome = true ∧ testS.msq.ring.length < 64 ∧
    trackedS.residentSlot = some 0 ∧ trackedS.msq.ring.length = 63 + 1 ∧ occupancy trackedS.rst.records + 6 ≤ 2048 ∧
    (trackedS.slot 0).order.tGap = false ∧ order1.kSMax < kUpdate 500 (100000 * 100) order1.kS0 ∧
    order1.kSMin ≤ order1.kSMax ∧ order1.kEMin ≤ order1.kEMax ∧ 500 ≤ absI (-500) ∧ ¬(500 ≤ absI 499) := by decide +kernel

/-! ### The evaluation -/

/-- A set on the extensometer. -/
def evalAt (index : Nat) (stress strain : Int) : EvalIn :=
  { stress := stress, strain := strain, source := .ext, force := stress, held := false, exts := some (51, 49), index := index,
    removal := none, resumed := false }

/-- The order of the evaluation's tests: the window up to 40, a drop of 2, a plateau of 1,000 and an offset of 0. -/
def evalOrder : TestOrder :=
  { TestOrder.blank with sLo := 0, sHi := 40, dDrop := 2, ePlat := 1000, eP := 0, fArm := 60, pFrac := 40, pSharp := 30,
                         bendLim := 19 }

/-- A straight line of `n` sets, of slope 2, from the origin. -/
def lineOf (n : Nat) : List EvalIn := (List.range n).map fun j => evalAt j (2 * j) j

/-- The part the window's statement speaks of: an open window over a list of sets, then the set that closes it. -/
def fitAfter (o : TestOrder) (n : Nat) : Eval :=
  evalWindowStep o (evalAt n (o.sHi + 1) n)
    ((lineOf n).foldl (fun ev i => evalWindowStep o i ev) { Eval.start with window := .opened })

/-- 32 sets on a line of slope 2 and 31 of them (hand calculation: b is 2 in units of 1/65,536, a is 0 and the extensions 51
and 49 bend by 1,000 × 2 / 100 = 20). -/
theorem witness_TheFitGivesTheModulus :
    Eval.start.window = .notOpened ∧ (∀ i ∈ lineOf 32, i.held = false ∧ i.stress ≤ 62) ∧ (lineOf 32).length < 4096 ∧
    (fitAfter { evalOrder with sHi := 62 } 32).results.fit.map (fun f => (f.b, f.a)) = some (131072, 0) ∧
    (fitAfter { evalOrder with sHi := 62 } 32).results.bending = some 20 ∧
    (fitAfter { evalOrder with sHi := 62 } 32).results.bendHigh = true ∧
    (fitAfter { evalOrder with sHi := 62 } 31).results.failMark = some .fitShort ∧
    ({ Eval.start with window := .opened, n := 4095 } : Eval).n = 4095 := by decide +kernel

/-- Behind a closed window, in RISING, with a fit of slope 2 and the offset proof running. -/
def risingE : Eval :=
  { Eval.start with
    window := .closed, yState := .rising, peak := some { stress := 100, strain := 50 }, offset := .running
    results := { Results.start with fit := some { e := 200000, b := 131072, a := 0 } } }

/-- In PLATEAU since set 5, with ReH 100. -/
def plateauE : Eval :=
  { risingE with
    yState := .plateau, offset := .stopped, plateau := some { drop := 5, minAll := 97, minAfter := none }
    results := { risingE.results with reH := some { stress := 100, strain := 50 }, yieldKind := some .reH } }

/-- A set that drops by 3, one that does not, a plateau that ends at its 27th set and at its second, and an offset crossed
against the set before and at the first set. -/
theorem witness_TheCurveYields :
    (evalTail evalOrder risingE (evalAt 5 97 60) risingE).yState = .plateau ∧
    (evalTail evalOrder { risingE with offset := .stopped } (evalAt 5 98 60) { risingE with offset := .stopped }).yState =
      .rising ∧
    ((List.range' 6 2).map fun n => evalAt n 98 60).map (·.index) = List.range' (5 + 1) 2 ∧
    (plateauStep evalOrder (evalAt 8 101 60)
      (((List.range' 6 2).map fun n => evalAt n 96 60).foldl (fun e j => plateauStep evalOrder j e) plateauE)).results.reL =
      some 96 ∧
    (plateauStep evalOrder (evalAt 33 99 1050)
      (((List.range' 6 27).map fun n => evalAt n (if n = 6 then 90 else 95) 60).foldl
        (fun e j => plateauStep evalOrder j e) plateauE)).results.reL = some 95 ∧
    (evalTail evalOrder risingE (evalAt 5 99 60) risingE).results.rp =
      some { stress := 99, strain := 60, source := .ext } ∧
    (evalTail evalOrder { risingE with prevD := some 2, prev := some { stress := 100, strain := 49, force := 0, source := .ext } }
      (evalAt 5 100 51)
      { risingE with prevD := some 2, prev := some { stress := 100, strain := 49, force := 0, source := .ext } }).results.rp =
      some { stress := 100, strain := 50, source := .ext } := by decide +kernel

/-- The test with its fit behind it and its detector armed at a maximum of 100, ten forces of 90 behind it. -/
def armedE : Eval :=
  { plateauE with
    armed := true, maxT := some { fm := 100, rm := 100, eFm := 50, source := .ext }, history := List.replicate 10 90
    prev := some { stress := 80, strain := 60, force := 90, source := .ext } }

/-- LEVEL at 40 of 100 but SHARP with ten forces of 90 behind it (63 or less), and no fracture at 64; the elongation is that
of the set before (60 less 80 / 2). -/
theorem witness_AFractureEndsTheTest :
    armedE.opened = true ∧ armedE.window = .closed ∧ (evalSet evalOrder (evalAt 9 63 70) armedE).2 = some .sharp ∧
    (evalSet evalOrder (evalAt 9 64 70) armedE).2 = none ∧
    (evalSet evalOrder (evalAt 9 40 70) { armedE with history := [] }).2 = some .level ∧
    (evalSet evalOrder (evalAt 9 40 70) armedE).1.results.elong = some { value := 20, source := .ext } ∧
    testS.ctx.resident = some (.test 0) ∧ (testS.slot 0).state = .resident ∧ Mark.fracture ∉ (testS.slot 0).marks := by
  decide +kernel

theorem risingE_ordered : YieldsOrdered { risingE with peak := none } := by
  constructor <;> decide

theorem witness_ResultsAreDeterminedOnce :
    (Eval.start.window ≠ .closed → Eval.start.yState = .waitFit) ∧ plateauE.window = .closed ∧
    yieldSeen plateauE = true ∧ plateauE.opened = true ∧ 0 ≤ evalOrder.dDrop ∧
    (YieldsOrdered Eval.start ∧ YieldsOrdered { risingE with peak := none }) :=
  ⟨by decide, by decide, by decide, by decide, by decide, by constructor <;> decide, risingE_ordered⟩

/-! ### Corners -/

/-- The supervisor's reply after a number of bytes clocked with the fill byte. -/
def clockedS (n : Nat) : State :=
  after (.frameDiscard .supervisor (List.replicate n 0xFF)) (serving .supervisor (some (Reply.only .ok)) idleS)

/-- R195, 10.1: an OK reply of one body byte leaves SUP_MISO as sync byte, length 1, tag 1, code 1, status 0 and the CRC, then
the fill byte; the BUSY reply that waits (tag 9, code 0x1C, status 3) starts at its sync byte. -/
theorem test_supervisor_bytes_out :
    (List.range 5).map (fun n => misoByte (clockedS n)) = [0xA5, 1, 1, 1, 0] ∧
    bytes16 (crc [1, 1, 1, 0]) = [misoByte (clockedS 5), misoByte (clockedS 6)] ∧
    misoByte (clockedS 7) = 0xFF ∧ misoByte idleS = 0xFF ∧
    (let s := after (.replySent .supervisor) (after (.status .supervisor 9 []) (clockedS 2))
     [misoByte s, misoByte (after (.frameDiscard .supervisor [0xFF, 0xFF]) s),
      misoByte (after (.frameDiscard .supervisor [0xFF, 0xFF, 0xFF, 0xFF]) s)] = [0xA5, 9, 3]) := by decide +kernel

/-- R142: the offset line saturates before the difference is taken (hand calculation: the line would stand at 4,294,967,294). -/
theorem test_offset_line_saturates :
    offsetDistance { TestOrder.blank with eP := 0 } { e := 0, b := 65536, a := 2147483647 } 2147483647 2147483647 = 0 := by
  decide

/-- R34: a bad mode in the first segment is MALFORMED behind a context field out of range, and ahead of a range in the second
segment. -/
theorem test_segment_checks_in_order :
    firstFailure (loadChecks tables1 { order1 with pFrac := 96 } [{ timeBody with mode := 3 }]) = some .range ∧
    firstFailure (loadChecks tables1 order1 [{ timeBody with mode := 3 }, { timeBody with endValue := some 0 }]) =
      some .malformed ∧
    firstFailure (loadChecks tables1 order1 [{ timeBody with endValue := some 0 }, { timeBody with mode := 3 }]) =
      some .range := by decide

/-- 10.2 with the units of chapter 0: a `v_max` with its top bit set is negative, and is stored as 0. -/
theorem test_negative_vmax :
    (readSegment (0x05 :: 0x01 :: (be32 4000 ++ be32 (-1) ++ [2, 0] ++ be32 1))).map (·.1.vmax) = some (-1) ∧
    ((limitOrder tables1 { order1 with segments := [{ timeSegment with vmax := -1 }] }).segments.map (·.vmax)) = [0] := by
  decide

/-- R1: a bending beyond 32 bits, and a force beyond the range of the units table, saturate. -/
theorem test_saturation :
    bendingOf { Eval.start with fitSource := some .ext, lastExts := some (1100000, -1099999) } = some 2147483647 ∧
    satForce (-2147483648) = -2147483647 := by decide

/-- The test whose quiesce completes at a set that the next instant finds missing, with an open guard. -/
def closingS : State :=
  withChangeover (terminating 3) (withSet (set1 0)
    { openS 4 with msq := { testS.msq with history := List.replicate 16 0, stillCount := 9 } })

/-- R165: the examination taken first voids the test with GUARDOPEN; the completion taken first leaves nothing to examine. -/
theorem test_examination_or_completion_first :
    let examined := after (.sampleInstant 0x60 [.examine, .missed] SetOrder.chain) closingS
    let completed := after (.sampleInstant 0x60 [.missed, .examine] SetOrder.chain) closingS
    (examined.slot 0).outcome = some { void := true, cause := .mark .guardopen } ∧ examined.ctx.phase = .safe ∧
    (completed.slot 0).outcome = some { void := true, cause := .mark .slip } ∧ completed.ctx.phase = .idle ∧
    completed.flu.faults = [] ∧ examined.smu.missRun = 1 ∧ completed.smu.missRun = 1 := by decide +kernel

/-- R168: at the third miss in a row the end cause is that of the report taken first, STREAM or ESTOP. -/
theorem test_line_or_stream_first :
    let s := withSet (set1 0) { testS with smu := { testS.smu with missRun := 2 } }
    let line := after (.sampleInstant 0x71 [.estop, .missed] SetOrder.chain) s
    let stream := after (.sampleInstant 0x71 [] SetOrder.chain) s
    line.flu.faults.map (·.kind) = [.estop, .stream] ∧
    (line.slot 0).outcome = some { void := true, cause := .mark .estop } ∧
    stream.flu.faults.map (·.kind) = [.stream, .estop] ∧
    (stream.slot 0).outcome = some { void := true, cause := .mark .stream } := by decide +kernel

end Sys2Proof.Tests
end

/-! PROOFS about the rounding of R1: what each branch of `roundPos` leaves of the dividend, and the obligation on
`roundDiv` from it. -/

namespace Sys2Proof.Machine

theorem sub_mul_ediv_add_one (a b : Int) : a - b * (a / b + 1) = a % b - b := by
  rw [Int.mul_add, Int.mul_one, ← Int.sub_sub, ← Int.emod_def]

/-- The three branches of the rounding, by the remainder of the floor quotient against half the divisor.  What is left
of the dividend is that remainder where the floor stands, and the remainder less the divisor where the next integer is
taken; at a half the even one of the two stands. -/
theorem roundPos_cases (a b : Int) :
    (2 * (a % b) < b ∧ a - b * roundPos a b = a % b) ∨
    (b < 2 * (a % b) ∧ a - b * roundPos a b = a % b - b) ∨
    (2 * (a % b) = b ∧ roundPos a b % 2 = 0 ∧
      (a - b * roundPos a b = a % b ∨ a - b * roundPos a b = a % b - b)) := by
  rcases lt_trichotomy (2 * (a % b)) b with below | half | above
  · have floor : roundPos a b = a / b := if_pos below
    exact .inl ⟨below, by rw [floor, ← Int.emod_def]⟩
  · by_cases even : a / b % 2 = 0
    · have floor : roundPos a b = a / b := by simp [roundPos, half, even]
      exact .inr (.inr ⟨half, by rw [floor, even], .inl (by rw [floor, ← Int.emod_def])⟩)
    · have next : roundPos a b = a / b + 1 := by simp [roundPos, half, even]
      exact .inr (.inr ⟨half, by rw [next]; omega, .inr (by rw [next, sub_mul_ediv_add_one])⟩)
  · have next : roundPos a b = a / b + 1 := by simp [roundPos, above, above.not_gt]
    exact .inr (.inl ⟨above, by rw [next, sub_mul_ediv_add_one]⟩)

theorem roundPos_nearest (a : Int) {b : Int} (hb : 0 < b) :
    -b ≤ 2 * (a - b * roundPos a b) ∧ 2 * (a - b * roundPos a b) ≤ b := by
  have nonneg := Int.emod_nonneg a hb.ne'
  have lt := Int.emod_lt_of_pos a hb
  rcases roundPos_cases a b with ⟨below, left⟩ | ⟨above, left⟩ | ⟨half, -, left | left⟩ <;> rw [left] <;> omega

/-- Off the half the remainder is strictly inside, so a distance of a half comes from the branch that picks the even
integer. -/
theorem roundPos_even_of_half (a : Int) {b : Int} (hb : 0 < b)
    (h : 2 * (a - b * roundPos a b) = b ∨ 2 * (a - b * roundPos a b) = -b) : roundPos a b % 2 = 0 := by
  have nonneg := Int.emod_nonneg a hb.ne'
  have lt := Int.emod_lt_of_pos a hb
  rcases roundPos_cases a b with ⟨below, left⟩ | ⟨above, left⟩ | ⟨-, even, -⟩
  · rw [left] at h; omega
  · rw [left] at h; omega
  · exact even

theorem roundDiv_of_pos (a : Int) {b : Int} (hb : 0 < b) : roundDiv a b = roundPos a b := if_pos hb

theorem roundDiv_neg_right (a : Int) {b : Int} (hb : 0 < b) : roundDiv a (-b) = roundDiv (-a) b := by
  simp [roundDiv, hb, hb.not_gt]

/-- Settles O54: from the three branches of the rounding for a positive divisor, and the sign law for a negative one. -/
theorem roundingIsHalfToEven : Obligations.RoundingIsHalfToEven := by
  intro a b hb
  obtain ⟨lower, upper⟩ := roundPos_nearest a hb
  rw [roundDiv_neg_right a hb, roundDiv_of_pos a hb]
  exact ⟨lower, upper, roundPos_even_of_half a hb, rfl⟩

end Sys2Proof.Machine

/-! PROOFS about AMEND (R50): what the request's own function answers by the branch of `amendRefusal` it is in, and the
obligation from the checks taken one after the other. -/

namespace Sys2Proof.Machine

/-! ### The checks of R50 -/

theorem amendRefusal_of_phase {rate : Int} {b : Bank} {s : State} (h : s.ctx.phase ≠ .test) :
    amendRefusal rate b s = some .state := by simp [amendRefusal, h]

section
variable {rate : Int} {b : Bank} {s : State} (phase : s.ctx.phase = .test)
include phase

theorem amendRefusal_of_changeover (h : s.ctx.changeover ≠ none) : amendRefusal rate b s = some .changeover := by
  simp [amendRefusal, phase, Option.isSome_iff_ne_none, h]

variable (changeover : s.ctx.changeover = none)
include changeover

theorem amendRefusal_of_tare (h : startTareRunning s = true) : amendRefusal rate b s = some .state := by
  simp [amendRefusal, phase, changeover, h]

variable (tare : startTareRunning s = false)
include tare

theorem amendRefusal_of_transition {g : Bank} (h : s.msq.inactive = some (.transition g)) :
    amendRefusal rate b s = some .staged := by
  simp [amendRefusal, phase, changeover, tare, h]

/-- With no transition staged the last check is on a rate of 0 under an end condition that needs a direction. -/
theorem amendRefusal_of_rate (h : ∀ g, s.msq.inactive ≠ some (.transition g)) :
    amendRefusal rate b s = if rate = 0 ∧ activeEndKind b s = some .qReach then some .malformed else none := by
  unfold amendRefusal
  rw [if_neg (by simp [phase]), if_neg (by simp [changeover]), if_neg (by simp [tare])]
  split
  · exact absurd ‹_› (h _)
  · rfl

end

/-! ### The answer -/

theorem amendActive_refused {p : Port} {rate : Int} {vmax : Option Int} {b : Bank} {st : Status} {s : State}
    (active : s.msq.active = some b) (h : amendRefusal rate b s = some st) :
    amendActive p rate vmax s = (Reply.only st, s) := by
  simp [amendActive, active, h]

/-- An amendment past the checks replaces what the inactive bank held, the port of an earlier amendment being told. -/
theorem amendActive_accepted {p : Port} {rate : Int} {vmax : Option Int} {b : Bank} {s : State}
    (active : s.msq.active = some b) (h : amendRefusal rate b s = none) :
    amendActive p rate vmax s =
      (Reply.only (if amendClamped rate vmax (amendedBank s.frame.vfs rate vmax b) then .clamped else .ok),
        { supersedeStage s with
          msq := { s.msq with inactive := some (.amendment (amendedBank s.frame.vfs rate vmax b) p) } }) := by
  have msq : (supersedeStage s).msq = s.msq := by rw [(supersedeStage_frame s).rest]
  simp [amendActive, active, h, msq]

/-- The bank an amendment stages, with the limits of R35 in the words of the obligation. -/
theorem amendedBank_eq (vfs rate : Int) (vmax : Option Int) (b : Bank) :
    amendedBank vfs rate vmax b =
      { b with
        rate := if b.mode = .position then clamp (-(vfs / 100)) (vfs / 100) rate else rate
        vmax := (vmax.map fun v => clamp 0 vfs v).getD b.vmax } := by
  cases vmax <;> rfl

/-- An amendment is limited unless both of its values stand as sent. -/
theorem amendClamped_iff (rate : Int) (vmax : Option Int) (b : Bank) :
    amendClamped rate vmax b = true ↔ ¬(b.rate = rate ∧ ∀ v, vmax = some v → b.vmax = v) := by
  cases vmax with
  | none => simp [amendClamped]
  | some v => simp [amendClamped, imp_iff_not_or]

section
variable {p : Port} {tag : Byte} {body : List Byte} {rate : Int} {vmax : Option Int} {b : Bank} {s : State}
  (take : CanTake p s) (sender : p ∈ senders .amend) (read : readAmend body = some (rate, vmax))
include take sender read

/-- An AMEND that its port can take and may send is answered by its own function. -/
theorem exec_amend :
    exec (.amend p tag body) s = .next (beginServing p tag (requestCode .amend)
      (some (amendActive p rate vmax (huntAgain p s)).1) (amendActive p rate vmax (huntAgain p s)).2) := by
  have run : exec (.amend p tag body) s = .next (request .amend p tag body (serveAmend p body) s) := rfl
  have serve : serveAmend p body (huntAgain p s) = amendActive p rate vmax (huntAgain p s) := by
    simp [serveAmend, read]
  rw [run, request_taken take ((permitted_iff _ _).2 sender), serve]

variable (active : s.msq.active = some b)
include active

theorem amend_refuses {st : Status} (h : amendRefusal rate b s = some st) :
    Refuses (.amend p tag body) s p .amend tag st := by
  have refused : amendActive p rate vmax (huntAgain p s) = (Reply.only st, huntAgain p s) :=
    amendActive_refused (s := huntAgain p s) active h
  show exec _ _ = _
  rw [exec_amend take sender read, refused]

theorem amend_stages (h : amendRefusal rate b s = none) :
    Answers (.amend p tag body) s p .amend tag
      (Reply.only (if amendClamped rate vmax (amendedBank s.frame.vfs rate vmax b) then .clamped else .ok))
      { supersedeStage (huntAgain p s) with
        msq := { s.msq with inactive := some (.amendment (amendedBank s.frame.vfs rate vmax b) p) } } := by
  have accepted := amendActive_accepted (p := p) (rate := rate) (vmax := vmax) (s := huntAgain p s) active h
  show exec _ _ = _
  rw [exec_amend take sender read, accepted]
  rfl

end

/-- Settles O29: each check of `amendRefusal` in its order, and the staged bank where all of them pass. -/
theorem amendStagesAChange : Obligations.AmendStagesAChange := by
  intro p tag body rate vmax b s take sender read active
  have refuses := fun {st} => amend_refuses (tag := tag) (st := st) take sender read active
  refine ⟨fun other => refuses (amendRefusal_of_phase other), fun phase => ⟨fun pending =>
    refuses (amendRefusal_of_changeover phase pending), fun changeover => ⟨fun running =>
    refuses (amendRefusal_of_tare phase changeover running), fun tare => ⟨fun g staged =>
    refuses (amendRefusal_of_transition phase changeover tare staged), fun unstaged => ?_⟩⟩⟩⟩
  have last := amendRefusal_of_rate (rate := rate) (b := b) phase changeover tare unstaged
  refine ⟨fun zero kind => refuses (by rw [last, if_pos ⟨zero, kind⟩]), fun directed => ?_⟩
  have accepted : amendRefusal rate b s = none := by
    rw [last, if_neg (by rintro ⟨zero, kind⟩; exact directed.elim (· zero) (· kind))]
  have answer := amend_stages (tag := tag) take sender read active accepted
  have limits : (if amendClamped rate vmax (amendedBank s.frame.vfs rate vmax b) then Status.clamped else .ok) =
      if (amendedBank s.frame.vfs rate vmax b).rate = rate ∧
        ∀ v, vmax = some v → (amendedBank s.frame.vfs rate vmax b).vmax = v then .ok else .clamped := by
    simp only [amendClamped_iff, ite_not]
  rw [limits, amendedBank_eq] at answer
  exact ⟨_, _, _, _, rfl, rfl, rfl, answer, rfl⟩

end Sys2Proof.Machine

/-! PROOFS about the demand of a sample (R55, R59 to R65, R71): what the setpoint's advance and the marks of a sample
leave alone, the last bounds, and the obligation on `demandOf` from them. -/

namespace Sys2Proof.Machine

/-! ### What a mark leaves of the demand path -/

theorem MarkFrame.msq {s t : State} (h : MarkFrame s t) : t.msq = { s.msq with stillCount := t.msq.stillCount } := by
  rw [h.rest]

theorem MarkFrame.frame {s t : State} (h : MarkFrame s t) : t.frame = s.frame := by
  simp [State.frame, h.inForce]

theorem MarkFrame.travelWindow {s t : State} (h : MarkFrame s t) : travelWindow t = travelWindow s := by
  unfold Machine.travelWindow
  rw [h.residentSlot, h.frame]
  split
  · rw [h.order]
  · rfl

theorem travelWindow_msq (s : State) (m : Msq) : travelWindow { s with msq := m } = travelWindow s := rfl

/-! ### The setpoint (R55, R59) -/

/-- A setpoint held within the travel window in POSITION mode (R59). -/
def heldSetpoint (m : Mode) (w : Int × Int) (q : Int) : Int := if m = .position then clamp w.1 w.2 q else q

/-- Where an advance goes and the rate it leaves: a MOVE stops at its target (R55). -/
def aimAt (target : Option Int) (rate next : Int) : Int × Int :=
  match target with
  | some t => if rate ≠ 0 ∧ reaches rate next t = true then (t, 0) else (next, rate)
  | none => (next, rate)

/-- Taking a setpoint sets at most TRAVEL beside it. -/
theorem putSetpoint_frame (m : Mode) (q : Int) (x : Measured) (s : State) :
    MarkFrame { s with msq := { s.msq with qSet := some (heldSetpoint m (travelWindow s) q) } } (putSetpoint m q x s) :=
  markTravel_frame _ _ _

/-- The control state that an advance leaves, the setpoint still to be taken. -/
def advancedMsq (b : Bank) (q : Int) (m : Msq) : Msq :=
  let a := advance b.rate q m.remainder
  { m with remainder := a.2, active := some { b with rate := (aimAt m.target b.rate a.1).2 } }

theorem advanceSetpoint_eq {b : Bank} (q : Int) (x : Measured) {s : State} (active : s.msq.active = some b) :
    advanceSetpoint b q x s =
      putSetpoint b.mode (aimAt s.msq.target b.rate (advance b.rate q s.msq.remainder).1).1 x
        { s with msq := advancedMsq b q s.msq } := by
  rcases target : s.msq.target with _ | t
  · simp [advanceSetpoint, advancedMsq, aimAt, target, active]
  · by_cases stops : b.rate ≠ 0 ∧ reaches b.rate (advance b.rate q s.msq.remainder).1 t = true
    · simp [advanceSetpoint, advancedMsq, aimAt, target, stops]
    · simp [advanceSetpoint, advancedMsq, aimAt, target, stops, active]

/-- The control state after an advance, marks aside. -/
def seatedMsq (b : Bank) (q : Int) (w : Int × Int) (m : Msq) : Msq :=
  { advancedMsq b q m with
    qSet := some (heldSetpoint b.mode w (aimAt m.target b.rate (advance b.rate q m.remainder).1).1) }

/-- An advance sets at most TRAVEL beside what `seatedMsq` says. -/
theorem advanceSetpoint_frame {b : Bank} (q : Int) (x : Measured) {s : State} (active : s.msq.active = some b) :
    MarkFrame { s with msq := seatedMsq b q (travelWindow s) s.msq } (advanceSetpoint b q x s) := by
  rw [advanceSetpoint_eq q x active]
  exact putSetpoint_frame _ _ _ { s with msq := advancedMsq b q s.msq }

/-! ### The last bounds (R63 to R65) -/

theorem windowStop_fst (v pos lo hi : Int) :
    (windowStop v pos lo hi).1 = if outward v pos lo hi = true then 0 else v := by
  unfold windowStop; split <;> rfl

/-- A demand stopped at the window is not directed outward. -/
theorem outward_windowStop (v pos lo hi : Int) : outward (windowStop v pos lo hi).1 pos lo hi = false := by
  rw [windowStop_fst]
  split
  · simp [outward]
  · simp_all

theorem absI_clamp_le {c : Int} (h : 0 ≤ c) (v : Int) : absI (clamp (-c) c v) ≤ c := by
  unfold absI clamp; split_ifs <;> omega

theorem absI_finalBounds_le {c : Int} (h : 0 ≤ c) (v pos lo hi : Int) : absI (finalBounds v c pos lo hi).1 ≤ c := by
  unfold finalBounds
  rw [windowStop_fst]
  split
  · exact h
  · exact absI_clamp_le h v

/-! ### The demand -/

/-- The demand before its last bounds outside a quiesce, in a state whose setpoint has advanced (R60 to R64). -/
def slewedVelocity (b : Bank) (x : Measured) (s : State) : Int :=
  let c := ceilingOf s.frame.vfs b.vmax
  let raw := rawVelocity (kOf b.mode s.live)
    (innerRate b.rate b.kp (errorOf (s.msq.qSet.getD 0) (measuredQ b.mode x)))
  slew s.msq.prevDemand (slewStep s.frame.aMax)
    (windowStop (clamp (-c) c raw) x.pos (travelWindow s).1 (travelWindow s).2).1

/-- A velocity within the ceiling of a bank and the travel window (R62, R63). -/
def boundedVelocity (b : Bank) (x : Measured) (s : State) (u : Int) : Int :=
  (finalBounds u (ceilingOf s.frame.vfs b.vmax) x.pos (travelWindow s).1 (travelWindow s).2).1

theorem boundedVelocity_eq (b : Bank) (x : Measured) {s : State} {lo hi : Int} (window : (lo, hi) = travelWindow s)
    (u : Int) :
    boundedVelocity b x s u =
      if outward (clamp (-ceilingOf s.frame.vfs b.vmax) (ceilingOf s.frame.vfs b.vmax) u) x.pos lo hi = true then 0
      else clamp (-ceilingOf s.frame.vfs b.vmax) (ceilingOf s.frame.vfs b.vmax) u := by
  unfold boundedVelocity finalBounds
  rw [windowStop_fst, ← window]

/-- The control state with a demand written (R64, R65), marks and the ceiling run aside. -/
def demandedMsq (v : Int) (vfs : Int) (t : State) (m : Msq) : Msq :=
  { m with
    prevDemand := v
    dac := dacCode v vfs
    ceilingRun := t.msq.ceilingRun
    stillCount := t.msq.stillCount }

/-- The eight steps leave nothing but the demand in the control state, the ceiling run and a still-count aside. -/
theorem demandSteps_msq (b : Bank) (x : Measured) (s : State) :
    (demandSteps b x s).msq =
      demandedMsq (boundedVelocity b x s (slewedVelocity b x s)) s.frame.vfs (demandSteps b x s) s.msq := by
  have marks := fun (n : Nat) (atCeiling travel : Bool) =>
    (trackMark_frame atCeiling { s with msq := { s.msq with ceilingRun := n } }).trans (markTravel_frame travel x _)
  unfold demandSteps writeDemand demandedMsq
  dsimp only
  rw [(marks _ _ _).frame, (marks _ _ _).msq]
  rfl

/-- The quiesce ramp does the same with the previous demand taken toward 0 (R71). -/
theorem quiesceDemand_msq (b : Bank) (x : Measured) (s : State) :
    (quiesceDemand b x s).msq =
      demandedMsq (boundedVelocity b x s (rampTo0 s.msq.prevDemand (slewStep s.frame.aMax))) s.frame.vfs
        (quiesceDemand b x s) s.msq := by
  have mark := fun (travel : Bool) => markTravel_frame travel x { s with msq := { s.msq with ceilingRun := 0 } }
  unfold quiesceDemand writeDemand demandedMsq
  dsimp only
  rw [(mark _).frame, (mark _).msq]
  rfl

section
variable {fl : Flight} {s : State} {b : Bank} (active : s.msq.active = some b) (drive : s.flu.drvEn = true)
  (tare : fl.tareSet = false)
include active drive tare

theorem demandOf_quiesce (x : Measured) (quiesce : fl.quiesce = true) :
    demandOf fl x s = quiesceDemand b x s := by
  simp [demandOf, active, drive, tare, quiesce]

/-- Outside a quiesce the steps run from the advanced setpoint, and what they read beside it is as it was. -/
theorem demandOf_msq (x : Measured) (quiesce : fl.quiesce = false) :
    let m := seatedMsq b (s.msq.qSet.getD 0) (travelWindow s) s.msq
    let b' := { b with rate := (aimAt s.msq.target b.rate (advance b.rate (s.msq.qSet.getD 0) s.msq.remainder).1).2 }
    (demandOf fl x s).msq =
      demandedMsq (boundedVelocity b x s (slewedVelocity b' x { s with msq := m })) s.frame.vfs (demandOf fl x s) m := by
  intro m b'
  have f := advanceSetpoint_frame (s.msq.qSet.getD 0) x active
  generalize hu : advanceSetpoint b (s.msq.qSet.getD 0) x s = u at f
  have run : demandOf fl x s = demandSteps b' x u := by
    have bank : u.msq.active = some b' := f.active
    simp [demandOf, active, drive, tare, quiesce, hu, bank]
  have bounds : ∀ v, boundedVelocity b' x u v = boundedVelocity b x s v := fun v => by
    unfold boundedVelocity
    rw [f.frame, f.travelWindow]
    rfl
  have slewed : slewedVelocity b' x u = slewedVelocity b' x { s with msq := m } := by
    unfold slewedVelocity
    rw [f.frame, f.travelWindow, f.live, f.msq]
  rw [run, demandSteps_msq, bounds, slewed, f.frame, f.msq]
  rfl

/-- In a quiesce or not, the demand is a velocity behind the last bounds, and the DAC code is made of it. -/
theorem demandOf_bounded (x : Measured) :
    (∃ u, (demandOf fl x s).msq.prevDemand = boundedVelocity b x s u) ∧
    (demandOf fl x s).msq.dac = dacCode (demandOf fl x s).msq.prevDemand s.frame.vfs := by
  rcases quiesce : fl.quiesce with _ | _
  · rw [demandOf_msq active drive tare x quiesce]
    exact ⟨⟨_, rfl⟩, rfl⟩
  · rw [demandOf_quiesce active drive tare x quiesce, quiesceDemand_msq]
    exact ⟨⟨_, rfl⟩, rfl⟩

end

/-! ### The obligation's words -/

theorem reaches_iff (rate value target : Int) : reaches rate value target = true ↔ Reached rate value target := by
  unfold reaches Reached
  split_ifs <;> simp <;> omega

theorem advance_eq (rate q : Int) (rem : Nat) :
    advance rate q rem =
      (sat32 (q + rate.tdiv 1000 + if 1000 ≤ rem + rate.natAbs % 1000 then signI rate else 0),
        if 1000 ≤ rem + rate.natAbs % 1000 then rem + rate.natAbs % 1000 - 1000 else rem + rate.natAbs % 1000) := by
  unfold advance
  dsimp only
  split_ifs <;> simp

theorem aimAt_eq (target : Option Int) (rate next : Int) :
    aimAt target rate next =
      match target with
      | some t => if rate ≠ 0 ∧ Reached rate next t then (t, 0) else (next, rate)
      | none => (next, rate) := by
  cases target with
  | none => rfl
  | some t => simp only [aimAt, reaches_iff]

theorem kOf_measuredQ (m : Mode) (live : Option Live) (x : Measured) :
    (kOf m live, measuredQ m x) =
      match m with
      | .position => (1677721600, x.pos)
      | .stress => ((live.map (·.rt.kS)).getD 1677721600, x.stress)
      | .strain => ((live.map (·.rt.kE)).getD 1677721600, x.strain) := by
  cases m <;> cases live <;> rfl

/-- Settles O55: the demand is a velocity behind the last bounds, whose value is the ramp's in a quiesce and the eight
steps' outside one. -/
theorem theDemandIsBounded : Obligations.TheDemandIsBounded := by
  intro fl x s b active drive tare ceiling
  obtain ⟨⟨u, demand⟩, code⟩ := demandOf_bounded active drive tare x
  refine ⟨?_, ?_, code, ?_⟩
  · rw [demand]
    exact absI_finalBounds_le ceiling _ _ _ _
  · rw [demand]
    exact outward_windowStop _ _ _ _
  rintro lo hi C step prev window rfl rfl rfl
  have bounds := boundedVelocity_eq b x window
  refine ⟨?_, ?_⟩
  · rintro quiesce ramp v rfl rfl
    rw [demandOf_quiesce active drive tare x quiesce, quiesceDemand_msq]
    exact ⟨bounds _, rfl, rfl⟩
  · intro quiesce q next aim rate set K measured inner raw v stopped bounded n seat carry moved aims held law hinner hraw
      hv hstopped hbounded
    have seated : s.msq.qSet.getD 0 = q := by rw [seat]; rfl
    have advanced : advance b.rate q s.msq.remainder = (next, if 1000 ≤ n then n - 1000 else n) := by
      rw [advance_eq, moved, carry]
    have aimed : aimAt s.msq.target b.rate next = (aim, rate) := (aimAt_eq _ _ _).trans aims.symm
    obtain ⟨gain, measures⟩ := Prod.mk.inj ((kOf_measuredQ b.mode s.live x).trans law.symm)
    have setpoint : heldSetpoint b.mode (travelWindow s) aim = set := by rw [held, ← window]; rfl
    have msq : seatedMsq b q (travelWindow s) s.msq =
        { s.msq with
          remainder := if 1000 ≤ n then n - 1000 else n
          active := some { b with rate := rate }
          qSet := some set } := by
      simp only [seatedMsq, advancedMsq, advanced, aimed, setpoint]
    have slewed : clamp (-ceilingOf s.frame.vfs b.vmax) (ceilingOf s.frame.vfs b.vmax)
        (slewedVelocity { b with rate := rate } x { s with msq := seatedMsq b q (travelWindow s) s.msq }) = bounded := by
      rw [hbounded, hstopped, ← windowStop_fst, hv, hraw, hinner, ← gain, ← measures, msq]
      unfold slewedVelocity
      rw [travelWindow_msq, ← window]
      rfl
    have value := demandOf_msq active drive tare x quiesce
    simp only [seated, advanced, aimed, bounds, slewed] at value
    rw [value, msq]
    exact ⟨rfl, rfl, rfl, rfl⟩

end Sys2Proof.Machine

/-! PROOFS about what only goes one way while marks are set and records offered: the rank of the pending cause does not
fall (R19), a queued event stays queued or its queue has overflowed (R200), and a mark that is new is the one set, or
GAP (R31, R189). -/

namespace Sys2Proof.Machine

/-! ### Causes and events -/

/-- An event stands in a queue, or the queue has lost an entry since it was last read (R200). -/
abbrev Heard (e : Event) (x : PortState) : Prop := e ∈ x.queue ∨ x.overflow = true

/-- The pending cause has not lost rank, and no event has left a queue. -/
structure Onward (s t : State) : Prop where
  rank : ∀ c, s.ctx.changeover = some c →
    ∃ d, t.ctx.changeover = some d ∧ causeRank c.cause ≤ causeRank d.cause
  heard : ∀ p e, Heard e (s.port p) → Heard e (t.port p)

namespace Onward

theorem refl (s : State) : Onward s s := ⟨fun c h => ⟨c, h, le_rfl⟩, fun _ _ h => h⟩

theorem trans {s t u : State} (h : Onward s t) (g : Onward t u) : Onward s u where
  rank c hc := by
    obtain ⟨d, hd, hcd⟩ := h.rank c hc
    obtain ⟨e, he, hde⟩ := g.rank d hd
    exact ⟨e, he, hcd.trans hde⟩
  heard p e x := g.heard p e (h.heard p e x)

/-- An update that touches neither the pending changeover nor the ports. -/
theorem of_same {s t : State} (changeover : t.ctx.changeover = s.ctx.changeover) (ptu : t.ptu = s.ptu) : Onward s t :=
  ⟨fun c h => ⟨c, by rw [changeover, h], le_rfl⟩, fun p e h => by simpa only [State.port, ptu] using h⟩

end Onward

/-- A delivered event stands in the queue or is lost to it with the overflow mark. -/
theorem heard_pushEvent (e : Event) (x : PortState) : Heard e (pushEvent e x) := by
  unfold Heard pushEvent
  split <;> simp

theorem Heard.pushEvent {d : Event} {x : PortState} (h : Heard d x) (e : Event) : Heard d (pushEvent e x) := by
  unfold Machine.pushEvent
  split
  · exact h.imp_left (List.mem_append_left _)
  · exact .inr rfl

/-- An event is heard by each port it is delivered to (R200, R201). -/
theorem heard_raiseEvent {n : Option Port} {e : Event} {s : State} {p : Port} (h : delivers n e p (s.port p) = true) :
    Heard e ((raiseEvent n e s).port p) := by
  rw [raiseEvent_port, if_pos h]
  exact heard_pushEvent _ _

theorem raiseEvent_onward (n : Option Port) (e : Event) (s : State) : Onward s (raiseEvent n e s) where
  rank c h := ⟨c, by rw [raiseEvent_ctx, h], le_rfl⟩
  heard p d h := by
    rw [raiseEvent_port]
    split
    · exact h.pushEvent e
    · exact h

theorem supersede_onward (c : Changeover) (s : State) : Onward s (supersede c s) := by
  unfold supersede
  split
  · exact raiseEvent_onward _ _ _
  · exact .refl s

/-- A changeover that becomes pending outranks the one it replaces. -/
theorem beginChangeover_onward {c : Changeover} {s : State}
    (h : ∀ old, s.ctx.changeover = some old → causeRank old.cause ≤ causeRank c.cause) :
    Onward s (beginChangeover c s) :=
  Onward.trans (t := { s with ctx := { s.ctx with changeover := some c } })
    ⟨fun old ho => ⟨c, rfl, h old ho⟩, fun _ _ x => x⟩ (raiseEvent_onward _ _ _)

theorem raiseCause_onward (cause : Cause) (r : Requester) (i : Option Context) (e : Option EndCause) (s : State) :
    Onward s (raiseCause cause r i e s) := by
  unfold raiseCause
  split
  · exact .refl s
  · split
    · rename_i calm
      refine Onward.trans (t := { s with msq := { s.msq with stillCount := 0 } }) (.of_same rfl rfl)
        (beginChangeover_onward fun old ho => ?_)
      exact absurd (calm.symm.trans ho) (by simp)
    · rename_i old pending
      split
      · rename_i rank
        refine (supersede_onward old s).trans (beginChangeover_onward fun d hd => ?_)
        rw [(supersede_frame old s).rest] at hd
        cases pending.symm.trans hd
        exact rank.le
      · exact .refl s

/-- A cause raised with a context resident leaves one of its rank or above pending (R19). -/
theorem raiseCause_pending (cause : Cause) (r : Requester) (i : Option Context) (e : Option EndCause) {s : State}
    {out : Context} (resident : s.ctx.resident = some out) :
    ∃ c, (raiseCause cause r i e s).ctx.changeover = some c ∧ causeRank cause ≤ causeRank c.cause := by
  rcases accepted : causeAccepted cause s with _ | _
  · rw [raiseCause_refused _ _ _ _ _ (.inr accepted)]
    rcases pending : s.ctx.changeover with _ | old
    · simp [causeAccepted, pending] at accepted
    · exact ⟨old, rfl, by simpa [causeAccepted, pending] using accepted⟩
  · refine ⟨_, by rw [(raiseCause_accepted cause r i e s resident accepted).rest], le_rfl⟩

theorem ends_of_rank {c : Cause} (h : causeRank .endTest ≤ causeRank c) : c = .endTest ∨ c = .terminate := by
  cases c
  · exact absurd h (by decide)
  · exact .inl rfl
  · exact .inr rfl

theorem raiseMarkCause_onward (k : SlotId) (m : Mark) (s : State) : Onward s (raiseMarkCause k m s) := by
  unfold raiseMarkCause
  split
  · split
    · split
      · exact .refl s
      · exact raiseCause_onward _ _ _ _ _
    · exact raiseCause_onward _ _ _ _ _
    · exact .refl s
    · exact .refl s
  · exact .refl s

theorem addMark_onward (k : SlotId) (m : Mark) (s : State) : Onward s (addMark k m s) := by
  unfold addMark
  refine Onward.trans ?_ (raiseEvent_onward _ _ _)
  exact .of_same rfl rfl

theorem offerRaw_onward (o : Offer) (s : State) : Onward s (offerRaw o s).1 := by
  unfold offerRaw
  split
  · unfold admitRecords
    dsimp only
    split
    · refine Onward.trans ?_ (raiseEvent_onward _ _ _)
      exact .of_same rfl rfl
    · exact .of_same rfl rfl
  · exact .of_same rfl rfl

theorem reportGap_onward (b : Bool) (k : SlotId) (n : BitVec 32) (s : State) : Onward s (reportGap b k n s) := by
  unfold reportGap
  split
  · exact .refl s
  · dsimp only
    split
    · split
      · exact ((addMark_onward _ _ _).trans (offerRaw_onward _ _)).trans (raiseMarkCause_onward _ _ _)
      · exact (addMark_onward _ _ _).trans (offerRaw_onward _ _)
    · exact addMark_onward _ _ _

theorem offer_onward (b : Bool) (o : Offer) (k : SlotId) (s : State) : Onward s (offer b o k s) := by
  unfold offer
  dsimp only
  split
  · exact offerRaw_onward _ _
  · exact (offerRaw_onward _ _).trans (reportGap_onward _ _ _ _)

theorem offerEvent_onward (e : RecordEvent) (n : BitVec 32) (k : SlotId) (sub : Nat) (v : Int) (s : State) :
    Onward s (offerEvent e n k sub v s) := offer_onward _ _ _ _

theorem setMark_onward (k : SlotId) (m : Mark) (v : Int) (n : BitVec 32) (s : State) :
    Onward s (setMark k m v n s) := by
  unfold setMark
  split
  · exact .refl s
  · dsimp only
    split
    · exact ((addMark_onward _ _ _).trans (offerEvent_onward _ _ _ _ _ _)).trans (raiseMarkCause_onward _ _ _)
    · exact addMark_onward _ _ _

/-! ### Which marks are new -/

/-- Every mark that is new in a slot is one of a list. -/
def OnlyNew (ms : List Mark) (s t : State) : Prop :=
  ∀ j, ∀ m ∈ (t.slot j).marks, m ∈ (s.slot j).marks ∨ m ∈ ms

namespace OnlyNew

theorem refl (ms : List Mark) (s : State) : OnlyNew ms s s := fun _ _ h => .inl h

theorem of_slots {ms : List Mark} {s t : State} (h : ∀ j, t.slot j = s.slot j) : OnlyNew ms s t :=
  fun j m x => .inl (by rwa [h j] at x)

theorem trans {ms : List Mark} {s t u : State} (h : OnlyNew ms s t) (g : OnlyNew ms t u) : OnlyNew ms s u :=
  fun j m x => (g j m x).elim (h j m) .inr

end OnlyNew

theorem addMark_new (k : SlotId) {m : Mark} (s : State) {ms : List Mark} (h : m ∈ ms) :
    OnlyNew ms s (addMark k m s) := by
  intro j m' x
  unfold addMark at x
  rw [raiseEvent_slot, State.slot_setSlot] at x
  split at x
  · rename_i same
    subst same
    exact (List.mem_append.1 x).imp_right fun y => by rwa [List.mem_singleton.1 y]
  · exact .inl x

theorem reportGap_new (b : Bool) (k : SlotId) (n : BitVec 32) (s : State) {ms : List Mark} (h : Mark.gap ∈ ms) :
    OnlyNew ms s (reportGap b k n s) := by
  have raw : ∀ (o : Offer) (u : State), OnlyNew ms u (offerRaw o u).1 := fun o u => .of_slots (offerRaw_slot o u)
  unfold reportGap
  split
  · exact .refl _ s
  · dsimp only
    split
    · split
      · exact ((addMark_new k s h).trans (raw _ _)).trans (.of_slots fun j => raiseMarkCause_slot _ _)
      · exact (addMark_new k s h).trans (raw _ _)
    · exact addMark_new k s h

/-- An offer that is dropped sets GAP and no other mark (R189). -/
theorem offer_new (b : Bool) (o : Offer) (k : SlotId) (s : State) {ms : List Mark} (h : Mark.gap ∈ ms) :
    OnlyNew ms s (offer b o k s) := by
  have raw : OnlyNew ms s (offerRaw o s).1 := .of_slots (offerRaw_slot o s)
  unfold offer
  dsimp only
  split
  · exact raw
  · exact raw.trans (reportGap_new _ _ _ _ h)

theorem setMark_new (k : SlotId) {m : Mark} (v : Int) (n : BitVec 32) (s : State) {ms : List Mark} (hm : m ∈ ms)
    (hg : Mark.gap ∈ ms) : OnlyNew ms s (setMark k m v n s) := by
  unfold setMark
  split
  · exact .refl _ s
  · dsimp only
    split
    · exact ((addMark_new k s hm).trans (offer_new _ _ _ _ hg)).trans (.of_slots fun j => raiseMarkCause_slot _ _)
    · exact addMark_new k s hm

/-- A new mark of the operator class with its stop enable on leaves a changeover pending (R31). -/
theorem setMark_pending {k : SlotId} {m : Mark} (v : Int) (n : BitVec 32) {s : State} {out : Context}
    (new : m ∉ (s.slot k).marks) (state : (s.slot k).state = .resident) (resident : s.ctx.resident = some out)
    (operator : markClass m = .operator) (enabled : stopEnabled (s.slot k).order m = true) :
    (setMark k m v n s).ctx.changeover.isSome = true := by
  have added := addMark_frame k m s
  have offered := offerEvent_frame .markSet n k (markNumber m) v (addMark k m s)
  have run : setMark k m v n s = raiseCause .operator .internal (some .service) none
      (offerEvent .markSet n k (markNumber m) v (addMark k m s)) := by
    simp [setMark, new, added.state, state, raiseMarkCause, offered.order, added.order, enabled, operator]
  obtain ⟨c, hc, -⟩ := raiseCause_pending .operator .internal (some .service) none
    (s := offerEvent .markSet n k (markNumber m) v (addMark k m s)) (by rw [offered.resident, added.resident, resident])
  rw [run, hc]
  rfl

theorem MarkFrame.pending_stays {s t : State} (h : MarkFrame s t) (p : s.ctx.changeover.isSome = true) :
    t.ctx.changeover.isSome = true := by
  rcases h.cause with e | ⟨c, e, -⟩
  · rw [e, p]
  · rw [e]; rfl

end Sys2Proof.Machine

/-! PROOFS about the program of a test (R38 to R48): the hold point, the end conditions, the end of a segment and the
bank flips, each said once, and the obligation on the tests of a sample from them. -/

namespace Sys2Proof.Machine

/-! ### The elapsed count and the hold point (R40, R48) -/

/-- A resident test with a sample counted in its segment, its hold point passed or not. -/
def testedLive (passed : Bool) (l : Live) : Live :=
  { l with rt := { l.rt with elapsed := l.rt.elapsed + 1, holdPassed := passed } }

/-- The hold point is reached for the first time (R48). -/
abbrev HoldReached (o : TestOrder) (l : Live) (x : Measured) : Prop :=
  o.holdptOn = true ∧ l.rt.holdPassed = false ∧ ∃ e, o.holdptStrain = some e ∧ e ≤ x.strain

theorem atOrAbove_iff (bound : Option Int) (x : Int) : atOrAbove bound x = true ↔ ∃ e, bound = some e ∧ e ≤ x := by
  cases bound <;> simp [atOrAbove]

theorem countElapsed_eq {l : Live} {s : State} (live : s.live = some l) (small : l.rt.elapsed + 1 ≤ 4294967295) :
    countElapsed s = { s with live := some (testedLive l.rt.holdPassed l) } := by
  have unsaturated : min Config.maxU32 (l.rt.elapsed + 1) = l.rt.elapsed + 1 := min_eq_right small
  simp [countElapsed, live, unsaturated, testedLive]

theorem holdPoint_unreached {k : SlotId} {x : Measured} {l : Live} {s : State} (live : s.live = some l)
    (h : ¬HoldReached (s.slot k).order l x) : holdPoint k x s = s := by
  have off : ((s.slot k).order.holdptOn && !l.rt.holdPassed && atOrAbove (s.slot k).order.holdptStrain x.strain) ≠
      true := fun on => h (by simpa [HoldReached, atOrAbove_iff, and_assoc] using on)
  simp only [holdPoint, live, if_neg off]

theorem holdPoint_reached {k : SlotId} {x : Measured} {l : Live} {s : State} (live : s.live = some l)
    (h : HoldReached (s.slot k).order l x) :
    ∃ n, holdPoint k x s = setMark k .holdpt x.strain n
      { s with live := some { l with rt := { l.rt with holdPassed := true } } } := by
  have on : ((s.slot k).order.holdptOn && !l.rt.holdPassed && atOrAbove (s.slot k).order.holdptStrain x.strain) =
      true := by simpa [HoldReached, atOrAbove_iff, and_assoc] using h
  simp only [holdPoint, live, if_pos on]
  exact ⟨_, rfl⟩

/-- A state that a counted sample and the test of the hold point have led to, records and events aside. -/
structure HoldTested (k : SlotId) (x : Measured) (l : Live) (s u : State) : Prop where
  frame : ∃ passed, MarkFrame { s with live := some (testedLive passed l) } u ∧
    (HoldReached (s.slot k).order l x → passed = true)
  marks : OnlyNew [.holdpt, .gap] s u
  reached : HoldReached (s.slot k).order l x → Mark.holdpt ∈ (u.slot k).marks ∧
    (Mark.holdpt ∉ (s.slot k).marks → u.ctx.changeover.isSome = true)

theorem HoldTested.trans {k : SlotId} {x : Measured} {l : Live} {s u v : State} (h : HoldTested k x l s u)
    (f : MarkFrame u v) (new : OnlyNew [.gap] u v) : HoldTested k x l s v where
  frame := by
    obtain ⟨passed, g, reached⟩ := h.frame
    exact ⟨passed, g.trans f, reached⟩
  marks := h.marks.trans fun j m x => (new j m x).imp_right fun gap => by simp [List.mem_singleton.1 gap]
  reached now := by
    obtain ⟨set, pending⟩ := h.reached now
    exact ⟨f.marks k _ set, fun new => f.pending_stays (pending new)⟩

theorem holdPoint_tested {k : SlotId} {x : Measured} {l : Live} {s : State}
    (resident : s.ctx.resident = some (.test k)) (state : (s.slot k).state = .resident) (live : s.live = some l)
    (small : l.rt.elapsed + 1 ≤ 4294967295) :
    HoldTested k x l s (holdPoint k x (countElapsed s)) ∧
    (¬HoldReached (s.slot k).order l x →
      holdPoint k x (countElapsed s) = { s with live := some (testedLive l.rt.holdPassed l) }) := by
  rw [countElapsed_eq live small]
  by_cases h : HoldReached (s.slot k).order l x
  · obtain ⟨n, e⟩ := holdPoint_reached (k := k) (s := { s with live := some (testedLive l.rt.holdPassed l) }) rfl h
    rw [e]
    exact ⟨
      { frame := ⟨true, setMark_frame _ _ _ _ _, fun _ => rfl⟩
        marks := setMark_new k _ n _ (by simp) (by simp)
        reached := fun _ => ⟨mem_setMark _ _ _ _ _, fun new => setMark_pending _ n new state resident rfl h.1⟩ },
      fun not => absurd h not⟩
  · rw [holdPoint_unreached (s := { s with live := some (testedLive l.rt.holdPassed l) }) rfl h]
    exact ⟨
      { frame := ⟨_, .refl _, fun reached => absurd reached h⟩
        marks := .refl _ s
        reached := fun reached => absurd reached h },
      fun _ => rfl⟩

/-! ### End conditions (R41 to R44) -/

/-- A YIELD segment is at its backup strain with no yield seen (R43). -/
abbrev AtBackup (g : Segment) (l : Live) (x : Measured) : Prop :=
  g.endKind = .yield ∧ yieldSeen l.rt.eval = false ∧ ∃ e, g.backup = some e ∧ e ≤ x.strain

theorem endFound_met (g : Segment) (b : Bank) (l : Live) (st : ChannelState) (x : Measured) :
    endFound g b l st x = .met ↔ EndMet g b l.rt.elapsed (yieldSeen l.rt.eval) st x := by
  have ofBool : ∀ c : Bool, (if c = true then EndFound.met else .unmet) = .met ↔ c = true := by decide
  have reach : ∀ v, (if reaches b.rate v (g.endValue.getD 0) = true then EndFound.met else .unmet) = .met ↔
      Reached b.rate v (g.endValue.getD 0) := fun v => (ofBool _).trans (reaches_iff _ _ _)
  unfold endFound EndMet
  cases g.endKind
  case qReach => cases b.mode <;> exact reach _
  case yield =>
    dsimp only
    split
    · simp [*]
    · split <;> simp [*]
  case time => exact (ofBool _).trans decide_eq_true_iff
  case detached => exact (ofBool _).trans beq_iff_eq
  case never => simp
  all_goals exact reach _

theorem endFound_backup (g : Segment) (b : Bank) (l : Live) (st : ChannelState) (x : Measured) :
    endFound g b l st x = .backup ↔ AtBackup g l x := by
  have ofBool : ∀ c : Bool, (if c = true then EndFound.met else .unmet) ≠ .backup := by decide
  unfold endFound AtBackup
  rw [← atOrAbove_iff]
  cases g.endKind
  case yield =>
    dsimp only
    split
    · simp [*]
    · split <;> simp [*]
  case never => simp
  all_goals exact iff_of_false (ofBool _) (fun h => nomatch h.1)

/-! ### The end of a segment (R45, R46) -/

/-- The next segment staged and the segment index moved on (R45). -/
def stagedNext (k : SlotId) (b : Bank) (s : State) : State :=
  { s with
    msq := { s.msq with inactive := (bankOf (s.slot k).order (b.seg + 1)).map .transition }
    live := s.live.map fun l => { l with rt := { l.rt with segIndex := b.seg + 1 } } }

theorem EventFrame.stagedNext {s t : State} (h : EventFrame s t) (k : SlotId) (b : Bank) :
    EventFrame (stagedNext k b s) (stagedNext k b t) where
  rest := by
    have slot : t.slot k = s.slot k := by rw [h.rest]; rfl
    unfold Machine.stagedNext
    rw [slot, h.rest]
  unit := h.unit
  ports := h.ports
  fit := h.fit

theorem supersedeStage_onward (s : State) : Onward s (supersedeStage s) := by
  unfold supersedeStage
  split
  · exact raiseEvent_onward _ _ _
  · exact .refl s

/-- The end of a segment that is not the last. -/
theorem segmentEnd_next {k : SlotId} {b : Bank} {s : State} (more : b.seg < (s.slot k).order.segments.length) :
    ∃ n, segmentEnd k b s =
      if (s.slot k).order.stepOn then setMark k .step 0 n (stagedNext k b (supersedeStage s))
      else stagedNext k b (supersedeStage s) := by
  have slot : (supersedeStage s).slot k = s.slot k := by rw [(supersedeStage_frame s).rest]; rfl
  unfold segmentEnd stagedNext
  dsimp only
  rw [if_pos more, slot]
  exact ⟨_, rfl⟩

/-- The end of the last segment raises END. -/
theorem segmentEnd_last {k : SlotId} {b : Bank} {s : State} (last : (s.slot k).order.segments.length ≤ b.seg) :
    segmentEnd k b s = raiseCause .endTest .internal none (some .programEnd) s := if_neg last.not_gt

theorem segmentEnd_onward (k : SlotId) (b : Bank) (s : State) : Onward s (segmentEnd k b s) := by
  rcases lt_or_ge b.seg (s.slot k).order.segments.length with more | last
  · have told : Onward s (stagedNext k b (supersedeStage s)) := (supersedeStage_onward s).trans (.of_same rfl rfl)
    obtain ⟨n, e⟩ := segmentEnd_next more
    rw [e]
    split
    · exact told.trans (setMark_onward _ _ _ _ _)
    · exact told
  · rw [segmentEnd_last last]
    exact raiseCause_onward _ _ _ _ _

/-- What the end of a segment that is not the last leaves, the marks of STEP and GAP aside. -/
theorem segmentEnd_next_frame {k : SlotId} {b : Bank} {s : State}
    (more : b.seg < (s.slot k).order.segments.length) : MarkFrame (stagedNext k b s) (segmentEnd k b s) := by
  have told := ((supersedeStage_frame s).stagedNext k b).mark
  obtain ⟨n, e⟩ := segmentEnd_next more
  rw [e]
  split
  · exact told.trans (setMark_frame _ _ _ _ _)
  · exact told

/-- A segment that ends with STEP on sets STEP, and a new STEP leaves a changeover pending (R46). -/
theorem segmentEnd_step {k : SlotId} {b : Bank} {s : State} (more : b.seg < (s.slot k).order.segments.length)
    (on : (s.slot k).order.stepOn = true) (resident : s.ctx.resident = some (.test k))
    (state : (s.slot k).state = .resident) :
    Mark.step ∈ ((segmentEnd k b s).slot k).marks ∧
    (Mark.step ∉ (s.slot k).marks → (segmentEnd k b s).ctx.changeover.isSome = true) := by
  have told := supersedeStage_frame s
  have slot : (stagedNext k b (supersedeStage s)).slot k = s.slot k := by
    show (supersedeStage s).slot k = _
    rw [told.rest]; rfl
  have context : (stagedNext k b (supersedeStage s)).ctx.resident = some (.test k) :=
    told.mark.resident.trans resident
  obtain ⟨n, e⟩ := segmentEnd_next more
  rw [e, if_pos on]
  exact ⟨mem_setMark _ _ _ _ _, fun new =>
    setMark_pending _ n (by rwa [slot]) (by rwa [slot]) context rfl (by rwa [slot])⟩

theorem segmentEnd_last_frame {k : SlotId} {b : Bank} {s : State} (last : (s.slot k).order.segments.length ≤ b.seg)
    (resident : s.ctx.resident = some (.test k)) : MarkFrame s (segmentEnd k b s) := by
  rw [segmentEnd_last last]
  exact raiseCause_frame _ _ _ _ _ k (.inr resident) (.inl ⟨by decide, rfl, rfl⟩)

/-- After the last segment END is pending, or a cause of higher rank is (R19, R45). -/
theorem segmentEnd_last_pending {k : SlotId} {b : Bank} {s : State}
    (last : (s.slot k).order.segments.length ≤ b.seg) (resident : s.ctx.resident = some (.test k)) :
    ∃ c, (segmentEnd k b s).ctx.changeover = some c ∧ (c.cause = .endTest ∨ c.cause = .terminate) := by
  rw [segmentEnd_last last]
  obtain ⟨c, pending, rank⟩ := raiseCause_pending .endTest .internal none (some .programEnd) resident
  exact ⟨c, pending, ends_of_rank rank⟩

/-! ### The end test -/

/-- Every port whose mask has the class of yields hears of a YIELD segment that ends at its backup strain (R43, R201). -/
theorem yieldBackup_heard (k : SlotId) (x : Measured) {s : State} {p : Port}
    (mask : (s.port p).mask.getLsbD 4 = true) : Heard (.yieldBackup k x.strain) ((yieldBackup k x s).port p) := by
  have delivered : delivers none (.yieldBackup k x.strain) p (s.port p) = true := by
    simp [delivers, namedOnly, eventClass, mask]
  exact (offerEvent_onward _ _ _ _ _ _).heard p _ (heard_raiseEvent delivered)

theorem yieldBackup_new (k : SlotId) (x : Measured) (s : State) : OnlyNew [.gap] s (yieldBackup k x s) :=
  OnlyNew.trans (.of_slots fun _ => raiseEvent_slot _ _ _ _) (offer_new _ _ _ _ (by simp))

section
variable {k : SlotId} {x : Measured} {l : Live} {b : Bank} {g : Segment} {s : State} (live : s.live = some l)
  (active : s.msq.active = some b) (segment : (s.slot k).order.segments[b.seg - 1]? = some g)
include live active segment

theorem endTest_unmet (h : endFound g b l s.xch.state x = .unmet) : endTest k x s = s := by
  simp [endTest, live, active, segment, h]

/-- A met end condition, the backup strain among them, ends the segment; records and events aside, nothing comes
before. -/
theorem endTest_ends (h : endFound g b l s.xch.state x ≠ .unmet) :
    ∃ v, endTest k x s = segmentEnd k b v ∧ MarkFrame s v ∧ OnlyNew [.gap] s v ∧
      (endFound g b l s.xch.state x = .backup →
        ∀ p, (s.port p).mask.getLsbD 4 = true → Heard (.yieldBackup k x.strain) (v.port p)) := by
  rcases found : endFound g b l s.xch.state x with _ | _ | _
  · exact absurd found h
  · refine ⟨s, ?_, .refl s, .refl _ s, nofun⟩
    simp [endTest, live, active, segment, found]
  · refine ⟨yieldBackup k x s, ?_, yieldBackup_frame k x s, yieldBackup_new k x s, fun _ p => yieldBackup_heard k x⟩
    simp [endTest, live, active, segment, found]

end

/-- Step 2 of R38 in a test that neither quiesces nor tares. -/
theorem segmentTests_eq {fl : Flight} {k : SlotId} {s : State} (resident : s.ctx.resident = some (.test k))
    (quiesce : fl.quiesce = false) (tare : fl.tareSet = false) (x : Measured) :
    segmentTests fl x s = endTest k x (holdPoint k x (countElapsed s)) := by
  simp [segmentTests, residentSlot_eq_some.2 resident, quiesce, tare]

/-! ### The bank flips (R38, R39) -/

/-- The elapsed count of a segment that has just become active (R40). -/
def zeroElapsed (l : Live) : Live := { l with rt := { l.rt with elapsed := 0 } }

/-- A setpoint seated with no MOVE under way sets at most TRAVEL beside it. -/
theorem seatSetpoint_frame {b : Bank} {x : Measured} {s : State} (target : s.msq.target = none) :
    MarkFrame
      { s with msq := { s.msq with
          remainder := 0, seat := false, qSet := some (heldSetpoint b.mode (travelWindow s) (measuredQ b.mode x)) } }
      (seatSetpoint b x s) := by
  have put := putSetpoint_frame b.mode (measuredQ b.mode x) x
    { s with msq := { s.msq with remainder := 0, seat := false } }
  have still : (putSetpoint b.mode (measuredQ b.mode x) x
      { s with msq := { s.msq with remainder := 0, seat := false } }).msq.target = none := by
    rw [put.msq]; exact target
  have run : seatSetpoint b x s = putSetpoint b.mode (measuredQ b.mode x) x
      { s with msq := { s.msq with remainder := 0, seat := false } } := by
    simp [seatSetpoint, still]
  rw [run]
  exact put

theorem transitionFlip_same {x : Measured} {l : Live} {b b' : Bank} {s : State} (live : s.live = some l)
    (active : s.msq.active = some b) (staged : s.msq.inactive = some (.transition b')) (mode : b.mode = b'.mode) :
    transitionFlip x s =
      { s with msq := { s.msq with active := some b', inactive := none }, live := some (zeroElapsed l) } := by
  simp [transitionFlip, staged, active, live, mode, zeroElapsed]

theorem transitionFlip_other {x : Measured} {l : Live} {b b' : Bank} {s : State} (live : s.live = some l)
    (active : s.msq.active = some b) (staged : s.msq.inactive = some (.transition b')) (mode : b.mode ≠ b'.mode) :
    transitionFlip x s = seatSetpoint b' x
      { s with msq := { s.msq with active := some b', inactive := none }, live := some (zeroElapsed l) } := by
  simp [transitionFlip, staged, active, live, mode, zeroElapsed]

theorem amendmentFlip_of_amendment {b : Bank} {p : Port} {s : State} (staged : s.msq.inactive = some (.amendment b p)) :
    amendmentFlip s = { s with msq := { s.msq with active := some b, inactive := none } } := by
  simp [amendmentFlip, staged]

theorem travelWindow_test {k : SlotId} {s : State} (resident : s.ctx.resident = some (.test k)) :
    travelWindow s = ((s.slot k).order.winLo, (s.slot k).order.winHi) := by
  simp [travelWindow, residentSlot_eq_some.2 resident]

theorem heldSetpoint_measuredQ (m : Mode) (lo hi : Int) (x : Measured) :
    heldSetpoint m (lo, hi) (measuredQ m x) =
      match m with
      | .position => clamp lo hi x.pos
      | .stress => x.stress
      | .strain => x.strain := by
  cases m <;> rfl

/-! ### The obligation -/

section
variable {fl : Flight} {x : Measured} {k : SlotId} {l : Live} {b : Bank} {g : Segment} {s : State}
  (resident : s.ctx.resident = some (.test k)) (state : (s.slot k).state = .resident) (live : s.live = some l)
  (active : s.msq.active = some b) (segment : (s.slot k).order.segments[b.seg - 1]? = some g)
  (quiesce : fl.quiesce = false) (tare : fl.tareSet = false) (small : l.rt.elapsed + 1 ≤ 4294967295)
include resident state live active segment quiesce tare small

/-- With no end condition met, the hold point alone is tested. -/
theorem segmentTests_unmet (unmet : ¬EndMet g b (l.rt.elapsed + 1) (yieldSeen l.rt.eval) s.xch.state x)
    (short : ¬AtBackup g l x) :
    HoldTested k x l s (segmentTests fl x s) ∧
    (¬HoldReached (s.slot k).order l x →
      segmentTests fl x s = { s with live := some (testedLive l.rt.holdPassed l) }) := by
  obtain ⟨tested, not⟩ := holdPoint_tested (x := x) resident state live small
  obtain ⟨passed, f, -⟩ := tested.frame
  have found : endFound g b (testedLive passed l) (holdPoint k x (countElapsed s)).xch.state x = .unmet := by
    rw [f.xch]
    rcases found : endFound g b (testedLive passed l) s.xch.state x with _ | _ | _
    · rfl
    · exact absurd ((endFound_met _ _ _ _ _).1 found) unmet
    · exact absurd ((endFound_backup _ _ _ _ _).1 found) short
  rw [segmentTests_eq resident quiesce tare x,
    endTest_unmet f.live (f.active.trans active) (by rw [f.order]; exact segment) found]
  exact ⟨tested, not⟩

/-- With an end condition met, the segment ends behind the hold point and, at its backup strain, behind YIELD_BACKUP. -/
theorem segmentTests_ends
    (ends : EndMet g b (l.rt.elapsed + 1) (yieldSeen l.rt.eval) s.xch.state x ∨ AtBackup g l x) :
    ∃ v, segmentTests fl x s = segmentEnd k b v ∧ HoldTested k x l s v ∧
      (AtBackup g l x → ∀ p, (s.port p).mask.getLsbD 4 = true → Heard (.yieldBackup k x.strain) (v.port p)) := by
  obtain ⟨tested, -⟩ := holdPoint_tested (x := x) resident state live small
  obtain ⟨passed, f, -⟩ := tested.frame
  have ended : endFound g b (testedLive passed l) (holdPoint k x (countElapsed s)).xch.state x ≠ .unmet := by
    rw [f.xch]
    intro unmet
    rcases ends with met | backup
    · exact absurd ((endFound_met g b (testedLive passed l) _ x).2 met) (by rw [unmet]; decide)
    · exact absurd ((endFound_backup g b (testedLive passed l) s.xch.state x).2 backup) (by rw [unmet]; decide)
  obtain ⟨v, e, h, new, heard⟩ :=
    endTest_ends f.live (f.active.trans active) (by rw [f.order]; exact segment) ended
  refine ⟨v, (segmentTests_eq resident quiesce tare x).trans e, tested.trans h new, fun backup p mask => ?_⟩
  refine heard ((endFound_backup _ _ _ _ _).2 backup) p ?_
  have port : PortEvents (s.port p) ((holdPoint k x (countElapsed s)).port p) := f.ports p
  rw [port]
  exact mask

end

section
variable {x : Measured} {k : SlotId} {l : Live} {b : Bank} {s v : State} (tested : HoldTested k x l s v)
include tested

theorem HoldTested.resident : v.ctx.resident = s.ctx.resident := by
  obtain ⟨_, f, -⟩ := tested.frame
  exact f.resident

theorem HoldTested.state : (v.slot k).state = (s.slot k).state := by
  obtain ⟨_, f, -⟩ := tested.frame
  exact f.state k

theorem HoldTested.order : (v.slot k).order = (s.slot k).order := by
  obtain ⟨_, f, -⟩ := tested.frame
  exact f.order k

/-- The end of a segment behind the hold point leaves the active bank, the counted sample and what the hold point set. -/
theorem HoldTested.ends (resident : s.ctx.resident = some (.test k)) :
    (segmentEnd k b v).live.map (·.rt.elapsed) = some (l.rt.elapsed + 1) ∧
    (segmentEnd k b v).msq.active = s.msq.active ∧
    (HoldReached (s.slot k).order l x →
      (segmentEnd k b v).live.map (·.rt.holdPassed) = some true ∧ Mark.holdpt ∈ ((segmentEnd k b v).slot k).marks ∧
      (Mark.holdpt ∉ (s.slot k).marks → (segmentEnd k b v).ctx.changeover.isSome = true)) := by
  obtain ⟨passed, f, reaches⟩ := tested.frame
  rcases lt_or_ge b.seg (v.slot k).order.segments.length with more | last
  · have h := segmentEnd_next_frame more
    have after : (segmentEnd k b v).live = some { testedLive passed l with
        rt := { (testedLive passed l).rt with segIndex := b.seg + 1 } } := by
      rw [h.live]
      simp [stagedNext, f.live]
    refine ⟨by rw [after]; rfl, h.active.trans f.active, fun held => ?_⟩
    obtain ⟨set, pending⟩ := tested.reached held
    exact ⟨by rw [after, reaches held]; rfl, h.marks k _ set, fun new => h.pending_stays (pending new)⟩
  · have h := segmentEnd_last_frame last (tested.resident.trans resident)
    have after : (segmentEnd k b v).live = some (testedLive passed l) := h.live.trans f.live
    refine ⟨by rw [after]; rfl, h.active.trans f.active, fun held => ?_⟩
    obtain ⟨set, pending⟩ := tested.reached held
    exact ⟨by rw [after, reaches held]; rfl, h.marks k _ set, fun new => h.pending_stays (pending new)⟩

/-- The end of a segment that is not the last stages the next one, and stops at it where STEP is on (R45, R46). -/
theorem HoldTested.next (resident : s.ctx.resident = some (.test k)) (state : (s.slot k).state = .resident)
    (more : b.seg < (s.slot k).order.segments.length) :
    (segmentEnd k b v).msq.inactive = (bankOf (s.slot k).order (b.seg + 1)).map .transition ∧
    (segmentEnd k b v).live.map (·.rt.segIndex) = some (b.seg + 1) ∧
    ((s.slot k).order.stepOn = true → Mark.step ∈ ((segmentEnd k b v).slot k).marks ∧
      (Mark.step ∉ (s.slot k).marks → (segmentEnd k b v).ctx.changeover.isSome = true)) := by
  obtain ⟨passed, f, -⟩ := tested.frame
  rw [← tested.order] at more ⊢
  have h := segmentEnd_next_frame more
  refine ⟨h.inactive, by rw [h.live]; simp [stagedNext, f.live], fun on => ?_⟩
  obtain ⟨set, pending⟩ :=
    segmentEnd_step more on (tested.resident.trans resident) (tested.state.trans state)
  refine ⟨set, fun new => pending fun was => ?_⟩
  exact (tested.marks k _ was).elim new (by decide)

/-- The end of the last segment moves nothing and leaves END or a cause above it pending (R45). -/
theorem HoldTested.last (resident : s.ctx.resident = some (.test k))
    (last : (s.slot k).order.segments.length ≤ b.seg) :
    (segmentEnd k b v).msq.inactive = s.msq.inactive ∧
    (segmentEnd k b v).live.map (·.rt.segIndex) = some l.rt.segIndex ∧
    ∃ c, (segmentEnd k b v).ctx.changeover = some c ∧ (c.cause = .endTest ∨ c.cause = .terminate) := by
  obtain ⟨passed, f, -⟩ := tested.frame
  rw [← tested.order] at last
  have h := segmentEnd_last_frame last (tested.resident.trans resident)
  exact ⟨h.inactive.trans f.inactive, by rw [h.live, f.live]; rfl,
    segmentEnd_last_pending last (tested.resident.trans resident)⟩

end

/-- Settles O47: the tests of a sample by whether an end condition is met, and the flips by their equations. -/
theorem segmentsEnd : Obligations.SegmentsEnd := by
  refine ⟨?_, ?_, fun b p s => amendmentFlip_of_amendment⟩
  · rintro fl x k l b g s resident state live active segment quiesce tare small t held met backup rfl isHeld isMet
      isBackup
    by_cases ends : met ∨ backup
    · obtain ⟨v, e, tested, heard⟩ := segmentTests_ends resident state live active segment quiesce tare small
        (ends.imp isMet.1 isBackup.1)
      obtain ⟨elapsed, bank, hold⟩ := tested.ends (b := b) resident
      rw [e]
      refine ⟨elapsed, bank.trans active, fun _ unmet short => ?_, fun h => hold (isHeld.1 h), fun unmet short => ?_,
        fun _ => ⟨tested.next resident state, tested.last resident⟩, fun h p mask => ?_⟩
      · exact absurd ends (not_or.2 ⟨unmet, short⟩)
      · exact absurd ends (not_or.2 ⟨unmet, short⟩)
      · exact (segmentEnd_onward k b v).heard p _ (heard (isBackup.1 h) p mask)
    · obtain ⟨unmet, short⟩ := not_or.1 ends
      obtain ⟨tested, not⟩ := segmentTests_unmet resident state live active segment quiesce tare small
        (isMet.not.1 unmet) (isBackup.not.1 short)
      obtain ⟨passed, f, reaches⟩ := tested.frame
      refine ⟨by rw [f.live]; rfl, f.active.trans active, fun early _ _ => not (isHeld.not.1 early), fun h => ?_,
        fun _ _ => ⟨f.inactive, by rw [f.live]; rfl⟩, fun h => absurd h ends, fun h => absurd h short⟩
      exact ⟨by rw [f.live, reaches (isHeld.1 h)]; rfl, tested.reached (isHeld.1 h)⟩
  · intro x k l b b' s resident live active target staged
    by_cases mode : b.mode = b'.mode
    · rw [transitionFlip_same live active staged mode]
      exact ⟨rfl, rfl, rfl, rfl, fun _ => rfl, fun other => absurd mode other⟩
    · rw [transitionFlip_other live active staged mode]
      have f := seatSetpoint_frame (b := b') (x := x) (s := { s with
        msq := { s.msq with active := some b', inactive := none }, live := some (zeroElapsed l) }) target
      have window := travelWindow_test (s := { s with
        msq := { s.msq with active := some b', inactive := none }, live := some (zeroElapsed l) }) resident
      rw [window, heldSetpoint_measuredQ] at f
      refine ⟨f.active, f.inactive, by rw [f.msq], f.live, fun same => absurd same mode, fun _ => ?_⟩
      rw [f.msq]
      exact ⟨rfl, rfl⟩

end Sys2Proof.Machine

/-! PROOFS about a sample set on its way to the tests of its sample: what of the program of the resident test
stands through the load channel, the extension channel and the evaluation unit, and that a quiet set keeps no FAULT
back. -/

namespace Sys2Proof.Machine

/-! ### What stands of the program -/

/-- The counts of a segment under way (R40, R45). -/
def Live.progress (l : Live) : Nat × Nat := (l.rt.elapsed, l.rt.segIndex)

/-- No FAULT is among the reports kept back. -/
def NoFaultKept (s : State) : Prop := ∀ kind, Report.fault kind ∉ s.ctx.transit

/-- A step on the way of a set that leaves the inactive bank, the active segment and its counts, and keeps no FAULT back.
-/
structure SetFrame (s t : State) : Prop where
  chain : ChainFrame s t
  inactive : t.msq.inactive = s.msq.inactive
  seg : t.msq.active.map (·.seg) = s.msq.active.map (·.seg)
  progress : t.live.map Live.progress = s.live.map Live.progress
  kept : NoFaultKept s → NoFaultKept t

namespace SetFrame

theorem refl (s : State) : SetFrame s s := ⟨.refl s, rfl, rfl, rfl, id⟩

theorem trans {s t u : State} (h : SetFrame s t) (g : SetFrame t u) : SetFrame s u where
  chain := h.chain.trans g.chain
  inactive := g.inactive.trans h.inactive
  seg := g.seg.trans h.seg
  progress := g.progress.trans h.progress
  kept := g.kept ∘ h.kept

/-- A step of the chain that keeps no report back and touches no bank. -/
theorem of_chain {s t : State} (chain : ChainFrame s t) (msq : t.msq = s.msq)
    (progress : t.live.map Live.progress = s.live.map Live.progress) (transit : t.ctx.transit = s.ctx.transit) :
    SetFrame s t :=
  ⟨chain, by rw [msq], by rw [msq], progress, fun h => by unfold NoFaultKept; rwa [transit]⟩

end SetFrame

theorem MarkFrame.set {s t : State} (h : MarkFrame s t) : SetFrame s t where
  chain := h.chain
  inactive := h.inactive
  seg := by rw [h.active]
  progress := by rw [h.live]
  kept x := by unfold NoFaultKept; rwa [h.transit]

theorem set_xch (s : State) (x : Xch) : SetFrame s { s with xch := x } := .of_chain (chain_xch s x) rfl rfl rfl

theorem set_liveMap (s : State) {f : Live → Live} (h : ∀ l, (f l).progress = l.progress) :
    SetFrame s { s with live := s.live.map f } :=
  .of_chain (chain_liveMap s f) rfl (by simp [Function.comp_def, h]) rfl

theorem set_live {s : State} {l l' : Live} (live : s.live = some l) (h : l'.progress = l.progress) :
    SetFrame s { s with live := some l' } :=
  .of_chain (chain_live s _ (by simp [live])) rfl (by simp [live, h]) rfl

theorem set_msq (s : State) {m : Msq} (inactive : m.inactive = s.msq.inactive)
    (seg : m.active.map (·.seg) = s.msq.active.map (·.seg)) : SetFrame s { s with msq := m } where
  chain := chain_msq s m (by
    have both := congrArg Option.isSome seg
    simp only [Option.isSome_map] at both
    rw [both, inactive])
  inactive := inactive
  seg := seg
  progress := rfl
  kept := id

theorem set_smu (s : State) (u : Smu) : SetFrame s { s with smu := u } :=
  .of_chain (chain_of_same rfl rfl rfl rfl rfl rfl rfl rfl (.inl rfl) rfl rfl rfl) rfl rfl rfl

/-! ### Reports (R32) -/

/-- A report kept back, or taken at once with no more than a mark may do. -/
theorem post_set {keep : Bool} {r : Report} {s : State} (fault : ∀ kind, r ≠ .fault kind)
    (take : MarkFrame s (takeReport s r)) : SetFrame s (post keep r s) := by
  unfold post
  split
  · refine ⟨chain_transit s _, rfl, rfl, rfl, fun h kind x => ?_⟩
    rcases List.mem_append.1 x with x | x
    · exact h kind x
    · exact fault kind (List.mem_singleton.1 x).symm
  · exact take.set

theorem post_mark_set (keep : Bool) (k : SlotId) (m : Mark) (v : Int) (n : BitVec 32) (s : State) :
    SetFrame s (post keep (.mark k m v n) s) := post_set nofun (setMark_frame k m v n s)

theorem post_fracture_set (keep : Bool) (k : SlotId) (n : Nat) (c : Criterion) (f fm : Int) (s : State) :
    SetFrame s (post keep (.fracture k n c f fm) s) := post_set nofun (takeFracture_frame k n c f fm s)

theorem takeReport_mark {r : Report} (fault : ∀ kind, r ≠ .fault kind) (s : State) :
    MarkFrame s (takeReport s r) ∧ Onward s (takeReport s r) := by
  cases r with
  | mark k m v n => exact ⟨setMark_frame k m v n s, setMark_onward k m v n s⟩
  | fracture k n c f fm =>
    refine ⟨takeFracture_frame k n c f fm s, ?_⟩
    unfold takeReport
    dsimp only
    have set := setMark_onward k .fracture f (BitVec.ofNat 32 n) s
    split
    · exact (set.trans (raiseCause_onward _ _ _ _ _)).trans (raiseEvent_onward _ _ _)
    · exact set.trans (raiseEvent_onward _ _ _)
  | fault kind => exact absurd rfl (fault kind)

theorem foldl_takeReport_mark (l : List Report) (fault : ∀ kind, Report.fault kind ∉ l) (s : State) :
    MarkFrame s (l.foldl takeReport s) ∧ Onward s (l.foldl takeReport s) := by
  induction l generalizing s with
  | nil => exact ⟨.refl s, .refl s⟩
  | cons r l ih =>
    obtain ⟨f, o⟩ := takeReport_mark (fun kind e => fault kind (e ▸ List.mem_cons_self)) s
    obtain ⟨g, q⟩ := ih (fun kind x => fault kind (List.mem_cons_of_mem _ x)) (takeReport s r)
    exact ⟨f.trans g, o.trans q⟩

/-- The reports kept back are taken with no more than marks may do, where no FAULT is among them. -/
theorem drain_set {which : Report → Bool} {s : State} (h : NoFaultKept s) :
    SetFrame s (drain which s) ∧ Onward s (drain which s) := by
  have rest : SetFrame s { s with ctx := { s.ctx with transit := s.ctx.transit.filter (fun r => !which r) } } :=
    ⟨chain_transit s _, rfl, rfl, rfl, fun _ kind x => h kind (List.mem_filter.1 x).1⟩
  obtain ⟨f, o⟩ := foldl_takeReport_mark (s.ctx.transit.filter which) (fun kind x => h kind (List.mem_filter.1 x).1)
    { s with ctx := { s.ctx with transit := s.ctx.transit.filter (fun r => !which r) } }
  have same : Onward s { s with ctx := { s.ctx with transit := s.ctx.transit.filter (fun r => !which r) } } :=
    .of_same rfl rfl
  exact ⟨rest.trans f.set, same.trans o⟩

/-! ### The sampling unit and the load channel -/

/-- A quiet set reports no FAULT as it is counted (R77). -/
theorem countSet_quiet {x : SampleSet} {conv : Option (BitVec 24)} {s : State} (quiet : quietSet x conv s = true)
    (w : SetOrder) : ∃ u, countSet conv w s = { s with smu := u } := by
  cases conv with
  | some code => exact ⟨_, rfl⟩
  | none =>
    have run : min Config.maxU16 (s.smu.missRun + 1) ≠ 3 := by
      have : s.smu.missRun ≠ 2 := by simpa [quietSet] using quiet
      unfold Config.maxU16
      omega
    exact ⟨(countMiss w s).smu, by simp only [countSet, countMiss, if_neg run]⟩

/-- A quiet set reports no FAULT as it is converted (R93). -/
theorem lchConvert_set {x : SampleSet} {conv : Option (BitVec 24)} {s₀ s : State}
    (quiet : quietSet x conv s₀ = true) (lch : s.lch = s₀.lch) (w : SetOrder) :
    SetFrame s (lchConvert x conv w s).1 := by
  unfold lchConvert
  dsimp only
  split
  · rename_i code settling
    have calm : ¬(hardAt x.tables x.range (code24 code) = true ∧ s.lch.hard = false) := by
      rw [lch]
      simpa [quietSet, settling, or_comm, imp_iff_not_or] using quiet
    dsimp only
    split
    · rename_i reports
      rw [Bool.and_eq_true, Bool.not_eq_true'] at reports
      exact absurd reports calm
    · exact .of_chain (lchAfter_chain _ _ s) rfl rfl rfl
  · exact .refl s

theorem lchConvert_quiesce (x : SampleSet) (conv : Option (BitVec 24)) (w : SetOrder) (s : State) :
    (lchConvert x conv w s).2.quiesce = s.ctx.changeover.isSome := by
  unfold lchConvert
  dsimp only
  split <;> rfl

theorem lchConvert_tareSet (x : SampleSet) (conv : Option (BitVec 24)) (w : SetOrder) (s : State) :
    (lchConvert x conv w s).2.tareSet = startTareRunning s := by
  unfold lchConvert
  dsimp only
  split <;> rfl

theorem examineResumed_frame (s : State) : MarkFrame s (examineResumed s) := by
  unfold examineResumed
  split
  · rename_i k l resident live
    split
    · split
      · exact raiseCause_frame _ _ _ _ _ k (.inr (residentSlot_eq_some.1 resident)) (.inl ⟨by decide, rfl, rfl⟩)
      · exact .refl s
    · exact .refl s
  · exact .refl s

theorem settleMark_set (fl : Flight) (s : State) : SetFrame s (settleMark fl s) := by
  unfold settleMark
  split
  · split
    · exact post_mark_set _ _ _ _ _ _
    · exact .refl s
  · exact .refl s

theorem overloadCheck_set (fl : Flight) (s : State) : SetFrame s (overloadCheck fl s) := by
  unfold overloadCheck
  split
  · split
    · exact post_mark_set _ _ _ _ _ _
    · exact .refl s
  · exact .refl s

theorem ChainFrame.noTare {s t : State} (h : ChainFrame s t) (idle : s.lch.tareRun = none) : t.lch.tareRun = none := by
  rcases h.tare with e | e
  · simpa [idle] using e
  · exact e

/-- A quiet set at the load channel, with no tare running. -/
theorem loadStep_set {x : SampleSet} {conv : Option (BitVec 24)} {s₀ s : State} (quiet : quietSet x conv s₀ = true)
    (lch : s.lch = s₀.lch) (tare : s.lch.tareRun = none) (w : SetOrder) : SetFrame s (loadStep x conv w s).1 := by
  have f := ((lchConvert_set quiet lch w).trans (examineResumed_frame _).set).trans
    (settleMark_set (lchConvert x conv w s).2 _)
  have collect : ∀ fl u, u.lch.tareRun = none → collectTare fl u = u := fun fl u h => by simp [collectTare, h]
  unfold loadStep
  dsimp only
  rw [collect _ _ (f.chain.noTare tare)]
  exact f.trans (overloadCheck_set _ _)

/-! ### The extension channel and the evaluation unit -/

theorem removalTimedOut_set (fl : Flight) (s : State) : SetFrame s (removalTimedOut fl s) := by
  unfold removalTimedOut
  split
  · exact post_mark_set _ _ _ _ _ _
  · exact .refl s

theorem releasingStep_set (fl : Flight) (s : State) : SetFrame s (releasingStep fl s) := by
  unfold releasingStep
  dsimp only
  split
  · split
    · split
      · exact (set_xch s _).trans (removalTimedOut_set _ _)
      · exact set_xch s _
    · exact .refl s
  · exact (set_xch s _).trans (announceDetached_frame _ _ _ _).set

theorem channelStep_set (fl : Flight) (s : State) : SetFrame s (channelStep fl s).1 := by
  unfold channelStep
  split
  · split
    · exact set_xch s _
    · exact .refl s
  · split
    · exact set_xch s _
    · exact (set_xch s _).trans (announceDetached_frame _ _ _ _).set
  · split
    · exact .refl s
    · exact (set_xch s _).trans (announceDetached_frame _ _ _ _).set
  · exact releasingStep_set fl s

theorem lanesStep_set (fl : Flight) (captured : Bool) (s : State) : SetFrame s (lanesStep fl captured s).1 := by
  unfold lanesStep
  dsimp only
  split
  · split
    · exact set_xch s _
    · exact set_xch s _
  · exact set_xch s _

theorem handover_set (k : SlotId) (c : HandoverCause) (v ex : Int) (s : State) : SetFrame s (handover k c v ex s) := by
  have handed : SetFrame s { s with
      live := s.live.map fun l => { l with rt := { l.rt with source := .xhd, offset := some (sat32 (v - ex)) } } } :=
    set_liveMap s fun _ => rfl
  unfold handover
  dsimp only
  exact handed.trans ((raiseEvent_frame _ _ _).mark.trans (offerEvent_frame _ _ _ _ _ _)).set

theorem slipStep_set (fl : Flight) (f : LaneFacts) (ex : Int) (s : State) : SetFrame s (slipStep fl f ex s) := by
  have slipped : SetFrame s (if f.bad then setSlipped s else s) := by
    split
    · exact set_xch s _
    · exact .refl s
  unfold slipStep
  split
  · dsimp only
    split
    · split
      · exact .refl s
      · exact ((set_xch s _).trans (handover_set _ _ _ _ _)).trans (post_mark_set _ _ _ _ _ _)
    · exact slipped.trans (handover_set _ _ _ _ _)
    · exact slipped
  · exact slipped

theorem beginRemoval_set (k : SlotId) (e ex : Int) (s : State) : SetFrame s (beginRemoval k e ex s) := by
  unfold beginRemoval
  exact (handover_set _ _ _ _ _).trans (set_xch _ _)

theorem parkedWatch_set (s : State) : SetFrame s (parkedWatch s) := by
  refine .of_chain (parkedWatch_chain s) ?_ ?_ ?_ <;>
  · unfold parkedWatch
    split
    · split
      · split <;> rfl
      · rfl
    · rfl

theorem residentStrain_set (fl : Flight) (f : LaneFacts) (k : SlotId) (s : State) :
    SetFrame s (residentStrain fl f k s).1 := by
  have seat : SetFrame s (seatPosRef fl.set.xh s) := set_liveMap s fun _ => rfl
  have slip : ∀ ex, SetFrame s (slipStep fl f ex (seatPosRef fl.set.xh s)) := fun ex =>
    seat.trans (slipStep_set _ _ _ _)
  unfold residentStrain
  dsimp only
  split
  · exact slip _
  · split
    · exact (slip _).trans (beginRemoval_set _ _ _ _)
    · exact slip _

/-- A set at the extension channel (R113). -/
theorem xchStep_set (fl : Flight) (s : State) : SetFrame s (xchStep fl s).1 := by
  have lanes := (channelStep_set fl s).trans (lanesStep_set fl (channelStep fl s).2 _)
  unfold xchStep
  dsimp only
  split
  · exact lanes.trans ((residentStrain_set _ _ _ _).trans (parkedWatch_set _))
  · exact lanes.trans ((slipStep_set _ _ _ _).trans (parkedWatch_set _))

theorem evaluate_set (fl : Flight) (x : XOut) (k : SlotId) {l : Live} (st : Int) {s : State} (live : s.live = some l) :
    SetFrame s (evaluate fl x k l st s) := by
  have eval : ∀ e, SetFrame s { s with live := some { l with rt := { l.rt with eval := e } } } :=
    fun e => set_live live rfl
  have announced : ∀ (e : Eval) (seen : Bool) (n : Nat), SetFrame s
      (if seen then announceYield k n e { s with live := some { l with rt := { l.rt with eval := e } } }
       else { s with live := some { l with rt := { l.rt with eval := e } } }) := by
    intro e seen n
    split
    · exact (eval e).trans (announceYield_frame _ _ _ _).set
    · exact eval e
  unfold evaluate
  dsimp only
  split
  · exact (announced _ _ _).trans (post_fracture_set _ _ _ _ _ _ _)
  · exact announced _ _ _

/-- A set at the evaluation unit (R129 to R131). -/
theorem evuStep_set (fl : Flight) (x : XOut) (s : State) : SetFrame s (evuStep fl x s).1 := by
  unfold evuStep
  split
  · rename_i live
    dsimp only
    split
    · exact evaluate_set _ _ _ _ live
    · exact .refl s
  · exact .refl s

end Sys2Proof.Machine

/-! PROOFS about the motion sequencer's part of a set, ahead of the tests of its sample and behind them, and the
obligation on the end of a TIME segment. -/

namespace Sys2Proof.Machine

/-! ### Ahead of the tests -/

theorem putSetpoint_set (m : Mode) (q : Int) (x : Measured) (s : State) : SetFrame s (putSetpoint m q x s) := by
  have put : SetFrame s { s with msq := { s.msq with qSet := some (heldSetpoint m (travelWindow s) q) } } :=
    set_msq s rfl rfl
  exact put.trans (putSetpoint_frame m q x s).set

/-- A seated setpoint leaves the active segment, whose rate a MOVE may sign. -/
theorem seatSetpoint_set {b : Bank} {x : Measured} {s : State} (active : s.msq.active = some b) :
    SetFrame s (seatSetpoint b x s) := by
  have seat : SetFrame s { s with msq := { s.msq with remainder := 0, seat := false } } := set_msq s rfl rfl
  have put := seat.trans (putSetpoint_set b.mode (measuredQ b.mode x) x _)
  unfold seatSetpoint
  dsimp only
  split
  · refine put.trans (set_msq _ rfl ?_)
    rw [put.seg, active]
    rfl
  · exact put

theorem firstSeat_set (fl : Flight) (x : Measured) (s : State) : SetFrame s (firstSeat fl x s) := by
  unfold firstSeat
  split
  · rename_i active
    split
    · exact seatSetpoint_set active
    · exact .refl s
  · exact .refl s

theorem countSample_set (s : State) : SetFrame s (countSample s) := set_liveMap s fun _ => rfl

theorem transitionFlip_unstaged {x : Measured} {s : State} (unstaged : ∀ g, s.msq.inactive ≠ some (.transition g)) :
    transitionFlip x s = s := by
  unfold transitionFlip
  split
  · exact absurd ‹_› (unstaged _)
  · rfl

/-! ### Behind the tests -/

/-- A step behind the tests of a sample: the program stands, and the pending cause does not lose rank. -/
structure TailFrame (s t : State) : Prop where
  set : SetFrame s t
  onward : Onward s t

namespace TailFrame

theorem refl (s : State) : TailFrame s s := ⟨.refl s, .refl s⟩

theorem trans {s t u : State} (h : TailFrame s t) (g : TailFrame t u) : TailFrame s u :=
  ⟨h.set.trans g.set, h.onward.trans g.onward⟩

end TailFrame

theorem tail_msq (s : State) {m : Msq} (inactive : m.inactive = s.msq.inactive)
    (seg : m.active.map (·.seg) = s.msq.active.map (·.seg)) : TailFrame s { s with msq := m } :=
  ⟨set_msq s inactive seg, .of_same rfl rfl⟩

theorem setMark_tail (k : SlotId) (m : Mark) (v : Int) (n : BitVec 32) (s : State) : TailFrame s (setMark k m v n s) :=
  ⟨(setMark_frame k m v n s).set, setMark_onward k m v n s⟩

theorem markTravel_tail (on : Bool) (x : Measured) (s : State) : TailFrame s (markTravel on x s) := by
  unfold markTravel
  split
  · exact setMark_tail _ _ _ _ _
  · exact .refl s

theorem trackMark_tail (atCeiling : Bool) (s : State) : TailFrame s (trackMark atCeiling s) := by
  unfold trackMark
  split
  · split
    · exact setMark_tail _ _ _ _ _
    · exact .refl s
  · exact .refl s

theorem advanceSetpoint_tail {b : Bank} (q : Int) (x : Measured) {s : State} (active : s.msq.active = some b) :
    TailFrame s (advanceSetpoint b q x s) := by
  rw [advanceSetpoint_eq q x active]
  unfold putSetpoint
  dsimp only
  refine TailFrame.trans ?_ (markTravel_tail _ _ _)
  exact tail_msq s rfl (by rw [active]; rfl)

theorem writeDemand_tail (v : Int) (s : State) : TailFrame s (writeDemand v s) := tail_msq s rfl rfl

theorem demandSteps_tail (b : Bank) (x : Measured) (s : State) : TailFrame s (demandSteps b x s) := by
  unfold demandSteps
  dsimp only
  refine TailFrame.trans (TailFrame.trans (TailFrame.trans ?_ (trackMark_tail _ _)) (markTravel_tail _ _ _))
    (writeDemand_tail _ _)
  exact tail_msq s rfl rfl

theorem quiesceDemand_tail (b : Bank) (x : Measured) (s : State) : TailFrame s (quiesceDemand b x s) := by
  unfold quiesceDemand
  dsimp only
  refine TailFrame.trans (TailFrame.trans ?_ (markTravel_tail _ _ _)) (writeDemand_tail _ _)
  exact tail_msq s rfl rfl

/-- The demand of a sample (3.2). -/
theorem demandOf_tail (fl : Flight) (x : Measured) (s : State) : TailFrame s (demandOf fl x s) := by
  unfold demandOf
  split
  · rename_i active
    split
    · exact tail_msq s rfl rfl
    · split
      · exact quiesceDemand_tail _ _ _
      · exact (advanceSetpoint_tail _ _ active).trans (demandSteps_tail _ _ _)
  · exact tail_msq s rfl rfl

theorem tail_live {s : State} {l l' : Live} (live : s.live = some l) (h : l'.progress = l.progress) :
    TailFrame s { s with live := some l' } := ⟨set_live live h, .of_same rfl rfl⟩

theorem trackCompliance_tail (x : Measured) (s : State) : TailFrame s (trackCompliance x s) := by
  unfold trackCompliance
  split
  · rename_i l _ live
    have tracked : ∀ (ring : List Triple) (kS kE : Int), TailFrame s { s with
        msq := { s.msq with ring := ring }
        live := some { l with rt := { l.rt with kS := kS, kE := kE } } } := fun ring kS kE =>
      TailFrame.trans (t := { s with msq := { s.msq with ring := ring } }) (tail_msq s rfl rfl)
        (tail_live (l' := { l with rt := { l.rt with kS := kS, kE := kE } }) live rfl)
    dsimp only
    split
    · split
      · exact (tracked _ _ _).trans (setMark_tail _ _ _ _ _)
      · exact tracked _ _ _
    · exact tail_msq s rfl rfl
  · exact .refl s

theorem offerLast_tail (raises : Bool) (k : SlotId) (s : State) : TailFrame s (offerLast raises k s) := by
  unfold offerLast
  split
  · rename_i l live
    have cleared : TailFrame s { s with live := some { l with cand := none } } := tail_live live rfl
    split
    · exact cleared.trans ⟨(offer_frame _ _ _ _).set, offer_onward _ _ _ _⟩
    · exact .refl s
  · exact .refl s

/-- The SAMPLE candidate of a sample (R182, R183). -/
theorem sampleCandidate_tail (fl : Flight) (exts : Option (Int × Int)) (x : Measured) (s : State) :
    TailFrame s (sampleCandidate fl exts x s) := by
  unfold sampleCandidate
  split
  · rename_i l _ live
    have sampled : ∀ c t, TailFrame s { s with live := some { l with resumed := false, cand := c, latest := t } } :=
      fun _ _ => tail_live live rfl
    dsimp only
    split
    · exact (sampled _ _).trans (offerLast_tail _ _ _)
    · exact sampled _ _
  · exact .refl s

theorem drain_tail {which : Report → Bool} {s : State} (kept : NoFaultKept s) : TailFrame s (drain which s) :=
  ⟨(drain_set kept).1, (drain_set kept).2⟩

/-! ### A segment that has ended (R45) -/

/-- The resident test with a sample counted and a segment of its program ended, nothing having completed since. -/
structure SegmentEnded (k : SlotId) (seg : Nat) (o : TestOrder) (elapsed : Nat) (t : State) : Prop where
  phase : t.ctx.phase = .test
  resident : t.ctx.resident = some (.test k)
  elapsed : t.live.map (·.rt.elapsed) = some elapsed
  kept : NoFaultKept t
  next : seg < o.segments.length →
    t.msq.inactive = (bankOf o (seg + 1)).map .transition ∧ t.live.map (·.rt.segIndex) = some (seg + 1)
  last : o.segments.length ≤ seg →
    ∃ c, t.ctx.changeover = some c ∧ (c.cause = .endTest ∨ c.cause = .terminate)

section
variable {k : SlotId} {seg n : Nat} {o : TestOrder} {s t : State} (ended : SegmentEnded k seg o n s)
include ended

theorem SegmentEnded.tail (h : TailFrame s t) : SegmentEnded k seg o n t where
  phase := h.set.chain.phase.trans ended.phase
  resident := h.set.chain.resident.trans ended.resident
  elapsed := by
    have same := congrArg (Option.map Prod.fst) h.set.progress
    rw [Option.map_map, Option.map_map] at same
    exact same.trans ended.elapsed
  kept := h.set.kept ended.kept
  next more := by
    obtain ⟨staged, index⟩ := ended.next more
    have same := congrArg (Option.map Prod.snd) h.set.progress
    rw [Option.map_map, Option.map_map] at same
    exact ⟨h.set.inactive.trans staged, same.trans index⟩
  last done := by
    obtain ⟨c, pending, cause⟩ := ended.last done
    obtain ⟨d, now, rank⟩ := h.onward.rank c pending
    refine ⟨d, now, ends_of_rank (le_trans ?_ rank)⟩
    rcases cause with e | e
    · rw [e]
    · rw [e]; decide

/-- An amendment that waits behind the last segment becomes active; no staged segment is one. -/
theorem SegmentEnded.flip : SegmentEnded k seg o n (amendmentFlip s) := by
  unfold amendmentFlip
  split
  · rename_i staged
    refine { ended with next := fun more => ?_ }
    have next := (ended.next more).1
    rw [staged] at next
    cases bank : bankOf o (seg + 1) <;> simp [bank] at next
  · exact ended

end

theorem segmentEnd_transit {k : SlotId} {b : Bank} {s : State} (resident : s.ctx.resident = some (.test k)) :
    (segmentEnd k b s).ctx.transit = s.ctx.transit := by
  rcases lt_or_ge b.seg (s.slot k).order.segments.length with more | last
  · exact (segmentEnd_next_frame more).transit
  · exact (segmentEnd_last_frame last resident).transit

/-- The tests of a sample at which a TIME segment reaches its end value (R42). -/
theorem segmentTests_time {fl : Flight} {x : Measured} {k : SlotId} {l : Live} {b : Bank} {g : Segment} {s : State}
    (phase : s.ctx.phase = .test) (resident : s.ctx.resident = some (.test k)) (state : (s.slot k).state = .resident)
    (live : s.live = some l) (active : s.msq.active = some b)
    (segment : (s.slot k).order.segments[b.seg - 1]? = some g) (quiesce : fl.quiesce = false)
    (tare : fl.tareSet = false) (small : l.rt.elapsed + 1 ≤ 4294967295) (kept : NoFaultKept s)
    (time : g.endKind = .time) (due : g.endValue = some ((l.rt.elapsed : Int) + 1)) :
    SegmentEnded k b.seg (s.slot k).order (l.rt.elapsed + 1) (segmentTests fl x s) := by
  have met : EndMet g b (l.rt.elapsed + 1) (yieldSeen l.rt.eval) s.xch.state x := by simp [EndMet, time, due]
  obtain ⟨v, e, tested, -⟩ :=
    segmentTests_ends resident state live active segment quiesce tare small (.inl met)
  have chain := segmentTests_chain fl x s
  obtain ⟨_, f, -⟩ := tested.frame
  have transit : (segmentTests fl x s).ctx.transit = s.ctx.transit := by
    rw [e, segmentEnd_transit (tested.resident.trans resident), f.transit]
  refine ⟨chain.phase.trans phase, chain.resident.trans resident, ?_, ?_, fun more => ?_, fun last => ?_⟩
  · rw [e]
    exact (tested.ends resident).1
  · unfold NoFaultKept
    rwa [transit]
  · rw [e]
    obtain ⟨staged, index, -⟩ := tested.next resident state more
    exact ⟨staged, index⟩
  · rw [e]
    exact (tested.last resident last).2.2

/-! ### The set -/

/-- The resident test just before a TIME segment ends, as the blocks of the chain leave it. -/
structure TimeDue (k : SlotId) (seg n : Nat) (o : TestOrder) (s : State) : Prop where
  phase : s.ctx.phase = .test
  resident : s.ctx.resident = some (.test k)
  state : (s.slot k).state = .resident
  order : (s.slot k).order = o
  elapsed : s.live.map (·.rt.elapsed) = some n
  bank : s.msq.active.map (·.seg) = some seg
  unstaged : ∀ g, s.msq.inactive ≠ some (.transition g)
  kept : NoFaultKept s
  segment : ∃ g, o.segments[seg - 1]? = some g ∧ g.endKind = .time ∧ g.endValue = some ((n : Int) + 1)
  small : n + 1 ≤ 4294967295

section
variable {k : SlotId} {seg n : Nat} {o : TestOrder} {s t : State} (due : TimeDue k seg n o s)
include due

theorem TimeDue.set (h : SetFrame s t) : TimeDue k seg n o t where
  phase := h.chain.phase.trans due.phase
  resident := h.chain.resident.trans due.resident
  state := (h.chain.state k).trans due.state
  order := (h.chain.order k).trans due.order
  elapsed := by
    have same := congrArg (Option.map Prod.fst) h.progress
    rw [Option.map_map, Option.map_map] at same
    exact same.trans due.elapsed
  bank := h.seg.trans due.bank
  unstaged g := by rw [h.inactive]; exact due.unstaged g
  kept := h.kept due.kept
  segment := due.segment
  small := due.small

/-- The tests of the sample end the segment. -/
theorem TimeDue.segmentTests_ends {fl : Flight} (quiesce : fl.quiesce = false) (tare : fl.tareSet = false)
    (x : Measured) : SegmentEnded k seg o (n + 1) (segmentTests fl x s) := by
  obtain ⟨l, live, rfl⟩ := Option.map_eq_some_iff.1 due.elapsed
  obtain ⟨b, active, rfl⟩ := Option.map_eq_some_iff.1 due.bank
  obtain ⟨g, segment, time, value⟩ := due.segment
  have order := due.order
  subst order
  exact segmentTests_time due.phase due.resident due.state live active segment quiesce tare due.small due.kept time value

/-- So does the motion sequencer's part of the set, as no quiesce is in progress. -/
theorem TimeDue.msqStep_ends {fl : Flight} (quiesce : fl.quiesce = false) (tare : fl.tareSet = false) (x : Measured)
    (exts : Option (Int × Int)) : SegmentEnded k seg o (n + 1) (msqStep fl x exts s) := by
  have counted := due.set (countSample_set s)
  have tested := (counted.set (firstSeat_set fl x _)).segmentTests_ends quiesce tare x
  have demanded := ((tested.tail (drain_tail (which := Report.isFracture) tested.kept)).flip).tail
    (demandOf_tail fl x _)
  unfold msqStep
  simp only [quiesce, transitionFlip_unstaged counted.unstaged]
  refine demanded.tail (TailFrame.trans (TailFrame.trans ?_ (trackCompliance_tail x _))
    (sampleCandidate_tail fl exts x _))
  exact tail_msq _ rfl rfl

/-- And the set from the load channel on. -/
theorem TimeDue.sequenceSet_ends {x : SampleSet} {conv : Option (BitVec 24)} {s₀ : State}
    (quiet : quietSet x conv s₀ = true) (lch : s.lch = s₀.lch) (changeover : s.ctx.changeover = none)
    (tare : s.lch.tareRun = none) (w : SetOrder) :
    SegmentEnded k seg o (n + 1) (sequenceSet x conv w s).1 := by
  have still : (loadStep x conv w s).2.quiesce = false := by
    show (lchConvert x conv w s).2.quiesce = false
    rw [lchConvert_quiesce, changeover]
    rfl
  have noTare : (loadStep x conv w s).2.tareSet = false := by
    show (lchConvert x conv w s).2.tareSet = false
    rw [lchConvert_tareSet]
    simp [startTareRunning, tare]
  have loaded := due.set (loadStep_set quiet lch tare w)
  have measured := loaded.set (xchStep_set (loadStep x conv w s).2 _)
  have evaluated := measured.set
    (evuStep_set (loadStep x conv w s).2 (xchStep (loadStep x conv w s).2 (loadStep x conv w s).1).2 _)
  exact evaluated.msqStep_ends still noTare _ _

end

theorem autostartWith_of_test (f : Frame) {s : State} (phase : s.ctx.phase = .test) : autostartWith f s = s := by
  unfold autostartWith
  split
  · split
    · rename_i ready
      exact absurd ((startReady ready.2.2).1.symm.trans phase) (by decide)
    · rfl
  · rfl

theorem quiesceSample_of_motion {fl : Flight} (quiesce : fl.quiesce = false) (s : State) : quiesceSample fl s = s := by
  unfold quiesceSample
  split
  · simp [quiesce]
  · rfl

/-- And the whole set: no quiesce completes in it, the reports kept back are marks, and nothing starts in TEST. -/
theorem TimeDue.completeSet_ends {k : SlotId} {seg n : Nat} {o : TestOrder} {s : State} (due : TimeDue k seg n o s)
    {x : SampleSet} {conv : Option (BitVec 24)} (assembling : s.smu.assembling = some x)
    (quiet : quietSet x conv s = true) (changeover : s.ctx.changeover = none) (tare : s.lch.tareRun = none)
    (w : SetOrder) : SegmentEnded k seg o (n + 1) (completeSet conv w s) := by
  obtain ⟨u, counted⟩ := countSet_quiet quiet w
  have sequenced := (due.set (set_smu s u)).sequenceSet_ends quiet rfl changeover tare w
  have still : (sequenceSet x conv w { s with smu := u }).2.quiesce = false := by
    show (lchConvert x conv w { s with smu := u }).2.quiesce = false
    rw [lchConvert_quiesce, changeover]
    rfl
  have drained := sequenced.tail (drain_tail (which := fun _ => true) sequenced.kept)
  have run : completeSet conv w s =
      autostartWith (x.tables.frame.getD Frame.blank)
        (drain (fun _ => true) (sequenceSet x conv w { s with smu := u }).1) := by
    simp only [completeSet, withinSet, assembling, counted, runSet, quiesceSet, quiesceSample_of_motion still]
  rw [run, autostartWith_of_test _ drained.phase]
  exact drained

/-- With no transition staged the end test of the next set is on the active bank and its next count (R38, R40). -/
theorem nextBank_unstaged {l : Live} {b : Bank} {s : State} (live : s.live = some l) (active : s.msq.active = some b)
    (unstaged : ∀ g, s.msq.inactive ≠ some (.transition g)) :
    nextBank s = some (b, min Config.maxU32 (l.rt.elapsed + 1)) := by
  unfold nextBank
  rw [active, live]
  split
  · exact absurd ‹_› (unstaged _)
  · rename_i bank run _
    cases bank
    cases run
    rfl
  · rename_i neither
    exact absurd rfl (neither b l rfl)

/-- The row is the set where the end of the TIME segment is due and no FAULT comes before it (R42, log entry 4). -/
theorem TimeDue.exec_eq {k : SlotId} {seg n : Nat} {o : TestOrder} {s : State} (due : TimeDue k seg n o s)
    {x : SampleSet} {conv : Option (BitVec 24)} (power : s.power = true) (assembling : s.smu.assembling = some x)
    (quiet : quietSet x conv s = true) (changeover : s.ctx.changeover = none) (tare : s.lch.tareRun = none)
    (w : SetOrder) : exec (.segmentTimeEnd conv w) s = .next (completeSet conv w s) := by
  have noFault : faultFirst conv w s = false := by
    obtain ⟨u, counted⟩ := countSet_quiet quiet w
    have loaded := loadStep_set (s := { s with smu := u }) quiet rfl tare w
    have phase : (afterLoad conv w s).ctx.phase = s.ctx.phase := by
      simp only [afterLoad, withinSet, assembling, counted]
      exact loaded.chain.phase
    simp [faultFirst, phase]
  have ends : timeSegmentEnds conv w s = true := by
    obtain ⟨l, live, rfl⟩ := Option.map_eq_some_iff.1 due.elapsed
    obtain ⟨b, active, rfl⟩ := Option.map_eq_some_iff.1 due.bank
    obtain ⟨g, segment, time, value⟩ := due.segment
    have order := due.order
    subst order
    have bank : nextBank s = some (b, l.rt.elapsed + 1) := by
      rw [nextBank_unstaged live active due.unstaged, min_eq_right (a := Config.maxU32) due.small]
    have resident : s.residentSlot = some k := residentSlot_eq_some.2 due.resident
    simp [timeSegmentEnds, noFault, timeEndDue, resident, bank, assembling, changeover, startTareRunning, tare, segment,
      time, value]
  show Host.Outcome.next (powered (setWhere timeSegmentEnds conv w) s) = _
  simp [powered, power, setWhere, ends]

/-- Settles O46: the set is due, it ends the segment on its way down the chain, and the contexts agree behind it. -/
theorem aTimeSegmentEnds : Obligations.ATimeSegmentEnds := by
  intro conv w s x k l b g power suits nothing assembling quiet resident live changeover tare active unstaged segment
    time value small
  have phase : s.ctx.phase = .test := (suit_iff_view.1 suits).phase_of_test resident
  have due : TimeDue k b.seg l.rt.elapsed (s.slot k).order s :=
    { phase := phase, resident := resident, state := (suits.resident.2.1 k).2 resident, order := rfl
      elapsed := by rw [live]; rfl
      bank := by rw [active]; rfl
      unstaged := unstaged
      kept := fun kind => by rw [nothing]; exact List.not_mem_nil
      segment := ⟨g, segment, time, value⟩, small := small }
  have ended := due.completeSet_ends assembling quiet changeover tare w
  have agrees := (completeSet_keeps conv w s).suit suits
  refine ⟨_, due.exec_eq power assembling quiet changeover tare w, ended.phase, ended.resident, ended.elapsed,
    ended.next, fun last => ?_⟩
  obtain ⟨c, pending, cause⟩ := ended.last last
  obtain ⟨outgoing, -, -, -, ends, -⟩ := agrees.changeover c pending
  have incoming := (ends (by rcases cause with e | e <;> simp [e])).2.1
  exact ⟨c, pending, Option.some.inj (outgoing.symm.trans ended.resident), incoming, cause⟩

end Sys2Proof.Machine

/-! PROOFS about what the drive is sent (R65, R73): each operation behind the demand of a sample leaves the demand as it
is or puts it to rest, and the demand itself stands whatever stood before it. -/

namespace Sys2Proof.Machine

/-! ### The demand is left, or put to rest -/

/-- What the drive is sent, with its enable. -/
def State.drive (s : State) : Int × Int × Bool := (s.msq.dac, s.msq.prevDemand, s.flu.drvEn)

/-- The demand is 0, and the code with it (R73). -/
def AtRest (s : State) : Prop := s.msq.dac = 0 ∧ s.msq.prevDemand = 0

/-- An operation leaves what the drive is sent, or puts the demand to rest. -/
def DriveHeld (s t : State) : Prop := t.drive = s.drive ∨ AtRest t

theorem atRest_of_drive {s t : State} (same : t.drive = s.drive) (h : AtRest s) : AtRest t := by
  obtain ⟨dac, demand, -⟩ := Prod.mk.inj same |>.imp_right Prod.mk.inj
  exact ⟨dac.trans h.1, demand.trans h.2⟩

theorem demandStands_of_atRest {s : State} (h : AtRest s) : DemandStands s :=
  ⟨by rw [h.1]; decide, fun _ => h⟩

theorem demandStands_of_drive {s t : State} (same : t.drive = s.drive) (h : DemandStands s) : DemandStands t := by
  obtain ⟨dac, demand, drive⟩ := Prod.mk.inj same |>.imp_right Prod.mk.inj
  unfold DemandStands
  rw [dac, demand, drive]
  exact h

namespace DriveHeld

theorem refl (s : State) : DriveHeld s s := .inl rfl

theorem trans {s t u : State} (h : DriveHeld s t) (g : DriveHeld t u) : DriveHeld s u := by
  rcases g with same | rest
  · exact h.imp same.trans (atRest_of_drive same)
  · exact .inr rest

theorem stands {s t : State} (h : DriveHeld s t) (stands : DemandStands s) : DemandStands t :=
  h.elim (demandStands_of_drive · stands) demandStands_of_atRest

end DriveHeld

theorem MarkFrame.drive {s t : State} (h : MarkFrame s t) : t.drive = s.drive := by
  unfold State.drive
  rw [h.msq, h.flu]

theorem MarkFrame.held {s t : State} (h : MarkFrame s t) : DriveHeld s t := .inl h.drive

theorem EventFrame.held {s t : State} (h : EventFrame s t) : DriveHeld s t := h.mark.held

theorem raiseCause_held (cause : Cause) (r : Requester) (i : Option Context) (e : Option EndCause) (s : State) :
    DriveHeld s (raiseCause cause r i e s) := by
  rcases resident : s.ctx.resident with _ | out
  · rw [raiseCause_refused _ _ _ _ _ (.inl resident)]
    exact .refl s
  · rcases accepted : causeAccepted cause s with _ | _
    · rw [raiseCause_refused _ _ _ _ _ (.inr accepted)]
      exact .refl s
    · exact DriveHeld.trans (.inl rfl) (raiseCause_accepted cause r i e s resident accepted).held

/-! ### Leaving and entering (R22, R23, R29) -/

theorem abandonPortTare_msq (s : State) : (abandonPortTare s).msq = s.msq := by
  unfold abandonPortTare
  split
  · rw [raiseEvent_msq]
  · rfl

theorem setPhase_msq (p : Phase) (s : State) : (setPhase p s).msq = s.msq := by
  unfold setPhase
  dsimp only
  split
  · rw [abandonPortTare_msq]
  · rfl

theorem atRest_setPhase (p : Phase) {s : State} (h : AtRest s) : AtRest (setPhase p s) := by
  unfold AtRest
  rwa [setPhase_msq]

theorem atRest_beginStartTare (o : TestOrder) (rt : Runtime) {s : State} (h : AtRest s) :
    AtRest (beginStartTare o rt s) := by
  unfold beginStartTare
  split <;> exact h

theorem offerLast_held (raises : Bool) (k : SlotId) (s : State) : DriveHeld s (offerLast raises k s) := by
  unfold offerLast
  split
  · split
    · exact DriveHeld.trans (.inl rfl) (offer_frame _ _ _ _).held
    · exact .refl s
  · exact .refl s

theorem abandonStartTare_held (raises : Bool) (k : SlotId) (s : State) :
    DriveHeld s (abandonStartTare raises k s) := by
  unfold abandonStartTare
  split
  · refine DriveHeld.trans ?_ (offer_frame _ _ _ _).held
    exact DriveHeld.trans (t := { s with lch := { s.lch with tareRun := none } }) (.inl rfl) (raiseEvent_frame _ _ _).held
  · exact .refl s

theorem leaveTest_held (k : SlotId) (o : Option TestOutcome) (s : State) : DriveHeld s (leaveTest k o s) := by
  rcases live : s.live with _ | l
  · unfold leaveTest
    rw [live]
    exact .refl s
  · exact DriveHeld.trans (t := leftTest k o l s) (.inl rfl) (leaveTest_frame k o s l live).held

theorem atRest_enterService (h : Option Port) (s : State) : AtRest (enterService h s) :=
  atRest_setPhase _ ⟨rfl, rfl⟩

theorem atRest_enterIdle (s : State) : AtRest (enterIdle s) := atRest_setPhase _ ⟨rfl, rfl⟩

theorem enterResumed_held (k : SlotId) (s : State) : DriveHeld s (enterResumed k s) := by
  unfold enterResumed
  split
  · exact .refl s
  · exact .inr (atRest_beginStartTare _ _ (atRest_setPhase _ ⟨rfl, rfl⟩))

theorem startTest_held (k : SlotId) (s : State) : DriveHeld s (startTest k s) := by
  have rest : AtRest (startedTest k s) := atRest_beginStartTare _ _ (atRest_setPhase _ ⟨rfl, rfl⟩)
  exact DriveHeld.trans (.inr rest) (startTest_frame k s).held

theorem autostartWith_held (f : Frame) (s : State) : DriveHeld s (autostartWith f s) := by
  unfold autostartWith
  split
  · split
    · exact startTest_held _ s
    · exact .refl s
  · exact .refl s

theorem enterIncoming_held (c : Changeover) (s : State) : DriveHeld s (enterIncoming c s) := by
  unfold enterIncoming
  split
  · exact (offerResume_frame _ s).held.trans (enterResumed_held _ _)
  · exact .inr (atRest_enterService _ s)
  · exact .refl s
  · exact .inr (atRest_enterIdle s)

theorem completeChangeover_held (c : Changeover) (s : State) : DriveHeld s (completeChangeover c s) := by
  have left : DriveHeld s (match c.outgoing with
      | .test k => leaveTest k (outcomeOf c) s
      | _ => s) := by
    split
    · exact leaveTest_held _ _ _
    · exact .refl s
  unfold completeChangeover
  dsimp only
  refine DriveHeld.trans ?_ (announceEnd_frame _ _ _).held
  refine DriveHeld.trans ?_ (announcePhase_frame _).held
  exact (left.trans (enterIncoming_held c _)).trans (.inl rfl)

theorem completePending_held (s : State) : DriveHeld s (completePending s) := by
  have owed : DriveHeld s (match s.residentSlot with
      | some k => abandonStartTare true k (offerLast true k s)
      | none => s) := by
    split
    · exact (offerLast_held _ _ s).trans (abandonStartTare_held _ _ _)
    · exact .refl s
  unfold completePending
  dsimp only
  split
  · exact owed.trans (completeChangeover_held _ _)
  · exact owed

/-- A FAULT that is taken puts the demand to rest (R23, R73). -/
theorem atRest_takeFault (m : Mark) (s : State) : AtRest (takeFault m s) := by
  have safe : ∀ u : State, AtRest (announcePhase (setPhase .safe { u with
      msq := restMsq u.msq
      ctx := { u.ctx with resident := some .safe, holder := none } })) := fun u =>
    atRest_of_drive (announcePhase_frame _).mark.drive (atRest_setPhase _ ⟨rfl, rfl⟩)
  unfold takeFault
  dsimp only
  split
  · exact atRest_of_drive (raiseEvent_frame _ _ _).mark.drive (safe _)
  · exact safe _

theorem enterFault_held (e : FaultEntry) (s : State) : DriveHeld s (enterFault e s) :=
  DriveHeld.trans (.inl rfl) (raiseEvent_frame _ _ _).held

theorem faultReport_held (kind : FaultKind) (s : State) : DriveHeld s (faultReport kind s) := by
  unfold faultReport
  split
  · exact .refl s
  · split
    · exact enterFault_held _ s
    · exact .inr (atRest_takeFault _ _)

/-! ### Reports -/

theorem takeReport_held (s : State) (r : Report) : DriveHeld s (takeReport s r) := by
  cases r with
  | mark k m v n => exact (setMark_frame k m v n s).held
  | fracture k n c f fm => exact (takeFracture_frame k n c f fm s).held
  | fault kind => exact faultReport_held kind s

theorem foldl_takeReport_held (l : List Report) (s : State) : DriveHeld s (l.foldl takeReport s) := by
  induction l generalizing s with
  | nil => exact .refl s
  | cons r l ih => exact (takeReport_held s r).trans (ih _)

theorem drain_held (which : Report → Bool) (s : State) : DriveHeld s (drain which s) :=
  DriveHeld.trans (.inl rfl) (foldl_takeReport_held _ _)

/-! ### A sample set -/

theorem clamp_bounds {lo hi : Int} (h : lo ≤ hi) (v : Int) : lo ≤ clamp lo hi v ∧ clamp lo hi v ≤ hi := by
  unfold clamp
  split_ifs <;> omega

/-- A code made of a demand stands while the drive is enabled (R65). -/
theorem demandStands_of_code {s : State} {v vfs : Int} (code : s.msq.dac = dacCode v vfs) (drive : s.flu.drvEn = true) :
    DemandStands s := by
  refine ⟨?_, fun off => ?_⟩
  · rw [code]
    exact clamp_bounds (by decide) _
  · rw [drive] at off
    cases off

/-- The demand of a sample stands whatever was sent before it (R65). -/
theorem demandOf_stands (fl : Flight) (x : Measured) (s : State) : DemandStands (demandOf fl x s) := by
  have zero : DemandStands (zeroDemand s) := demandStands_of_atRest ⟨rfl, rfl⟩
  rcases active : s.msq.active with _ | b
  · simpa [demandOf, active] using zero
  · rcases drive : s.flu.drvEn with _ | _
    · simpa [demandOf, active, drive] using zero
    · rcases tare : fl.tareSet with _ | _
      · refine demandStands_of_code (demandOf_bounded active drive tare x).2 ?_
        rw [(demandOf_chain fl x s).flu, drive]
      · simpa [demandOf, active, tare] using zero

theorem trackCompliance_held (x : Measured) (s : State) : DriveHeld s (trackCompliance x s) := by
  unfold trackCompliance
  split
  · dsimp only
    split
    · split
      · exact DriveHeld.trans (.inl rfl) (setMark_frame _ _ _ _ _).held
      · exact .inl rfl
    · exact .inl rfl
  · exact .refl s

theorem sampleCandidate_held (fl : Flight) (exts : Option (Int × Int)) (x : Measured) (s : State) :
    DriveHeld s (sampleCandidate fl exts x s) := by
  unfold sampleCandidate
  split
  · dsimp only
    split
    · exact DriveHeld.trans (.inl rfl) (offerLast_held _ _ _)
    · exact .inl rfl
  · exact .refl s

theorem msqStep_stands (fl : Flight) (x : Measured) (exts : Option (Int × Int)) (s : State) :
    DemandStands (msqStep fl x exts s) := by
  have position : ∀ u : State, DriveHeld u { u with msq := trackPosition fl.set.xh u.msq } := fun _ => .inl rfl
  have still : ∀ u : State,
      DriveHeld u (if fl.quiesce then { u with msq := stillStep u.frame.vStill u.msq } else u) := fun u => by
    split <;> exact .inl rfl
  have behind := fun u : State => (trackCompliance_held x u).trans (sampleCandidate_held fl exts x _)
  have stands := (position _).stands (demandOf_stands fl x (amendmentFlip (drain Report.isFracture
    (segmentTests fl x (firstSeat fl x (transitionFlip x (countSample s)))))))
  unfold msqStep
  dsimp only
  exact (behind _).stands ((still _).stands stands)

theorem quiesceSample_held (fl : Flight) (s : State) : DriveHeld s (quiesceSample fl s) := by
  unfold quiesceSample
  split
  · split
    · dsimp only
      split
      · exact DriveHeld.trans (.inl rfl) (faultReport_held _ _)
      · split
        · exact DriveHeld.trans (.inl rfl) (completePending_held _)
        · exact .inl rfl
    · exact .refl s
  · exact .refl s

theorem runSet_stands (x : SampleSet) (conv : Option (BitVec 24)) (w : SetOrder) (s : State) :
    DemandStands (runSet x conv w s) := by
  have sequenced : DemandStands (sequenceSet x conv w s).1 := msqStep_stands _ _ _ _
  refine (autostartWith_held _ _).stands ((drain_held _ _).stands ?_)
  exact (quiesceSample_held _ _).stands sequenced

theorem completeSet_stands (conv : Option (BitVec 24)) (w : SetOrder) {s : State} (h : DemandStands s) :
    DemandStands (completeSet conv w s) := by
  unfold completeSet withinSet
  split
  · exact runSet_stands _ _ _ _
  · exact h

/-! ### A sample instant -/

theorem examineGuard_held (s : State) : DriveHeld s (examineGuard s) := by
  have report : ∀ (on : Bool) (kind : FaultKind) (u : State), DriveHeld u (if on then faultReport kind u else u) := by
    intro on kind u
    split
    · exact faultReport_held kind u
    · exact .refl u
  unfold examineGuard
  split
  · exact (report _ _ s).trans (report _ _ _)
  · exact .refl s

theorem takeItem_stands (w : SetOrder) (old : Tables) (before : State) {s : State} (i : LineItem)
    (h : DemandStands s) : DemandStands (takeItem w old before s i) := by
  have line : ∀ fn kind, DemandStands (reportLine fn kind before s) := by
    intro fn kind
    unfold reportLine
    split
    · exact (faultReport_held _ _).stands h
    · exact h
  cases i with
  | examine => exact (examineGuard_held s).stands h
  | posLost =>
    show DemandStands (if s.smu.xhErr then faultReport .posLost s else s)
    split
    · exact (faultReport_held _ _).stands h
    · exact h
  | missed => exact completeSet_stands none w (s := { s with inForce := missedTables old s.inForce }) h
  | estop | limitUp | limitLo | driveFault => exact line _ _

theorem foldl_takeItem_stands (w : SetOrder) (old : Tables) (before : State) (l : List LineItem) {s : State}
    (h : DemandStands s) : DemandStands (l.foldl (takeItem w old before) s) := by
  induction l generalizing s with
  | nil => exact h
  | cons i l ih => exact ih (takeItem_stands w old before i h)

theorem takeInstant_stands (levels : BitVec 8) (order : List LineItem) (w : SetOrder) {s : State}
    (h : DemandStands s) : DemandStands (takeInstant levels order w s) := by
  have first : DemandStands (missFirst order w s) := by
    unfold missFirst
    split
    · exact h
    · exact completeSet_stands none w h
  exact foldl_takeItem_stands w _ _ _ (s := sampleLines levels (takeUp (tickClock (missFirst order w s)))) first

end Sys2Proof.Machine

/-! PROOFS about the requests and the drive: all but CLEAR leave what the drive is sent or put the demand to rest, and
CLEAR, which is accepted in SAFE alone, finds the drive off already. -/

namespace Sys2Proof.Machine

/-! ### Requests on orders, the store, the stream and the queues -/

theorem serveLoad_held (body : List Byte) (s : State) : DriveHeld s (serveLoad body s).2 := by
  have order : ∀ (k : SlotId) (o : TestOrder) (gs : List SegmentBody) (u : State),
      DriveHeld u (loadOrder k o gs u).2 := by
    intro k o gs u
    unfold loadOrder
    split
    · exact .refl u
    · split <;> exact .inl rfl
  have program : ∀ l, DriveHeld s (serveProgram l s).2 := by
    intro l
    unfold serveProgram
    split
    · exact .inl rfl
    · split
      · exact .refl s
      · split
        · exact DriveHeld.trans (.inl rfl) (order _ _ _ _)
        · exact .inl rfl
  have header : ∀ l, DriveHeld s (serveHeader l s).2 := by
    intro l
    unfold serveHeader
    split <;> exact .inl rfl
  unfold serveLoad
  split
  · exact .refl s
  · split
    · exact header _
    · split
      · exact program _
      · exact .refl s

theorem servePromote_held (body : List Byte) (s : State) : DriveHeld s (servePromote body s).2 := by
  unfold servePromote promoteSlot
  split
  · split <;> exact .inl rfl
  · exact .refl s

theorem serveFree_held (body : List Byte) (s : State) : DriveHeld s (serveFree body s).2 := by
  unfold serveFree freeSlot emptySlot
  split
  · split
    · dsimp only
      split <;> exact .inl rfl
    · exact .refl s
  · exact .refl s

theorem serveClearCondition_held (body : List Byte) (s : State) : DriveHeld s (serveClearCondition body s).2 := by
  unfold serveClearCondition clearMark
  split
  · split
    · exact .refl s
    · split
      · exact .refl s
      · split <;> exact .inl rfl
  · exact .refl s

theorem serveNext_held (body : List Byte) (s : State) : DriveHeld s (serveNext body s).2 := by
  unfold serveNext
  split <;> exact .refl s

theorem bindSlot_held (b : BindBody) (s : State) : DriveHeld s (bindSlot b s) := by
  unfold bindSlot
  dsimp only
  refine DriveHeld.trans ?_ (raiseEvent_frame _ _ _).held
  exact .inl rfl

theorem serveBind_held (body : List Byte) (s : State) : DriveHeld s (serveBind body s).2 := by
  unfold serveBind
  split
  · exact .refl s
  · split
    · exact .refl s
    · exact (bindSlot_held _ s).trans (autostartWith_held _ _)

theorem unbind_held (k : SlotId) (s : State) : DriveHeld s (unbind k s) :=
  DriveHeld.trans (.inl rfl) (raiseEvent_frame _ _ _).held

theorem serveRelease_held (body : List Byte) (s : State) : DriveHeld s (serveRelease body s).2 := by
  unfold serveRelease releaseSlot
  split
  · exact .refl s
  · split
    · refine DriveHeld.trans ?_ (unbind_held _ _)
      exact .inl rfl
    · exact unbind_held _ s
    · exact unbind_held _ s
    · exact .refl s
  · exact .refl s

theorem serveCalOpen_held (p : Port) (body : List Byte) (s : State) : DriveHeld s (serveCalOpen p body s).2 := by
  unfold serveCalOpen calOpen
  repeat' split
  all_goals exact .inl rfl

theorem serveCalData_held (p : Port) (body : List Byte) (s : State) : DriveHeld s (serveCalData p body s).2 := by
  unfold serveCalData calData
  repeat' split
  all_goals exact .inl rfl

theorem serveCalCommit_held (p : Port) (body : List Byte) (s : State) : DriveHeld s (serveCalCommit p body s).2 := by
  unfold serveCalCommit
  repeat' split
  all_goals exact .inl rfl

theorem serveCalClose_held (p : Port) (body : List Byte) (s : State) : DriveHeld s (serveCalClose p body s).2 := by
  unfold serveCalClose
  repeat' split
  all_goals exact .inl rfl

theorem serveCalRead_held (body : List Byte) (s : State) : DriveHeld s (serveCalRead body s).2 := by
  unfold serveCalRead
  repeat' split
  all_goals exact .refl s

theorem serveReadContext_held (body : List Byte) (s : State) : DriveHeld s (serveReadContext body s).2 := by
  unfold serveReadContext
  split <;> exact .refl s

theorem serveGetResults_held (body : List Byte) (s : State) : DriveHeld s (serveGetResults body s).2 := by
  unfold serveGetResults
  split <;> exact .refl s

theorem serveStatus_held (p : Port) (body : List Byte) (s : State) : DriveHeld s (serveStatus p body s).2 := by
  unfold serveStatus
  split <;> exact .refl s

theorem admitRecords_held (words : List (List Word16)) (s : State) : DriveHeld s (admitRecords words s) := by
  unfold admitRecords
  dsimp only
  split
  · exact DriveHeld.trans (.inl rfl) (raiseEvent_frame _ _ _).held
  · exact .inl rfl

theorem afterRead_held (s : State) : DriveHeld s (afterRead s) := by
  have arm : DriveHeld s (if occupancy s.rst.records ≤ Config.streamHigh then
      { s with rst := { s.rst with armed := true } } else s) := by
    split <;> exact .inl rfl
  unfold afterRead
  dsimp only
  generalize (if occupancy s.rst.records ≤ Config.streamHigh then
      { s with rst := { s.rst with armed := true } } else s) = u at arm
  split
  · exact arm
  · split
    · exact (arm.trans (admitRecords_held _ u)).trans (.inl rfl)
    · exact arm

theorem serveReadRecords_held (body : List Byte) (s : State) : DriveHeld s (serveReadRecords body s).2 := by
  unfold serveReadRecords readStream
  split
  · dsimp only
    split
    · exact .refl s
    · exact .refl s
    · exact DriveHeld.trans (.inl rfl) (afterRead_held _)
  · exact .refl s

theorem serveGetEvent_held (p : Port) (body : List Byte) (s : State) : DriveHeld s (serveGetEvent p body s).2 := by
  unfold serveGetEvent
  split <;> exact .inl rfl

theorem serveSetEvents_held (p : Port) (body : List Byte) (s : State) : DriveHeld s (serveSetEvents p body s).2 := by
  unfold serveSetEvents
  split <;> exact .inl rfl

theorem serveTare_held (p : Port) (body : List Byte) (s : State) : DriveHeld s (serveTare p body s).2 := by
  unfold serveTare
  repeat' split
  all_goals exact .inl rfl

theorem serveZeroPosition_held (body : List Byte) (s : State) : DriveHeld s (serveZeroPosition body s).2 := by
  unfold serveZeroPosition
  split
  · exact .refl s
  · split <;> exact .inl rfl

/-! ### Requests on contexts and motion -/

theorem serveStart_held (body : List Byte) (s : State) : DriveHeld s (serveStart body s).2 := by
  unfold serveStart startBound
  split
  · split
    · exact .refl s
    · split
      · exact .refl s
      · split
        · exact .refl s
        · split
          · exact .refl s
          · exact startTest_held _ s
  · exact .refl s

theorem serveHold_held (p : Port) (body : List Byte) (s : State) : DriveHeld s (serveHold p body s).2 := by
  unfold serveHold
  split
  · exact .refl s
  · split
    · exact .refl s
    · split
      · exact .refl s
      · exact raiseCause_held _ _ _ _ s

theorem directVoid_held (k : SlotId) (s : State) : DriveHeld s (directVoid k s) := by
  unfold directVoid
  dsimp only
  refine DriveHeld.trans ?_ (raiseEvent_frame _ _ _).held
  refine DriveHeld.trans ?_ (offerEnd_frame _ _).held
  exact (setMark_frame _ _ _ _ s).held.trans (.inl rfl)

theorem serveAbort_held (p : Port) (body : List Byte) (s : State) : DriveHeld s (serveAbort p body s).2 := by
  unfold serveAbort abortSlot
  split
  · split
    · split
      · exact (raiseCause_held _ _ _ _ s).trans (setMark_frame _ _ _ _ _).held
      · exact .refl s
    · split
      · exact .refl s
      · exact directVoid_held _ s
    · exact .refl s
  · exact .refl s

theorem serveResume_held (p : Port) (body : List Byte) (s : State) : DriveHeld s (serveResume p body s).2 := by
  unfold serveResume resumeSlot
  split
  · split
    · exact .refl s
    · dsimp only
      split
      · exact raiseCause_held _ _ _ _ s
      · exact ((offerResume_frame _ s).held.trans (enterResumed_held _ _)).trans (announcePhase_frame _).held
  · exact .refl s

theorem serveLeave_held (p : Port) (body : List Byte) (s : State) : DriveHeld s (serveLeave p body s).2 := by
  unfold serveLeave
  split
  · exact .refl s
  · repeat' split
    · exact .refl s
    · exact .refl s
    · exact .refl s
    · exact .refl s
    · exact raiseCause_held _ _ _ _ s

theorem ensureService_held (p : Port) (s : State) : DriveHeld s (ensureService p s) := by
  unfold ensureService
  split
  · exact DriveHeld.trans (.inr (atRest_enterService _ s)) (announcePhase_frame _).held
  · exact .refl s

theorem setService_held (p : Port) (rate : Int) (target : Option Int) (speed : Int) (s : State) :
    DriveHeld s (setService p rate target speed s) := .inl rfl

theorem serveJog_held (p : Port) (body : List Byte) (s : State) : DriveHeld s (serveJog p body s).2 := by
  unfold serveJog jogAt
  split
  · split
    · exact .refl s
    · exact (ensureService_held p s).trans (setService_held _ _ _ _ _)
  · exact .refl s

theorem serveJogStop_held (p : Port) (body : List Byte) (s : State) : DriveHeld s (serveJogStop p body s).2 := by
  unfold serveJogStop
  split
  · exact .refl s
  · split
    · exact .refl s
    · split
      · exact .refl s
      · exact setService_held _ _ _ _ s

theorem serveMove_held (p : Port) (body : List Byte) (s : State) : DriveHeld s (serveMove p body s).2 := by
  unfold serveMove moveTo
  split
  · split
    · exact .refl s
    · exact (ensureService_held p s).trans (setService_held _ _ _ _ _)
  · exact .refl s

theorem serveAmend_held (p : Port) (body : List Byte) (s : State) : DriveHeld s (serveAmend p body s).2 := by
  unfold serveAmend amendActive
  split
  · split
    · exact .refl s
    · split
      · exact .refl s
      · exact (supersedeStage_frame s).held.trans (.inl rfl)
  · exact .refl s

/-! ### CLEAR (R171) -/

/-- In SAFE the drive is off, so a demand that stands is at rest. -/
theorem atRest_of_safe {s : State} (outputs : OutputsFollow s) (stands : DemandStands s) (safe : s.ctx.phase = .safe) :
    AtRest s := stands.2 (by rw [outputs.1, safe]; rfl)

theorem clearRefusal_none {s : State} (h : clearRefusal s = none) : s.ctx.phase = .safe := by
  by_contra other
  simp [clearRefusal, other] at h

theorem atRest_clearFaults (p : Port) {s : State} (h : AtRest s) : AtRest (clearFaults p s) := by
  unfold clearFaults
  dsimp only
  refine atRest_of_drive (raiseEvent_frame _ _ _).mark.drive ?_
  refine atRest_of_drive (announcePhase_frame _).mark.drive ?_
  exact atRest_setPhase _ h

theorem serveClear_stands (p : Port) (body : List Byte) {s : State} (outputs : OutputsFollow s)
    (stands : DemandStands s) : DemandStands (serveClear p body s).2 := by
  unfold serveClear
  split
  · exact stands
  · split
    · exact stands
    · rename_i accepted
      have rest := atRest_of_safe outputs stands (clearRefusal_none accepted)
      exact demandStands_of_atRest (atRest_clearFaults p rest)

/-- Every request keeps what the drive is sent within its bounds. -/
theorem serveBody_stands (r : Request) (p : Port) (body : List Byte) {s : State} (outputs : OutputsFollow s)
    (stands : DemandStands s) : DemandStands (serveBody r p body s).2 := by
  cases r with
  | clear => exact serveClear_stands p body outputs stands
  | load => exact (serveLoad_held body s).stands stands
  | promote => exact (servePromote_held body s).stands stands
  | free => exact (serveFree_held body s).stands stands
  | clearCondition => exact (serveClearCondition_held body s).stands stands
  | readRecords => exact (serveReadRecords_held body s).stands stands
  | move => exact (serveMove_held p body s).stands stands
  | zeroPosition => exact (serveZeroPosition_held body s).stands stands
  | reset => exact stands
  | next => exact (serveNext_held body s).stands stands
  | bind => exact (serveBind_held body s).stands stands
  | release => exact (serveRelease_held body s).stands stands
  | jog => exact (serveJog_held p body s).stands stands
  | jogStop => exact (serveJogStop_held p body s).stands stands
  | hold => exact (serveHold_held p body s).stands stands
  | start => exact (serveStart_held body s).stands stands
  | abort => exact (serveAbort_held p body s).stands stands
  | resume => exact (serveResume_held p body s).stands stands
  | leave => exact (serveLeave_held p body s).stands stands
  | tare => exact (serveTare_held p body s).stands stands
  | amend => exact (serveAmend_held p body s).stands stands
  | calOpen => exact (serveCalOpen_held p body s).stands stands
  | calData => exact (serveCalData_held p body s).stands stands
  | calCommit => exact (serveCalCommit_held p body s).stands stands
  | calClose => exact (serveCalClose_held p body s).stands stands
  | readContext => exact (serveReadContext_held body s).stands stands
  | getResults => exact (serveGetResults_held body s).stands stands
  | status => exact (serveStatus_held p body s).stands stands
  | getEvent => exact (serveGetEvent_held p body s).stands stands
  | setEvents => exact (serveSetEvents_held p body s).stands stands
  | calRead => exact (serveCalRead_held body s).stands stands

/-! ### Resets and writes -/

theorem applyReset_held (c : ResetCause) (s : State) : DriveHeld s (applyReset c s) := .inr ⟨rfl, rfl⟩

theorem completeWrite_held (s : State) : DriveHeld s (completeWrite s) := by
  unfold completeWrite deferredReset
  split
  · dsimp only
    split
    · exact .inr ⟨rfl, rfl⟩
    · exact DriveHeld.trans (.inl rfl) (raiseEvent_frame _ _ _).held
  · exact .refl s

end Sys2Proof.Machine

/-! PROOFS about one step: what a command's effect can be, said once for all rows of the table, the induction that an
invariant of the part goes by from it, and the obligation on the outputs. -/

namespace Sys2Proof.Machine

/-! ### What a command's effect can be -/

/-- The effects of the commands: a frame served or refused, bytes fed to a receiver, a change of the port unit alone, a
reset, a completed set, a sample instant, a move of an encoder, a completed write, the supply, or none. -/
inductive Effect (s : State) : State → Prop where
  | none : Effect s s
  | request (r : Request) (p : Port) (tag : Byte) (body : List Byte) :
    Effect s (request r p tag body (serveBody r p body) s)
  | reset (p : Port) (tag : Byte) (body : List Byte) :
    Effect s (takeFrame p tag (requestCode .reset) (serveReset p tag body) (clockFrame p body s))
  | frame (p : Port) (tag code : Byte) (body : List Byte) : Effect s (frameArrives p tag code body (clockFrame p body s))
  | feed (gap : Bool) (p : Port) (bytes : List Byte) : Effect s (feed gap p bytes s)
  | ports (u : Ptu) : Effect s { s with ptu := u }
  | line (u : Ptu) (c : ResetCause) : Effect s (resetArrives c { s with ptu := u })
  | set (conv : Option (BitVec 24)) (w : SetOrder) : Effect s (completeSet conv w s)
  | instant (levels : BitVec 8) (order : List LineItem) (w : SetOrder) : Effect s (takeInstant levels order w s)
  | move (u : Smu) : Effect s { s with smu := u }
  | write : Effect s (completeWrite s)
  | powerOn : Effect s { State.initial s.cst.nv with pending := s.pending }
  | powerLoss : Effect s { unsupplied s.cst.nv with pending := s.pending }

theorem effect_ite {s t : State} {c : Prop} [Decidable c] (h : Effect s t) : Effect s (if c then t else s) := by
  split
  · exact h
  · exact .none

theorem effect_sendReply (p : Port) (s : State) : Effect s (sendReply p s) := by
  cases p <;> exact effect_ite (.ports _)

/-- A set that is completed where an event happens in it (log entry 4). -/
theorem effect_setWhere (happens : Option (BitVec 24) → SetOrder → State → Bool) (conv : Option (BitVec 24))
    (w : SetOrder) (s : State) : Effect s (powered (setWhere happens conv w) s) :=
  effect_ite (effect_ite (.set conv w))

/-- Every command has one of the effects, row by row of the table. -/
theorem exec_effect (c : Instr) (s : State) : ∃ t, exec c s = .next t ∧ Effect s t :=
  match c with
  | .loadHeader p tag body => ⟨_, rfl, .request .load p tag body⟩
  | .load p tag body => ⟨_, rfl, .request .load p tag body⟩
  | .promote p tag body => ⟨_, rfl, .request .promote p tag body⟩
  | .free p tag body => ⟨_, rfl, .request .free p tag body⟩
  | .clearCondition p tag body => ⟨_, rfl, .request .clearCondition p tag body⟩
  | .readRecords p tag body => ⟨_, rfl, .request .readRecords p tag body⟩
  | .move p tag body => ⟨_, rfl, .request .move p tag body⟩
  | .zeroPosition p tag body => ⟨_, rfl, .request .zeroPosition p tag body⟩
  | .reset p tag body => ⟨_, rfl, .reset p tag body⟩
  | .next p tag body => ⟨_, rfl, .request .next p tag body⟩
  | .bind p tag body => ⟨_, rfl, .request .bind p tag body⟩
  | .release p tag body => ⟨_, rfl, .request .release p tag body⟩
  | .jog p tag body => ⟨_, rfl, .request .jog p tag body⟩
  | .jogStop p tag body => ⟨_, rfl, .request .jogStop p tag body⟩
  | .hold p tag body => ⟨_, rfl, .request .hold p tag body⟩
  | .start p tag body => ⟨_, rfl, .request .start p tag body⟩
  | .abort p tag body => ⟨_, rfl, .request .abort p tag body⟩
  | .resume p tag body => ⟨_, rfl, .request .resume p tag body⟩
  | .leave p tag body => ⟨_, rfl, .request .leave p tag body⟩
  | .tare p tag body => ⟨_, rfl, .request .tare p tag body⟩
  | .clear p tag body => ⟨_, rfl, .request .clear p tag body⟩
  | .amend p tag body => ⟨_, rfl, .request .amend p tag body⟩
  | .calOpen p tag body => ⟨_, rfl, .request .calOpen p tag body⟩
  | .calData p tag body => ⟨_, rfl, .request .calData p tag body⟩
  | .calCommit p tag body => ⟨_, rfl, .request .calCommit p tag body⟩
  | .calClose p tag body => ⟨_, rfl, .request .calClose p tag body⟩
  | .calRead p tag body => ⟨_, rfl, .request .calRead p tag body⟩
  | .readContext p tag body => ⟨_, rfl, .request .readContext p tag body⟩
  | .getResults p tag body => ⟨_, rfl, .request .getResults p tag body⟩
  | .status p tag body => ⟨_, rfl, .request .status p tag body⟩
  | .getEvent p tag body => ⟨_, rfl, .request .getEvent p tag body⟩
  | .setEvents p tag body => ⟨_, rfl, .request .setEvents p tag body⟩
  | .unknownRequest p tag code body => ⟨_, rfl, .frame p tag code body⟩
  | .portBusyFrame p tag code body => ⟨_, rfl, .frame p tag code body⟩
  | .frameDiscard p bytes => ⟨_, rfl, .feed false p bytes⟩
  | .frameByteTimeout p bytes => ⟨_, rfl, .feed true p bytes⟩
  | .cellReplyStart => ⟨_, rfl, effect_ite (.ports _)⟩
  | .replySent p => ⟨_, rfl, effect_ite (effect_sendReply p s)⟩
  | .sampleInstant levels order w => ⟨_, rfl, effect_ite (.instant levels order w)⟩
  | .conversionArrival code late w => ⟨_, rfl, effect_ite (by
      cases late
      · exact .set (some code) w
      · exact .none)⟩
  | .conversionMiss w => ⟨_, rfl, effect_ite (.set none w)⟩
  | .streamFault w => ⟨_, rfl, effect_ite (effect_ite (.set none w))⟩
  | .encoderTransition e m => ⟨_, rfl, effect_ite (.move (moveEncoder e m s.smu))⟩
  | .lineFilterSettle levels order w => ⟨_, rfl, effect_ite (effect_ite (.instant levels order w))⟩
  | .tareComplete code w => ⟨_, rfl, effect_setWhere _ (some code) w s⟩
  | .startTareComplete code w => ⟨_, rfl, effect_setWhere _ (some code) w s⟩
  | .removalTimeout conv w => ⟨_, rfl, effect_setWhere _ conv w s⟩
  | .segmentTimeEnd conv w => ⟨_, rfl, effect_setWhere _ conv w s⟩
  | .trackCeilingRun conv w => ⟨_, rfl, effect_setWhere _ conv w s⟩
  | .changeoverCompletion conv w => ⟨_, rfl, effect_setWhere _ conv w s⟩
  | .quiesceTimeout conv w => ⟨_, rfl, effect_setWhere _ conv w s⟩
  | .autostart conv w => ⟨_, rfl, effect_setWhere _ conv w s⟩
  | .calWriteComplete => ⟨_, rfl, effect_ite .write⟩
  | .powerOn => ⟨_, rfl, .powerOn⟩
  | .resetLine => ⟨_, rfl, effect_ite (.line { s.ptu with lineArmed := false } .line)⟩
  | .powerLoss => ⟨_, rfl, .powerLoss⟩
  | .resetNHigh => ⟨_, rfl, effect_ite (.ports _)⟩

/-! ### The induction for an invariant -/

/-- What an invariant has to hold for and be kept by.  It does not look at the supply, the queue of commands or the port
unit. -/
structure Invariant (P : State → Prop) : Prop where
  initial : ∀ nv, P (State.initial nv)
  outside : ∀ s b l u, P s → P { s with power := b, pending := l, ptu := u }
  smu : ∀ s u, P s → P { s with smu := u }
  serve : ∀ r p body s, P s → P (serveBody r p body s).2
  reset : ∀ c s, P s → P (applyReset c s)
  set : ∀ conv w s, P s → P (completeSet conv w s)
  instant : ∀ levels order w s, P s → P (takeInstant levels order w s)
  write : ∀ s, P s → P (completeWrite s)

namespace Invariant

variable {P : State → Prop} (i : Invariant P)
include i

theorem ptu {s : State} (u : Ptu) (h : P s) : P { s with ptu := u } := i.outside s s.power s.pending u h

theorem clockLink (p : Port) (n : Nat) {s : State} (h : P s) : P (clockLink p n s) := by
  rcases clockLink_cases p n s with e | ⟨-, -, _, _, _, -, e⟩ <;> rw [e]
  · exact h
  · exact i.ptu _ h

theorem resetArrives (c : ResetCause) {s : State} (h : P s) : P (resetArrives c s) := by
  unfold Machine.resetArrives
  split
  · exact i.ptu _ h
  · exact i.reset c s h

theorem serveReset (p : Port) (tag : Byte) (body : List Byte) {s : State} (h : P s) : P (serveReset p tag body s) := by
  unfold Machine.serveReset takeReset
  split
  · split
    · split
      · exact i.resetArrives _ (i.ptu _ h)
      · exact i.resetArrives _ h
    · exact i.ptu _ h
  · exact i.ptu _ h

theorem takeFrame (p : Port) (tag code : Byte) {f : State → State} (serve : ∀ u, P u → P (f u)) {s : State} (h : P s) :
    P (takeFrame p tag code f s) := by
  have hunting : P (huntAgain p s) := i.ptu _ h
  unfold Machine.takeFrame answerBusy
  split
  · dsimp only
    split
    · split
      · exact hunting
      · exact i.ptu _ hunting
    · exact serve _ hunting
  · exact h

theorem serveRequest (r : Request) (p : Port) (tag : Byte) (body : List Byte) {s : State} (h : P s) :
    P (serveRequest r p tag (serveBody r p body) s) := by
  unfold Machine.serveRequest
  split
  · exact i.ptu _ (i.serve r p body s h)
  · exact i.ptu _ h

theorem frameArrives (p : Port) (tag code : Byte) (body : List Byte) {s : State} (h : P s) :
    P (frameArrives p tag code body s) := by
  refine i.takeFrame p tag code (fun u hu => ?_) h
  unfold serveCode
  split
  · exact i.ptu _ hu
  · exact i.serveReset p tag body hu
  · exact i.serveRequest _ p tag body hu

theorem receive (gap : Bool) (p : Port) (fuel : Nat) (bytes : List Byte) {s : State} (h : P s) :
    P (receive gap p fuel bytes s) := by
  induction fuel generalizing bytes s with
  | zero => exact h
  | succ n ih =>
    unfold Machine.receive
    split
    · exact i.ptu _ h
    · split
      · exact ih _ (i.frameArrives p _ _ _ h)
      · exact ih _ h
      · split
        · exact ih _ h
        · exact i.ptu _ h

theorem feed (gap : Bool) (p : Port) (bytes : List Byte) {s : State} (h : P s) : P (feed gap p bytes s) := by
  unfold Machine.feed
  split
  · exact i.receive gap p _ _ (i.clockLink p _ h)
  · exact h

/-- An invariant is kept by every effect. -/
theorem effect {s t : State} (e : Effect s t) (h : P s) : P t := by
  cases e with
  | none => exact h
  | request r p tag body =>
    exact i.takeFrame p tag _ (fun u hu => i.serveRequest r p tag body hu) (i.clockLink p _ h)
  | reset p tag body => exact i.takeFrame p tag _ (fun u hu => i.serveReset p tag body hu) (i.clockLink p _ h)
  | frame p tag code body => exact i.frameArrives p tag code body (i.clockLink p _ h)
  | feed gap p bytes => exact i.feed gap p bytes h
  | ports u => exact i.ptu u h
  | line u c => exact i.resetArrives c (i.ptu u h)
  | set conv w => exact i.set conv w s h
  | instant levels order w => exact i.instant levels order w s h
  | move u => exact i.smu s u h
  | write => exact i.write s h
  | powerOn => exact i.outside _ _ _ _ (i.initial _)
  | powerLoss => exact i.outside (State.initial s.cst.nv) false s.pending (unsupplied s.cst.nv).ptu (i.initial _)

/-- And so by every step. -/
theorem step {s t : State} (h : P s) (run : step s = .next t) : P t := by
  unfold Machine.step at run
  split at run
  · cases run
    exact h
  · rename_i c rest _
    obtain ⟨u, next, e⟩ := exec_effect c { s with pending := rest }
    rw [next] at run
    cases run
    exact i.effect e (i.outside s s.power rest s.ptu h)

end Invariant

/-! ### The outputs (R65, R173, R174) and the agreement of the contexts -/

theorem outputsFollow_invariant : Invariant OutputsFollow where
  initial _ := ⟨rfl, rfl⟩
  outside _ _ _ _ h := h
  smu _ _ h := h
  serve r p body s := (serveBody_keeps r p body s).outputs
  reset c s := (applyReset_keeps c s).outputs
  set conv w s := (completeSet_keeps conv w s).outputs
  instant levels order w s := (takeInstant_keeps levels order w s).outputs
  write s := (completeWrite_keeps s).outputs

/-- The outputs and the demand go together, since CLEAR leaves SAFE with the drive off. -/
theorem demandStands_invariant : Invariant fun s => OutputsFollow s ∧ DemandStands s where
  initial nv := ⟨outputsFollow_invariant.initial nv, demandStands_of_atRest ⟨rfl, rfl⟩⟩
  outside _ _ _ _ h := h
  smu _ _ h := h
  serve r p body s h := ⟨outputsFollow_invariant.serve r p body s h.1, serveBody_stands r p body h.1 h.2⟩
  reset c s h := ⟨outputsFollow_invariant.reset c s h.1, (applyReset_held c s).stands h.2⟩
  set conv w s h := ⟨outputsFollow_invariant.set conv w s h.1, completeSet_stands conv w h.2⟩
  instant levels order w s h :=
    ⟨outputsFollow_invariant.instant levels order w s h.1, takeInstant_stands levels order w h.2⟩
  write s h := ⟨outputsFollow_invariant.write s h.1, (completeWrite_held s).stands h.2⟩

theorem contextsSuit_invariant : Invariant ContextsSuit where
  initial := initial_suits
  outside s _ _ _ h :=
    have view : s.view.Suits := suit_iff_view.1 h
    suit_iff_view.2 view
  smu s u := (smu_keeps s u).suit
  serve r p body s := (serveBody_keeps r p body s).suit
  reset c s := (applyReset_keeps c s).suit
  set conv w s := (completeSet_keeps conv w s).suit
  instant levels order w s := (takeInstant_keeps levels order w s).suit
  write s := (completeWrite_keeps s).suit

/-- Settles O4: the outputs, the demand with them, and the agreement of the contexts are invariants. -/
theorem stepKeepsTheOutputs : Obligations.StepKeepsTheOutputs :=
  ⟨fun _ _ outputs run => outputsFollow_invariant.step outputs run,
   fun _ _ outputs stands run => (demandStands_invariant.step ⟨outputs, stands⟩ run).2,
   fun _ _ suits run => (contextsSuit_invariant.step suits run).faults⟩

end Sys2Proof.Machine

/-! PROOFS about ZERO_POSITION (R178): the slots under the new origin, and the obligation from the two answers of the
request's own function. -/

namespace Sys2Proof.Machine

theorem zeroPosition_slot (s : State) (k : SlotId) : (zeroPosition s).slot k = shiftPosRef s.smu.xh (s.slot k) := by
  simp [zeroPosition, State.slot]

theorem shiftPosRef_of_other (c : Int) {x : Slot} (h : x.state ≠ .parked) : shiftPosRef c x = x := if_neg h

theorem shiftPosRef_of_parked (c : Int) {x : Slot} {rt : Runtime} (parked : x.state = .parked)
    (runtime : x.runtime = some rt) :
    shiftPosRef c x = { x with runtime := some { rt with posRef := rt.posRef.map fun p => sat32 (p - c) } } := by
  simp [shiftPosRef, parked, runtime]

/-- A ZERO_POSITION that the supervisor port can take is answered by its own function. -/
theorem exec_zeroPosition (tag : Byte) {s : State} (take : CanTake .supervisor s) :
    exec (.zeroPosition .supervisor tag []) s = .next (beginServing .supervisor tag (requestCode .zeroPosition)
      (some (serveZeroPosition [] (huntAgain .supervisor s)).1) (serveZeroPosition [] (huntAgain .supervisor s)).2) := by
  have run : exec (.zeroPosition .supervisor tag []) s =
    .next (request .zeroPosition .supervisor tag [] (serveZeroPosition []) s) := rfl
  rw [run, request_taken take ((permitted_iff _ _).2 (by decide))]

theorem serveZeroPosition_refused {s : State} (h : s.ctx.phase ≠ .idle) :
    serveZeroPosition [] s = (Reply.only .state, s) := by
  simp [serveZeroPosition, readNone, h]

theorem serveZeroPosition_idle {s : State} (h : s.ctx.phase = .idle) :
    serveZeroPosition [] s = ({ status := .ok, results := be32 s.smu.xh }, zeroPosition s) := by
  simp [serveZeroPosition, readNone, h]

/-- Settles O30: the origin moves in IDLE alone, and the slots move with it one by one. -/
theorem zeroPositionMovesTheOrigin : Obligations.ZeroPositionMovesTheOrigin := by
  intro tag s take
  refine ⟨fun other => ?_, fun idle => ⟨zeroPosition (huntAgain .supervisor s), ?_, rfl, fun k other => ?_,
    fun k rt parked runtime => ?_⟩⟩
  · show exec _ _ = _
    rw [exec_zeroPosition tag take, serveZeroPosition_refused (s := huntAgain .supervisor s) other]
  · show exec _ _ = _
    rw [exec_zeroPosition tag take, serveZeroPosition_idle (s := huntAgain .supervisor s) idle]
    rfl
  · rw [zeroPosition_slot, huntAgain_slot, shiftPosRef_of_other _ other]
  · rw [zeroPosition_slot, huntAgain_slot, shiftPosRef_of_parked _ parked runtime, huntAgain_smu]

end Sys2Proof.Machine

/-! PROOFS about the compliance tracker (R66 to R68): an update is an eighth of the way, a mark of no cause leaves the
pending changeover, and the obligation from what a sample does to the ring and to the estimates. -/

namespace Sys2Proof.Machine

/-! ### An update (R67) -/

/-- The condition of an update: the quantity moved by 500 or more, and with the crosshead. -/
theorem kUpdate_moves {dq dp : Int} (h : 500 ≤ absI dq ∧ dp ≠ 0 ∧ (0 < dq ↔ 0 < dp)) (k : Int) :
    kUpdate dq dp k = k + roundDiv (roundDiv (dp * 16777216) dq - k) 8 := by
  obtain ⟨far, moved, along⟩ := h
  have sign : signI dq = signI dp := by
    unfold absI at far
    unfold signI
    split_ifs at far ⊢ <;> omega
  exact if_pos ⟨far, moved, sign⟩

theorem kUpdate_holds {dq dp : Int} (h : ¬(500 ≤ absI dq ∧ dp ≠ 0 ∧ (0 < dq ↔ 0 < dp))) (k : Int) :
    kUpdate dq dp k = k := by
  refine if_neg fun ⟨far, moved, sign⟩ => h ⟨far, moved, ?_⟩
  unfold signI at sign
  split_ifs at sign <;> omega

/-- An eighth rounded to the nearest integer is within half a unit (R1). -/
theorem eighth_nearest (d : Int) : -4 ≤ 8 * roundDiv d 8 - d ∧ 8 * roundDiv d 8 - d ≤ 4 := by
  have near := roundPos_nearest d (b := 8) (by decide)
  rw [← roundDiv_of_pos d (by decide)] at near
  omega

theorem clamp_changes {lo hi k : Int} (h : k < lo ∨ hi < k) (order : lo ≤ hi) : clamp lo hi k ≠ k := by
  have bounds := clamp_bounds order k
  omega

/-! ### The ring (R66) -/

theorem keepLast_of_room {α : Type} {n : Nat} {l : List α} (h : l.length ≤ n) : keepLast n l = l := by
  simp [keepLast, Nat.sub_eq_zero_of_le h]

theorem keepLast_full {α : Type} {n : Nat} {x y : α} {l : List α} (h : l.length + 1 = n) :
    keepLast n (x :: l ++ [y]) = l ++ [y] := by
  have one : (x :: l ++ [y]).length - n = 1 := by simp; omega
  rw [keepLast, one]
  rfl

theorem length_keepLast {α : Type} (n : Nat) (l : List α) : (keepLast n l).length = min n l.length := by
  simp [keepLast]
  omega

/-! ### A mark that raises no cause (R31, R189) -/

/-- The control state and the pending changeover stand. -/
structure NoCause (s t : State) : Prop where
  msq : t.msq = s.msq
  changeover : t.ctx.changeover = s.ctx.changeover

theorem NoCause.trans {s t u : State} (h : NoCause s t) (g : NoCause t u) : NoCause s u :=
  ⟨g.msq.trans h.msq, g.changeover.trans h.changeover⟩

theorem RecordFrame.noCause {s t : State} (h : RecordFrame s t) : NoCause s t := by
  constructor <;> rw [h.rest]

theorem addMark_noCause (k : SlotId) (m : Mark) (s : State) : NoCause s (addMark k m s) := by
  unfold addMark
  exact NoCause.trans (t := s.setSlot k { s.slot k with marks := (s.slot k).marks ++ [m] }) ⟨rfl, rfl⟩
    (raiseEvent_frame _ _ _).record.noCause

/-- GAP raises nothing where its stop enable is off, where it is set already, or behind a FRACTURE (R31). -/
def GapIsCalm (x : Slot) : Prop := x.order.tGap = false ∨ Mark.gap ∈ x.marks ∨ Mark.fracture ∈ x.marks

theorem MarkFrame.gapIsCalm {s t : State} (h : MarkFrame s t) {k : SlotId} (calm : GapIsCalm (s.slot k)) :
    GapIsCalm (t.slot k) := by
  unfold GapIsCalm
  rw [h.order]
  exact calm.imp_right (Or.imp (h.marks k _) (h.marks k _))

theorem raiseMarkCause_gap {k : SlotId} {s : State}
    (calm : (s.slot k).order.tGap = false ∨ Mark.fracture ∈ (s.slot k).marks) : raiseMarkCause k .gap s = s := by
  unfold raiseMarkCause
  rcases calm with off | fractured
  · rw [if_neg (by simp [stopEnabled, off])]
  · simp [markClass, fractured]

theorem reportGap_noCause (raises : Bool) {k : SlotId} (n : BitVec 32) {s : State} (calm : GapIsCalm (s.slot k)) :
    NoCause s (reportGap raises k n s) := by
  unfold reportGap
  split
  · exact ⟨rfl, rfl⟩
  · rename_i new
    dsimp only
    have added := addMark_noCause k .gap s
    split
    · have offered := added.trans
        (offerRaw_frame (Offer.one false (eventRecord .markSet n k (markNumber .gap) 0) n) (addMark k .gap s)).noCause
      split
      · have frame := (addMark_frame k .gap s).trans
          (offerRaw_frame (Offer.one false (eventRecord .markSet n k (markNumber .gap) 0) n) (addMark k .gap s)).mark
        rw [raiseMarkCause_gap]
        · exact offered
        · rw [frame.order]
          exact calm.imp_right fun h => frame.marks k _ (h.resolve_left new)
      · exact offered
    · exact added

/-- An offer raises no cause where the stream takes it, or where the GAP of its drop raises none (R189). -/
theorem offer_noCause (raises : Bool) (o : Offer) {k : SlotId} {s : State}
    (calm : admits o s.rst = true ∨ GapIsCalm (s.slot k)) : NoCause s (offer raises o k s) := by
  have raw := (offerRaw_frame o s).noCause
  unfold offer
  dsimp only
  split
  · exact raw
  · rename_i dropped
    have full : admits o s.rst ≠ true := fun taken => dropped (by simp [offerRaw, taken])
    exact raw.trans (reportGap_noCause _ _ ((offerRaw_frame o s).mark.gapIsCalm (calm.resolve_left full)))

/-- An EVENT record takes 6 words (R184, R188). -/
theorem admits_event {e : RecordEvent} {n : BitVec 32} {k : SlotId} {sub : Nat} {v : Int} {r : Rst}
    (room : occupancy r.records + 6 ≤ 2048) : admits (Offer.one false (eventRecord e n k sub v) n) r = true := by
  simpa [admits, Offer.one, occupancy, eventRecord, words32, w32, Config.streamWords] using room

/-- A mark without a stop enable raises no cause by itself; its record may. -/
theorem setMark_noCause {k : SlotId} {m : Mark} (v : Int) (n : BitVec 32) {s : State}
    (silent : ∀ o, stopEnabled o m = false)
    (calm : occupancy s.rst.records + 6 ≤ 2048 ∨ GapIsCalm (s.slot k)) : NoCause s (setMark k m v n s) := by
  have added := addMark_noCause k m s
  unfold setMark
  split
  · exact ⟨rfl, rfl⟩
  · dsimp only
    split
    · have quiet : ∀ u, raiseMarkCause k m u = u := fun u => by simp [raiseMarkCause, silent]
      rw [quiet]
      refine added.trans (offer_noCause true _ ?_)
      refine calm.imp (fun room => admits_event ?_) (addMark_frame k m s).gapIsCalm
      simpa [addMark] using room
    · exact added

/-! ### The tracker at a sample -/

/-- The triple of a sample (R66). -/
def Measured.triple (x : Measured) : Triple := { pos := x.pos, stress := x.stress, strain := x.strain }

/-- The estimates behind an update against a triple (R67). -/
def updatedS (x : Measured) (old : Triple) (rt : Runtime) : Int :=
  kUpdate (x.stress - old.stress) ((x.pos - old.pos) * 100) rt.kS

def updatedE (x : Measured) (old : Triple) (rt : Runtime) : Int :=
  kUpdate (x.strain - old.strain) ((x.pos - old.pos) * 100) rt.kE

/-- The clamps of an order on the estimates (R68). -/
def clampedS (o : TestOrder) (kS : Int) : Int := clamp o.kSMin o.kSMax kS

def clampedE (o : TestOrder) (kE : Int) : Int := clamp o.kEMin o.kEMax kE

/-- The part with the triple of a sample in a full ring and the estimates updated and clamped. -/
def withEstimates (x : Measured) (old : Triple) (rest : List Triple) (k : SlotId) (l : Live) (s : State) : State :=
  { s with
    msq := { s.msq with ring := rest ++ [x.triple] }
    live := some { l with rt := { l.rt with
      kS := clampedS (s.slot k).order (updatedS x old l.rt)
      kE := clampedE (s.slot k).order (updatedE x old l.rt) } } }

/-- KCLAMP where a clamp has changed an estimate (R68). -/
def clampEstimates (k : SlotId) (o : TestOrder) (kS kE : Int) (t : State) : State :=
  if clampedS o kS ≠ kS ∨ clampedE o kE ≠ kE then setMark k .kclamp 0 (lastIndex t k 8) t else t

theorem clampEstimates_frame (k : SlotId) (o : TestOrder) (kS kE : Int) (t : State) :
    MarkFrame t (clampEstimates k o kS kE t) := by
  unfold clampEstimates
  split
  · exact setMark_frame _ _ _ _ _
  · exact .refl t

theorem clampEstimates_noCause {k : SlotId} (o : TestOrder) (kS kE : Int) {t : State}
    (calm : occupancy t.rst.records + 6 ≤ 2048 ∨ GapIsCalm (t.slot k)) : NoCause t (clampEstimates k o kS kE t) := by
  unfold clampEstimates
  split
  · exact setMark_noCause _ _ (fun _ => rfl) calm
  · exact ⟨rfl, rfl⟩

theorem mem_clampEstimates {k : SlotId} {o : TestOrder} {kS kE : Int} (t : State)
    (changed : clampedS o kS ≠ kS ∨ clampedE o kE ≠ kE) : Mark.kclamp ∈ ((clampEstimates k o kS kE t).slot k).marks := by
  unfold clampEstimates
  rw [if_pos changed]
  exact mem_setMark _ _ _ _ _

section
variable {s : State} {k : SlotId} {l : Live} (resident : s.residentSlot = some k) (live : s.live = some l)
include resident live

theorem trackCompliance_filling (x : Measured) (h : s.msq.ring.length ≠ 64) :
    trackCompliance x s = { s with msq := { s.msq with ring := keepLast 64 (s.msq.ring ++ [x.triple]) } } := by
  simp [trackCompliance, resident, live, Config.ringEntries, h, Measured.triple]

/-- With the ring full the estimates are updated against the oldest triple and clamped, and a clamp that changes one sets
KCLAMP (R67, R68). -/
theorem trackCompliance_full (x : Measured) {old : Triple} {rest : List Triple} (ring : s.msq.ring = old :: rest)
    (full : rest.length = 63) :
    trackCompliance x s =
      clampEstimates k (s.slot k).order (updatedS x old l.rt) (updatedE x old l.rt)
        (withEstimates x old rest k l s) := by
  have moved : keepLast 64 (s.msq.ring ++ [x.triple]) = rest ++ [x.triple] := by
    rw [ring]
    exact keepLast_full (by rw [full])
  have entries : s.msq.ring.length = 64 := by rw [ring, List.length_cons, full]
  unfold trackCompliance
  rw [resident, live]
  dsimp only
  split
  · rename_i first others _ stood
    obtain ⟨rfl, -⟩ := List.cons.inj (ring.symm.trans stood)
    rw [withEstimates, ← moved]
    rfl
  · rename_i other
    exact absurd ring (other _ _ (decide_eq_true entries))

end

theorem length_ring {s : State} {k : SlotId} {l : Live} (resident : s.residentSlot = some k) (live : s.live = some l)
    (x : Measured) : (trackCompliance x s).msq.ring.length = min 64 (s.msq.ring.length + 1) := by
  by_cases room : s.msq.ring.length = 64
  · obtain ⟨old, rest, ring⟩ := List.exists_cons_of_length_eq_add_one (n := 63) room
    have full : rest.length = 63 := by simpa [ring] using room
    rw [trackCompliance_full resident live x ring full, (clampEstimates_frame _ _ _ _ _).msq]
    simp [withEstimates, full, room]
  · rw [trackCompliance_filling resident live x room, length_keepLast, List.length_append, List.length_singleton]

/-- Settles O56: the ring grows until it is full, an update is an eighth of the way, and the only cause a clamp can bring
is that of a GAP. -/
theorem theTrackerFollowsTheStiffness : Obligations.TheTrackerFollowsTheStiffness := by
  refine ⟨?_, fun dq dp k fresh value => ⟨fun moves => ?_, fun holds => kUpdate_holds holds k⟩⟩
  · rintro x s k l now resident live rfl -
    refine ⟨length_ring resident live x, fun room => ?_, ?_⟩
    · rw [trackCompliance_filling resident live x room.ne, keepLast_of_room (by simpa using room)]
      rfl
    · rintro old rest ring full kS kE rfl rfl
      have run := trackCompliance_full resident live x ring full
      have frame := clampEstimates_frame k (s.slot k).order (updatedS x old l.rt) (updatedE x old l.rt)
        (withEstimates x old rest k l s)
      refine ⟨?_, fun calm => ?_, ?_, fun order => clamp_bounds order _, fun beyond orderS orderE => ?_⟩
      · rw [run, frame.msq]
        rfl
      · have none := clampEstimates_noCause (s.slot k).order (updatedS x old l.rt) (updatedE x old l.rt)
          (t := withEstimates x old rest k l s) (k := k) calm
        rw [run, none.msq, none.changeover]
        exact ⟨rfl, rfl⟩
      · rw [run, frame.live]
        rfl
      · rw [run]
        refine mem_clampEstimates _ ?_
        rcases beyond with low | high | low | high
        · exact .inl (clamp_changes (.inl low) orderS)
        · exact .inl (clamp_changes (.inr high) orderS)
        · exact .inr (clamp_changes (.inl low) orderE)
        · exact .inr (clamp_changes (.inr high) orderE)
  · rw [kUpdate_moves moves, ← value, add_sub_cancel_left]
    exact eighth_nearest _

end Sys2Proof.Machine

/-! PROOFS about the control state on the way of a set: the load channel, the extension channel and the evaluation unit
leave it, a still-count aside, and the tests of a sample stage at most the next segment. -/

namespace Sys2Proof.Machine

/-- The control state without its still-count, which a cause that begins a quiesce starts again (R72). -/
def State.motion (s : State) : Msq := { s.msq with stillCount := 0 }

theorem MarkFrame.motion {s t : State} (h : MarkFrame s t) : t.motion = s.motion := by
  unfold State.motion
  rw [h.msq]

theorem EventFrame.motion {s t : State} (h : EventFrame s t) : t.motion = s.motion := h.mark.motion

/-! ### The load channel -/

theorem post_mark_motion (keep : Bool) (k : SlotId) (m : Mark) (v : Int) (n : BitVec 32) (s : State) :
    (post keep (.mark k m v n) s).motion = s.motion := by
  unfold post
  split
  · rfl
  · exact (setMark_frame k m v n s).motion

theorem settleMark_motion (fl : Flight) (s : State) : (settleMark fl s).motion = s.motion := by
  unfold settleMark
  split
  · split
    · exact post_mark_motion _ _ _ _ _ _
    · rfl
  · rfl

theorem overloadCheck_motion (fl : Flight) (s : State) : (overloadCheck fl s).motion = s.motion := by
  unfold overloadCheck
  split
  · split
    · exact post_mark_motion _ _ _ _ _ _
    · rfl
  · rfl

theorem finishTare_motion (run : TareRun) (s : State) : (finishTare run s).motion = s.motion := by
  unfold finishTare
  dsimp only
  split
  · rw [(raiseEvent_frame _ _ _).motion]; rfl
  · rw [(offerEvent_frame _ _ _ _ _ _).motion, (raiseEvent_frame _ _ _).motion]; rfl
  · rfl

theorem collectTare_motion (fl : Flight) (s : State) : (collectTare fl s).motion = s.motion := by
  unfold collectTare
  split
  · split
    · dsimp only
      split
      · exact finishTare_motion _ s
      · rfl
    · rfl
  · rfl

/-- A quiet set reports no FAULT as it is converted (R93). -/
theorem lchConvert_motion {x : SampleSet} {conv : Option (BitVec 24)} {s₀ s : State}
    (quiet : quietSet x conv s₀ = true) (lch : s.lch = s₀.lch) (w : SetOrder) :
    (lchConvert x conv w s).1.motion = s.motion := by
  unfold lchConvert
  dsimp only
  split
  · rename_i code settling
    have calm : (hardAt x.tables x.range (code24 code) && !s.lch.hard) = false := by
      rw [lch]
      simpa [quietSet, settling, or_comm, imp_iff_not_or] using quiet
    dsimp only
    split
    · rename_i reports
      exact absurd (calm.symm.trans reports) (by decide)
    · rfl
  · rfl

theorem loadStep_motion {x : SampleSet} {conv : Option (BitVec 24)} {s₀ s : State}
    (quiet : quietSet x conv s₀ = true) (lch : s.lch = s₀.lch) (w : SetOrder) :
    (loadStep x conv w s).1.motion = s.motion := by
  unfold loadStep
  dsimp only
  rw [overloadCheck_motion, collectTare_motion, settleMark_motion, (examineResumed_frame _).motion,
    lchConvert_motion quiet lch w]

/-! ### The extension channel -/

theorem removalTimedOut_motion (fl : Flight) (s : State) : (removalTimedOut fl s).motion = s.motion := by
  unfold removalTimedOut
  split
  · exact post_mark_motion _ _ _ _ _ _
  · rfl

theorem announceDetached_motion (st : ChannelState) (o : Option SlotId) (v : Int) (s : State) (x : Xch) :
    (announceDetached st o v { s with xch := x }).motion = s.motion := by
  rw [(announceDetached_frame _ _ _ _).motion]
  rfl

theorem releasingStep_motion (fl : Flight) (s : State) : (releasingStep fl s).motion = s.motion := by
  unfold releasingStep
  dsimp only
  split
  · split
    · split
      · rw [removalTimedOut_motion]; rfl
      · rfl
    · rfl
  · exact announceDetached_motion _ _ _ _ _

theorem channelStep_motion (fl : Flight) (s : State) : (channelStep fl s).1.motion = s.motion := by
  unfold channelStep
  split
  · split <;> rfl
  · split
    · rfl
    · exact announceDetached_motion _ _ _ _ _
  · split
    · rfl
    · exact announceDetached_motion _ _ _ _ _
  · exact releasingStep_motion fl s

theorem lanesStep_motion (fl : Flight) (captured : Bool) (s : State) : (lanesStep fl captured s).1.motion = s.motion := by
  unfold lanesStep
  dsimp only
  split
  · split <;> rfl
  · rfl

theorem handover_motion (k : SlotId) (c : HandoverCause) (v ex : Int) (s : State) :
    (handover k c v ex s).motion = s.motion := by
  unfold handover
  dsimp only
  rw [(offerEvent_frame _ _ _ _ _ _).motion, (raiseEvent_frame _ _ _).motion]
  rfl

theorem slipStep_motion (fl : Flight) (f : LaneFacts) (ex : Int) (s : State) : (slipStep fl f ex s).motion = s.motion := by
  have slipped : (if f.bad then setSlipped s else s).motion = s.motion := by split <;> rfl
  unfold slipStep
  split
  · dsimp only
    split
    · split
      · rfl
      · rw [post_mark_motion, handover_motion]; rfl
    · rw [handover_motion, slipped]
    · exact slipped
  · exact slipped

theorem beginRemoval_motion (k : SlotId) (e ex : Int) (s : State) : (beginRemoval k e ex s).motion = s.motion :=
  handover_motion k .removal e ex s

theorem parkedWatch_motion (s : State) : (parkedWatch s).motion = s.motion := by
  unfold parkedWatch
  split
  · split
    · split <;> rfl
    · rfl
  · rfl

theorem residentStrain_motion (fl : Flight) (f : LaneFacts) (k : SlotId) (s : State) :
    (residentStrain fl f k s).1.motion = s.motion := by
  have slip : ∀ ex, (slipStep fl f ex (seatPosRef fl.set.xh s)).motion = s.motion := fun ex => slipStep_motion _ _ _ _
  unfold residentStrain
  dsimp only
  split
  · exact slip _
  · split
    · rw [beginRemoval_motion, slip]
    · exact slip _

theorem xchStep_motion (fl : Flight) (s : State) : (xchStep fl s).1.motion = s.motion := by
  unfold xchStep
  dsimp only
  split
  · rw [parkedWatch_motion, residentStrain_motion, lanesStep_motion, channelStep_motion]
  · rw [parkedWatch_motion, slipStep_motion, lanesStep_motion, channelStep_motion]

/-! ### The evaluation unit -/

theorem post_fracture_motion (keep : Bool) (k : SlotId) (n : Nat) (c : Criterion) (f fm : Int) (s : State) :
    (post keep (.fracture k n c f fm) s).motion = s.motion := by
  unfold post
  split
  · rfl
  · exact (takeFracture_frame k n c f fm s).motion

theorem evaluate_motion (fl : Flight) (x : XOut) (k : SlotId) (l : Live) (st : Int) (s : State) :
    (evaluate fl x k l st s).motion = s.motion := by
  have announced : ∀ (e : Eval) (seen : Bool) (n : Nat) (u : State),
      (if seen then announceYield k n e u else u).motion = u.motion := by
    intro e seen n u
    split
    · exact (announceYield_frame _ _ _ _).motion
    · rfl
  unfold evaluate
  dsimp only
  split
  · unfold reportFracture
    rw [post_fracture_motion, announced]
    rfl
  · rw [announced]
    rfl

theorem evuStep_motion (fl : Flight) (x : XOut) (s : State) : (evuStep fl x s).1.motion = s.motion := by
  unfold evuStep
  split
  · dsimp only
    split
    · exact evaluate_motion _ _ _ _ _ s
    · rfl
  · rfl

/-! ### The tests of a sample -/

/-- No amendment waits in the inactive bank. -/
def Unamended (s : State) : Prop := ∀ b p, s.msq.inactive ≠ some (.amendment b p)

/-- A step that changes the control state at most by staging a segment, a still-count aside, and keeps no FAULT back. -/
structure CourseFrame (s t : State) : Prop where
  msq : t.msq = { s.msq with inactive := t.msq.inactive, stillCount := t.msq.stillCount }
  unamended : Unamended s → Unamended t
  kept : NoFaultKept s → NoFaultKept t

theorem CourseFrame.trans {s t u : State} (h : CourseFrame s t) (g : CourseFrame t u) : CourseFrame s u :=
  ⟨by rw [g.msq, h.msq], g.unamended ∘ h.unamended, g.kept ∘ h.kept⟩

theorem CourseFrame.of_motion {s t : State} (h : t.motion = s.motion) (kept : NoFaultKept s → NoFaultKept t) :
    CourseFrame s t := by
  have msq : t.msq = { s.msq with stillCount := t.msq.stillCount } :=
    calc t.msq = { t.motion with stillCount := t.msq.stillCount } := rfl
      _ = { s.motion with stillCount := t.msq.stillCount } := by rw [h]
      _ = _ := rfl
  refine ⟨?_, fun g => ?_, kept⟩
  · rw [msq]
  · unfold Unamended
    rwa [msq]

theorem MarkFrame.course {s t : State} (h : MarkFrame s t) : CourseFrame s t := .of_motion h.motion h.set.kept

theorem stagedNext_course (k : SlotId) (b : Bank) (s : State) : CourseFrame s (stagedNext k b s) := by
  refine ⟨rfl, fun _ c p staged => ?_, id⟩
  obtain ⟨g, -, e⟩ := Option.map_eq_some_iff.1 staged
  cases e

theorem segmentEnd_course {k : SlotId} (b : Bank) {s : State} (resident : s.ctx.resident = some (.test k)) :
    CourseFrame s (segmentEnd k b s) := by
  rcases lt_or_ge b.seg (s.slot k).order.segments.length with more | last
  · exact (stagedNext_course k b s).trans (segmentEnd_next_frame more).course
  · exact (segmentEnd_last_frame last resident).course

theorem holdPoint_course (k : SlotId) (x : Measured) (s : State) : CourseFrame s (holdPoint k x s) := by
  unfold holdPoint
  dsimp only
  split
  · split
    · rename_i l _ _
      have passed : CourseFrame s { s with live := some { l with rt := { l.rt with holdPassed := true } } } :=
        .of_motion rfl id
      exact passed.trans (setMark_frame _ _ _ _ _).course
    · exact .of_motion rfl id
  · exact .of_motion rfl id

theorem endTest_course {k : SlotId} (x : Measured) {s : State} (resident : s.ctx.resident = some (.test k)) :
    CourseFrame s (endTest k x s) := by
  unfold endTest
  split
  · split
    · split
      · exact .of_motion rfl id
      · exact segmentEnd_course _ resident
      · have backup := yieldBackup_frame k x s
        exact backup.course.trans (segmentEnd_course _ (backup.resident.trans resident))
    · exact .of_motion rfl id
  · exact .of_motion rfl id

theorem segmentTests_course (fl : Flight) (x : Measured) (s : State) : CourseFrame s (segmentTests fl x s) := by
  unfold segmentTests
  split
  · rename_i k resident
    split
    · exact .of_motion rfl id
    · have counted : CourseFrame s (holdPoint k x (countElapsed s)) :=
        CourseFrame.trans (t := countElapsed s) (.of_motion rfl id) (holdPoint_course _ _ _)
      have chain := (countElapsed_chain s).trans (holdPoint_chain k x _)
      exact counted.trans (endTest_course x (chain.resident.trans (residentSlot_eq_some.1 resident)))
  · exact .of_motion rfl id

theorem drain_course {which : Report → Bool} {s : State} (kept : NoFaultKept s) : CourseFrame s (drain which s) :=
  .of_motion (foldl_takeReport_mark _ (fun kind h => kept kind (List.mem_filter.1 h).1) _).1.motion (drain_set kept).1.kept

theorem amendmentFlip_unamended {s : State} (h : Unamended s) : amendmentFlip s = s := by
  unfold amendmentFlip
  split
  · exact absurd ‹_› (h _ _)
  · rfl

theorem firstSeat_seated (fl : Flight) (x : Measured) {s : State} (h : s.msq.seat = false) : firstSeat fl x s = s := by
  unfold firstSeat
  split
  · simp [h]
  · rfl

end Sys2Proof.Machine

/-! PROOFS about the ceiling run (R62): the run after a sample, TRACK at its 200th, and the obligation on the set at which
a POSITION segment gets there. -/

namespace Sys2Proof.Machine

/-! ### The demand at the ceiling -/

/-- The raw velocity of a sample whose setpoint has advanced (R60, R61). -/
def rawAt (b : Bank) (x : Measured) (s : State) : Int :=
  rawVelocity (kOf b.mode s.live) (innerRate b.rate b.kp (errorOf (s.msq.qSet.getD 0) (measuredQ b.mode x)))

/-- Whether the ceiling changes the raw velocity (R62). -/
def atCeiling (b : Bank) (x : Measured) (s : State) : Bool :=
  clamp (-ceilingOf s.frame.vfs b.vmax) (ceilingOf s.frame.vfs b.vmax) (rawAt b x s) != rawAt b x s

/-- The part with the ceiling run of a sample counted, and TRACK set where it is due. -/
def ceilingCounted (b : Bank) (x : Measured) (s : State) : State :=
  trackMark (atCeiling b x s) { s with msq := { s.msq with
    ceilingRun := ceilingRunAfter s.residentSlot.isSome (atCeiling b x s) s.msq.ceilingRun } }

/-- The steps of the demand behind the ceiling leave its run and the marks. -/
theorem demandSteps_ceiling (b : Bank) (x : Measured) (s : State) :
    (demandSteps b x s).msq.ceilingRun = (ceilingCounted b x s).msq.ceilingRun ∧
    ∀ k, ∀ m ∈ ((ceilingCounted b x s).slot k).marks, m ∈ ((demandSteps b x s).slot k).marks := by
  obtain ⟨on, v, e⟩ : ∃ on v, demandSteps b x s = writeDemand v (markTravel on x (ceilingCounted b x s)) := ⟨_, _, rfl⟩
  have travel := markTravel_frame on x (ceilingCounted b x s)
  rw [e]
  refine ⟨?_, travel.marks⟩
  show (markTravel on x (ceilingCounted b x s)).msq.ceilingRun = _
  rw [travel.msq]

/-- The 200th sample in a row at the ceiling sets TRACK (R62). -/
theorem ceilingCounted_track {b : Bank} {x : Measured} {k : SlotId} {s : State} (resident : s.residentSlot = some k)
    (run : s.msq.ceilingRun = 199) (exceeds : atCeiling b x s = true) :
    (ceilingCounted b x s).msq.ceilingRun = 200 ∧ Mark.track ∈ ((ceilingCounted b x s).slot k).marks := by
  have counted : ceilingRunAfter s.residentSlot.isSome (atCeiling b x s) s.msq.ceilingRun = 200 := by
    simp [ceilingRunAfter, resident, run, exceeds]
  refine ⟨?_, ?_⟩
  · unfold ceilingCounted
    rw [(trackMark_frame _ _).msq, counted]
  · unfold ceilingCounted trackMark
    rw [counted, exceeds]
    have still : State.residentSlot { s with msq := { s.msq with ceilingRun := 200 } } = some k := resident
    rw [still]
    exact mem_setMark _ _ _ _ _

/-! ### The test one sample before TRACK -/

/-- The velocity that a POSITION bank asks for at a sample, from the setpoint that its advance leaves (R59 to R61). -/
def askedVelocity (b : Bank) (q : Int) (rem : Nat) (w : Int × Int) (pos : Int) : Int :=
  rawVelocity positionK (innerRate b.rate b.kp (errorOf (clamp w.1 w.2 (advance b.rate q rem).1) pos))

/-- The resident test one sample before the ceiling run is 200, in a POSITION segment that stays at the ceiling. -/
structure CeilingDue (k : SlotId) (b : Bank) (q pos : Int) (s : State) : Prop where
  resident : s.residentSlot = some k
  drive : s.flu.drvEn = true
  active : s.msq.active = some b
  unamended : Unamended s
  qSet : s.msq.qSet = some q
  target : s.msq.target = none
  run : s.msq.ceilingRun = 199
  mode : b.mode = .position
  exceeds : clamp (-ceilingOf s.frame.vfs b.vmax) (ceilingOf s.frame.vfs b.vmax)
      (askedVelocity b q s.msq.remainder (travelWindow s) pos) ≠
    askedVelocity b q s.msq.remainder (travelWindow s) pos

theorem ChainFrame.frame {s t : State} (h : ChainFrame s t) : t.frame = s.frame := by
  simp [State.frame, h.inForce]

theorem ChainFrame.travelWindow {s t : State} (h : ChainFrame s t) : travelWindow t = travelWindow s := by
  unfold Machine.travelWindow
  rw [h.residentSlot, h.frame]
  split
  · rw [h.order]
  · rfl

theorem CeilingDue.chain {k : SlotId} {b : Bank} {q pos : Int} {s t : State} (due : CeilingDue k b q pos s)
    (h : ChainFrame s t) (c : CourseFrame s t) : CeilingDue k b q pos t := by
  refine ⟨h.residentSlot.trans due.resident, ?_, ?_, c.unamended due.unamended, ?_, ?_, ?_, due.mode, ?_⟩
  · rw [h.flu, due.drive]
  · rw [c.msq, due.active]
  · rw [c.msq, due.qSet]
  · rw [c.msq, due.target]
  · rw [c.msq, due.run]
  · rw [h.frame, h.travelWindow, c.msq]
    exact due.exceeds

/-- The sample of the demand counts the ceiling run to 200 and sets TRACK. -/
theorem CeilingDue.demandOf_track {k : SlotId} {b : Bank} {q : Int} {x : Measured} {s : State}
    (due : CeilingDue k b q x.pos s) {fl : Flight} (quiesce : fl.quiesce = false) (tare : fl.tareSet = false) :
    (demandOf fl x s).msq.ceilingRun = 200 ∧ Mark.track ∈ ((demandOf fl x s).slot k).marks := by
  have f := advanceSetpoint_frame q x due.active
  generalize hu : advanceSetpoint b q x s = u at f
  have aim : ∀ n, aimAt s.msq.target b.rate n = (n, b.rate) := fun n => by rw [due.target]; rfl
  have bank : u.msq.active = some b := by
    rw [f.active]
    simp [seatedMsq, advancedMsq, aim]
  have run : demandOf fl x s = demandSteps b x u := by
    simp [demandOf, due.active, due.drive, tare, quiesce, due.qSet, hu, bank]
  have raw : rawAt b x u = askedVelocity b q s.msq.remainder (travelWindow s) x.pos := by
    unfold rawAt askedVelocity
    rw [f.msq, f.live]
    simp [seatedMsq, aim, heldSetpoint, due.mode, kOf, measuredQ]
  have exceeds : atCeiling b x u = true := by
    unfold atCeiling
    rw [raw, f.frame]
    exact bne_iff_ne.2 due.exceeds
  have before : u.msq.ceilingRun = 199 := by
    rw [f.msq]
    exact due.run
  obtain ⟨counted, track⟩ := ceilingCounted_track (f.residentSlot.trans due.resident) before exceeds
  rw [run]
  exact ⟨(demandSteps_ceiling b x u).1.trans counted, (demandSteps_ceiling b x u).2 k _ track⟩

/-! ### The set -/

/-- TRACK is set at a ceiling run of 200, in TEST, and no FAULT is kept back. -/
structure CeilingTracked (k : SlotId) (t : State) : Prop where
  run : t.msq.ceilingRun = 200
  track : Mark.track ∈ (t.slot k).marks
  phase : t.ctx.phase = .test
  kept : NoFaultKept t

theorem CeilingTracked.set {k : SlotId} {s t : State} (tracked : CeilingTracked k s) (h : SetFrame s t)
    (run : t.msq.ceilingRun = s.msq.ceilingRun) : CeilingTracked k t :=
  ⟨run.trans tracked.run, h.chain.marks k _ tracked.track, h.chain.phase.trans tracked.phase, h.kept tracked.kept⟩

theorem trackCompliance_ceilingRun (x : Measured) (s : State) :
    (trackCompliance x s).msq.ceilingRun = s.msq.ceilingRun := by
  unfold trackCompliance
  split
  · dsimp only
    split
    · split
      · rw [(setMark_frame _ _ _ _ _).msq]
      · rfl
    · rfl
  · rfl

theorem sampleCandidate_ceilingRun (fl : Flight) (exts : Option (Int × Int)) (x : Measured) (s : State) :
    (sampleCandidate fl exts x s).msq.ceilingRun = s.msq.ceilingRun := by
  unfold sampleCandidate offerLast
  split
  · dsimp only
    split
    · rw [(offer_frame _ _ _ _).msq]
    · rfl
  · rfl

section
variable {k : SlotId} {b : Bank} {q : Int}

/-- The motion sequencer's part of a set outside a quiesce and a start tare, the setpoint seated and nothing staged. -/
theorem CeilingDue.msqStep_track {x : Measured} {s : State} (due : CeilingDue k b q x.pos s) {fl : Flight}
    (quiesce : fl.quiesce = false) (tare : fl.tareSet = false) (exts : Option (Int × Int))
    (phase : s.ctx.phase = .test) (kept : NoFaultKept s) (unstaged : s.msq.inactive = none)
    (seated : s.msq.seat = false) : CeilingTracked k (msqStep fl x exts s) := by
  have none : ∀ g, s.msq.inactive ≠ some (.transition g) := fun g staged => nomatch unstaged.symm.trans staged
  have begun : firstSeat fl x (transitionFlip x (countSample s)) = countSample s := by
    rw [transitionFlip_unstaged (s := countSample s) none, firstSeat_seated fl x (s := countSample s) seated]
  have counted : CourseFrame s (countSample s) := .of_motion rfl id
  have tested := counted.trans (segmentTests_course fl x _)
  have keeps := tested.kept kept
  have course := tested.trans (drain_course (which := Report.isFracture) keeps)
  have chain := ((countSample_chain s).trans (segmentTests_chain fl x _)).trans
    (drain_set (which := Report.isFracture) keeps).1.chain
  have still := due.chain chain course
  have demanded := demandOf_tail fl x (drain Report.isFracture (segmentTests fl x (countSample s)))
  obtain ⟨run, track⟩ := still.demandOf_track quiesce tare
  have tracked : CeilingTracked k (demandOf fl x (drain Report.isFracture (segmentTests fl x (countSample s)))) :=
    ⟨run, track, (demanded.set.chain.phase.trans chain.phase).trans phase, demanded.set.kept (course.kept kept)⟩
  unfold msqStep
  simp only [begun, amendmentFlip_unamended still.unamended, quiesce]
  refine CeilingTracked.set ?_ (sampleCandidate_tail fl exts x _).set (sampleCandidate_ceilingRun _ _ _ _)
  refine CeilingTracked.set ?_ (trackCompliance_tail x _).set (trackCompliance_ceilingRun _ _)
  exact tracked.set (set_msq _ rfl rfl) rfl

/-- And the set from the load channel on. -/
theorem CeilingDue.sequenceSet_track {x : SampleSet} {conv : Option (BitVec 24)} {s₀ s : State}
    (due : CeilingDue k b q x.xh s) (quiet : quietSet x conv s₀ = true) (lch : s.lch = s₀.lch)
    (changeover : s.ctx.changeover = none) (noTare : s.lch.tareRun = none) (phase : s.ctx.phase = .test)
    (kept : NoFaultKept s) (unstaged : s.msq.inactive = none) (seated : s.msq.seat = false) (w : SetOrder) :
    CeilingTracked k (sequenceSet x conv w s).1 := by
  have quiesce : (loadStep x conv w s).2.quiesce = false := by
    show (lchConvert x conv w s).2.quiesce = false
    rw [lchConvert_quiesce, changeover]
    rfl
  have tare : (loadStep x conv w s).2.tareSet = false := by
    show (lchConvert x conv w s).2.tareSet = false
    rw [lchConvert_tareSet]
    simp [startTareRunning, noTare]
  have loaded := loadStep_set quiet lch noTare w
  have measured := loaded.trans (xchStep_set (loadStep x conv w s).2 _)
  have evaluated := measured.trans
    (evuStep_set (loadStep x conv w s).2 (xchStep (loadStep x conv w s).2 (loadStep x conv w s).1).2 _)
  have motion : (evuStep (loadStep x conv w s).2 (xchStep (loadStep x conv w s).2 (loadStep x conv w s).1).2
      (xchStep (loadStep x conv w s).2 (loadStep x conv w s).1).1).1.motion = s.motion := by
    rw [evuStep_motion, xchStep_motion, loadStep_motion quiet lch]
  have course := CourseFrame.of_motion motion evaluated.kept
  refine CeilingDue.msqStep_track (x := { pos := x.xh, .. }) (due.chain evaluated.chain course) quiesce tare _
    (evaluated.chain.phase.trans phase) (course.kept kept) (evaluated.inactive.trans unstaged) ?_
  rw [course.msq, seated]

end

/-- Settles O48: the set is quiet and outside a quiesce, so its sample counts the run to 200 and sets TRACK, and nothing
behind the sample takes either back or leaves TEST. -/
theorem theCeilingRunSetsTrack : Obligations.TheCeilingRunSetsTrack := by
  rintro conv w s x k b q q' raw power suits outputs nothing assembling quiet resident changeover noTare active unstaged
    seated target mode qSet run rfl rfl exceeds
  have phase : s.ctx.phase = .test := (suit_iff_view.1 suits).phase_of_test resident
  have residentSlot := residentSlot_eq_some.2 resident
  obtain ⟨u, counted⟩ := countSet_quiet quiet w
  have due : CeilingDue k b q x.xh { s with smu := u } :=
    { resident := residentSlot
      drive := by rw [outputs.1, phase]; rfl
      active := active
      unamended := fun c p staged => nomatch unstaged.symm.trans staged
      qSet := qSet, target := target, run := run, mode := mode
      exceeds := by
        rw [travelWindow_test (s := { s with smu := u }) resident]
        exact exceeds }
  have kept : NoFaultKept { s with smu := u } := fun kind report => by
    rw [show ({ s with smu := u } : State).ctx.transit = [] from nothing] at report
    cases report
  have sequenced := due.sequenceSet_track quiet rfl changeover noTare phase kept unstaged seated w
  have drained := sequenced.set (drain_set (which := fun _ => true) sequenced.kept).1
    (by rw [(drain_course sequenced.kept).msq])
  have still : (sequenceSet x conv w { s with smu := u }).2.quiesce = false := by
    show (lchConvert x conv w { s with smu := u }).2.quiesce = false
    rw [lchConvert_quiesce]
    exact congrArg Option.isSome changeover
  have set : completeSet conv w s = drain (fun _ => true) (sequenceSet x conv w { s with smu := u }).1 := by
    simp only [completeSet, withinSet, assembling, counted, runSet, quiesceSet, quiesceSample_of_motion still]
    exact autostartWith_of_test _ drained.phase
  have reached : ceilingReached conv w s = true := by
    simp [ceilingReached, run, afterSequencer, withinSet, assembling, counted, sequenced.run]
  refine ⟨completeSet conv w s, ?_, ?_⟩
  · show Host.Outcome.next (powered (setWhere ceilingReached conv w) s) = _
    simp [powered, power, setWhere, reached]
  · rw [set]
    exact ⟨drained.run, drained.track, drained.phase⟩

end Sys2Proof.Machine

/-! PROOFS about the blocks after a step (R84, R88 to R91, R98 to R101, R188, R189, R200, R204): every command but
those of the supply keeps the bounds of the part, those two leave the part within them, and the obligation from both. -/

namespace Sys2Proof.Machine

/-! ### The port unit's own rows -/

/-- An update of the port unit that leaves each queue and its attention line as they are. -/
theorem ptu_keeps (s : State) (u : Ptu) (fit : QueuesFit s → QueuesFit { s with ptu := u }) :
    Keeps s { s with ptu := u } :=
  keeps_of_view ⟨rfl, rfl, id, fit, id⟩ id

theorem ite_keeps {c : Prop} [Decidable c] {s t : State} (h : Keeps s t) : Keeps s (if c then t else s) := by
  split
  · exact h
  · exact .refl s

/-- The end of a reply leaves the queues alone (R197). -/
theorem sendReply_keeps (p : Port) (s : State) : Keeps s (sendReply p s) := by
  cases p with
  | supervisor => exact ite_keeps (ptu_keeps s _ fun ⟨sup, cell, pendant⟩ => ⟨replyDone_fits _ sup, cell, pendant⟩)
  | cell => exact ite_keeps (ptu_keeps s _ fun ⟨sup, cell, pendant⟩ => ⟨sup, replyDone_fits _ cell, pendant⟩)
  | pendant => exact ite_keeps (ptu_keeps s _ fun ⟨sup, cell, pendant⟩ => ⟨sup, cell, replyDone_fits _ pendant⟩)

/-! ### A command -/

/-- The part right after POWER_ON, with an empty stream and one event in each queue. -/
theorem initial_fits (nv : Nonvolatile) : StreamFits (State.initial nv) ∧ QueuesFit (State.initial nv) := by
  refine ⟨⟨?_, fun _ h => nomatch h⟩, ?_⟩
  · show 0 ≤ 2048
    decide
  · show QueueFits (PortState.afterReset _ _) ∧ QueueFits (PortState.afterReset _ _) ∧
      QueueFits (PortState.afterReset _ _)
    decide

/-- A part without supply holds no record and no event. -/
theorem unsupplied_fits (nv : Nonvolatile) : StreamFits (unsupplied nv) ∧ QueuesFit (unsupplied nv) := by
  refine ⟨(initial_fits nv).1, ?_⟩
  show QueueFits PortState.dark ∧ QueueFits PortState.dark ∧ QueueFits PortState.dark
  decide

/-- A request keeps the bounds of the part, whatever its answer. -/
theorem served_keeps (r : Request) (p : Port) (tag : Byte) (body : List Byte) (s : State) :
    Keeps s (request r p tag body (serveBody r p body) s) :=
  request_keeps r p tag body _ s (serveBody_keeps r p body)

/-- Every command keeps the bounds of the part, or it turns the supply on or off and leaves the part within them. -/
theorem exec_keeps (c : Instr) (s : State) :
    ∃ t, exec c s = .next t ∧ (Keeps s t ∨ StreamFits t ∧ QueuesFit t) := by
  cases c
  case loadHeader p tag body | load p tag body | promote p tag body | free p tag body | clearCondition p tag body |
      readRecords p tag body | move p tag body | zeroPosition p tag body | next p tag body | bind p tag body |
      release p tag body | jog p tag body | jogStop p tag body | hold p tag body | start p tag body |
      abort p tag body | resume p tag body | leave p tag body | tare p tag body | clear p tag body |
      amend p tag body | calOpen p tag body | calData p tag body | calCommit p tag body | calClose p tag body |
      calRead p tag body | readContext p tag body | getResults p tag body | status p tag body |
      getEvent p tag body | setEvents p tag body =>
    exact ⟨_, rfl, .inl (served_keeps _ p tag body s)⟩
  case reset p tag body =>
    exact ⟨_, rfl, .inl ((clockFrame_keeps p body s).trans (takeFrame_keeps _ _ _ _ _ (serveReset_keeps p tag body)))⟩
  case unknownRequest p tag code body | portBusyFrame p tag code body =>
    exact ⟨_, rfl, .inl ((clockFrame_keeps p body s).trans (frameArrives_keeps p tag code body _))⟩
  case frameDiscard p bytes | frameByteTimeout p bytes => exact ⟨_, rfl, .inl (feed_keeps _ p bytes s)⟩
  case cellReplyStart => exact ⟨_, rfl, .inl (ite_keeps (ptu_keeps s _ id))⟩
  case replySent p => exact ⟨_, rfl, .inl (ite_keeps (sendReply_keeps p s))⟩
  case sampleInstant levels order w => exact ⟨_, rfl, .inl (ite_keeps (takeInstant_keeps levels order w s))⟩
  case lineFilterSettle levels order w =>
    exact ⟨_, rfl, .inl (ite_keeps (ite_keeps (takeInstant_keeps levels order w s)))⟩
  case conversionArrival code late w =>
    refine ⟨_, rfl, .inl (ite_keeps ?_)⟩
    cases late
    · exact completeSet_keeps (some code) w s
    · exact .refl s
  case conversionMiss w => exact ⟨_, rfl, .inl (ite_keeps (missSet_keeps w s))⟩
  case streamFault w => exact ⟨_, rfl, .inl (ite_keeps (ite_keeps (missSet_keeps w s)))⟩
  case encoderTransition e m => exact ⟨_, rfl, .inl (ite_keeps (smu_keeps s _))⟩
  case tareComplete code w | startTareComplete code w =>
    exact ⟨_, rfl, .inl (powered_keeps _ s (setWhere_keeps _ (some code) w))⟩
  case removalTimeout conv w | segmentTimeEnd conv w | trackCeilingRun conv w | changeoverCompletion conv w |
      quiesceTimeout conv w | autostart conv w =>
    exact ⟨_, rfl, .inl (powered_keeps _ s (setWhere_keeps _ conv w))⟩
  case calWriteComplete => exact ⟨_, rfl, .inl (ite_keeps (completeWrite_keeps s))⟩
  case resetLine =>
    exact ⟨_, rfl, .inl (ite_keeps ((resetWait_keeps s s.ptu.resetWait false).trans (resetArrives_keeps .line _)))⟩
  case resetNHigh => exact ⟨_, rfl, .inl (ite_keeps (resetWait_keeps s s.ptu.resetWait true))⟩
  case powerOn => exact ⟨_, rfl, .inr (initial_fits s.cst.nv)⟩
  case powerLoss => exact ⟨_, rfl, .inr (unsupplied_fits s.cst.nv)⟩

/-- And so does every step. -/
theorem step_fits {s t : State} (run : step s = .next t) :
    (StreamFits s → StreamFits t) ∧ (QueuesFit s → QueuesFit t) := by
  unfold step at run
  split at run
  · cases run
    exact ⟨id, id⟩
  · rename_i c rest _
    obtain ⟨u, next, within⟩ := exec_keeps c { s with pending := rest }
    rw [next] at run
    cases run
    rcases within with keeps | ⟨stream, queues⟩
    · exact ⟨keeps.stream, keeps.fit⟩
    · exact ⟨fun _ => stream, fun _ => queues⟩

/-! ### The contexts and the blocks -/

/-- The lock, a running tare and the write window in the words of the obligation (R84, R88 to R91, R98 to R101). -/
theorem blocks_of_suit {s : State} (suit : ContextsSuit s) :
    (s.lch.lock = true ↔ s.ctx.phase = .test) ∧
    (∀ run, s.lch.tareRun = some run → run.kind = .start → s.ctx.phase = .test) ∧
    (∀ run p, s.lch.tareRun = some run → run.kind = .port p → s.ctx.phase = .idle ∨ s.ctx.phase = .service) ∧
    (s.cst.window ≠ .closed → s.cst.lock = false ∧ s.ctx.phase ≠ .test ∧ s.ctx.phase ≠ .service) := by
  obtain ⟨-, lock, -, tare, window⟩ := suit.blocks
  refine ⟨by simp [lock], fun run running kind => ?_, fun run p running kind => ?_, fun opened => ?_⟩
  · obtain ⟨_, _, _⟩ := run
    subst kind
    simpa [running, tareFits] using tare
  · obtain ⟨_, _, _⟩ := run
    subst kind
    simpa [running, tareFits] using tare
  · obtain ⟨unlocked, idle | safe⟩ := window opened
    · exact ⟨unlocked, by simp [idle], by simp [idle]⟩
    · exact ⟨unlocked, by simp [safe], by simp [safe]⟩

/-- Settles O3: the bounds by the rows of the table, the blocks by the agreement of the contexts, which is an
invariant. -/
theorem stepKeepsTheBlocks : Obligations.StepKeepsTheBlocks :=
  ⟨fun _ _ fits run => (step_fits run).1 fits, fun _ _ fits run => (step_fits run).2 fits,
   fun _ _ suits run => blocks_of_suit (contextsSuit_invariant.step suits run)⟩

end Sys2Proof.Machine

/-! PROOFS about TARE (R88) and the requests of the calibration store (R98 to R102): what each request's own function
answers by the check it comes to, and the obligations from the checks taken one after the other. -/

namespace Sys2Proof.Machine

/-- A request whose own function answers is answered so on a port that can take it and may send it. -/
theorem answers_of_serve {c : Instr} {r : Request} {p : Port} {tag : Byte} {body : List Byte}
    {serve : State → Reply × State} {reply : Reply} {s t : State} (take : CanTake p s) (sender : p ∈ senders r)
    (run : exec c s = .next (request r p tag body serve s)) (answer : serve (huntAgain p s) = (reply, t)) :
    Answers c s p r tag reply t := by
  show exec c s = _
  rw [run, request_taken take ((permitted_iff _ _).2 sender), answer]

/-! ### TARE (R88) -/

section
variable {p : Port} {s : State}

theorem serveTare_of_phase (idle : s.ctx.phase ≠ .idle) (service : s.ctx.phase ≠ .service) :
    serveTare p [] s = (Reply.only .state, s) := by
  simp [serveTare, readNone, idle, service]

variable (phase : s.ctx.phase = .idle ∨ s.ctx.phase = .service)
include phase

theorem serveTare_of_changeover (pending : s.ctx.changeover ≠ none) :
    serveTare p [] s = (Reply.only .changeover, s) := by
  rcases phase with phase | phase <;> simp [serveTare, readNone, phase, Option.isSome_iff_ne_none, pending]

variable (calm : s.ctx.changeover = none)
include calm

theorem serveTare_of_running (running : s.lch.tareRun ≠ none) : serveTare p [] s = (Reply.only .busy, s) := by
  rcases phase with phase | phase <;> simp [serveTare, readNone, phase, calm, Option.isSome_iff_ne_none, running]

variable (still : s.lch.tareRun = none)
include still

theorem serveTare_of_tables (missing : tablesProgrammed s.cst.work = false) :
    serveTare p [] s = (Reply.notReady .tables, s) := by
  rcases phase with phase | phase <;> simp [serveTare, readNone, phase, calm, still, missing]

theorem serveTare_accepted (tables : tablesProgrammed s.cst.work = true) :
    serveTare p [] s = (Reply.only .accepted,
      { s with lch := { s.lch with tareRun := some { kind := .port p, sum := 0, count := 0 } } }) := by
  rcases phase with phase | phase <;> simp [serveTare, readNone, phase, calm, still, tables]

end

/-- Settles O26: the checks of `serveTare` in their order, and the tare that runs where all of them pass. -/
theorem tareBegins : Obligations.TareBegins := by
  intro p tag s take sender
  have answers := fun {reply t} => answers_of_serve (c := .tare p tag []) (tag := tag) (reply := reply) (t := t) take
    sender rfl
  refine ⟨fun idle service => answers (serveTare_of_phase idle service), fun phase => ⟨fun pending => ?_,
    fun calm running => ?_, fun calm still missing => ?_, fun calm still tables => ?_⟩⟩
  · exact answers (serveTare_of_changeover phase pending)
  · exact answers (serveTare_of_running phase calm running)
  · exact answers (serveTare_of_tables phase calm still missing)
  · exact answers (serveTare_accepted phase calm still tables)

/-! ### CAL_OPEN (R99) -/

theorem tableOfCode_tableCode (t : TableId) : tableOfCode (tableCode t) = some t := by cases t <;> rfl

theorem tableOfCode_none {n : Nat} (h : 6 ≤ n) : tableOfCode n = none := by
  unfold tableOfCode
  split
  case h_7 => rfl
  all_goals omega

section
variable {p : Port} {n revision : Nat} {s : State}

theorem calOpen_of_lock (lock : s.cst.lock = true) : calOpen p n revision s = (Reply.only .locked, s) := by
  simp [calOpen, lock]

variable (unlocked : s.cst.lock = false)
include unlocked

theorem calOpen_of_window (opened : s.cst.window ≠ .closed) : calOpen p n revision s = (Reply.only .busy, s) := by
  simp [calOpen, unlocked, opened]

variable (closed : s.cst.window = .closed)
include closed

theorem calOpen_of_phase (other : s.ctx.phase ≠ .idle) : calOpen p n revision s = (Reply.only .state, s) := by
  simp [calOpen, unlocked, closed, other]

variable (idle : s.ctx.phase = .idle)
include idle

theorem calOpen_of_number (unknown : 6 ≤ n) : calOpen p n revision s = (malformed, s) := by
  simp [calOpen, unlocked, closed, idle, tableOfCode_none unknown]

/-- The last checks of R99, on the counter and on the revision that is quoted. -/
theorem calOpen_of_table (t : TableId) :
    calOpen p (tableCode t) revision s =
      if 4294967295 ≤ s.cst.nv.revision then (Reply.only .range, s)
      else if revision ≠ s.cst.nv.revision then (Reply.only .mismatch, lockStore s)
      else (Reply.only .ok, setWindow (.opened t p none) s) := by
  simp only [calOpen, unlocked, closed, idle, tableOfCode_tableCode]
  rfl

end

/-! ### CAL_DATA (R100) -/

section
variable {p : Port} {t : Option TableId} {content : List Byte} {s : State}

theorem calData_of_lock (lock : s.cst.lock = true) : calData p t content s = (Reply.only .locked, s) := by
  simp [calData, lock]

variable (unlocked : s.cst.lock = false)
include unlocked

theorem calData_of_closed (closed : s.cst.window = .closed) :
    calData p t content s = (Reply.only .locked, lockStore s) := by
  simp [calData, unlocked, closed]

theorem calData_of_writing {t0 : TableId} {q : Port} {c : TableContent} (writing : s.cst.window = .writing t0 q c) :
    calData p t content s = (Reply.only .busy, s) := by
  simp [calData, unlocked, writing]

variable {t0 : TableId} {q : Port} {buffer : Option TableContent} (opened : s.cst.window = .opened t0 q buffer)
include opened

theorem calData_of_other (other : p ≠ q) : calData p t content s = (Reply.only .notHolder, s) := by
  simp [calData, unlocked, opened, other]

variable (opener : p = q)
include opener

theorem calData_of_content (bad : acceptedContent t0 t content = none) : calData p t content s = (malformed, s) := by
  simp [calData, unlocked, opened, opener, bad]

theorem calData_accepted {c : TableContent} (good : acceptedContent t0 t content = some c) :
    calData p t content s = (Reply.only .ok, setWindow (.opened t0 q (some c)) s) := by
  simp [calData, unlocked, opened, opener, good]

end

/-- A content that names another table, or that the table's layout or ranges refuse, is not accepted. -/
theorem acceptedContent_none {t0 : TableId} {t : Option TableId} {content : List Byte}
    (bad : t ≠ some t0 ∨ ∀ c, readContent t0 content = some c → contentValid c = false) :
    acceptedContent t0 t content = none := by
  unfold acceptedContent
  split_ifs with named
  · have invalid := bad.resolve_left (not_not_intro named)
    split
    · rename_i c read
      rw [if_neg (by simp [invalid c read])]
    · rfl
  · rfl

theorem acceptedContent_some {t0 : TableId} {content : List Byte} {c : TableContent}
    (read : readContent t0 content = some c) (valid : contentValid c = true) :
    acceptedContent t0 (some t0) content = some c := by
  simp [acceptedContent, read, valid]

/-- Settles O31: the checks of `calOpen` and of `calData` in their order. -/
theorem theWriteWindowOpens : Obligations.TheWriteWindowOpens := by
  intro p tag body s take sender
  refine ⟨fun n revision read => ?_, fun t content read => ?_⟩
  · have answers : ∀ {reply u}, calOpen p n revision (huntAgain p s) = (reply, u) →
        Answers (.calOpen p tag body) s p .calOpen tag reply u := fun answer =>
      answers_of_serve take sender rfl (by simpa [serveCalOpen, read] using answer)
    refine ⟨fun lock => answers (calOpen_of_lock lock), fun unlocked opened =>
      answers (calOpen_of_window unlocked opened), fun unlocked closed => ⟨fun other =>
      answers (calOpen_of_phase unlocked closed other), fun idle unknown =>
      answers (calOpen_of_number unlocked closed idle unknown), ?_⟩⟩
    rintro idle t rfl
    have last := calOpen_of_table (p := p) (revision := revision) (s := huntAgain p s) unlocked closed idle t
    refine ⟨fun full => answers ?_, fun room other => answers ?_, fun room same => answers ?_⟩
    · rw [last, if_pos (by simpa using full)]
    · rw [last, if_neg (by simpa using room), if_pos (by simpa using other)]
      rfl
    · rw [last, if_neg (by simpa using room), if_neg (by simpa using same)]
      rfl
  · have answers : ∀ {reply u}, calData p t content (huntAgain p s) = (reply, u) →
        Answers (.calData p tag body) s p .calData tag reply u := fun answer =>
      answers_of_serve take sender rfl (by simpa [serveCalData, read] using answer)
    refine ⟨fun lock => answers (calData_of_lock lock), fun unlocked => ⟨fun closed =>
      answers (calData_of_closed unlocked closed), fun t0 q c writing =>
      answers (calData_of_writing unlocked writing), fun t0 q buffer opened => ⟨fun other =>
      answers (calData_of_other unlocked opened other), fun opener bad =>
      answers (calData_of_content unlocked opened opener (acceptedContent_none bad)), ?_⟩⟩⟩
    rintro opener rfl c read valid
    exact answers (calData_accepted (s := huntAgain p s) unlocked opened opener (acceptedContent_some read valid))

/-! ### CAL_COMMIT and CAL_CLOSE (R101, R102) -/

section
variable {p : Port} {s : State}

theorem serveCalCommit_of_lock (lock : s.cst.lock = true) : serveCalCommit p [] s = (Reply.only .locked, s) := by
  simp [serveCalCommit, readNone, lock]

theorem serveCalClose_of_lock (lock : s.cst.lock = true) : serveCalClose p [] s = (Reply.only .locked, s) := by
  simp [serveCalClose, readNone, lock]

variable (unlocked : s.cst.lock = false)
include unlocked

theorem serveCalCommit_of_closed (closed : s.cst.window = .closed) :
    serveCalCommit p [] s = (Reply.only .locked, lockStore s) := by
  simp [serveCalCommit, readNone, unlocked, closed]

theorem serveCalClose_of_closed (closed : s.cst.window = .closed) :
    serveCalClose p [] s = (Reply.only .state, s) := by
  simp [serveCalClose, readNone, unlocked, closed]

section
variable {t : TableId} {q : Port} {c : TableContent} (writing : s.cst.window = .writing t q c)
include writing

theorem serveCalCommit_of_writing : serveCalCommit p [] s = (Reply.only .busy, s) := by
  simp [serveCalCommit, readNone, unlocked, writing]

theorem serveCalClose_of_writing : serveCalClose p [] s = (Reply.only .busy, s) := by
  simp [serveCalClose, readNone, unlocked, writing]

end

variable {t : TableId} {q : Port} {buffer : Option TableContent} (opened : s.cst.window = .opened t q buffer)
include opened

theorem serveCalCommit_of_other (other : p ≠ q) : serveCalCommit p [] s = (Reply.only .notHolder, s) := by
  simp [serveCalCommit, readNone, unlocked, opened, other]

theorem serveCalClose_of_other (other : p ≠ q) : serveCalClose p [] s = (Reply.only .notHolder, s) := by
  simp [serveCalClose, readNone, unlocked, opened, other]

variable (opener : p = q)
include opener

theorem serveCalClose_accepted : serveCalClose p [] s = (Reply.only .ok, setWindow .closed s) := by
  simp [serveCalClose, readNone, unlocked, opened, opener]

theorem serveCalCommit_of_state (unready : s.ctx.phase ≠ .idle ∨ buffer = none) :
    serveCalCommit p [] s = (Reply.only .state, s) := by
  by_cases idle : s.ctx.phase = .idle
  · obtain rfl := unready.resolve_left (not_not_intro idle)
    simp [serveCalCommit, readNone, unlocked, opened, opener, idle]
  · simp [serveCalCommit, readNone, unlocked, opened, opener, idle]

theorem serveCalCommit_accepted (idle : s.ctx.phase = .idle) {c : TableContent} (filled : buffer = some c) :
    serveCalCommit p [] s = (Reply.only .accepted, beginWrite t q c s) := by
  simp [serveCalCommit, readNone, unlocked, opened, opener, idle, filled]

end

theorem tableBytes_clearTable_same (t : TableId) (x : Tables) : tableBytes (clearTable t x) t = none := by
  cases t <;> rfl

theorem tableBytes_clearTable_other {t u : TableId} (x : Tables) (h : u ≠ t) :
    tableBytes (clearTable t x) u = tableBytes x u := by
  revert h
  cases t <;> cases u <;> simp [tableBytes, clearTable]

/-- Settles O32: the checks of `serveCalCommit` and of `serveCalClose` in their order, and the mark that a write
clears. -/
theorem theWriteWindowCloses : Obligations.TheWriteWindowCloses := by
  intro p tag s take sender
  have commit := fun {reply u} => answers_of_serve (c := .calCommit p tag []) (r := .calCommit) (tag := tag)
    (reply := reply) (t := u) take sender rfl
  have close := fun {reply u} => answers_of_serve (c := .calClose p tag []) (r := .calClose) (tag := tag)
    (reply := reply) (t := u) take sender rfl
  refine ⟨fun lock => ⟨commit (serveCalCommit_of_lock lock), close (serveCalClose_of_lock lock)⟩, fun unlocked =>
    ⟨fun closed => ⟨commit (serveCalCommit_of_closed unlocked closed), close (serveCalClose_of_closed unlocked closed)⟩,
     fun t q c writing => ⟨commit (serveCalCommit_of_writing unlocked writing),
      close (serveCalClose_of_writing unlocked writing)⟩,
     fun t q buffer opened => ⟨fun other => ⟨commit (serveCalCommit_of_other unlocked opened other),
      close (serveCalClose_of_other unlocked opened other)⟩, fun opener =>
      ⟨close (serveCalClose_accepted unlocked opened opener), fun unready =>
       commit (serveCalCommit_of_state unlocked opened opener unready), fun idle c filled => ?_⟩⟩⟩⟩
  have accepted := serveCalCommit_accepted (s := huntAgain p s) unlocked opened opener idle filled
  exact ⟨beginWrite t q c (huntAgain p s), commit accepted, rfl, tableBytes_clearTable_same t _,
    fun u other => tableBytes_clearTable_other _ other⟩

/-! ### The completion of a write (R101, R103) -/

/-- A completed write, ahead of the reset that may have waited for it. -/
def writtenState (t : TableId) (q : Port) (c : TableContent) (s : State) : State :=
  raiseEvent (some q) (.calDone t (s.cst.nv.revision + 1)) { s with cst := writtenStore t c s.cst }

theorem writtenState_resetWait (t : TableId) (q : Port) (c : TableContent) (s : State) :
    (writtenState t q c s).ptu.resetWait = s.ptu.resetWait := by
  unfold writtenState
  rw [(raiseEvent_frame _ _ _).unit]

theorem completeWrite_of_writing {t : TableId} {q : Port} {c : TableContent} {s : State}
    (writing : s.cst.window = .writing t q c) : completeWrite s = deferredReset (writtenState t q c s) := by
  simp [completeWrite, writing, writtenState, writtenStore]

theorem completeWrite_of_none {s : State} (h : ∀ t q c, s.cst.window ≠ .writing t q c) : completeWrite s = s := by
  unfold completeWrite
  split
  · exact absurd ‹_› (h _ _ _)
  · rfl

theorem deferredReset_none {s : State} (h : s.ptu.resetWait = none) : deferredReset s = s := by
  simp [deferredReset, h]

theorem deferredReset_some {s : State} {cause : ResetCause} (h : s.ptu.resetWait = some cause) :
    deferredReset s = applyReset cause s := by
  simp [deferredReset, h]

/-- Settles O33: the store of a completed write, and the reset that its completion lets take effect. -/
theorem aWriteCompletes : Obligations.AWriteCompletes := by
  intro s power
  have run : exec .calWriteComplete s = .next (completeWrite s) := congrArg _ (if_pos power)
  refine ⟨fun t q c writing => ⟨writtenState t q c s, rfl, fun none => ?_, fun cause waits => ?_⟩, fun idle => ?_⟩
  · rw [run, completeWrite_of_writing writing, deferredReset_none (by rw [writtenState_resetWait, none])]
  · rw [run, completeWrite_of_writing writing, deferredReset_some (by rw [writtenState_resetWait, waits])]
  · rw [run, completeWrite_of_none idle]

end Sys2Proof.Machine

/-! PROOFS about the way of a set behind the load channel: each operation of the extension channel, the evaluation unit
and the motion sequencer leaves the sampling unit and the load channel as they are, and a start tare behind the test or
ahead of it. -/

namespace Sys2Proof.Machine

/-- A step on the way of a set behind the load channel.  Reports other than fractures stay among those kept back, and no
FAULT joins them. -/
structure WayFrame (s t : State) : Prop where
  chain : ChainFrame s t
  smu : t.smu = s.smu
  lch : t.lch = s.lch
  tareDone : t.live.map (·.rt.tareDone) = s.live.map (·.rt.tareDone)
  kept : ∀ r ∈ s.ctx.transit, r.isFracture = false → r ∈ t.ctx.transit
  faultless : NoFaultKept s → NoFaultKept t

namespace WayFrame

theorem refl (s : State) : WayFrame s s := ⟨.refl s, rfl, rfl, rfl, fun _ h _ => h, id⟩

theorem trans {s t u : State} (h : WayFrame s t) (g : WayFrame t u) : WayFrame s u where
  chain := h.chain.trans g.chain
  smu := g.smu.trans h.smu
  lch := g.lch.trans h.lch
  tareDone := g.tareDone.trans h.tareDone
  kept r x other := g.kept r (h.kept r x other) other
  faultless := g.faultless ∘ h.faultless

/-- A step of the chain that keeps no report back. -/
theorem of_chain {s t : State} (chain : ChainFrame s t) (smu : t.smu = s.smu) (lch : t.lch = s.lch)
    (tareDone : t.live.map (·.rt.tareDone) = s.live.map (·.rt.tareDone)) (transit : t.ctx.transit = s.ctx.transit) :
    WayFrame s t :=
  ⟨chain, smu, lch, tareDone, fun r h _ => by rwa [transit], fun h => by unfold NoFaultKept; rwa [transit]⟩

end WayFrame

theorem MarkFrame.way {s t : State} (h : MarkFrame s t) : WayFrame s t :=
  .of_chain h.chain h.smu h.lch (by rw [h.live]) h.transit

theorem way_xch (s : State) (x : Xch) : WayFrame s { s with xch := x } := .of_chain (chain_xch s x) rfl rfl rfl rfl

theorem way_liveMap (s : State) {f : Live → Live} (h : ∀ l, (f l).rt.tareDone = l.rt.tareDone) :
    WayFrame s { s with live := s.live.map f } :=
  .of_chain (chain_liveMap s f) rfl rfl (by simp [Function.comp_def, h]) rfl

theorem way_live {s : State} {l l' : Live} (live : s.live = some l) (h : l'.rt.tareDone = l.rt.tareDone) :
    WayFrame s { s with live := some l' } :=
  .of_chain (chain_live s _ (by simp [live])) rfl rfl (by simp [live, h]) rfl

/-- An update of the motion sequencer that keeps whether the banks are empty. -/
theorem way_msq (s : State) {m : Msq}
    (banks : (m.active.isSome || m.inactive.isSome) = (s.msq.active.isSome || s.msq.inactive.isSome)) :
    WayFrame s { s with msq := m } := .of_chain (chain_msq s m banks) rfl rfl rfl rfl

/-! ### Reports (R32) -/

/-- A report kept back, or taken at once with no more than a mark may do. -/
theorem post_way {keep : Bool} {r : Report} {s : State} (fault : ∀ kind, r ≠ .fault kind)
    (take : MarkFrame s (takeReport s r)) : WayFrame s (post keep r s) := by
  unfold post
  split
  · exact ⟨chain_transit s _, rfl, rfl, rfl, fun q h _ => List.mem_append_left _ h,
      (post_set (keep := true) fault take).kept⟩
  · exact take.way

theorem post_mark_way (keep : Bool) (k : SlotId) (m : Mark) (v : Int) (n : BitVec 32) (s : State) :
    WayFrame s (post keep (.mark k m v n) s) := post_way nofun (setMark_frame k m v n s)

theorem settleMark_way (fl : Flight) (s : State) : WayFrame s (settleMark fl s) := by
  unfold settleMark
  split
  · split
    · exact post_mark_way _ _ _ _ _ _
    · exact .refl s
  · exact .refl s

theorem overloadCheck_way (fl : Flight) (s : State) : WayFrame s (overloadCheck fl s) := by
  unfold overloadCheck
  split
  · split
    · exact post_mark_way _ _ _ _ _ _
    · exact .refl s
  · exact .refl s

/-! ### The extension channel -/

theorem removalTimedOut_way (fl : Flight) (s : State) : WayFrame s (removalTimedOut fl s) := by
  unfold removalTimedOut
  split
  · exact post_mark_way _ _ _ _ _ _
  · exact .refl s

theorem releasingStep_way (fl : Flight) (s : State) : WayFrame s (releasingStep fl s) := by
  unfold releasingStep
  dsimp only
  split
  · split
    · split
      · exact (way_xch s _).trans (removalTimedOut_way _ _)
      · exact way_xch s _
    · exact .refl s
  · exact (way_xch s _).trans (announceDetached_frame _ _ _ _).way

theorem channelStep_way (fl : Flight) (s : State) : WayFrame s (channelStep fl s).1 := by
  unfold channelStep
  split
  · split
    · exact way_xch s _
    · exact .refl s
  · split
    · exact way_xch s _
    · exact (way_xch s _).trans (announceDetached_frame _ _ _ _).way
  · split
    · exact .refl s
    · exact (way_xch s _).trans (announceDetached_frame _ _ _ _).way
  · exact releasingStep_way fl s

theorem lanesStep_way (fl : Flight) (captured : Bool) (s : State) : WayFrame s (lanesStep fl captured s).1 := by
  unfold lanesStep
  dsimp only
  split
  · split
    · exact way_xch s _
    · exact way_xch s _
  · exact way_xch s _

theorem handover_way (k : SlotId) (c : HandoverCause) (v ex : Int) (s : State) : WayFrame s (handover k c v ex s) := by
  have handed : WayFrame s { s with
      live := s.live.map fun l => { l with rt := { l.rt with source := .xhd, offset := some (sat32 (v - ex)) } } } :=
    way_liveMap s fun _ => rfl
  unfold handover
  dsimp only
  exact handed.trans ((raiseEvent_frame _ _ _).mark.trans (offerEvent_frame _ _ _ _ _ _)).way

theorem slipStep_way (fl : Flight) (f : LaneFacts) (ex : Int) (s : State) : WayFrame s (slipStep fl f ex s) := by
  have slipped : WayFrame s (if f.bad then setSlipped s else s) := by
    split
    · exact way_xch s _
    · exact .refl s
  unfold slipStep
  split
  · dsimp only
    split
    · split
      · exact .refl s
      · exact ((way_xch s _).trans (handover_way _ _ _ _ _)).trans (post_mark_way _ _ _ _ _ _)
    · exact slipped.trans (handover_way _ _ _ _ _)
    · exact slipped
  · exact slipped

theorem beginRemoval_way (k : SlotId) (e ex : Int) (s : State) : WayFrame s (beginRemoval k e ex s) :=
  (handover_way k .removal e ex s).trans (way_xch _ _)

theorem parkedWatch_way (s : State) : WayFrame s (parkedWatch s) := by
  refine .of_chain (parkedWatch_chain s) ?_ ?_ ?_ ?_ <;>
  · unfold parkedWatch
    split
    · split
      · split <;> rfl
      · rfl
    · rfl

theorem residentStrain_way (fl : Flight) (f : LaneFacts) (k : SlotId) (s : State) :
    WayFrame s (residentStrain fl f k s).1 := by
  have seat : WayFrame s (seatPosRef fl.set.xh s) := way_liveMap s fun _ => rfl
  have slip : ∀ ex, WayFrame s (slipStep fl f ex (seatPosRef fl.set.xh s)) := fun ex =>
    seat.trans (slipStep_way _ _ _ _)
  unfold residentStrain
  dsimp only
  split
  · exact slip _
  · split
    · exact (slip _).trans (beginRemoval_way _ _ _ _)
    · exact slip _

/-- A set at the extension channel (R113). -/
theorem xchStep_way (fl : Flight) (s : State) : WayFrame s (xchStep fl s).1 := by
  have lanes := (channelStep_way fl s).trans (lanesStep_way fl (channelStep fl s).2 _)
  unfold xchStep
  dsimp only
  split
  · exact lanes.trans ((residentStrain_way _ _ _ _).trans (parkedWatch_way _))
  · exact lanes.trans ((slipStep_way _ _ _ _).trans (parkedWatch_way _))

/-! ### The evaluation unit -/

theorem evaluate_way (fl : Flight) (x : XOut) (k : SlotId) {l : Live} (st : Int) {s : State} (live : s.live = some l) :
    WayFrame s (evaluate fl x k l st s) := by
  have eval : ∀ e, WayFrame s { s with live := some { l with rt := { l.rt with eval := e } } } :=
    fun e => way_live live rfl
  have announced : ∀ (e : Eval) (seen : Bool) (n : Nat), WayFrame s
      (if seen then announceYield k n e { s with live := some { l with rt := { l.rt with eval := e } } }
       else { s with live := some { l with rt := { l.rt with eval := e } } }) := by
    intro e seen n
    split
    · exact (eval e).trans (announceYield_frame _ _ _ _).way
    · exact eval e
  unfold evaluate
  dsimp only
  split
  · exact (announced _ _ _).trans (post_way nofun (takeFracture_frame _ _ _ _ _ _))
  · exact announced _ _ _

/-- A set at the evaluation unit (R129 to R131). -/
theorem evuStep_way (fl : Flight) (x : XOut) (s : State) : WayFrame s (evuStep fl x s).1 := by
  unfold evuStep
  split
  · rename_i live
    dsimp only
    split
    · exact evaluate_way _ _ _ _ live
    · exact .refl s
  · exact .refl s

/-! ### The motion sequencer ahead of the demand -/

theorem putSetpoint_way (m : Mode) (q : Int) (x : Measured) (s : State) : WayFrame s (putSetpoint m q x s) := by
  have put : WayFrame s { s with msq := { s.msq with qSet := some (heldSetpoint m (travelWindow s) q) } } :=
    way_msq s rfl
  exact put.trans (putSetpoint_frame m q x s).way

theorem seatSetpoint_way (b : Bank) (x : Measured) {s : State} (active : s.msq.active.isSome = true) :
    WayFrame s (seatSetpoint b x s) := by
  have seat : WayFrame s { s with msq := { s.msq with remainder := 0, seat := false } } := way_msq s rfl
  have put := seat.trans (putSetpoint_way b.mode (measuredQ b.mode x) x _)
  have banks := (putSetpoint_banks b.mode (measuredQ b.mode x) x
    { s with msq := { s.msq with remainder := 0, seat := false } }).1
  unfold seatSetpoint
  dsimp only
  split
  · refine put.trans (way_msq _ ?_)
    rw [banks]
    simp [active]
  · exact put

theorem transitionFlip_way (x : Measured) (s : State) : WayFrame s (transitionFlip x s) := by
  unfold transitionFlip
  split
  · rename_i b staged
    have flipped : WayFrame s { s with
        msq := { s.msq with active := some b, inactive := none }
        live := s.live.map fun l => { l with rt := { l.rt with elapsed := 0 } } } :=
      (way_msq (m := { s.msq with active := some b, inactive := none }) s (by simp [staged])).trans
        (way_liveMap _ fun _ => rfl)
    dsimp only
    split
    · exact flipped
    · exact flipped.trans (seatSetpoint_way _ _ rfl)
  · exact .refl s

theorem firstSeat_way (fl : Flight) (x : Measured) (s : State) : WayFrame s (firstSeat fl x s) := by
  unfold firstSeat
  split
  · rename_i active
    split
    · exact seatSetpoint_way _ _ (by simp [active])
    · exact .refl s
  · exact .refl s

theorem stagedNext_way (k : SlotId) (b : Bank) {s : State} (active : s.msq.active.isSome = true) :
    WayFrame s (stagedNext k b s) :=
  (way_msq (m := { s.msq with inactive := (bankOf (s.slot k).order (b.seg + 1)).map .transition }) s
    (by simp [active])).trans (way_liveMap _ fun _ => rfl)

theorem segmentEnd_way {k : SlotId} (b : Bank) {s : State} (active : s.msq.active.isSome = true)
    (resident : s.ctx.resident = some (.test k)) : WayFrame s (segmentEnd k b s) := by
  rcases lt_or_ge b.seg (s.slot k).order.segments.length with more | last
  · exact (stagedNext_way k b active).trans (segmentEnd_next_frame more).way
  · exact (segmentEnd_last_frame last resident).way

theorem holdPoint_way (k : SlotId) (x : Measured) (s : State) : WayFrame s (holdPoint k x s) := by
  unfold holdPoint
  dsimp only
  split
  · split
    · rename_i l live _
      have passed : WayFrame s { s with live := some { l with rt := { l.rt with holdPassed := true } } } :=
        way_live live rfl
      exact passed.trans (setMark_frame _ _ _ _ _).way
    · exact .refl s
  · exact .refl s

theorem endTest_way {k : SlotId} (x : Measured) {s : State} (resident : s.ctx.resident = some (.test k)) :
    WayFrame s (endTest k x s) := by
  unfold endTest
  split
  · rename_i active
    split
    · split
      · exact .refl s
      · exact segmentEnd_way _ (by simp [active]) resident
      · have backup := yieldBackup_frame k x s
        exact backup.way.trans (segmentEnd_way _ (by simp [backup.active, active]) (backup.resident.trans resident))
    · exact .refl s
  · exact .refl s

/-- Step 2 of R38. -/
theorem segmentTests_way (fl : Flight) (x : Measured) (s : State) : WayFrame s (segmentTests fl x s) := by
  unfold segmentTests
  split
  · rename_i k resident
    split
    · exact .refl s
    · have counted : WayFrame s (countElapsed s) := way_liveMap s fun _ => rfl
      have held := counted.trans (holdPoint_way k x _)
      exact held.trans (endTest_way x (held.chain.resident.trans (residentSlot_eq_some.1 resident)))
  · exact .refl s

/-- The fractures kept back are taken; every other report stays (R151). -/
theorem drainFractures_way (s : State) : WayFrame s (drain Report.isFracture s) := by
  have rest : WayFrame s { s with ctx := { s.ctx with transit := s.ctx.transit.filter (fun r => !r.isFracture) } } :=
    ⟨chain_transit s _, rfl, rfl, rfl, fun r h other => List.mem_filter.2 ⟨h, by simp [other]⟩,
     fun h kind x => h kind (List.mem_filter.1 x).1⟩
  refine rest.trans (foldl_takeReport_mark _ (fun kind h => ?_) _).1.way
  exact absurd (List.mem_filter.1 h).2 (by simp [Report.isFracture])

theorem amendmentFlip_way (s : State) : WayFrame s (amendmentFlip s) := by
  unfold amendmentFlip
  split
  · rename_i staged
    exact way_msq s (by simp [staged])
  · exact .refl s

/-! ### The demand and behind it -/

theorem advanceSetpoint_way {b : Bank} (q : Int) (x : Measured) {s : State} (active : s.msq.active = some b) :
    WayFrame s (advanceSetpoint b q x s) :=
  (way_msq (m := seatedMsq b q (travelWindow s) s.msq) s (by simp [seatedMsq, advancedMsq, active])).trans
    (advanceSetpoint_frame q x active).way

theorem demandSteps_way (b : Bank) (x : Measured) (s : State) : WayFrame s (demandSteps b x s) := by
  unfold demandSteps
  dsimp only
  refine WayFrame.trans (WayFrame.trans ?_ ((trackMark_frame _ _).trans (markTravel_frame _ _ _)).way) (way_msq _ rfl)
  exact way_msq s rfl

theorem quiesceDemand_way (b : Bank) (x : Measured) (s : State) : WayFrame s (quiesceDemand b x s) := by
  unfold quiesceDemand
  dsimp only
  refine WayFrame.trans (WayFrame.trans ?_ (markTravel_frame _ _ _).way) (way_msq _ rfl)
  exact way_msq s rfl

/-- The demand of a sample (3.2). -/
theorem demandOf_way (fl : Flight) (x : Measured) (s : State) : WayFrame s (demandOf fl x s) := by
  unfold demandOf
  split
  · rename_i active
    split
    · exact way_msq s rfl
    · split
      · exact quiesceDemand_way _ _ _
      · exact (advanceSetpoint_way _ _ active).trans (demandSteps_way _ _ _)
  · exact way_msq s rfl

theorem trackCompliance_way (x : Measured) (s : State) : WayFrame s (trackCompliance x s) := by
  unfold trackCompliance
  split
  · rename_i l _ live
    have tracked : ∀ (ring : List Triple) (kS kE : Int), WayFrame s { s with
        msq := { s.msq with ring := ring }
        live := some { l with rt := { l.rt with kS := kS, kE := kE } } } := fun ring kS kE =>
      (way_msq (m := { s.msq with ring := ring }) s rfl).trans (way_live (l := l) live rfl)
    dsimp only
    split
    · split
      · exact (tracked _ _ _).trans (setMark_frame _ _ _ _ _).way
      · exact tracked _ _ _
    · exact way_msq s rfl
  · exact .refl s

theorem offerLast_way (raises : Bool) (k : SlotId) (s : State) : WayFrame s (offerLast raises k s) := by
  unfold offerLast
  split
  · rename_i l live
    have cleared : WayFrame s { s with live := some { l with cand := none } } := way_live live rfl
    split
    · exact cleared.trans (offer_frame _ _ _ _).way
    · exact .refl s
  · exact .refl s

/-- The SAMPLE candidate of a sample (R182, R183). -/
theorem sampleCandidate_way (fl : Flight) (exts : Option (Int × Int)) (x : Measured) (s : State) :
    WayFrame s (sampleCandidate fl exts x s) := by
  unfold sampleCandidate
  split
  · rename_i l _ live
    have sampled : ∀ c t, WayFrame s { s with live := some { l with resumed := false, cand := c, latest := t } } :=
      fun _ _ => way_live live rfl
    dsimp only
    split
    · exact (sampled _ _).trans (offerLast_way _ _ _)
    · exact sampled _ _
  · exact .refl s

/-- A set at the motion sequencer (3.2). -/
theorem msqStep_way (fl : Flight) (x : Measured) (exts : Option (Int × Int)) (s : State) :
    WayFrame s (msqStep fl x exts s) := by
  have counted : WayFrame s (countSample s) := way_liveMap s fun _ => rfl
  have tested := ((counted.trans (transitionFlip_way x _)).trans (firstSeat_way fl x _)).trans (segmentTests_way fl x _)
  have demanded := ((tested.trans (drainFractures_way _)).trans (amendmentFlip_way _)).trans (demandOf_way fl x _)
  have still : ∀ u : State,
      WayFrame u (if fl.quiesce then { u with msq := stillStep u.frame.vStill u.msq } else u) := fun u => by
    split
    · exact way_msq u rfl
    · exact .refl u
  have position : ∀ u : State, WayFrame u { u with msq := trackPosition fl.set.xh u.msq } := fun u =>
    way_msq u (by simp [trackPosition])
  have moved := (demanded.trans (position _)).trans (still _)
  exact (moved.trans (trackCompliance_way x _)).trans (sampleCandidate_way fl exts x _)

/-- A set from the extension channel through the motion sequencer. -/
theorem sequenceSet_way (x : SampleSet) (conv : Option (BitVec 24)) (w : SetOrder) (s : State) :
    WayFrame (loadStep x conv w s).1 (sequenceSet x conv w s).1 := by
  unfold sequenceSet
  dsimp only
  exact ((xchStep_way _ _).trans (evuStep_way _ _ _)).trans (msqStep_way _ _ _ _)

end Sys2Proof.Machine

/-! PROOFS about what a set leaves as it was taken in: completions, FAULTs and starts, beside the blocks of the chain,
leave the sampling unit, the frame lines and what the load channel has decided, and lose no report. -/

namespace Sys2Proof.Machine

/-- A mark that a resume leaves its test (R29). -/
abbrev Lasting (m : Mark) : Prop := m ≠ .step ∧ m ≠ .holdpt ∧ m ≠ .rmfail

/-- What a report leaves when it is taken: a lasting mark in its slot, a FAULT in the fault set. -/
def Taken : Report → State → Prop
  | .mark k m _ _, t => Lasting m → m ∈ (t.slot k).marks
  | .fault kind, t => InFaults kind t
  | .fracture .., _ => True

/-- What the sampling unit, the frame lines and the load channel have taken in stands, the lock and a running tare
aside: the only tare that can begin is a start tare.  Lasting marks and FAULTs stay, and a report kept back stays so or
is taken. -/
structure SensorFrame (s t : State) : Prop where
  smu : t.smu = s.smu
  inForce : t.inForce = s.inForce
  lines : t.flu.lines = s.flu.lines
  lch : t.lch = { s.lch with lock := t.lch.lock, tareRun := t.lch.tareRun }
  tare : ∀ run, t.lch.tareRun = some run → s.lch.tareRun = some run ∨ run = { kind := .start, sum := 0, count := 0 }
  marks : ∀ k m, Lasting m → m ∈ (s.slot k).marks → m ∈ (t.slot k).marks
  faults : ∀ kind, InFaults kind s → InFaults kind t
  told : ∀ r ∈ s.ctx.transit, r ∈ t.ctx.transit ∨ Taken r t

namespace SensorFrame

theorem refl (s : State) : SensorFrame s s :=
  ⟨rfl, rfl, rfl, rfl, fun _ => .inl, fun _ _ _ => id, fun _ => id, fun _ => .inl⟩

theorem taken {s t : State} (h : SensorFrame s t) {r : Report} (x : Taken r s) : Taken r t := by
  cases r with
  | mark k m _ _ => exact fun lasting => h.marks k m lasting (x lasting)
  | fault kind => exact h.faults kind x
  | fracture => trivial

theorem trans {s t u : State} (h : SensorFrame s t) (g : SensorFrame t u) : SensorFrame s u where
  smu := g.smu.trans h.smu
  inForce := g.inForce.trans h.inForce
  lines := g.lines.trans h.lines
  lch := by rw [g.lch, h.lch]
  tare run x := (g.tare run x).elim (h.tare run) .inr
  marks k m lasting x := g.marks k m lasting (h.marks k m lasting x)
  faults kind x := g.faults kind (h.faults kind x)
  told r x := (h.told r x).elim (g.told r) fun y => .inr (g.taken y)

/-- An operation that leaves marks, faults and reports, and may end a tare or change the lock. -/
theorem of_same {s t : State} (smu : t.smu = s.smu) (inForce : t.inForce = s.inForce)
    (lines : t.flu.lines = s.flu.lines) (lch : t.lch = { s.lch with lock := t.lch.lock, tareRun := t.lch.tareRun })
    (tare : ∀ run, t.lch.tareRun = some run →
      s.lch.tareRun = some run ∨ run = { kind := .start, sum := 0, count := 0 })
    (marks : ∀ k m, Lasting m → m ∈ (s.slot k).marks → m ∈ (t.slot k).marks) (faults : t.flu.faults = s.flu.faults)
    (transit : t.ctx.transit = s.ctx.transit) : SensorFrame s t :=
  ⟨smu, inForce, lines, lch, tare, marks, fun _ h => by unfold InFaults; rwa [faults],
    fun _ h => .inl (by rwa [transit])⟩

end SensorFrame

theorem WayFrame.sensors {s t : State} (h : WayFrame s t) : SensorFrame s t where
  smu := h.smu
  inForce := h.chain.inForce
  lines := by rw [h.chain.flu]
  lch := by rw [h.lch]
  tare run x := .inl (by rwa [h.lch] at x)
  marks k m _ := h.chain.marks k m
  faults kind x := by unfold InFaults; rwa [h.chain.flu]
  told r x := by
    rcases fracture : r.isFracture with _ | _
    · exact .inl (h.kept r x fracture)
    · cases r with
      | fracture => exact .inr trivial
      | mark | fault => cases fracture

theorem MarkFrame.sensors {s t : State} (h : MarkFrame s t) : SensorFrame s t := h.way.sensors

theorem EventFrame.sensors {s t : State} (h : EventFrame s t) : SensorFrame s t := h.mark.sensors

/-! ### Phase and tares (R90, R91) -/

theorem dropTare_sensors (s : State) : SensorFrame s { s with lch := { s.lch with tareRun := none } } :=
  .of_same rfl rfl rfl rfl nofun (fun _ _ _ => id) rfl rfl

theorem abandonPortTare_sensors (s : State) : SensorFrame s (abandonPortTare s) := by
  unfold abandonPortTare
  split
  · exact (dropTare_sensors s).trans (raiseEvent_frame _ _ _).sensors
  · exact .refl s

theorem abandonStartTare_sensors (raises : Bool) (k : SlotId) (s : State) :
    SensorFrame s (abandonStartTare raises k s) := by
  unfold abandonStartTare
  split
  · exact (dropTare_sensors s).trans ((raiseEvent_frame _ _ _).mark.trans (offer_frame _ _ _ _)).sensors
  · exact .refl s

theorem beginStartTare_sensors (o : TestOrder) (rt : Runtime) (s : State) : SensorFrame s (beginStartTare o rt s) := by
  unfold beginStartTare
  split
  · refine .of_same rfl rfl rfl rfl (fun run begun => .inr ?_) (fun _ _ _ => id) rfl rfl
    cases begun
    rfl
  · exact .refl s

theorem setPhase_sensors (p : Phase) (s : State) : SensorFrame s (setPhase p s) := by
  have set : SensorFrame s { s with
      ctx := { s.ctx with phase := p }
      flu := { s.flu with drvEn := p == .test || p == .service } } :=
    .of_same rfl rfl rfl rfl (fun _ => .inl) (fun _ _ _ => id) rfl rfl
  unfold setPhase
  dsimp only
  split
  · exact set.trans (abandonPortTare_sensors _)
  · exact set

/-- A slot that changes keeps its lasting marks. -/
theorem marks_setSlot {s : State} {k : SlotId} {x : Slot}
    (marks : ∀ m, Lasting m → m ∈ (s.slot k).marks → m ∈ x.marks) (j : SlotId) (m : Mark) (lasting : Lasting m)
    (h : m ∈ (s.slot j).marks) : m ∈ ((s.setSlot k x).slot j).marks := by
  rw [State.slot_setSlot]
  split
  · rename_i same
    subst same
    exact marks m lasting h
  · exact h

/-! ### Completions (R22) -/

theorem leftTest_sensors (k : SlotId) (o : Option TestOutcome) (l : Live) (s : State) :
    SensorFrame s (leftTest k o l s) :=
  .of_same rfl rfl rfl rfl (fun _ => .inl) (marks_setSlot fun _ _ => id) rfl rfl

theorem leaveTest_sensors (k : SlotId) (o : Option TestOutcome) (s : State) : SensorFrame s (leaveTest k o s) := by
  rcases live : s.live with _ | l
  · unfold leaveTest
    rw [live]
    exact .refl s
  · exact (leftTest_sensors k o l s).trans (leaveTest_frame k o s l live).sensors

theorem mem_resumedMarks {m : Mark} {marks : List Mark} (lasting : Lasting m) (h : m ∈ marks) :
    m ∈ resumedMarks marks := by
  obtain ⟨step, holdpt, rmfail⟩ := lasting
  exact List.mem_filter.2 ⟨h, by simp [step, holdpt, rmfail]⟩

theorem handBack_sensors (k : SlotId) (rt : Runtime) (s : State) : SensorFrame s (handBack k rt s) :=
  .of_same rfl rfl rfl rfl (fun _ => .inl) (marks_setSlot fun _ lasting => mem_resumedMarks lasting) rfl rfl

theorem enterResumed_sensors (k : SlotId) (s : State) : SensorFrame s (enterResumed k s) := by
  unfold enterResumed
  split
  · exact .refl s
  · exact ((handBack_sensors _ _ s).trans (setPhase_sensors _ _)).trans (beginStartTare_sensors _ _ _)

theorem enterService_sensors (holder : Option Port) (s : State) : SensorFrame s (enterService holder s) := by
  refine SensorFrame.trans ?_ (setPhase_sensors _ _)
  exact .of_same rfl rfl rfl rfl (fun _ => .inl) (fun _ _ _ => id) rfl rfl

theorem enterIdle_sensors (s : State) : SensorFrame s (enterIdle s) := by
  refine SensorFrame.trans ?_ (setPhase_sensors _ _)
  exact .of_same rfl rfl rfl rfl (fun _ => .inl) (fun _ _ _ => id) rfl rfl

theorem enterIncoming_sensors (c : Changeover) (s : State) : SensorFrame s (enterIncoming c s) := by
  unfold enterIncoming
  split
  · exact (offerResume_frame _ s).sensors.trans (enterResumed_sensors _ _)
  · exact enterService_sensors _ s
  · exact .refl s
  · exact enterIdle_sensors s

/-- Only the pending changeover changes. -/
theorem changeover_sensors (s : State) (c : Option Changeover) :
    SensorFrame s { s with ctx := { s.ctx with changeover := c } } :=
  .of_same rfl rfl rfl rfl (fun _ => .inl) (fun _ _ _ => id) rfl rfl

theorem completeChangeover_sensors (c : Changeover) (s : State) : SensorFrame s (completeChangeover c s) := by
  have left : SensorFrame s (match c.outgoing with
      | .test k => leaveTest k (outcomeOf c) s
      | _ => s) := by
    split
    · exact leaveTest_sensors _ _ _
    · exact .refl s
  unfold completeChangeover
  dsimp only
  refine SensorFrame.trans ?_ ((announcePhase_frame _).trans (announceEnd_frame _ _ _)).sensors
  exact (left.trans (enterIncoming_sensors c _)).trans (changeover_sensors _ none)

theorem completePending_sensors (s : State) : SensorFrame s (completePending s) := by
  have owed : SensorFrame s (match s.residentSlot with
      | some k => abandonStartTare true k (offerLast true k s)
      | none => s) := by
    split
    · exact (offerLast_way _ _ s).sensors.trans (abandonStartTare_sensors _ _ _)
    · exact .refl s
  unfold completePending
  dsimp only
  split
  · exact owed.trans (completeChangeover_sensors _ _)
  · exact owed

/-! ### Faults (R23, R167) -/

theorem faultLeaves_sensors (m : Mark) (s : State) : SensorFrame s (faultLeaves m s) := by
  unfold faultLeaves
  split
  · exact ((offerLast_way _ _ s).sensors.trans (abandonStartTare_sensors _ _ _)).trans (leaveTest_sensors _ _ _)
  · exact .refl s

theorem faultClears_sensors (s : State) : SensorFrame s (faultClears s) := by
  unfold faultClears
  split
  · exact (changeover_sensors s none).trans (supersede_frame _ _).sensors
  · exact .refl s

theorem takeFault_sensors (m : Mark) (s : State) : SensorFrame s (takeFault m s) := by
  have safe : ∀ u : State, SensorFrame u (announcePhase (setPhase .safe { u with
      msq := restMsq u.msq
      ctx := { u.ctx with resident := some .safe, holder := none } })) := fun u => by
    refine SensorFrame.trans ?_ (announcePhase_frame _).sensors
    refine SensorFrame.trans ?_ (setPhase_sensors _ _)
    exact .of_same rfl rfl rfl rfl (fun _ => .inl) (fun _ _ _ => id) rfl rfl
  have taken := ((faultLeaves_sensors m s).trans (faultClears_sensors _)).trans (safe _)
  unfold takeFault
  dsimp only
  split
  · exact taken.trans (raiseEvent_frame _ _ _).sensors
  · exact taken

theorem enterFault_sensors (e : FaultEntry) (s : State) : SensorFrame s (enterFault e s) := by
  refine SensorFrame.trans ?_ (raiseEvent_frame _ _ _).sensors
  exact ⟨rfl, rfl, rfl, rfl, fun _ => .inl, fun _ _ _ => id,
    fun _ h => by simp only [InFaults, List.map_append]; exact List.mem_append_left _ h, fun _ => .inl⟩

theorem enterFault_entered (e : FaultEntry) (s : State) : InFaults e.kind (enterFault e s) := by
  simp [InFaults, enterFault]

/-- A fault report leaves its kind in the fault set (R167). -/
theorem faultReport_sensors (kind : FaultKind) (s : State) :
    SensorFrame s (faultReport kind s) ∧ InFaults kind (faultReport kind s) := by
  unfold faultReport
  split
  · rename_i known
    refine ⟨.refl s, ?_⟩
    obtain ⟨e, mem, same⟩ := List.any_eq_true.1 known
    exact List.mem_map.2 ⟨e, mem, by simpa using same⟩
  · split
    · exact ⟨enterFault_sensors _ s, enterFault_entered _ s⟩
    · have marked : ∀ u : State, SensorFrame u (match (faultEntry kind s).voided with
          | some (k, index) => setMark k (faultMark kind) 0 index u
          | none => u) := by
        intro u
        split
        · exact (setMark_frame _ _ _ _ _).sensors
        · exact .refl u
      have voided := (marked (enterFault (faultEntry kind s) s)).trans (takeFault_sensors (faultMark kind) _)
      exact ⟨(enterFault_sensors _ s).trans voided, voided.faults kind (enterFault_entered _ s)⟩

/-! ### Reports (R32) -/

/-- A report that is taken leaves what it reports. -/
theorem takeReport_sensors (s : State) (r : Report) : SensorFrame s (takeReport s r) ∧ Taken r (takeReport s r) := by
  cases r with
  | mark k m v n => exact ⟨(setMark_frame k m v n s).sensors, fun _ => mem_setMark k m v n s⟩
  | fracture k n c f fm => exact ⟨(takeFracture_frame k n c f fm s).sensors, trivial⟩
  | fault kind => exact faultReport_sensors kind s

theorem foldl_takeReport_sensors (l : List Report) (s : State) :
    SensorFrame s (l.foldl takeReport s) ∧ ∀ r ∈ l, Taken r (l.foldl takeReport s) := by
  induction l generalizing s with
  | nil => exact ⟨.refl s, nofun⟩
  | cons r l ih =>
    obtain ⟨first, taken⟩ := takeReport_sensors s r
    obtain ⟨rest, others⟩ := ih (takeReport s r)
    refine ⟨first.trans rest, fun q h => ?_⟩
    rcases List.mem_cons.1 h with rfl | h
    · exact rest.taken taken
    · exact others q h

/-- A report is taken, or kept back among the others. -/
theorem post_sensors (keep : Bool) (r : Report) (s : State) :
    SensorFrame s (post keep r s) ∧ (r ∈ (post keep r s).ctx.transit ∨ Taken r (post keep r s)) := by
  unfold post
  split
  · exact ⟨⟨rfl, rfl, rfl, rfl, fun _ => .inl, fun _ _ _ => id, fun _ => id,
      fun _ h => .inl (List.mem_append_left _ h)⟩,
      .inl (List.mem_append_right _ (List.mem_singleton_self r))⟩
  · obtain ⟨frame, taken⟩ := takeReport_sensors s r
    exact ⟨frame, .inr taken⟩

/-- The part with no report kept back. -/
def clearTransit (s : State) : State := { s with ctx := { s.ctx with transit := [] } }

theorem drainAll_eq (s : State) : drain (fun _ => true) s = s.ctx.transit.foldl takeReport (clearTransit s) := by
  simp [drain, clearTransit]

/-- At the end of a set every report kept back is taken. -/
theorem drainAll_sensors (s : State) :
    SensorFrame s (drain (fun _ => true) s) ∧ ∀ r ∈ s.ctx.transit, Taken r (drain (fun _ => true) s) := by
  obtain ⟨frame, taken⟩ := foldl_takeReport_sensors s.ctx.transit (clearTransit s)
  rw [drainAll_eq]
  exact ⟨⟨frame.smu, frame.inForce, frame.lines, frame.lch, frame.tare, frame.marks, frame.faults,
    fun r h => .inr (taken r h)⟩, taken⟩

/-! ### The end of a set (R17, R21) -/

theorem quiesceSample_sensors (fl : Flight) (s : State) : SensorFrame s (quiesceSample fl s) := by
  unfold quiesceSample
  split
  · split
    · have counted := changeover_sensors s
      dsimp only
      split
      · exact (counted _).trans (faultReport_sensors _ _).1
      · split
        · exact (counted _).trans (completePending_sensors _)
        · exact counted _
    · exact .refl s
  · exact .refl s

theorem startTest_sensors (k : SlotId) (s : State) : SensorFrame s (startTest k s) := by
  refine SensorFrame.trans ?_ (startTest_frame k s).sensors
  refine SensorFrame.trans ?_ (beginStartTare_sensors _ _ _)
  refine SensorFrame.trans ?_ (setPhase_sensors _ _)
  exact .of_same rfl rfl rfl rfl (fun _ => .inl) (marks_setSlot fun _ _ => id) rfl rfl

theorem autostartWith_sensors (f : Frame) (s : State) : SensorFrame s (autostartWith f s) := by
  unfold autostartWith
  split
  · split
    · exact startTest_sensors _ s
    · exact .refl s
  · exact .refl s

/-- Behind the load channel a set leaves what that has decided, and by its end every report has been taken. -/
theorem runSet_sensors (x : SampleSet) (conv : Option (BitVec 24)) (w : SetOrder) (s : State) :
    SensorFrame (loadStep x conv w s).1 (runSet x conv w s) ∧
    ∀ r ∈ (loadStep x conv w s).1.ctx.transit, Taken r (runSet x conv w s) := by
  have handled := (sequenceSet_way x conv w s).sensors.trans
    (quiesceSample_sensors (sequenceSet x conv w s).2 (sequenceSet x conv w s).1)
  obtain ⟨drained, taken⟩ := drainAll_sensors (quiesceSet x conv w s)
  have started := autostartWith_sensors (x.tables.frame.getD Frame.blank)
    (drain (fun _ => true) (quiesceSet x conv w s))
  refine ⟨(handled.trans drained).trans started, fun r h => started.taken ?_⟩
  exact (handled.told r h).elim (taken r) drained.taken

end Sys2Proof.Machine

/-! PROOFS about the encoders (R78, R79) and the frame lines (R159 to R161): the filter of each class, what an instant
leaves of a line that its filters have settled, and the obligation from both. -/

namespace Sys2Proof.Machine

/-! ### Encoders -/

theorem exec_encoderTransition (e : Encoder) (m : QuadMove) {s : State} (power : s.power = true) :
    exec (.encoderTransition e m) s = .next { s with smu := moveEncoder e m s.smu } :=
  congrArg _ (if_pos power)

theorem moveEncoder_crosshead (u : Smu) :
    moveEncoder .crosshead .extend u = { u with xh := sat32 (u.xh + 1) } ∧
    moveEncoder .crosshead .retract u = { u with xh := sat32 (u.xh - 1) } ∧
    moveEncoder .crosshead .both u = { u with xhErr := true } := by
  simp [moveEncoder, moveCount, quadError]

theorem moveEncoder_armA (u : Smu) :
    moveEncoder .armA .extend u = { u with armA := sat32 (u.armA + 1) } ∧
    moveEncoder .armA .retract u = { u with armA := sat32 (u.armA - 1) } ∧
    moveEncoder .armA .both u = { u with armAErr := true } := by
  simp [moveEncoder, moveCount, quadError]

theorem moveEncoder_armB (u : Smu) :
    moveEncoder .armB .extend u = { u with armB := sat32 (u.armB + 1) } ∧
    moveEncoder .armB .retract u = { u with armB := sat32 (u.armB - 1) } ∧
    moveEncoder .armB .both u = { u with armBErr := true } := by
  simp [moveEncoder, moveCount, quadError]

/-! ### The filters of a line -/

theorem class_of_state {fn : LineFn} :
    fn ∈ [LineFn.guard, .gripUp, .gripLo, .extSeated] → fn ≠ .unused ∧ faultClass fn = false := by
  cases fn <;> decide

theorem class_of_fault {fn : LineFn} :
    fn ∈ [LineFn.estop, .limitUp, .limitLo, .driveFault] → fn ≠ .unused ∧ faultClass fn = true := by
  cases fn <;> decide

/-- A function other than `unused` is of one of the two classes (7.2). -/
theorem class_of_used {fn : LineFn} :
    fn ≠ .unused → fn ∈ [LineFn.estop, .limitUp, .limitLo, .driveFault] ∨
      fn ∈ [LineFn.guard, .gripUp, .gripLo, .extSeated] := by
  cases fn <;> decide

theorem filterLine_state {c : LineCfg} (state : c.fn ∈ [LineFn.guard, .gripUp, .gripLo, .extSeated]) (level : Bool)
    (l : Line) :
    filterLine (some c) level l =
      if (level != c.activeLow) = l.filtered then { l with level := level, raw := level != c.activeLow, run := 0 }
      else if l.run + 1 < 4 then { l with level := level, raw := level != c.activeLow, run := l.run + 1 }
      else { level := level, raw := level != c.activeLow, filtered := level != c.activeLow, run := 0 } := by
  obtain ⟨used, fnClass⟩ := class_of_state state
  have filter : filterLine (some c) level l = filterState (level != c.activeLow) { l with level := level } := by
    simp [filterLine, used, fnClass]
  rw [filter]
  unfold filterState
  by_cases short : l.run + 1 < 4
  · simp [short, not_le.2 short]
  · simp [short, not_lt.1 short]

theorem filterLine_fault {c : LineCfg} (fault : c.fn ∈ [LineFn.estop, .limitUp, .limitLo, .driveFault]) (level : Bool)
    (l : Line) :
    filterLine (some c) level l =
      if (level != c.activeLow) = true then { level := level, raw := true, filtered := true, run := 0 }
      else if l.filtered = false then { l with level := level, raw := false }
      else if l.run + 1 < 4 then { l with level := level, raw := false, run := l.run + 1 }
      else { level := level, raw := false, filtered := false, run := 0 } := by
  obtain ⟨used, fnClass⟩ := class_of_fault fault
  have filter : filterLine (some c) level l = filterFault (level != c.activeLow) { l with level := level } := by
    simp [filterLine, used, fnClass]
  rw [filter]
  unfold filterFault
  rcases raw : (level != c.activeLow) with _ | _
  · by_cases short : l.run + 1 < 4
    · rcases l.filtered with _ | _ <;> simp [short, not_le.2 short]
    · rcases l.filtered with _ | _ <;> simp [short, not_lt.1 short]
  · rcases filtered : l.filtered with _ | _ <;> simp

/-- A line that carries a function, has a run count of 3 and differs once more takes its raw state. -/
theorem filterLine_settles {c : LineCfg} (used : c.fn ≠ .unused) {level : Bool} {l : Line} (run : l.run = 3)
    (differs : (level != c.activeLow) ≠ l.filtered) :
    filterLine (some c) level l =
      { level := level, raw := level != c.activeLow, filtered := level != c.activeLow, run := 0 } := by
  rcases class_of_used used with fault | state
  · rw [filterLine_fault fault]
    rcases raw : (level != c.activeLow) with _ | _
    · have active : l.filtered = true := by simpa [raw] using differs.symm
      simp [active, run]
    · simp
  · rw [filterLine_state state, if_neg differs, if_neg (by omega)]

theorem filterLines_getElem? (map : List LineCfg) (levels : BitVec 8) (n : Nat) (ls : List Line) (k : Nat) :
    (filterLines map levels n ls)[k]? = ls[k]?.map (filterLine map[n + k]? (levels.getLsbD (n + k))) := by
  induction ls generalizing n k with
  | nil => simp [filterLines]
  | cons l ls ih =>
    cases k with
    | zero => simp [filterLines]
    | succ k => simp [filterLines, ih, Nat.add_assoc, Nat.add_comm 1]

/-- With the line map as it was, no filter restarts (R176). -/
theorem restartChanged_self (map : List LineCfg) (n : Nat) (ls : List Line) : restartChanged map map n ls = ls := by
  induction ls generalizing n with
  | nil => rfl
  | cons l ls ih => simp [restartChanged, ih]

/-- A line whose filtered state turns at a run count of 3 is seen by the row that names it. -/
theorem runReaches4_of_line {map : List LineCfg} {levels : BitVec 8} {n k : Nat} {ls : List Line} {l : Line}
    (line : ls[k]? = some l) (run : l.run = 3)
    (turns : (filterLine map[n + k]? (levels.getLsbD (n + k)) l).filtered ≠ l.filtered) :
    runReaches4 map levels n ls = true := by
  induction ls generalizing n k with
  | nil => simp at line
  | cons l' ls ih =>
    cases k with
    | zero =>
      obtain rfl : l' = l := by simpa using line
      simp only [Nat.add_zero] at turns
      simp [runReaches4, run, turns]
    | succ k =>
      have later := ih (n := n + 1) (k := k) (by simpa using line) (by rwa [Nat.add_assoc, Nat.add_comm 1])
      simp [runReaches4, later]

/-! ### An instant (R75, R159) -/

theorem examineGuard_sensors (s : State) : SensorFrame s (examineGuard s) := by
  have report : ∀ (on : Bool) (kind : FaultKind) (u : State), SensorFrame u (if on then faultReport kind u else u) := by
    intro on kind u
    split
    · exact (faultReport_sensors kind u).1
    · exact .refl u
  unfold examineGuard
  split
  · exact (report _ _ s).trans (report _ _ _)
  · exact .refl s

/-- With no set waiting, the reports of an instant leave what the sensors have taken in. -/
theorem takeItem_sensors (w : SetOrder) (old : Tables) (before : State) {s : State} (waits : s.smu.assembling = none)
    (i : LineItem) : SensorFrame s (takeItem w old before s i) := by
  have line : ∀ fn kind, SensorFrame s (reportLine fn kind before s) := by
    intro fn kind
    unfold reportLine
    split
    · exact (faultReport_sensors kind s).1
    · exact .refl s
  cases i with
  | examine => exact examineGuard_sensors s
  | posLost =>
    show SensorFrame s (if s.smu.xhErr then faultReport .posLost s else s)
    split
    · exact (faultReport_sensors _ s).1
    · exact .refl s
  | missed =>
    show SensorFrame s (missAmong w old s)
    rw [missAmong_none waits]
    exact .refl s
  | estop | limitUp | limitLo | driveFault => exact line _ _

theorem foldl_takeItem_sensors (w : SetOrder) (old : Tables) (before : State) (items : List LineItem) {s : State}
    (waits : s.smu.assembling = none) : SensorFrame s (items.foldl (takeItem w old before) s) := by
  induction items generalizing s with
  | nil => exact .refl s
  | cons i items ih =>
    have first := takeItem_sensors w old before waits i
    exact first.trans (ih (by rw [first.smu, waits]))

/-- With no set waiting, the lines at an instant are the filters' (R159). -/
theorem takeInstant_lines (levels : BitVec 8) (order : List LineItem) (w : SetOrder) {s : State}
    (waits : s.smu.assembling = none) :
    (takeInstant levels order w s).flu.lines = filterLines (takeUp s).frame.map levels 0 (takeUp s).flu.lines := by
  have reports := foldl_takeItem_sensors w s.inForce (takeUp (tickClock s)) (order ++ allItems)
    (s := sampleLines levels (takeUp (tickClock s))) waits
  unfold takeInstant
  rw [missFirst_none waits]
  exact reports.lines

/-- Settles O39: the moves by their equations, the filters by class, and the row as the instant it names. -/
theorem countsAndLinesFollowTheirInputs : Obligations.CountsAndLinesFollowTheirInputs := by
  refine ⟨fun s power => ?_, fun c level l state => filterLine_state state level l,
    fun c level l fault => filterLine_fault fault level l, ?_⟩
  · simp only [exec_encoderTransition _ _ power, moveEncoder_crosshead, moveEncoder_armA, moveEncoder_armB, and_self]
  · intro levels order w s k c l power waits taken cfg line used run differs
    have frame : (takeUp s).frame = s.frame := by simp [State.frame, takeUp, taken]
    have lines : (takeUp s).flu.lines = s.flu.lines := by
      have map : (s.cst.work.frame.getD Frame.blank).map = s.frame.map := by rw [← taken]; rfl
      show restartChanged _ (s.cst.work.frame.getD Frame.blank).map 0 s.flu.lines = _
      rw [map, restartChanged_self]
    have settles := filterLine_settles used run differs
    have reaches : runReaches4 (takeUp s).frame.map levels 0 (takeUp s).flu.lines = true := by
      rw [frame, lines]
      refine runReaches4_of_line line run ?_
      rw [Nat.zero_add, cfg, settles]
      exact differs
    refine ⟨takeInstant levels order w s, ?_, congrArg _ (if_pos power), ?_⟩
    · show Host.Outcome.next (powered _ s) = _
      simp [powered, power, reaches]
    · rw [takeInstant_lines levels order w waits, frame, lines, filterLines_getElem?, line, Nat.zero_add, cfg]
      exact congrArg some settles

end Sys2Proof.Machine

/-! PROOFS about a set at the load channel (R77, R82, R85 to R93): the conversion, the tare that collects it, and what
the channel has decided when the whole set has passed. -/

namespace Sys2Proof.Machine

/-! ### The tare (R89, R91) -/

/-- The load channel when a tare completes (R89). -/
def taredLch (run : TareRun) (l : Lch) : Lch :=
  { l with
    tare := satForce (roundDiv run.sum 64)
    tareRun := none
    lastAfter := satForce (l.lastBefore - satForce (roundDiv run.sum 64)) }

/-- The run with the force of one more set (R89). -/
def TareRun.collected (run : TareRun) (before : Int) : TareRun :=
  { run with sum := run.sum + before, count := run.count + 1 }

/-- A resident test with its start tare behind it (R91). -/
def taredLive (l : Live) : Live := { l with rt := { l.rt with tareDone := true } }

theorem finishTare_port {run : TareRun} {p : Port} (kind : run.kind = .port p) (s : State) :
    EventFrame { s with lch := taredLch run s.lch } (finishTare run s) := by
  unfold finishTare
  rw [kind]
  exact raiseEvent_frame _ _ _

theorem finishTare_start {run : TareRun} {k : SlotId} {s : State} (kind : run.kind = .start)
    (resident : s.residentSlot = some k) :
    MarkFrame { s with lch := taredLch run s.lch, live := s.live.map taredLive } (finishTare run s) := by
  have slot : State.residentSlot { s with lch := taredLch run s.lch } = some k := resident
  unfold finishTare
  rw [kind]
  dsimp only
  split
  · rename_i h
    cases h
  · exact (raiseEvent_frame _ _ _).mark.trans (offerEvent_frame _ _ _ _ _ _)
  · rename_i none
    exact absurd (slot.symm.trans none) (by simp)

theorem finishTare_alone {run : TareRun} {s : State} (kind : run.kind = .start) (resident : s.residentSlot = none) :
    finishTare run s = { s with lch := taredLch run s.lch } := by
  have slot : State.residentSlot { s with lch := taredLch run s.lch } = none := resident
  unfold finishTare
  rw [kind]
  dsimp only
  split
  · rename_i h
    cases h
  · rename_i some
    exact absurd (slot.symm.trans some) (by simp)
  · rfl

/-- Only what the blocks hold live changes. -/
theorem live_sensors (s : State) (l : Option Live) : SensorFrame s { s with live := l } :=
  .of_same rfl rfl rfl rfl (fun _ => .inl) (fun _ _ _ => id) rfl rfl

/-- A tare that completes shows in the load channel and in the test alone. -/
theorem finishTare_sensors (run : TareRun) (s : State) :
    SensorFrame { s with lch := taredLch run s.lch } (finishTare run s) ∧
    (finishTare run s).lch = taredLch run s.lch := by
  rcases kind : run.kind with p | _
  · have told := finishTare_port kind s
    exact ⟨told.sensors, told.mark.lch⟩
  · rcases resident : s.residentSlot with _ | k
    · rw [finishTare_alone kind resident]
      exact ⟨.refl _, rfl⟩
    · have told := finishTare_start kind resident
      exact ⟨(live_sensors { s with lch := taredLch run s.lch } (s.live.map taredLive)).trans told.sensors, told.lch⟩

theorem collectTare_held {fl : Flight} (held : fl.held = true) (s : State) : collectTare fl s = s := by
  unfold collectTare
  split
  · simp [collects, held]
  · rfl

/-- A run that is one short completes with the set (R89). -/
theorem collectTare_completes {fl : Flight} {run : TareRun} {s : State} (running : s.lch.tareRun = some run)
    (collecting : collects run fl = true) (last : run.count = 63) :
    collectTare fl s = finishTare (run.collected fl.before) s := by
  simp [collectTare, running, collecting, last, Config.tareSamples, TareRun.collected]

/-- A run that is further short goes on. -/
theorem collectTare_goesOn {fl : Flight} {run : TareRun} {s : State} (running : s.lch.tareRun = some run)
    (short : run.count < 63) :
    collectTare fl s =
      { s with lch := { s.lch with
        tareRun := some (if collects run fl = true then run.collected fl.before else run) } } := by
  have more : ¬64 ≤ run.count + 1 := by omega
  rcases collecting : collects run fl with _ | _
  · have same : collectTare fl s = s := by simp [collectTare, running, collecting]
    rw [same, if_neg (by decide), ← running]
  · simp [collectTare, running, collecting, Config.tareSamples, more, TareRun.collected]

/-- What the load channel has decided on a set, the tare aside. -/
def Lch.decided (l : Lch) : Lch := { l with lock := false, tare := 0, tareRun := none, lastAfter := 0 }

theorem SensorFrame.decided {s t : State} (h : SensorFrame s t) : t.lch.decided = s.lch.decided := by
  rw [h.lch]
  rfl

/-- The tare shows in the load channel, beside what that has decided, and in the test alone. -/
theorem collectTare_sensors (fl : Flight) (s : State) :
    SensorFrame { s with lch := (collectTare fl s).lch } (collectTare fl s) ∧
    (collectTare fl s).lch.decided = s.lch.decided := by
  unfold collectTare
  split
  · rename_i run _
    split
    · dsimp only
      split
      · obtain ⟨frame, lch⟩ := finishTare_sensors (run.collected fl.before) s
        unfold TareRun.collected at frame lch
        rw [lch]
        exact ⟨frame, rfl⟩
      · exact ⟨.refl _, rfl⟩
    · exact ⟨.refl _, rfl⟩
  · exact ⟨.refl _, rfl⟩

/-- A tare that is two or more short leaves the force after tare. -/
theorem collectTare_lastAfter {fl : Flight} {s : State} (short : ∀ run, s.lch.tareRun = some run → run.count < 63) :
    (collectTare fl s).lch.lastAfter = s.lch.lastAfter := by
  rcases running : s.lch.tareRun with _ | run
  · simp [collectTare, running]
  · rw [collectTare_goesOn running (short run running)]

/-! ### The conversion (R82, R85 to R87, R93) -/

/-- The load channel after a valid conversion. -/
def convertedLch (x : SampleSet) (c : Int) (l : Lch) : Lch :=
  lchAfter l (validFlight l x c false false SetOrder.chain) c

theorem lchConvert_held {x : SampleSet} {conv : Option (BitVec 24)} (held : conv = none ∨ x.settling = true)
    (w : SetOrder) (s : State) : (lchConvert x conv w s).1 = s ∧ (lchConvert x conv w s).2.held = true := by
  unfold lchConvert
  dsimp only
  split
  · rename_i settling
    exact absurd held (by simp [settling])
  · exact ⟨rfl, rfl⟩

section
variable {x : SampleSet} (valid : x.settling = false) (code : BitVec 24) (w : SetOrder) (s : State)
include valid

theorem lchConvert_flight :
    (lchConvert x (some code) w s).2 =
      validFlight s.lch x (code24 code) (startTareRunning s) s.ctx.changeover.isSome w := by
  simp only [lchConvert, valid]

theorem lchConvert_state :
    (lchConvert x (some code) w s).1 =
      if hardAt x.tables x.range (code24 code) && !s.lch.hard then
        post w.faultLast (.fault .hardLoad) { s with lch := convertedLch x (code24 code) s.lch }
      else { s with lch := convertedLch x (code24 code) s.lch } := by
  simp only [lchConvert, valid]
  rfl

/-- A valid conversion shows in the load channel, and in a HARDLOAD that it may report. -/
theorem lchConvert_sensors :
    SensorFrame { s with lch := convertedLch x (code24 code) s.lch } (lchConvert x (some code) w s).1 := by
  rw [lchConvert_state valid]
  split
  · exact (post_sensors _ _ _).1
  · exact .refl _

/-- A hard overload that becomes active is reported (R93). -/
theorem lchConvert_reports (hard : hardAt x.tables x.range (code24 code) = true) (was : s.lch.hard = false) :
    Report.fault .hardLoad ∈ (lchConvert x (some code) w s).1.ctx.transit ∨
      Taken (.fault .hardLoad) (lchConvert x (some code) w s).1 := by
  rw [lchConvert_state valid, if_pos (by simp [hard, was])]
  exact (post_sensors _ _ _).2

/-- A quiet conversion reports nothing. -/
theorem lchConvert_quiet {s₀ : State} (quiet : quietSet x (some code) s₀ = true) (lch : s.lch = s₀.lch) :
    (lchConvert x (some code) w s).1 = { s with lch := convertedLch x (code24 code) s.lch } := by
  have calm : (hardAt x.tables x.range (code24 code) && !s.lch.hard) = false := by
    rw [lch]
    simpa [quietSet, valid, or_comm, imp_iff_not_or] using quiet
  rw [lchConvert_state valid, calm]
  rfl

end

/-! ### The load channel's part of a set -/

/-- The part when a set comes to the tare. -/
def convertedState (x : SampleSet) (conv : Option (BitVec 24)) (w : SetOrder) (s : State) : State :=
  settleMark (lchConvert x conv w s).2 (examineResumed (lchConvert x conv w s).1)

theorem loadStep_eq (x : SampleSet) (conv : Option (BitVec 24)) (w : SetOrder) (s : State) :
    loadStep x conv w s =
      (overloadCheck (lchConvert x conv w s).2 (collectTare (lchConvert x conv w s).2 (convertedState x conv w s)),
        (lchConvert x conv w s).2) := rfl

theorem convertedState_way (x : SampleSet) (conv : Option (BitVec 24)) (w : SetOrder) (s : State) :
    WayFrame (lchConvert x conv w s).1 (convertedState x conv w s) :=
  (examineResumed_frame _).way.trans (settleMark_way _ _)

/-- A held set leaves the load channel as it is (R82, R87). -/
theorem loadStep_held {x : SampleSet} {conv : Option (BitVec 24)} (held : conv = none ∨ x.settling = true)
    (w : SetOrder) (s : State) : WayFrame s (loadStep x conv w s).1 := by
  obtain ⟨state, flight⟩ := lchConvert_held held w s
  have converted := convertedState_way x conv w s
  rw [state] at converted
  rw [loadStep_eq, collectTare_held flight]
  exact converted.trans (overloadCheck_way _ _)

/-- The set when the tare has been served, and what is left of the load channel's part. -/
theorem loadStep_tared (x : SampleSet) (conv : Option (BitVec 24)) (w : SetOrder) (s : State) :
    WayFrame (collectTare (lchConvert x conv w s).2 (convertedState x conv w s)) (loadStep x conv w s).1 :=
  overloadCheck_way _ _

section
variable {x : SampleSet} (valid : x.settling = false) (code : BitVec 24) (w : SetOrder) (s : State)
include valid

theorem convertedState_sensors :
    SensorFrame { s with lch := convertedLch x (code24 code) s.lch } (convertedState x (some code) w s) :=
  (lchConvert_sensors valid code w s).trans (convertedState_way x (some code) w s).sensors

/-- Behind the conversion the load channel's part of a set leaves what has been decided on it. -/
theorem loadStep_decided :
    (loadStep x (some code) w s).1.lch.decided = (convertedLch x (code24 code) s.lch).decided ∧
    (loadStep x (some code) w s).1.smu = s.smu := by
  have converted := convertedState_sensors valid code w s
  obtain ⟨collected, decided⟩ := collectTare_sensors (lchConvert x (some code) w s).2 (convertedState x (some code) w s)
  have checked := (loadStep_tared x (some code) w s).sensors
  exact ⟨checked.decided.trans (decided.trans converted.decided),
    checked.smu.trans (collected.smu.trans converted.smu)⟩

/-- The force after tare that held sets will carry, unless a tare completes at the set. -/
theorem loadStep_lastAfter (short : ∀ run, s.lch.tareRun = some run → run.count < 63) :
    (loadStep x (some code) w s).1.lch.lastAfter = (convertedLch x (code24 code) s.lch).lastAfter := by
  have converted := convertedState_sensors valid code w s
  have running : ∀ run, (convertedState x (some code) w s).lch.tareRun = some run → run.count < 63 := by
    intro run h
    rcases converted.tare run h with before | rfl
    · exact short run before
    · decide
  rw [(loadStep_tared x (some code) w s).lch, collectTare_lastAfter running, converted.lch]

/-- A hard overload that becomes active is reported at the load channel (R93). -/
theorem loadStep_reports (hard : hardAt x.tables x.range (code24 code) = true) (was : s.lch.hard = false) :
    Report.fault .hardLoad ∈ (loadStep x (some code) w s).1.ctx.transit ∨
      Taken (.fault .hardLoad) (loadStep x (some code) w s).1 := by
  have reported := lchConvert_reports valid code w s hard was
  have converted := (convertedState_way x (some code) w s).sensors
  have collected := (collectTare_sensors (lchConvert x (some code) w s).2 (convertedState x (some code) w s)).1
  have checked := (loadStep_tared x (some code) w s).sensors
  rcases reported with kept | taken
  · exact (converted.told _ kept).elim (fun kept => (collected.trans checked).told _ kept)
      fun taken => .inr ((collected.trans checked).taken taken)
  · exact .inr ((collected.trans checked).taken (converted.taken taken))

end

/-- The resident test and its order stand at a quiet set's load channel. -/
theorem loadStep_quiet_chain {x : SampleSet} {conv : Option (BitVec 24)} {s₀ s : State}
    (quiet : quietSet x conv s₀ = true) (lch : s.lch = s₀.lch) (w : SetOrder) :
    ChainFrame s (collectTare (lchConvert x conv w s).2 (convertedState x conv w s)) :=
  ((lchConvert_set quiet lch w).chain.trans (convertedState_way x conv w s).chain).trans (collectTare_chain _ _)

/-! ### The whole set -/

theorem completeSet_eq {s : State} {x : SampleSet} (assembling : s.smu.assembling = some x)
    (conv : Option (BitVec 24)) (w : SetOrder) : completeSet conv w s = runSet x conv w (countSet conv w s) := by
  simp only [completeSet, withinSet, assembling]

/-- A report made at the load channel has been taken by the end of the set. -/
theorem runSet_taken {x : SampleSet} {conv : Option (BitVec 24)} {w : SetOrder} {s : State} {r : Report}
    (h : r ∈ (loadStep x conv w s).1.ctx.transit ∨ Taken r (loadStep x conv w s).1) : Taken r (runSet x conv w s) := by
  obtain ⟨frame, taken⟩ := runSet_sensors x conv w s
  exact h.elim (taken r) frame.taken

/-- With the contexts in agreement a fault in the fault set has the phase SAFE (R167). -/
theorem safe_of_inFaults {kind : FaultKind} {s : State} (suits : ContextsSuit s) (h : InFaults kind s) :
    s.ctx.phase = .safe := by
  refine suits.faults.1.1 fun none => ?_
  simp [InFaults, none] at h

end Sys2Proof.Machine

/-! PROOFS about a conversion that is missed (R77, R87) and one that arrives (R76, R81 to R86, R92, R93), and the
obligations on both. -/

namespace Sys2Proof.Machine

/-! ### A miss (R77) -/

/-- The sampling unit after a miss. -/
def missedSmu (u : Smu) : Smu :=
  { u with assembling := none, missRun := min 65535 (u.missRun + 1), delivered := 0 }

/-- A miss shows in the sampling unit, and in a STREAM that it may report. -/
theorem countMiss_sensors (w : SetOrder) (s : State) :
    SensorFrame { s with smu := missedSmu s.smu } (countMiss w s) := by
  unfold countMiss
  dsimp only
  split
  · exact (post_sensors _ _ _).1
  · exact .refl _

/-- The third miss of a run reports STREAM. -/
theorem countMiss_reports (w : SetOrder) {s : State} (third : s.smu.missRun = 2) :
    Report.fault .stream ∈ (countMiss w s).ctx.transit ∨ Taken (.fault .stream) (countMiss w s) := by
  unfold countMiss
  dsimp only
  rw [if_pos (by rw [third]; decide)]
  exact (post_sensors _ _ _).2

theorem missSet_sensors {s : State} {x : SampleSet} (assembling : s.smu.assembling = some x) (w : SetOrder) :
    SensorFrame { s with smu := missedSmu s.smu } (missSet w s) := by
  show SensorFrame _ (completeSet none w s)
  rw [completeSet_eq assembling]
  exact ((countMiss_sensors w s).trans (loadStep_held (.inl rfl) w _).sensors).trans (runSet_sensors _ _ _ _).1

theorem missSet_stream {s : State} {x : SampleSet} (assembling : s.smu.assembling = some x) (w : SetOrder)
    (third : s.smu.missRun = 2) : InFaults .stream (missSet w s) := by
  show InFaults .stream (completeSet none w s)
  rw [completeSet_eq assembling]
  have held := (loadStep_held (x := x) (.inl rfl) w (countMiss w s)).sensors
  have reported := (countMiss_reports w third).elim (held.told _) fun taken => .inr (held.taken taken)
  exact runSet_taken (r := .fault .stream) reported

theorem exec_conversionMiss (w : SetOrder) {s : State} (power : s.power = true) :
    exec (.conversionMiss w) s = .next (missSet w s) := congrArg _ (if_pos power)

theorem exec_sampleInstant (levels : BitVec 8) (order : List LineItem) (w : SetOrder) {s : State}
    (power : s.power = true) : exec (.sampleInstant levels order w) s = .next (takeInstant levels order w s) :=
  congrArg _ (if_pos power)

/-- Unless its order gives the set a place, an instant completes it as a miss ahead of everything else (R77). -/
theorem takeInstant_missSet (levels : BitVec 8) {order : List LineItem} (w : SetOrder) {s : State} {x : SampleSet}
    (assembling : s.smu.assembling = some x) (unplaced : LineItem.missed ∉ order) :
    takeInstant levels order w s = takeInstant levels order w (missSet w s) := by
  have missed := missSet_sensors assembling w
  have waits : (missSet w s).smu.assembling = none := by rw [missed.smu]; rfl
  have first : missFirst order w s = missSet w s := if_neg unplaced
  have inForce : (missSet w s).inForce = s.inForce := missed.inForce
  simp only [takeInstant, first, missFirst_none waits, inForce]

/-- Settles O41: the count of a miss, the held force behind it, and STREAM at the third. -/
theorem aConversionIsMissed : Obligations.AConversionIsMissed := by
  intro w s x power assembling
  have missed := missSet_sensors assembling w
  have run := exec_conversionMiss w power
  refine ⟨⟨_, run, missed.smu, ?_⟩, fun third suits => ?_, fun levels order u unplaced next => ?_⟩
  · rw [missed.lch]
    exact ⟨rfl, rfl, rfl, rfl⟩
  · have stream := missSet_stream assembling w third
    refine ⟨_, ?_, run, ?_, ?_, stream, safe_of_inFaults ((missSet_keeps w s).suit suits) stream⟩
    · show Host.Outcome.next (powered _ s) = _
      simp [powered, power, third]
    · rw [missed.smu]
      simp [missedSmu, third]
    · rw [missed.smu]
      rfl
  · cases run.symm.trans next
    have still : (missSet w s).power = true := (missSet_keeps w s).power.trans power
    rw [exec_sampleInstant levels order w power, exec_sampleInstant levels order w still,
      takeInstant_missSet levels w assembling unplaced]

/-! ### The conversion table (R85) -/

/-- On a table in order a code is converted on the segment that contains it, the first and the last extending. -/
theorem convertOn_segment {l : List LoadPoint} (sorted : l.Pairwise fun a b => a.count < b.count) {i : Nat}
    {p q : LoadPoint} {c : Int} (first : l[i]? = some p) (second : l[i + 1]? = some q) (above : i = 0 ∨ p.count ≤ c)
    (below : c < q.count ∨ l[i + 2]? = none) : convertOn c l = interpolate p q c := by
  induction l generalizing i with
  | nil => simp at first
  | cons a l ih =>
    obtain ⟨b, l, rfl⟩ : ∃ b l', l = b :: l' := by
      cases l with
      | nil => simp at second
      | cons b l' => exact ⟨b, l', rfl⟩
    cases i with
    | zero =>
      obtain rfl : a = p := by simpa using first
      obtain rfl : b = q := by simpa using second
      have here : (l.isEmpty || decide (c < b.count)) = true := by
        rcases below with below | last
        · simp [below]
        · have : l = [] := by simpa using last
          simp [this]
      rw [convertOn, if_pos here]
    | succ i =>
      have order := List.pairwise_cons.1 sorted
      have reached : p.count ≤ c := by simpa using above
      have from_b : b.count ≤ p.count := by
        cases i with
        | zero =>
          obtain rfl : b = p := by simpa using first
          exact le_rfl
        | succ i =>
          have later : p ∈ l := List.mem_of_getElem? (by simpa using first)
          exact ((List.pairwise_cons.1 order.2).1 p later).le
      have more : l ≠ [] := by
        rintro rfl
        simp at second
      have further : (l.isEmpty || decide (c < b.count)) = false := by
        simp [more]
        omega
      rw [convertOn, further]
      exact ih order.2 (by simpa using first) (by simpa using second) (.inr reached) (by simpa using below)

/-! ### Range and hard overload (R81, R83, R84, R93) -/

/-- A code at an end of the converter's scale (R83). -/
theorem saturated_iff (c : Int) : saturated c = true ↔ c = 8388607 ∨ c = -8388608 := by simp [saturated]

section
variable {t : Tables}

theorem fnomOf_frame {f : Frame} (frame : t.frame = some f) : fnomOf t = f.fnom := by simp [fnomOf, frame]

theorem forceBefore_unprogrammed (missing : tablesProgrammed t = false) (r : Range) (c : Int) :
    forceBefore t r c = 0 := by simp [forceBefore, missing]

theorem forceBefore_programmed (programmed : tablesProgrammed t = true) (r : Range) (c : Int) :
    forceBefore t r c = convertOn c (rangeTable t r) := if_pos programmed

theorem hardAt_unprogrammed (missing : tablesProgrammed t = false) (r : Range) (c : Int) :
    hardAt t r c = true ↔ saturated c = true ∧ r = .r1 := by simp [hardAt, missing]

theorem hardAt_programmed (programmed : tablesProgrammed t = true) {f : Frame} (frame : t.frame = some f) (r : Range)
    (c : Int) :
    hardAt t r c = true ↔ 105 * f.fnom < 100 * absI (forceBefore t r c) ∨ saturated c = true ∧ r = .r1 := by
  simp [hardAt, programmed, fnomOf_frame frame]

/-- A saturated code goes one step toward range 1, whatever the tables (R83). -/
theorem decideRange_saturated (lock : Bool) (r : Range) {c : Int} (ends : saturated c = true) (outer : r ≠ .r1) :
    decideRange t lock r c = rangeUp r := by simp [decideRange, ends, outer]

theorem decideRange_unprogrammed (missing : tablesProgrammed t = false) (lock : Bool) (r : Range) {c : Int}
    (stays : saturated c = false ∨ r = .r1) : decideRange t lock r c = r := by
  have inner : (saturated c && r != .r1) = false := by simpa [or_comm, imp_iff_not_or] using stays
  simp [decideRange, inner, missing]

variable (programmed : tablesProgrammed t = true) {f : Frame} (frame : t.frame = some f) (lock : Bool) (c : Int)
include programmed frame

theorem decideRange_r1 :
    (decideRange t lock .r1 c = .r2 ↔ lock = false ∧ 100 * absI (forceBefore t .r1 c) < 16 * f.fnom) ∧
    decideRange t lock .r1 c ≠ .r3 := by
  have decision : decideRange t lock .r1 c =
      if lock = false ∧ 100 * absI (forceBefore t .r1 c) < 16 * f.fnom then .r2 else .r1 := by
    simp [decideRange, programmed, fnomOf_frame frame]
  rw [decision]
  split_ifs with small <;> simp [small]

theorem decideRange_r2 :
    (decideRange t lock .r2 c = .r1 ↔ saturated c = true ∨ 18 * f.fnom < 100 * absI (forceBefore t .r2 c)) ∧
    (decideRange t lock .r2 c = .r3 ↔ ¬saturated c = true ∧ ¬18 * f.fnom < 100 * absI (forceBefore t .r2 c) ∧
      lock = false ∧ 1000 * absI (forceBefore t .r2 c) < 32 * f.fnom) := by
  rcases ends : saturated c with _ | _
  · have decision : decideRange t lock .r2 c =
        if 18 * f.fnom < 100 * absI (forceBefore t .r2 c) then .r1
        else if lock = false ∧ 1000 * absI (forceBefore t .r2 c) < 32 * f.fnom then .r3 else .r2 := by
      simp [decideRange, programmed, fnomOf_frame frame, ends]
    rw [decision]
    split_ifs with great small
    · simp [great]
    · simp [great, small]
    · simp [great, small]
  · rw [decideRange_saturated lock .r2 ends (by decide)]
    simp [rangeUp]

theorem decideRange_r3 :
    (decideRange t lock .r3 c = .r2 ↔ saturated c = true ∨ 36 * f.fnom < 1000 * absI (forceBefore t .r3 c)) ∧
    decideRange t lock .r3 c ≠ .r1 := by
  rcases ends : saturated c with _ | _
  · have decision : decideRange t lock .r3 c =
        if 36 * f.fnom < 1000 * absI (forceBefore t .r3 c) then .r2 else .r3 := by
      simp [decideRange, programmed, fnomOf_frame frame, ends]
    rw [decision]
    split_ifs with great <;> simp [great]
  · rw [decideRange_saturated lock .r3 ends (by decide)]
    simp [rangeUp]

end

/-! ### A set with a valid conversion -/

/-- What the load channel has decided on a valid conversion, in terms of its set (R81 to R85, R93). -/
structure Arrived (x : SampleSet) (c : Int) (lock : Bool) (l : Lch) : Prop where
  lastBefore : l.lastBefore = forceBefore x.tables x.range c
  lastRange : l.lastRange = x.range
  range : l.range = decideRange x.tables lock x.range c
  settleNext : l.settleNext = (l.range != x.range)
  hard : l.hard = hardAt x.tables x.range c

theorem arrived_of_decided {x : SampleSet} {c : Int} {l t : Lch} (h : t.decided = (convertedLch x c l).decided) :
    Arrived x c l.lock t := by
  have range : t.range = decideRange x.tables l.lock x.range c := (congrArg Lch.range h :)
  exact ⟨(congrArg Lch.lastBefore h :), (congrArg Lch.lastRange h :), range,
    by rw [range]; exact (congrArg Lch.settleNext h :), (congrArg Lch.hard h :)⟩

theorem arriveSet_eq {s : State} {x : SampleSet} (assembling : s.smu.assembling = some x) (code : BitVec 24)
    (w : SetOrder) : arriveSet code w s = runSet x (some code) w (countArrival s) := completeSet_eq assembling _ _

/-- Whatever its conversion, a set whose word arrives is counted as delivered (R76). -/
theorem arriveSet_smu {s : State} {x : SampleSet} (assembling : s.smu.assembling = some x) (code : BitVec 24)
    (w : SetOrder) : (arriveSet code w s).smu = (countArrival s).smu := by
  rw [arriveSet_eq assembling]
  have passed := (runSet_sensors x (some code) w (countArrival s)).1
  rcases settling : x.settling with _ | _
  · exact passed.smu.trans (loadStep_decided settling code w _).2
  · exact passed.smu.trans (loadStep_held (.inr settling) w _).smu

/-- A settling conversion is discarded (R82). -/
theorem arriveSet_settling {s : State} {x : SampleSet} (assembling : s.smu.assembling = some x)
    (settling : x.settling = true) (code : BitVec 24) (w : SetOrder) :
    (arriveSet code w s).lch.decided = s.lch.decided := by
  rw [arriveSet_eq assembling]
  exact (runSet_sensors x (some code) w (countArrival s)).1.decided.trans
    (loadStep_held (.inr settling) w _).sensors.decided

section
variable {s : State} {x : SampleSet} (assembling : s.smu.assembling = some x) (valid : x.settling = false)
  (code : BitVec 24) (w : SetOrder)
include assembling valid

theorem arriveSet_arrived : Arrived x (code24 code) s.lch.lock (arriveSet code w s).lch := by
  rw [arriveSet_eq assembling]
  exact arrived_of_decided ((runSet_sensors x (some code) w (countArrival s)).1.decided.trans
    (loadStep_decided valid code w _).1)

/-- The force after tare that held sets will carry (R86). -/
theorem arriveSet_lastAfter (short : ∀ run, s.lch.tareRun = some run → run.count < 63) :
    (arriveSet code w s).lch.lastAfter = forceOf x (some code) s := by
  have carried := loadStep_lastAfter valid code w (countArrival s) short
  have passed := (runSet_sensors x (some code) w (countArrival s)).1
  have force : forceOf x (some code) s = (convertedLch x (code24 code) s.lch).lastAfter := by
    simp only [forceOf, valid]
    rfl
  rw [arriveSet_eq assembling, passed.lch, force]
  exact carried

/-- A hard overload that becomes active has HARDLOAD in the fault set (R93). -/
theorem arriveSet_hardLoad (was : s.lch.hard = false) (now : (arriveSet code w s).lch.hard = true) :
    InFaults .hardLoad (arriveSet code w s) := by
  have hard := (arriveSet_arrived assembling valid code w).hard.symm.trans now
  rw [arriveSet_eq assembling]
  exact runSet_taken (r := .fault .hardLoad) (loadStep_reports valid code w (countArrival s) hard was)

/-- A force above `F_lim` sets OVERLOAD in the resident test of a quiet set (R92). -/
theorem arriveSet_overload {k : SlotId} (resident : s.ctx.resident = some (.test k))
    (quiet : quietSet x (some code) s = true) (exceeds : (s.slot k).order.fLim < absI (forceOf x (some code) s)) :
    Mark.overload ∈ ((arriveSet code w s).slot k).marks := by
  have chain := loadStep_quiet_chain (s := countArrival s) quiet rfl w
  have flight := lchConvert_flight valid code w (countArrival s)
  have slot : State.residentSlot _ = some k := residentSlot_eq_some.2 (chain.resident.trans resident)
  have after : (lchConvert x (some code) w (countArrival s)).2.after = forceOf x (some code) s := by
    rw [flight]
    simp only [forceOf, valid]
    rfl
  have held : (lchConvert x (some code) w (countArrival s)).2.held = false := by rw [flight]; rfl
  rw [arriveSet_eq assembling]
  have reported : ∃ v n, Report.mark k .overload v n ∈ (loadStep x (some code) w (countArrival s)).1.ctx.transit ∨
      Taken (.mark k .overload v n) (loadStep x (some code) w (countArrival s)).1 := by
    rw [loadStep_eq]
    unfold overloadCheck
    rw [slot]
    dsimp only
    rw [if_pos]
    · exact ⟨_, _, (post_sensors _ _ _).2⟩
    · have limit : ((countArrival s).slot k).order.fLim < absI (forceOf x (some code) s) := exceeds
      rw [held, after, chain.order k]
      simpa using limit
  obtain ⟨v, n, report⟩ := reported
  exact runSet_taken report (by decide)

end

theorem exec_conversionArrival (code : BitVec 24) (late : Bool) (w : SetOrder) {s : State} (power : s.power = true) :
    exec (.conversionArrival code late w) s = .next (if late then s else arriveSet code w s) :=
  congrArg _ (if_pos power)

/-- The force after tare in the words of the obligation (R86). -/
theorem forceOf_valid {x : SampleSet} (valid : x.settling = false) (code : BitVec 24) (s : State) :
    forceOf x (some code) s =
      if tablesProgrammed x.tables = true then
        clamp (-2147483647) 2147483647 (forceBefore x.tables x.range (code24 code) - s.lch.tare)
      else 0 := by
  simp only [forceOf, valid]
  rfl

/-- The range of a saturated code with no tables (R83). -/
theorem decideRange_ends {t : Tables} (missing : tablesProgrammed t = false) (lock : Bool) (r : Range) {c : Int}
    (ends : saturated c = true) :
    decideRange t lock r c = (match r with | .r3 => .r2 | .r2 => .r1 | .r1 => .r1) := by
  cases r with
  | r1 => exact decideRange_unprogrammed missing lock .r1 (.inr rfl)
  | r2 | r3 => exact decideRange_saturated lock _ ends (by decide)

/-- Settles O40: what the load channel decides on the set stands to its end, and what it reports has been taken by
then. -/
theorem aConversionArrives : Obligations.AConversionArrives := by
  intro code w s power
  refine ⟨exec_conversionArrival code true w power, fun x assembling => ⟨arriveSet code w s,
    exec_conversionArrival code false w power, arriveSet_smu assembling code w, fun valid => ?_, fun valid => ⟨?_, ?_⟩,
    fun settling => ?_⟩⟩
  · rintro c F ends rfl rfl scale
    have arrived := arriveSet_arrived assembling valid code w
    have sat : saturated (code24 code) = true ↔ ends := (saturated_iff _).trans scale.symm
    rw [arrived.lastBefore, arrived.settleNext, arrived.hard, arrived.range]
    refine ⟨arrived.lastRange, by simp, fun missing => ⟨forceBefore_unprogrammed missing _ _, ?_, fun inner => ?_,
      fun outer => decideRange_ends missing _ _ (sat.2 outer)⟩, fun f programmed frame => ⟨?_, ?_, ?_, ?_, ?_⟩⟩
    · rw [hardAt_unprogrammed missing, sat]
    · exact decideRange_unprogrammed missing _ _ (.inl (by simpa [← sat] using inner))
    · intro i p q sorted first second above below
      rw [forceBefore_programmed programmed]
      exact convertOn_segment sorted first second above below
    · rw [hardAt_programmed programmed frame, sat]
    · intro r1
      rw [r1]
      exact decideRange_r1 programmed frame _ _
    · intro r2
      rw [r2, ← sat]
      exact decideRange_r2 programmed frame _ _
    · intro r3
      rw [r3, ← sat]
      exact decideRange_r3 programmed frame _ _
  · rintro after force
    rw [(arriveSet_arrived assembling valid code w).lastBefore, ← forceOf_valid valid] at force
    subst force
    exact ⟨arriveSet_lastAfter assembling valid code w, fun k resident quiet exceeds =>
      arriveSet_overload assembling valid code w resident quiet exceeds⟩
  · intro suits was now
    have hard := arriveSet_hardLoad assembling valid code w was now
    exact ⟨hard, safe_of_inFaults ((arriveSet_keeps code w s).suit suits) hard⟩
  · have held := arriveSet_settling assembling settling code w
    exact ⟨(congrArg Lch.lastBefore held :), (congrArg Lch.lastRange held :), (congrArg Lch.range held :),
      (congrArg Lch.settleNext held :), (congrArg Lch.hard held :)⟩

end Sys2Proof.Machine

/-! PROOFS about the completion of a tare (R89, R91): the sixty-fourth force at the load channel, the tare that stands
to the end of its set, and the obligation on port tare and start tare. -/

namespace Sys2Proof.Machine

/-! ### The sixty-fourth force -/

/-- The tare that the force of a set completes (R89). -/
abbrev completedTare (x : SampleSet) (code : BitVec 24) (sum : Int) : Int :=
  satForce (roundDiv (sum + forceBefore x.tables x.range (code24 code)) 64)

section
variable {x : SampleSet} (valid : x.settling = false) (code : BitVec 24) (w : SetOrder) {s₀ s : State}
  (quiet : quietSet x (some code) s₀ = true) (lch : s.lch = s₀.lch)
include valid quiet lch

/-- A tare still runs when a quiet set comes to it. -/
theorem convertedState_tareRun : (convertedState x (some code) w s).lch.tareRun = s.lch.tareRun := by
  rw [(convertedState_way x (some code) w s).lch, lchConvert_quiet valid code w s quiet lch]
  rfl

/-- The set that is not held completes a tare that is one short, unless that is a start tare in a quiesce (R89, R91). -/
theorem collectTare_sixtyFour {run : TareRun} (running : s.lch.tareRun = some run) (last : run.count = 63)
    (outside : run.kind = .start → s.ctx.changeover = none) :
    collectTare (lchConvert x (some code) w s).2 (convertedState x (some code) w s) =
      finishTare (run.collected (forceBefore x.tables x.range (code24 code))) (convertedState x (some code) w s) := by
  have collecting : collects run (lchConvert x (some code) w s).2 = true := by
    rw [lchConvert_flight valid]
    by_cases start : run.kind = .start
    · simp [collects, validFlight, outside start]
    · simp [collects, validFlight, start]
  rw [collectTare_completes ((convertedState_tareRun valid code w quiet lch).trans running) collecting last,
    lchConvert_flight valid]
  rfl

/-- The load channel hands on the tare of the 64 forces, with no tare running. -/
theorem loadStep_tare {run : TareRun} (running : s.lch.tareRun = some run) (last : run.count = 63)
    (outside : run.kind = .start → s.ctx.changeover = none) :
    (loadStep x (some code) w s).1.lch.tare = completedTare x code run.sum ∧
    (loadStep x (some code) w s).1.lch.tareRun = none := by
  rw [(loadStep_tared x (some code) w s).lch, collectTare_sixtyFour valid code w quiet lch running last outside,
    (finishTare_sensors _ _).2]
  exact ⟨rfl, rfl⟩

/-- A start tare that completes leaves its test with the tare behind it, and keeps no FAULT back (R91). -/
theorem loadStep_startTare {run : TareRun} (running : s.lch.tareRun = some run) (last : run.count = 63)
    (start : run.kind = .start) (outside : s.ctx.changeover = none) {k : SlotId}
    (resident : s.ctx.resident = some (.test k)) (live : s.live.isSome = true) (kept : NoFaultKept s) :
    (loadStep x (some code) w s).1.live.map (·.rt.tareDone) = some true ∧
    NoFaultKept (loadStep x (some code) w s).1 := by
  have way := convertedState_way x (some code) w s
  have chain := (lchConvert_set quiet lch w).chain.trans way.chain
  have tared := finishTare_start (run := run.collected (forceBefore x.tables x.range (code24 code))) start
    (residentSlot_eq_some.2 (chain.resident.trans resident))
  obtain ⟨l, alive⟩ := Option.isSome_iff_exists.1 (chain.live.trans live)
  have checked := loadStep_tared x (some code) w s
  rw [collectTare_sixtyFour valid code w quiet lch running last fun _ => outside] at checked
  refine ⟨?_, checked.faultless ?_⟩
  · rw [checked.tareDone, tared.live, alive]
    rfl
  · unfold NoFaultKept
    rw [tared.transit]
    exact way.faultless ((lchConvert_set quiet lch w).kept kept)

end

/-! ### The set that completes a tare -/

/-- In TEST, outside a quiesce and with no FAULT kept back, the end of a set takes the marks kept back and no more. -/
theorem runSet_still {x : SampleSet} {conv : Option (BitVec 24)} {w : SetOrder} {s : State}
    (outside : s.ctx.changeover = none) (kept : NoFaultKept (sequenceSet x conv w s).1)
    (phase : (sequenceSet x conv w s).1.ctx.phase = .test) :
    MarkFrame (clearTransit (sequenceSet x conv w s).1) (runSet x conv w s) := by
  have still : (sequenceSet x conv w s).2.quiesce = false := by
    show (lchConvert x conv w s).2.quiesce = false
    rw [lchConvert_quiesce, outside]
    rfl
  have drained : MarkFrame (clearTransit (sequenceSet x conv w s).1)
      (drain (fun _ => true) (sequenceSet x conv w s).1) := by
    rw [drainAll_eq]
    exact (foldl_takeReport_mark _ kept _).1
  have run : runSet x conv w s =
      autostartWith (x.tables.frame.getD Frame.blank) (drain (fun _ => true) (sequenceSet x conv w s).1) := by
    simp only [runSet, quiesceSet, quiesceSample_of_motion still]
  rw [run, autostartWith_of_test _ (drained.phase.trans phase)]
  exact drained

section
variable {s : State} {x : SampleSet} (assembling : s.smu.assembling = some x) (code : BitVec 24) (w : SetOrder)
  (quiet : quietSet x (some code) s = true)
include quiet

/-- The load channel's part of a quiet set leaves the contexts as it found them. -/
theorem loadStep_arrival_chain : ChainFrame s (loadStep x (some code) w (countArrival s)).1 :=
  ((set_smu s _).chain.trans (loadStep_quiet_chain (s := countArrival s) quiet rfl w)).trans
    (loadStep_tared x (some code) w _).chain

include assembling

/-- No FAULT of a quiet set comes ahead of it (R168). -/
theorem faultFirst_quiet : faultFirst (some code) w s = false := by
  have phase : (afterLoad (some code) w s).ctx.phase = s.ctx.phase := by
    simp only [afterLoad, withinSet, assembling]
    exact (loadStep_arrival_chain code w quiet).phase
  simp [faultFirst, phase]

variable (valid : x.settling = false) (power : s.power = true) {sum : Int}
include valid power

/-- The row of a port tare is the set that brings its count to 64 (log entry 4). -/
theorem exec_tareComplete {p : Port} (running : s.lch.tareRun = some { kind := .port p, sum := sum, count := 63 }) :
    exec (.tareComplete code w) s = .next (arriveSet code w s) := by
  have ends : portTareEnds (some code) w s = true := by
    simp [portTareEnds, setUnheld, assembling, valid, tareNearlyDone, portTareRunning, running, Config.tareSamples,
      faultFirst_quiet assembling code w quiet]
  show Host.Outcome.next (powered (setWhere portTareEnds (some code) w) s) = _
  simp [powered, power, setWhere, ends, arriveSet]

/-- The row of a start tare is the set that brings its count to 64 outside a quiesce. -/
theorem exec_startTareComplete (running : s.lch.tareRun = some { kind := .start, sum := sum, count := 63 })
    (outside : s.ctx.changeover = none) : exec (.startTareComplete code w) s = .next (arriveSet code w s) := by
  have ends : startTareEnds (some code) w s = true := by
    simp [startTareEnds, setUnheld, assembling, valid, tareNearlyDone, startTareRunning, running, Config.tareSamples,
      outside, faultFirst_quiet assembling code w quiet]
  show Host.Outcome.next (powered (setWhere startTareEnds (some code) w) s) = _
  simp [powered, power, setWhere, ends, arriveSet]

omit power

/-- At the end of the set the tare is the one that the 64 forces make, and no tare of theirs runs (R89). -/
theorem arriveSet_tare {run : TareRun} (running : s.lch.tareRun = some run) (last : run.count = 63)
    (outside : run.kind = .start → s.ctx.changeover = none) :
    (arriveSet code w s).lch.tare = completedTare x code run.sum ∧
    ∀ other, (arriveSet code w s).lch.tareRun = some other → other.kind = .start := by
  obtain ⟨tare, none⟩ := loadStep_tare valid code w (s := countArrival s) quiet rfl running last outside
  have passed := (runSet_sensors x (some code) w (countArrival s)).1
  rw [arriveSet_eq assembling]
  refine ⟨?_, fun other h => ?_⟩
  · rw [passed.lch]
    exact tare
  · rcases passed.tare other h with before | rfl
    · exact absurd (none.symm.trans before) (by simp)
    · rfl

/-- At the end of the set that completes a start tare, the test is still resident and has it behind it (R91). -/
theorem arriveSet_startTare (running : s.lch.tareRun = some { kind := .start, sum := sum, count := 63 })
    (outside : s.ctx.changeover = none) (phase : s.ctx.phase = .test) {k : SlotId}
    (resident : s.ctx.resident = some (.test k)) (live : s.live.isSome = true) (kept : NoFaultKept s) :
    (arriveSet code w s).lch.tareRun = none ∧ (arriveSet code w s).ctx.phase = .test ∧
    (arriveSet code w s).live.map (·.rt.tareDone) = some true := by
  obtain ⟨tareDone, faultless⟩ := loadStep_startTare valid code w (s := countArrival s) quiet rfl running rfl rfl
    outside resident live kept
  obtain ⟨-, none⟩ := loadStep_tare valid code w (s := countArrival s) quiet rfl running rfl fun _ => outside
  have way := sequenceSet_way x (some code) w (countArrival s)
  have test := (way.chain.phase.trans (loadStep_arrival_chain code w quiet).phase).trans phase
  have ended := runSet_still (s := countArrival s) outside (way.faultless faultless) test
  rw [arriveSet_eq assembling]
  refine ⟨?_, ended.phase.trans test, ?_⟩
  · rw [ended.lch]
    show (sequenceSet x (some code) w (countArrival s)).1.lch.tareRun = _
    rw [way.lch, none]
  · rw [ended.live]
    exact way.tareDone.trans tareDone

end

/-- In TEST the resident context is a test, whose live values the blocks hold (R5, R13). -/
theorem resident_of_test {s : State} (suits : ContextsSuit s) (phase : s.ctx.phase = .test) :
    (∃ k, s.ctx.resident = some (.test k)) ∧ s.live.isSome = true := by
  obtain ⟨fits, -, live⟩ := suits.resident
  refine ⟨?_, by simp [live, phase]⟩
  rw [phase] at fits
  match resident : s.ctx.resident with
  | some (.test k) => exact ⟨k, rfl⟩
  | none | some .service | some .safe =>
    rw [resident] at fits
    cases fits

/-- Settles O42: the set completes the tare at the load channel, and nothing behind it takes the tare back. -/
theorem aTareCompletes : Obligations.ATareCompletes := by
  intro code w s x sum power assembling valid quiet
  refine ⟨fun p running => ?_, fun running suits nothing outside => ?_⟩
  · obtain ⟨tare, none⟩ := arriveSet_tare assembling code w quiet valid running rfl nofun
    exact ⟨_, exec_tareComplete assembling code w quiet valid power running, tare, none⟩
  · have phase := (blocks_of_suit suits).2.1 _ running rfl
    obtain ⟨⟨k, resident⟩, live⟩ := resident_of_test suits phase
    have kept : NoFaultKept s := fun kind => by
      rw [show s.ctx.transit = [] from nothing]
      exact List.not_mem_nil
    have tare := (arriveSet_tare assembling code w quiet valid running rfl fun _ => outside).1
    exact ⟨_, exec_startTareComplete assembling code w quiet valid power running outside, tare,
      arriveSet_startTare assembling code w quiet valid running outside phase resident live kept⟩

end Sys2Proof.Machine

/-! PROOFS that nothing beside the extension channel's own part of a set changes the channel: one equation for each
operation of the other blocks and of the context store. -/

namespace Sys2Proof.Machine

/-! ### Marks, records, causes and reports -/

@[simp] theorem setMark_xch (k : SlotId) (m : Mark) (v : Int) (n : BitVec 32) (s : State) :
    (setMark k m v n s).xch = s.xch := (setMark_frame k m v n s).xch

@[simp] theorem offer_xch (raises : Bool) (o : Offer) (k : SlotId) (s : State) : (offer raises o k s).xch = s.xch :=
  (offer_frame raises o k s).xch

@[simp] theorem offerEvent_xch (e : RecordEvent) (n : BitVec 32) (k : SlotId) (sub : Nat) (v : Int) (s : State) :
    (offerEvent e n k sub v s).xch = s.xch := (offerEvent_frame e n k sub v s).xch

@[simp] theorem supersede_xch (c : Changeover) (s : State) : (supersede c s).xch = s.xch :=
  (supersede_frame c s).mark.xch

@[simp] theorem raiseCause_xch (cause : Cause) (r : Requester) (i : Option Context) (e : Option EndCause) (s : State) :
    (raiseCause cause r i e s).xch = s.xch := by
  unfold raiseCause beginChangeover
  split
  · rfl
  · split
    · simp
    · split <;> simp

/-- A report that does no more than a mark may do leaves the channel, kept back or taken. -/
theorem post_xch {keep : Bool} {r : Report} {s : State} (take : MarkFrame s (takeReport s r)) :
    (post keep r s).xch = s.xch := by
  unfold post
  split
  · rfl
  · exact take.xch

@[simp] theorem post_mark_xch (keep : Bool) (k : SlotId) (m : Mark) (v : Int) (n : BitVec 32) (s : State) :
    (post keep (.mark k m v n) s).xch = s.xch := post_xch (setMark_frame k m v n s)

@[simp] theorem drainFractures_xch (s : State) : (drain Report.isFracture s).xch = s.xch :=
  (foldl_takeReport_mark (s.ctx.transit.filter Report.isFracture)
    (fun _ h => absurd (List.mem_filter.1 h).2 (by simp [Report.isFracture])) _).1.xch

/-! ### The evaluation unit and the motion sequencer -/

theorem evaluate_xch (fl : Flight) (x : XOut) (k : SlotId) (l : Live) (stress : Int) (s : State) :
    (evaluate fl x k l stress s).xch = s.xch := by
  have announced : ∀ (seen : Bool) (n : Nat) (e : Eval) (u : State),
      (if seen then announceYield k n e u else u).xch = u.xch := by
    intro seen n e u
    split
    · exact (announceYield_frame k n e u).xch
    · rfl
  unfold evaluate
  dsimp only
  split
  · unfold reportFracture
    rw [post_xch (takeFracture_frame _ _ _ _ _ _), announced]
  · rw [announced]

@[simp] theorem evuStep_xch (fl : Flight) (x : XOut) (s : State) : (evuStep fl x s).1.xch = s.xch := by
  unfold evuStep
  split
  · dsimp only
    split
    · exact evaluate_xch _ _ _ _ _ s
    · rfl
  · rfl

@[simp] theorem markTravel_xch (on : Bool) (x : Measured) (s : State) : (markTravel on x s).xch = s.xch :=
  (markTravel_frame on x s).xch

@[simp] theorem putSetpoint_xch (m : Mode) (q : Int) (x : Measured) (s : State) :
    (putSetpoint m q x s).xch = s.xch := (putSetpoint_frame m q x s).xch

@[simp] theorem seatSetpoint_xch (b : Bank) (x : Measured) (s : State) : (seatSetpoint b x s).xch = s.xch := by
  unfold seatSetpoint
  dsimp only
  split <;> simp

@[simp] theorem transitionFlip_xch (x : Measured) (s : State) : (transitionFlip x s).xch = s.xch := by
  unfold transitionFlip
  split
  · dsimp only
    split <;> simp
  · rfl

@[simp] theorem firstSeat_xch (fl : Flight) (x : Measured) (s : State) : (firstSeat fl x s).xch = s.xch := by
  unfold firstSeat
  split
  · split <;> simp
  · rfl

@[simp] theorem segmentEnd_xch (k : SlotId) (b : Bank) (s : State) : (segmentEnd k b s).xch = s.xch := by
  rcases lt_or_ge b.seg (s.slot k).order.segments.length with more | last
  · exact (segmentEnd_next_frame more).xch
  · rw [segmentEnd_last last]
    exact raiseCause_xch _ _ _ _ s

@[simp] theorem holdPoint_xch (k : SlotId) (x : Measured) (s : State) : (holdPoint k x s).xch = s.xch := by
  unfold holdPoint
  dsimp only
  split
  · split <;> simp
  · rfl

@[simp] theorem endTest_xch (k : SlotId) (x : Measured) (s : State) : (endTest k x s).xch = s.xch := by
  unfold endTest
  split
  · split
    · split
      · rfl
      · exact segmentEnd_xch k _ s
      · simp [yieldBackup]
    · rfl
  · rfl

@[simp] theorem segmentTests_xch (fl : Flight) (x : Measured) (s : State) : (segmentTests fl x s).xch = s.xch := by
  unfold segmentTests
  split
  · split
    · rfl
    · simp [countElapsed]
  · rfl

@[simp] theorem amendmentFlip_xch (s : State) : (amendmentFlip s).xch = s.xch := by
  unfold amendmentFlip
  split <;> rfl

@[simp] theorem advanceSetpoint_xch (b : Bank) (q : Int) (x : Measured) (s : State) :
    (advanceSetpoint b q x s).xch = s.xch := by
  unfold advanceSetpoint
  dsimp only
  split
  · split <;> simp
  · simp

@[simp] theorem trackMark_xch (atCeiling : Bool) (s : State) : (trackMark atCeiling s).xch = s.xch := by
  unfold trackMark
  split
  · split <;> simp
  · rfl

@[simp] theorem demandOf_xch (fl : Flight) (x : Measured) (s : State) : (demandOf fl x s).xch = s.xch := by
  unfold demandOf
  split
  · split
    · rfl
    · split
      · simp [quiesceDemand, writeDemand]
      · simp [demandSteps, writeDemand]
  · rfl

@[simp] theorem trackCompliance_xch (x : Measured) (s : State) : (trackCompliance x s).xch = s.xch := by
  unfold trackCompliance
  split
  · dsimp only
    split
    · split <;> simp
    · rfl
  · rfl

@[simp] theorem offerLast_xch (raises : Bool) (k : SlotId) (s : State) : (offerLast raises k s).xch = s.xch := by
  unfold offerLast
  split
  · split <;> simp
  · rfl

@[simp] theorem sampleCandidate_xch (fl : Flight) (exts : Option (Int × Int)) (x : Measured) (s : State) :
    (sampleCandidate fl exts x s).xch = s.xch := by
  unfold sampleCandidate
  split
  · dsimp only
    split <;> simp
  · rfl

@[simp] theorem msqStep_xch (fl : Flight) (x : Measured) (exts : Option (Int × Int)) (s : State) :
    (msqStep fl x exts s).xch = s.xch := by
  unfold msqStep
  dsimp only
  rw [sampleCandidate_xch, trackCompliance_xch]
  split <;> simp [countSample]

end Sys2Proof.Machine

/-! PROOFS about what completions, FAULTs and starts leave of the extension channel and of RMFAIL: the channel as it is,
and RMFAIL in every slot but one that a pending changeover resumes (R29). -/

namespace Sys2Proof.Machine

/-- A pending changeover resumes no test but those of `back`. -/
def ResumesOnly (back : SlotId → Prop) (s : State) : Prop :=
  ∀ c k, s.ctx.changeover = some c → c.incoming = some (.test k) → back k

/-- The extension channel stands, RMFAIL stays where no test is resumed, no other test comes to be resumed, and a report
kept back stays so, a fracture aside. -/
structure RemovalFrame (back : SlotId → Prop) (s t : State) : Prop where
  xch : t.xch = s.xch
  resumes : ResumesOnly back s → ResumesOnly back t
  rmfail : ∀ k, ¬back k → Mark.rmfail ∈ (s.slot k).marks → Mark.rmfail ∈ (t.slot k).marks
  kept : ∀ r ∈ s.ctx.transit, r.isFracture = false → r ∈ t.ctx.transit

section
variable {back : SlotId → Prop}

/-- The changeovers that marks raise resume no test. -/
theorem ResumesOnly.chain {s t : State} (only : ResumesOnly back s) (chain : ChainFrame s t) : ResumesOnly back t := by
  intro c k pending incoming
  rcases chain.cause with same | ⟨d, raised, cause⟩
  · exact only c k (same ▸ pending) incoming
  · cases pending.symm.trans raised
    rcases cause.shape with ⟨-, none, -⟩ | ⟨-, service⟩
    · cases none.symm.trans incoming
    · cases service.symm.trans incoming

namespace RemovalFrame

theorem refl (s : State) : RemovalFrame back s s := ⟨rfl, id, fun _ _ => id, fun _ h _ => h⟩

theorem trans {s t u : State} (h : RemovalFrame back s t) (g : RemovalFrame back t u) : RemovalFrame back s u where
  xch := g.xch.trans h.xch
  resumes := g.resumes ∘ h.resumes
  rmfail k out x := g.rmfail k out (h.rmfail k out x)
  kept r x other := g.kept r (h.kept r x other) other

theorem of_chain {s t : State} (chain : ChainFrame s t) (xch : t.xch = s.xch)
    (kept : ∀ r ∈ s.ctx.transit, r.isFracture = false → r ∈ t.ctx.transit) : RemovalFrame back s t :=
  ⟨xch, fun only => only.chain chain, fun k _ => chain.marks k _, kept⟩

/-- Slots keep their marks, and the changeover pending is the one before or none. -/
theorem of_same {s t : State} (xch : t.xch = s.xch)
    (changeover : t.ctx.changeover = s.ctx.changeover ∨ t.ctx.changeover = none)
    (marks : ∀ k, ¬back k → (t.slot k).marks = (s.slot k).marks) (transit : t.ctx.transit = s.ctx.transit) :
    RemovalFrame back s t := by
  refine ⟨xch, fun only c k pending => ?_, fun k out h => by rwa [marks k out], fun r h _ => by rwa [transit]⟩
  rcases changeover with same | none
  · exact only c k (same ▸ pending)
  · cases none.symm.trans pending

end RemovalFrame

theorem WayFrame.removal {s t : State} (h : WayFrame s t) (xch : t.xch = s.xch) : RemovalFrame back s t :=
  .of_chain h.chain xch h.kept

theorem MarkFrame.removal {s t : State} (h : MarkFrame s t) : RemovalFrame back s t := h.way.removal h.xch

theorem EventFrame.removal {s t : State} (h : EventFrame s t) : RemovalFrame back s t := h.mark.removal

/-- A slot that changes with its marks kept leaves the marks of every slot. -/
theorem marks_setSlot_same {s : State} {k : SlotId} {x : Slot} (same : x.marks = (s.slot k).marks) (j : SlotId) :
    ((s.setSlot k x).slot j).marks = (s.slot j).marks := by
  rw [State.slot_setSlot]
  split
  · rename_i here
    rw [here, same]
  · rfl

/-! ### Phase and tares (R90, R91) -/

theorem dropTare_removal (s : State) : RemovalFrame back s { s with lch := { s.lch with tareRun := none } } :=
  .of_same rfl (.inl rfl) (fun _ _ => rfl) rfl

theorem abandonPortTare_removal (s : State) : RemovalFrame back s (abandonPortTare s) := by
  unfold abandonPortTare
  split
  · exact (dropTare_removal s).trans (raiseEvent_frame _ _ _).removal
  · exact .refl s

theorem abandonStartTare_removal (raises : Bool) (k : SlotId) (s : State) :
    RemovalFrame back s (abandonStartTare raises k s) := by
  unfold abandonStartTare
  split
  · exact (dropTare_removal s).trans ((raiseEvent_frame _ _ _).mark.trans (offer_frame _ _ _ _)).removal
  · exact .refl s

theorem beginStartTare_removal (o : TestOrder) (rt : Runtime) (s : State) :
    RemovalFrame back s (beginStartTare o rt s) := by
  unfold beginStartTare
  split
  · exact .of_same rfl (.inl rfl) (fun _ _ => rfl) rfl
  · exact .refl s

theorem setPhase_removal (p : Phase) (s : State) : RemovalFrame back s (setPhase p s) := by
  have set : RemovalFrame back s { s with
      ctx := { s.ctx with phase := p }
      flu := { s.flu with drvEn := p == .test || p == .service } } :=
    .of_same rfl (.inl rfl) (fun _ _ => rfl) rfl
  unfold setPhase
  dsimp only
  split
  · exact set.trans (abandonPortTare_removal _)
  · exact set

/-! ### Completions (R22, R29) -/

theorem leaveTest_removal (k : SlotId) (o : Option TestOutcome) (s : State) :
    RemovalFrame back s (leaveTest k o s) := by
  rcases live : s.live with _ | l
  · unfold leaveTest
    rw [live]
    exact .refl s
  · have left : RemovalFrame back s (leftTest k o l s) :=
      .of_same rfl (.inl rfl) (fun j _ => marks_setSlot_same (by rfl) j) rfl
    exact left.trans (leaveTest_frame k o s l live).removal

/-- A resume takes RMFAIL from the test it brings back alone (R29). -/
theorem enterResumed_removal {k : SlotId} (returns : back k) (s : State) : RemovalFrame back s (enterResumed k s) := by
  unfold enterResumed
  split
  · exact .refl s
  · refine RemovalFrame.trans ?_ (beginStartTare_removal _ _ _)
    refine RemovalFrame.trans ?_ (setPhase_removal _ _)
    refine .of_same rfl (.inl rfl) (fun j out => ?_) rfl
    have other : j ≠ k := fun same => out (same ▸ returns)
    exact congrArg Slot.marks (State.slot_setSlot_other s _ other)

theorem enterService_removal (holder : Option Port) (s : State) : RemovalFrame back s (enterService holder s) := by
  refine RemovalFrame.trans ?_ (setPhase_removal _ _)
  exact .of_same rfl (.inl rfl) (fun _ _ => rfl) rfl

theorem enterIdle_removal (s : State) : RemovalFrame back s (enterIdle s) := by
  refine RemovalFrame.trans ?_ (setPhase_removal _ _)
  exact .of_same rfl (.inl rfl) (fun _ _ => rfl) rfl

theorem enterIncoming_removal {c : Changeover} (returns : ∀ k, c.incoming = some (.test k) → back k) (s : State) :
    RemovalFrame back s (enterIncoming c s) := by
  unfold enterIncoming
  split
  · rename_i k incoming
    exact (offerResume_frame k s).removal.trans (enterResumed_removal (returns k incoming) _)
  · exact enterService_removal _ s
  · exact .refl s
  · exact enterIdle_removal s

theorem endChangeover_removal (s : State) : RemovalFrame back s { s with ctx := { s.ctx with changeover := none } } :=
  .of_same rfl (.inr rfl) (fun _ _ => rfl) rfl

theorem completeChangeover_removal {c : Changeover} (returns : ∀ k, c.incoming = some (.test k) → back k) (s : State) :
    RemovalFrame back s (completeChangeover c s) := by
  have left : RemovalFrame back s (match c.outgoing with
      | .test k => leaveTest k (outcomeOf c) s
      | _ => s) := by
    split
    · exact leaveTest_removal _ _ _
    · exact .refl s
  unfold completeChangeover
  dsimp only
  refine RemovalFrame.trans ?_ ((announcePhase_frame _).trans (announceEnd_frame _ _ _)).removal
  exact (left.trans (enterIncoming_removal returns _)).trans (endChangeover_removal _)

theorem completePending_removal {s : State} (only : ResumesOnly back s) : RemovalFrame back s (completePending s) := by
  have owed : RemovalFrame back s (match s.residentSlot with
      | some k => abandonStartTare true k (offerLast true k s)
      | none => s) := by
    split
    · exact ((offerLast_way _ _ s).removal (offerLast_xch _ _ s)).trans (abandonStartTare_removal _ _ _)
    · exact .refl s
  unfold completePending
  dsimp only
  split
  · rename_i c pending
    exact owed.trans (completeChangeover_removal (fun k => owed.resumes only c k pending) _)
  · exact owed

/-! ### Faults (R23, R167) -/

theorem faultLeaves_removal (m : Mark) (s : State) : RemovalFrame back s (faultLeaves m s) := by
  unfold faultLeaves
  split
  · rename_i k _
    have owed := ((offerLast_way false k s).removal (back := back) (offerLast_xch _ _ s)).trans
      (abandonStartTare_removal false k _)
    exact owed.trans (leaveTest_removal _ _ _)
  · exact .refl s

theorem faultClears_removal (s : State) : RemovalFrame back s (faultClears s) := by
  unfold faultClears
  split
  · exact (endChangeover_removal s).trans (supersede_frame _ _).removal
  · exact .refl s

theorem takeFault_removal (m : Mark) (s : State) : RemovalFrame back s (takeFault m s) := by
  have safe : ∀ u : State, RemovalFrame back u (announcePhase (setPhase .safe { u with
      msq := restMsq u.msq
      ctx := { u.ctx with resident := some .safe, holder := none } })) := fun u => by
    refine RemovalFrame.trans ?_ (announcePhase_frame _).removal
    refine RemovalFrame.trans ?_ (setPhase_removal _ _)
    exact .of_same rfl (.inl rfl) (fun _ _ => rfl) rfl
  have taken := ((faultLeaves_removal m s).trans (faultClears_removal _)).trans (safe _)
  unfold takeFault
  dsimp only
  split
  · exact taken.trans (raiseEvent_frame _ _ _).removal
  · exact taken

theorem enterFault_removal (e : FaultEntry) (s : State) : RemovalFrame back s (enterFault e s) := by
  refine RemovalFrame.trans ?_ (raiseEvent_frame _ _ _).removal
  exact .of_same rfl (.inl rfl) (fun _ _ => rfl) rfl

theorem faultReport_removal (kind : FaultKind) (s : State) : RemovalFrame back s (faultReport kind s) := by
  have marked : ∀ u : State, RemovalFrame back u (match (faultEntry kind s).voided with
      | some (k, index) => setMark k (faultMark kind) 0 index u
      | none => u) := by
    intro u
    split
    · exact (setMark_frame _ _ _ _ _).removal
    · exact .refl u
  unfold faultReport
  split
  · exact .refl s
  · split
    · exact enterFault_removal _ s
    · exact ((enterFault_removal _ s).trans (marked _)).trans (takeFault_removal _ _)

/-! ### Reports (R32) -/

theorem takeReport_removal (s : State) (r : Report) : RemovalFrame back s (takeReport s r) := by
  cases r with
  | mark k m v n => exact (setMark_frame k m v n s).removal
  | fracture k n c f fm => exact (takeFracture_frame k n c f fm s).removal
  | fault kind => exact faultReport_removal kind s

/-- Reports that are taken leave the RMFAIL that one of them sets. -/
theorem foldl_takeReport_removal (l : List Report) (s : State) :
    RemovalFrame back s (l.foldl takeReport s) ∧
    ∀ k v n, ¬back k → Report.mark k .rmfail v n ∈ l → Mark.rmfail ∈ ((l.foldl takeReport s).slot k).marks := by
  induction l generalizing s with
  | nil => exact ⟨.refl s, nofun⟩
  | cons r l ih =>
    obtain ⟨rest, others⟩ := ih (takeReport s r)
    refine ⟨(takeReport_removal s r).trans rest, fun k v n out h => ?_⟩
    rcases List.mem_cons.1 h with rfl | h
    · exact rest.rmfail k out (mem_setMark k .rmfail v n s)
    · exact others k v n out h

/-! ### The end of a set (R17, R21) -/

theorem quiesceSample_removal (fl : Flight) {s : State} (only : ResumesOnly back s) :
    RemovalFrame back s (quiesceSample fl s) := by
  unfold quiesceSample
  split
  · rename_i c pending
    split
    · have counted : RemovalFrame back s
          { s with ctx := { s.ctx with changeover := some { c with elapsed := c.elapsed + 1 } } } := by
        refine ⟨rfl, fun only d k now incoming => ?_, fun _ _ => id, fun _ h _ => h⟩
        cases now
        exact only c k pending incoming
      dsimp only
      split
      · exact counted.trans (faultReport_removal _ _)
      · split
        · exact counted.trans (completePending_removal (counted.resumes only))
        · exact counted
    · exact .refl s
  · exact .refl s

theorem startTest_removal (k : SlotId) (s : State) : RemovalFrame back s (startTest k s) := by
  refine RemovalFrame.trans ?_ (startTest_frame k s).removal
  refine RemovalFrame.trans ?_ (beginStartTare_removal _ _ _)
  refine RemovalFrame.trans ?_ (setPhase_removal _ _)
  exact .of_same rfl (.inl rfl) (fun j _ => marks_setSlot_same (by rfl) j) rfl

theorem autostartWith_removal (f : Frame) (s : State) : RemovalFrame back s (autostartWith f s) := by
  unfold autostartWith
  split
  · split
    · exact startTest_removal _ s
    · exact .refl s
  · exact .refl s

/-- RMFAIL has been set in a slot, or is still to be (R32). -/
def RmfailTold (k : SlotId) (s : State) : Prop :=
  (∃ v n, Report.mark k .rmfail v n ∈ s.ctx.transit) ∨ Mark.rmfail ∈ (s.slot k).marks

theorem RmfailTold.way {k : SlotId} {s t : State} (told : RmfailTold k s) (h : WayFrame s t) : RmfailTold k t := by
  rcases told with ⟨v, n, kept⟩ | set
  · exact .inl ⟨v, n, h.kept _ kept rfl⟩
  · exact .inr (h.chain.marks k _ set)

theorem RmfailTold.stays {k : SlotId} {s t : State} (told : RmfailTold k s) (h : RemovalFrame back s t)
    (out : ¬back k) : RmfailTold k t := by
  rcases told with ⟨v, n, kept⟩ | set
  · exact .inl ⟨v, n, h.kept _ kept rfl⟩
  · exact .inr (h.rmfail k out set)

/-- What comes behind the motion sequencer leaves the channel, and an RMFAIL told before it is set at the end of the
set. -/
theorem runSet_removal (x : SampleSet) (conv : Option (BitVec 24)) (w : SetOrder) {s : State}
    (only : ResumesOnly back (sequenceSet x conv w s).1) :
    (runSet x conv w s).xch = (sequenceSet x conv w s).1.xch ∧
    ∀ k, ¬back k → RmfailTold k (sequenceSet x conv w s).1 → Mark.rmfail ∈ ((runSet x conv w s).slot k).marks := by
  have quiesced : RemovalFrame back (sequenceSet x conv w s).1 (quiesceSet x conv w s) := quiesceSample_removal _ only
  have started := autostartWith_removal (back := back) (x.tables.frame.getD Frame.blank)
    (drain (fun _ => true) (quiesceSet x conv w s))
  obtain ⟨drained, taken⟩ := foldl_takeReport_removal (back := back) (quiesceSet x conv w s).ctx.transit
    (clearTransit (quiesceSet x conv w s))
  rw [← drainAll_eq] at drained taken
  refine ⟨started.xch.trans (drained.xch.trans quiesced.xch), fun k out told => started.rmfail k out ?_⟩
  rcases told.stays quiesced out with ⟨v, n, kept⟩ | set
  · exact taken k v n out kept
  · exact drained.rmfail k out set

end

end Sys2Proof.Machine

/-! PROOFS about what reaches the extension channel of a set: the load channel's part, whatever it reports, leaves the
channel as it is, makes no test resident and gives no test another strain source. -/

namespace Sys2Proof.Machine

/-- No test takes its strain from the extensometer. -/
abbrev Unextended (s : State) : Prop := ∀ l, s.live = some l → l.rt.source = .xhd

/-- Ahead of the extension channel: a `RemovalFrame` behind which no test is resident, and none is on its extensometer,
that was not so before. -/
structure LoadFrame (back : SlotId → Prop) (s t : State) : Prop where
  removal : RemovalFrame back s t
  resident : ∀ k, t.ctx.resident = some (.test k) → s.ctx.resident = some (.test k)
  source : Unextended s → Unextended t

section
variable {back : SlotId → Prop}

namespace LoadFrame

theorem refl (s : State) : LoadFrame back s s := ⟨.refl s, fun _ => id, id⟩

theorem trans {s t u : State} (h : LoadFrame back s t) (g : LoadFrame back t u) : LoadFrame back s u :=
  ⟨h.removal.trans g.removal, fun k x => h.resident k (g.resident k x), g.source ∘ h.source⟩

/-- The tests, their slots and what they hold live stand. -/
theorem of_same {s t : State} (xch : t.xch = s.xch) (ctx : t.ctx = s.ctx) (live : t.live = s.live) :
    LoadFrame back s t := by
  have slot : ∀ k, t.slot k = s.slot k := State.slot_congr (by rw [ctx])
  refine ⟨.of_same xch (.inl (by rw [ctx])) (fun k _ => by rw [slot]) (by rw [ctx]), ?_, ?_⟩
  · rw [ctx]
    exact fun _ => id
  · unfold Unextended
    rw [live]
    exact id

end LoadFrame

theorem MarkFrame.load {s t : State} (h : MarkFrame s t) : LoadFrame back s t where
  removal := h.removal
  resident k x := by rwa [h.resident] at x
  source x := by unfold Unextended; rwa [h.live]

/-! ### A FAULT (R23, R167) -/

theorem leaveTest_live (k : SlotId) (o : Option TestOutcome) (s : State) : (leaveTest k o s).live = none := by
  rcases live : s.live with _ | l
  · unfold leaveTest
    rw [live]
    exact live
  · exact (leaveTest_frame k o s l live).live

theorem setPhase_live_resident (p : Phase) (s : State) :
    (setPhase p s).live = s.live ∧ (setPhase p s).ctx.resident = s.ctx.resident := by
  unfold setPhase abandonPortTare
  dsimp only
  split
  · split <;> simp
  · exact ⟨rfl, rfl⟩

theorem faultClears_live (s : State) : (faultClears s).live = s.live := by
  unfold faultClears
  split
  · exact (supersede_frame _ _).mark.live
  · rfl

/-- A FAULT leaves the phase SAFE with no test resident, and none on its extensometer that was not. -/
theorem takeFault_load (m : Mark) (s : State) : LoadFrame back s (takeFault m s) := by
  have left : (faultLeaves m s).live = none ∨ (faultLeaves m s).live = s.live := by
    unfold faultLeaves
    split
    · exact .inl (leaveTest_live _ _ _)
    · exact .inr rfl
  have live : (takeFault m s).live = (faultLeaves m s).live := by
    unfold takeFault
    dsimp only
    split <;> simp [announcePhase, setPhase_live_resident, faultClears_live]
  have safe : (takeFault m s).ctx.resident = some .safe := by
    unfold takeFault
    dsimp only
    split <;> simp [announcePhase, setPhase_live_resident]
  refine ⟨takeFault_removal m s, fun k test => ?_, fun none l now => ?_⟩
  · cases safe.symm.trans test
  · rw [live] at now
    rcases left with gone | same
    · cases gone.symm.trans now
    · exact none l (same ▸ now)

theorem enterFault_load (e : FaultEntry) (s : State) : LoadFrame back s (enterFault e s) := by
  refine LoadFrame.trans ?_ (raiseEvent_frame _ _ _).mark.load
  exact .of_same rfl rfl rfl

theorem faultReport_load (kind : FaultKind) (s : State) : LoadFrame back s (faultReport kind s) := by
  have marked : ∀ u : State, LoadFrame back u (match (faultEntry kind s).voided with
      | some (k, index) => setMark k (faultMark kind) 0 index u
      | none => u) := by
    intro u
    split
    · exact (setMark_frame _ _ _ _ _).load
    · exact .refl u
  unfold faultReport
  split
  · exact .refl s
  · split
    · exact enterFault_load _ s
    · exact ((enterFault_load _ s).trans (marked _)).trans (takeFault_load _ _)

theorem post_load {keep : Bool} {r : Report} {s : State} (take : LoadFrame back s (takeReport s r)) :
    LoadFrame back s (post keep r s) := by
  unfold post
  split
  · exact ⟨⟨rfl, id, fun _ _ => id, fun _ h _ => List.mem_append_left _ h⟩, fun _ => id, id⟩
  · exact take

theorem post_fault_load (keep : Bool) (kind : FaultKind) (s : State) : LoadFrame back s (post keep (.fault kind) s) :=
  post_load (faultReport_load kind s)

theorem post_mark_load (keep : Bool) (k : SlotId) (m : Mark) (v : Int) (n : BitVec 32) (s : State) :
    LoadFrame back s (post keep (.mark k m v n) s) := post_load (setMark_frame k m v n s).load

/-! ### The load channel's part of a set -/

theorem lchConvert_load (x : SampleSet) (conv : Option (BitVec 24)) (w : SetOrder) (s : State) :
    LoadFrame back s (lchConvert x conv w s).1 := by
  unfold lchConvert
  dsimp only
  split
  · have converted : ∀ l : Lch, LoadFrame back s { s with lch := l } := fun l => .of_same rfl rfl rfl
    split
    · exact (converted _).trans (post_fault_load _ _ _)
    · exact converted _
  · exact .refl s

theorem settleMark_load (fl : Flight) (s : State) : LoadFrame back s (settleMark fl s) := by
  unfold settleMark
  split
  · split
    · exact post_mark_load _ _ _ _ _ _
    · exact .refl s
  · exact .refl s

theorem overloadCheck_load (fl : Flight) (s : State) : LoadFrame back s (overloadCheck fl s) := by
  unfold overloadCheck
  split
  · split
    · exact post_mark_load _ _ _ _ _ _
    · exact .refl s
  · exact .refl s

theorem finishTare_load (run : TareRun) (s : State) : LoadFrame back s (finishTare run s) := by
  have tared : LoadFrame back s { s with lch := taredLch run s.lch } := .of_same rfl rfl rfl
  rcases kind : run.kind with p | _
  · exact tared.trans (finishTare_port kind s).mark.load
  · rcases resident : s.residentSlot with _ | k
    · rw [finishTare_alone kind resident]
      exact tared
    · have done : LoadFrame back s { s with lch := taredLch run s.lch, live := s.live.map taredLive } := by
        refine ⟨.of_same rfl (.inl rfl) (fun _ _ => rfl) rfl, fun _ => id, fun none l now => ?_⟩
        obtain ⟨l', live, rfl⟩ := Option.map_eq_some_iff.1 now
        exact none l' live
      exact done.trans (finishTare_start kind resident).load

theorem collectTare_load (fl : Flight) (s : State) : LoadFrame back s (collectTare fl s) := by
  unfold collectTare
  split
  · split
    · dsimp only
      split
      · exact finishTare_load _ s
      · exact .of_same rfl rfl rfl
    · exact .refl s
  · exact .refl s

theorem loadStep_load (x : SampleSet) (conv : Option (BitVec 24)) (w : SetOrder) (s : State) :
    LoadFrame back s (loadStep x conv w s).1 := by
  rw [loadStep_eq]
  have converted := (lchConvert_load (back := back) x conv w s).trans (examineResumed_frame _).load
  have settled := converted.trans (settleMark_load (lchConvert x conv w s).2 _)
  exact (settled.trans (collectTare_load _ _)).trans (overloadCheck_load _ _)

/-- The set that a flight carries is the one latched. -/
theorem loadStep_flightSet (x : SampleSet) (conv : Option (BitVec 24)) (w : SetOrder) (s : State) :
    (loadStep x conv w s).2.set = x := by
  rw [loadStep_eq]
  unfold lchConvert
  dsimp only
  split <;> rfl

/-- The sampling unit's count of a set, and the STREAM it may report (R76, R77). -/
theorem countSet_load (conv : Option (BitVec 24)) (w : SetOrder) (s : State) :
    LoadFrame back s (countSet conv w s) := by
  unfold countSet
  split
  · exact .of_same rfl rfl rfl
  · unfold countMiss
    have counted : ∀ u : Smu, LoadFrame back s { s with smu := u } := fun u => .of_same rfl rfl rfl
    dsimp only
    split
    · exact (counted _).trans (post_fault_load _ _ _)
    · exact counted _

/-- A set as the extension channel receives it. -/
theorem received_load (x : SampleSet) (conv : Option (BitVec 24)) (w : SetOrder) (s : State) :
    LoadFrame back s (loadStep x conv w (countSet conv w s)).1 :=
  (countSet_load conv w s).trans (loadStep_load x conv w _)

end

/-- Behind the extension channel the blocks leave it as it is. -/
theorem sequenceSet_xch (x : SampleSet) (conv : Option (BitVec 24)) (w : SetOrder) (s : State) :
    (sequenceSet x conv w s).1.xch = (xchStep (loadStep x conv w s).2 (loadStep x conv w s).1).1.xch := by
  unfold sequenceSet
  dsimp only
  rw [msqStep_xch, evuStep_xch]

end Sys2Proof.Machine

/-! PROOFS about the extension channel's own part of a set (R113): what each of its steps makes of the channel. -/

namespace Sys2Proof.Machine

/-! ### Step 1: the channel states (R114 to R116, R121) -/

@[simp] theorem announceDetached_xch (left : ChannelState) (owner : Option SlotId) (v : Int) (s : State) :
    (announceDetached left owner v s).xch = s.xch := (announceDetached_frame left owner v s).xch

section
variable {fl : Flight} {s : State}

theorem channelStep_detached (state : s.xch.state = .detached) :
    (channelStep fl s).1.xch =
      { s.xch with state := if fl.set.extSeated = true then .seating else .detached } ∧
    (channelStep fl s).2 = false := by
  unfold channelStep
  rw [state]
  dsimp only
  split
  · exact ⟨rfl, rfl⟩
  · rw [← state]
    exact ⟨rfl, rfl⟩

theorem channelStep_seating (state : s.xch.state = .seating) (seated : fl.set.extSeated = true) :
    channelStep fl s = ({ s with xch := s.xch.capture fl.set.tables fl.set.armA fl.set.armB }, true) := by
  simp [channelStep, state, seated]

theorem channelStep_attached (state : s.xch.state = .attached) (seated : fl.set.extSeated = true) :
    channelStep fl s = (s, false) := by
  simp [channelStep, state, seated]

/-- The channel becomes DETACHED where the line reads inactive, unless it is held ATTACHED by a resident test (R115,
R116, R121). -/
theorem channelStep_detaches (unseated : fl.set.extSeated = false)
    (leaves : s.xch.state = .seating ∨ s.xch.state = .releasing ∨
      (s.xch.state = .attached ∧ s.residentSlot = none)) :
    (channelStep fl s).1.xch = s.xch.detach ∧ (channelStep fl s).2 = false := by
  rcases leaves with state | state | ⟨state, alone⟩
  · simp [channelStep, state, unseated]
  · simp [channelStep, state, unseated, releasingStep]
  · simp [channelStep, state, unseated, alone]

/-- A timer that comes to its limit expires, and RMFAIL is told to the removal owner (R121, R122). -/
theorem channelStep_timesOut {n : Nat} {k : SlotId} (state : s.xch.state = .releasing)
    (seated : fl.set.extSeated = true) (timer : s.xch.timer = .running n) (limit : n + 1 = s.xch.limit)
    (owner : s.xch.owner = some k) :
    (channelStep fl s).1.xch = { s.xch with timer := .expired s.xch.limit } ∧ (channelStep fl s).2 = false ∧
    RmfailTold k (channelStep fl s).1 := by
  have step : channelStep fl s =
      (removalTimedOut fl { s with xch := { s.xch with timer := .expired s.xch.limit } }, false) := by
    simp [channelStep, releasingStep, state, seated, timer, tickTimer, limit]
  rw [step]
  unfold removalTimedOut
  dsimp only
  rw [owner]
  refine ⟨by rw [post_mark_xch], rfl, ?_⟩
  dsimp only
  unfold post
  split
  · exact .inl ⟨_, _, List.mem_append_right _ (List.mem_singleton_self _)⟩
  · exact .inr (mem_setMark _ _ _ _ _)

/-! ### Step 2: the lanes (R105 to R107) -/

/-- Outside ATTACHED no lane is processed. -/
theorem lanesStep_idle (captured : Bool) (idle : s.xch.state ≠ .attached) :
    lanesStep fl captured s =
      ({ s with xch := { s.xch with armsAt := fl.set.armsAt } },
        { processed := false, valid := false, bad := false }) :=
  if_neg idle

/-- At the set that captures the zeros the lanes are valid and unprocessed (R115). -/
theorem lanesStep_captured (state : s.xch.state = .attached) :
    lanesStep fl true s =
      ({ s with xch := { s.xch with armsAt := fl.set.armsAt } }, { processed := false, valid := true, bad := false }) :=
  if_pos state

/-- The lane a set starts from: the first set after a write of ARMS re-bases it (R107). -/
def basedLane (fl : Flight) (x : Xch) (scale : Int) (l : Lane) : Lane :=
  if fl.set.armsAt ≠ x.armsAt then rebaseLane scale l else l

/-- A lane behind a set that processes it (R105). -/
def nextLane (fl : Flight) (s : State) (count scale : Int) (err : Bool) (l : Lane) : Lane :=
  laneStep count scale err ((boundOrder s).map (·.jumpLim)) (basedLane fl s.xch scale l)

abbrev nextLaneA (fl : Flight) (s : State) : Lane :=
  nextLane fl s fl.set.armA (armScales fl.set.tables).a fl.set.armAErr s.xch.laneA

abbrev nextLaneB (fl : Flight) (s : State) : Lane :=
  nextLane fl s fl.set.armB (armScales fl.set.tables).b fl.set.armBErr s.xch.laneB

/-- At any other set in ATTACHED both lanes are processed; a jump makes the set bad, and a bad set leaves the last good
extension (R105, R106). -/
theorem lanesStep_processed (state : s.xch.state = .attached) :
    ∃ delta diverges valid bad, lanesStep fl false s =
      ({ s with xch :=
          { s.xch with
            laneA := nextLaneA fl s
            laneB := nextLaneB fl s
            diverge := s.xch.diverge || diverges
            delta := some delta
            lastGood := if valid then some delta else s.xch.lastGood
            armsAt := fl.set.armsAt } }, { processed := true, valid := valid, bad := bad }) ∧
      ((nextLaneA fl s).jumpNow = true ∨ (nextLaneB fl s).jumpNow = true → bad = true ∧ valid = false) := by
  have based : ∀ scale l, (if decide (fl.set.armsAt ≠ s.xch.armsAt) = true then rebaseLane scale l else l) =
      basedLane fl s.xch scale l := fun _ _ => by simp [basedLane]
  unfold lanesStep
  dsimp only
  rw [if_pos state, if_neg (by decide), based, based]
  refine ⟨_, _, _, _, rfl, fun jump => ?_⟩
  rcases jump with jumpA | jumpB
  · unfold nextLaneA nextLane at jumpA
    simp [jumpA]
  · unfold nextLaneB nextLane at jumpB
    simp [jumpB]

end

theorem laneStep_zero (count scale : Int) (err : Bool) (lim : Option Int) (l : Lane) :
    (laneStep count scale err lim l).zero = l.zero := rfl

theorem laneStep_ext (count scale : Int) (err : Bool) (lim : Option Int) (l : Lane) :
    (laneStep count scale err lim l).ext = some (sat32 (scaledCount count scale - l.zero.getD 0)) := by
  unfold laneStep
  dsimp only

/-- A count with an error is a jump, sticky at once (R105). -/
theorem laneStep_err (count scale : Int) (lim : Option Int) (l : Lane) :
    (laneStep count scale true lim l).jumpNow = true ∧ (laneStep count scale true lim l).jump = true := by
  unfold laneStep
  dsimp only
  rw [Bool.true_or]
  exact ⟨rfl, Bool.or_true _⟩

section
variable {fl : Flight} {s : State} (count scale : Int) (err : Bool) (l : Lane)

/-- A lane that goes on under the same ARMS write keeps its zero (R105). -/
theorem nextLane_goesOn (same : fl.set.armsAt = s.xch.armsAt) :
    (nextLane fl s count scale err l).zero = l.zero ∧
    (nextLane fl s count scale err l).ext = some (sat32 (scaledCount count scale - l.zero.getD 0)) := by
  unfold nextLane basedLane
  rw [laneStep_zero, laneStep_ext, if_neg (not_not.2 same)]
  exact ⟨rfl, rfl⟩

/-- The first set under a new ARMS write moves the zero so that the extension goes on from the previous one (R107). -/
theorem nextLane_rebased (new : fl.set.armsAt ≠ s.xch.armsAt) {prev z : Int} (zero : l.zero.isSome = true)
    (before : l.prev = some prev) (moved : z = sat32 (scaledCount l.count scale - prev)) :
    (nextLane fl s count scale err l).zero = some z ∧
    (nextLane fl s count scale err l).ext = some (sat32 (scaledCount count scale - z)) := by
  obtain ⟨z₀, zero⟩ := Option.isSome_iff_exists.1 zero
  have based : (basedLane fl s.xch scale l).zero = some z := by
    simp [basedLane, new, rebaseLane, zero, before, moved]
  unfold nextLane
  rw [laneStep_zero, laneStep_ext, based]
  exact ⟨rfl, rfl⟩

theorem nextLane_err (error : err = true) :
    (nextLane fl s count scale err l).jumpNow = true ∧ (nextLane fl s count scale err l).jump = true := by
  rw [error]
  exact laneStep_err _ _ _ _

end

/-! ### Steps 3 to 5: handovers and the slipped mark (R110 to R112, R117 to R120) -/

/-- A test whose strain has been handed over to the crosshead with an offset (R111). -/
def handedLive (off : Int) (l : Live) : Live := { l with rt := { l.rt with source := .xhd, offset := some off } }

/-- Beside the test's source and offset, a handover shows in an event and a record alone. -/
theorem handover_frame (k : SlotId) (cause : HandoverCause) (carried ex : Int) (s : State) :
    MarkFrame { s with live := s.live.map (handedLive (sat32 (carried - ex))) } (handover k cause carried ex s) :=
  (raiseEvent_frame _ _ _).mark.trans (offerEvent_frame _ _ _ _ _ _)

theorem post_mark_live (keep : Bool) (k : SlotId) (m : Mark) (v : Int) (n : BitVec 32) (s : State) :
    (post keep (.mark k m v n) s).live = s.live := by
  unfold post
  split
  · rfl
  · exact (setMark_frame k m v n s).live

/-- The channel with the slipped mark set at invalid lanes (R118). -/
def Xch.flagged (bad : Bool) (x : Xch) : Xch := { x with slipped := x.slipped || bad }

@[simp] theorem Xch.flagged_false (x : Xch) : x.flagged false = x := by simp [Xch.flagged]

theorem flag_xch (bad : Bool) (s : State) : (if bad then setSlipped s else s).xch = s.xch.flagged bad := by
  cases bad
  · simp
  · simp [setSlipped, Xch.flagged]

theorem flag_live (bad : Bool) (s : State) : (if bad then setSlipped s else s).live = s.live := by
  split <;> rfl

section
variable {fl : Flight} {f : LaneFacts} {s : State}

/-- Where no test is on its extensometer, step 4 leaves it so and sets the slipped mark alone. -/
theorem slipStep_unextended (none : Unextended s) (ex : Int) :
    (slipStep fl f ex s).xch = s.xch.flagged f.bad ∧ Unextended (slipStep fl f ex s) := by
  have flagged : Unextended (if f.bad then setSlipped s else s) := by
    unfold Unextended
    rwa [flag_live]
  unfold slipStep
  split
  · rename_i l _ live
    dsimp only
    split
    · rename_i ext
      cases (none l live).symm.trans ext
    · have handed := handover_frame ‹SlotId› .resume (l.rt.lastExt.getD 0) ex (if f.bad then setSlipped s else s)
      refine ⟨handed.xch.trans (flag_xch _ _), fun l' now => ?_⟩
      rw [handed.live] at now
      obtain ⟨_, -, rfl⟩ := Option.map_eq_some_iff.1 now
      rfl
    · exact ⟨flag_xch _ _, flagged⟩
  · exact ⟨flag_xch _ _, flagged⟩

theorem slipStep_valid {l : Live} (live : s.live = some l) (ext : l.rt.source = .ext) (valid : f.valid = true)
    {k : SlotId} (resident : s.residentSlot = some k) (ex : Int) : slipStep fl f ex s = s := by
  simp [slipStep, resident, live, ext, valid]

/-- With invalid lanes a test on its extensometer slips (R117). -/
theorem slipStep_slips {l : Live} (live : s.live = some l) (ext : l.rt.source = .ext) (invalid : f.valid = false)
    {k : SlotId} (resident : s.residentSlot = some k) (ex : Int) :
    (slipStep fl f ex s).xch = { s.xch with slipped := true } ∧
    (slipStep fl f ex s).live =
      some (handedLive (sat32 (extStrain (s.xch.lastGood.getD 0) (s.slot k).order.l0 - ex)) l) := by
  have step : slipStep fl f ex s =
      let t := handover k .slip (extStrain (s.xch.lastGood.getD 0) (s.slot k).order.l0) ex (setSlipped s)
      post (decide (Mark.slip ∈ fl.w.late)) (.mark k .slip 0 (BitVec.ofNat 32 (setIndex t))) t := by
    simp [slipStep, resident, live, ext, invalid]
  have handed := handover_frame k .slip (extStrain (s.xch.lastGood.getD 0) (s.slot k).order.l0) ex (setSlipped s)
  rw [step]
  dsimp only
  rw [post_mark_xch, post_mark_live, handed.xch, handed.live]
  exact ⟨rfl, by simp [setSlipped, live]⟩

theorem removalTest_xhd {o : TestOrder} {l : Live} (xhd : l.rt.source = .xhd) (strain : Int) :
    removalTest fl o l strain = none := by
  simp [removalTest, xhd]

/-- Where step 4 leaves no test on its extensometer, no removal begins (R119). -/
theorem residentStrain_unextended {k : SlotId}
    (none : Unextended (slipStep fl f (setCrosshead fl k (seatPosRef fl.set.xh s)) (seatPosRef fl.set.xh s))) :
    (residentStrain fl f k s).1 = slipStep fl f (setCrosshead fl k (seatPosRef fl.set.xh s)) (seatPosRef fl.set.xh s) ∧
    (residentStrain fl f k s).2.2 = Option.none := by
  unfold residentStrain
  dsimp only
  split
  · exact ⟨rfl, rfl⟩
  · rename_i l live
    rw [removalTest_xhd (none l live)]
    exact ⟨rfl, rfl⟩

theorem seatPosRef_unextended (p : Int) (none : Unextended s) : Unextended (seatPosRef p s) := by
  intro l now
  obtain ⟨l', live, rfl⟩ := Option.map_eq_some_iff.1 now
  exact none l' live

@[simp] theorem parkedWatch_xch (s : State) : (parkedWatch s).xch = s.xch := by
  unfold parkedWatch
  split
  · split
    · split <;> rfl
    · rfl
  · rfl

end

/-! ### Steps 1 and 2 together -/

theorem channelStep_live (fl : Flight) (s : State) : (channelStep fl s).1.live = s.live := by
  have announced : ∀ st o v (x : Xch), (announceDetached st o v { s with xch := x }).live = s.live := fun st o v x =>
    (announceDetached_frame st o v { s with xch := x }).live
  have released : (releasingStep fl s).live = s.live := by
    unfold releasingStep removalTimedOut
    dsimp only
    split
    · split
      · split
        · split
          · exact post_mark_live _ _ _ _ _ _
          · rfl
        · rfl
      · rfl
    · exact announced _ _ _ _
  unfold channelStep
  split
  · split <;> rfl
  · split
    · rfl
    · exact announced _ _ _ _
  · split
    · rfl
    · exact announced _ _ _ _
  · exact released

theorem lanesStep_live (fl : Flight) (captured : Bool) (s : State) : (lanesStep fl captured s).1.live = s.live := by
  unfold lanesStep
  dsimp only
  split
  · split <;> rfl
  · rfl

/-- A channel that a set leaves outside ATTACHED has taken its ARMS write alone beside its state (R107). -/
theorem lanesStep_idle_xch {s : State} (fl : Flight) (captured : Bool) {x : Xch} (xch : s.xch = x)
    (idle : x.state ≠ .attached) :
    (lanesStep fl captured s).1.xch = { x with armsAt := fl.set.armsAt } ∧ (lanesStep fl captured s).2.valid = false ∧
    (lanesStep fl captured s).2.bad = false := by
  rw [lanesStep_idle captured (xch ▸ idle), ← xch]
  exact ⟨rfl, rfl, rfl⟩

/-- The state and the lane facts behind steps 1 and 2. -/
abbrev lanesAt (fl : Flight) (s : State) : State × LaneFacts :=
  lanesStep fl (channelStep fl s).2 (channelStep fl s).1

section
variable {fl : Flight} {s : State}

theorem lanesAt_armsAt : (lanesAt fl s).1.xch.armsAt = fl.set.armsAt := by
  unfold lanesAt lanesStep
  dsimp only
  split
  · split <;> rfl
  · rfl

theorem lanesAt_unextended (none : Unextended s) : Unextended (lanesAt fl s).1 := by
  unfold Unextended
  rwa [lanesStep_live, channelStep_live]

theorem lanesAt_detached (state : s.xch.state = .detached) :
    (lanesAt fl s).1.xch.state = if fl.set.extSeated = true then .seating else .detached := by
  obtain ⟨xch, -⟩ := channelStep_detached (fl := fl) state
  obtain ⟨lanes, -⟩ := lanesStep_idle_xch fl (channelStep fl s).2 xch (by dsimp only; split <;> decide)
  rw [lanes]

theorem lanesAt_seating (state : s.xch.state = .seating) (seated : fl.set.extSeated = true) :
    (lanesAt fl s).1.xch =
      { s.xch.capture fl.set.tables fl.set.armA fl.set.armB with armsAt := fl.set.armsAt } ∧
    (lanesAt fl s).2.bad = false := by
  unfold lanesAt
  rw [channelStep_seating state seated, lanesStep_captured rfl]
  exact ⟨rfl, rfl⟩

theorem lanesAt_detaches (unseated : fl.set.extSeated = false)
    (leaves : s.xch.state = .seating ∨ s.xch.state = .releasing ∨
      (s.xch.state = .attached ∧ s.residentSlot = none)) :
    (lanesAt fl s).1.xch = { s.xch.detach with armsAt := fl.set.armsAt } ∧ (lanesAt fl s).2.bad = false := by
  obtain ⟨xch, -⟩ := channelStep_detaches unseated leaves
  obtain ⟨lanes, -, bad⟩ := lanesStep_idle_xch fl (channelStep fl s).2 xch (by simp [Xch.detach])
  exact ⟨lanes, bad⟩

end

/-! ### The whole part -/

/-- With no test on its extensometer, the channel takes its state and lanes from steps 1 and 2, and the slipped mark at
a bad set. -/
theorem xchStep_unextended {fl : Flight} {s : State} (none : Unextended s) :
    (xchStep fl s).1.xch = (lanesAt fl s).1.xch.flagged (lanesAt fl s).2.bad := by
  have lanes := lanesAt_unextended (fl := fl) none
  unfold xchStep
  dsimp only
  split
  · rename_i k _
    obtain ⟨slipped, still⟩ := slipStep_unextended (fl := fl) (f := (lanesAt fl s).2)
      (seatPosRef_unextended fl.set.xh lanes) (setCrosshead fl k (seatPosRef fl.set.xh (lanesAt fl s).1))
    rw [parkedWatch_xch, (residentStrain_unextended still).1, slipped]
    rfl
  · rw [parkedWatch_xch, (slipStep_unextended lanes 0).1]

/-- With unprocessed, invalid lanes the resident test can change the slipped mark alone. -/
theorem residentStrain_invalid {fl : Flight} {f : LaneFacts} {k : SlotId} {s : State}
    (resident : s.residentSlot = some k) (invalid : f.valid = false) :
    ∃ slipped, (residentStrain fl f k s).1.xch = { s.xch with slipped := slipped } := by
  by_cases none : Unextended s
  · obtain ⟨slipped, still⟩ := slipStep_unextended (fl := fl) (f := f) (seatPosRef_unextended fl.set.xh none)
      (setCrosshead fl k (seatPosRef fl.set.xh s))
    exact ⟨_, (congrArg State.xch (residentStrain_unextended still).1).trans slipped⟩
  · simp only [Unextended, not_forall] at none
    obtain ⟨l, live, notXhd⟩ := none
    have ext : l.rt.source = .ext := by
      cases source : l.rt.source
      · rfl
      · exact absurd source notXhd
    have seated : (seatPosRef fl.set.xh s).live =
        some { l with rt := { l.rt with posRef := some (l.rt.posRef.getD fl.set.xh) } } := by
      simp [seatPosRef, live]
    obtain ⟨slipped, handed⟩ := slipStep_slips (fl := fl) seated ext invalid (k := k) resident
      (setCrosshead fl k (seatPosRef fl.set.xh s))
    have still : Unextended (slipStep fl f (setCrosshead fl k (seatPosRef fl.set.xh s)) (seatPosRef fl.set.xh s)) := by
      intro l' now
      cases handed.symm.trans now
      rfl
    exact ⟨_, (congrArg State.xch (residentStrain_unextended still).1).trans slipped⟩

/-- Behind step 1 the rest of the channel's part is a way like another. -/
theorem channelStep_rest_way (fl : Flight) (s : State) : WayFrame (channelStep fl s).1 (xchStep fl s).1 := by
  have lanes := lanesStep_way fl (channelStep fl s).2 (channelStep fl s).1
  unfold xchStep
  dsimp only
  split
  · exact lanes.trans ((residentStrain_way _ _ _ _).trans (parkedWatch_way _))
  · exact lanes.trans ((slipStep_way _ _ _ _).trans (parkedWatch_way _))

/-- At a timeout the timer is expired, and RMFAIL told (R121, R122). -/
theorem xchStep_timesOut {fl : Flight} {s : State} {n : Nat} {k : SlotId} (state : s.xch.state = .releasing)
    (seated : fl.set.extSeated = true) (timer : s.xch.timer = .running n) (limit : n + 1 = s.xch.limit)
    (owner : s.xch.owner = some k) :
    (∃ slipped, (xchStep fl s).1.xch =
      { s.xch with timer := .expired s.xch.limit, slipped := slipped, armsAt := fl.set.armsAt }) ∧
    RmfailTold k (xchStep fl s).1 := by
  obtain ⟨xch, -, told⟩ := channelStep_timesOut state seated timer limit owner
  obtain ⟨lanes, invalid, good⟩ := lanesStep_idle_xch fl (channelStep fl s).2 xch (by simp [state])
  refine ⟨?_, told.way (channelStep_rest_way fl s)⟩
  unfold xchStep
  dsimp only
  split
  · rename_i resident
    obtain ⟨slipped, strain⟩ := residentStrain_invalid (fl := fl) resident invalid
    exact ⟨slipped, by rw [parkedWatch_xch, strain, lanes]⟩
  · rename_i alone
    refine ⟨s.xch.slipped, ?_⟩
    have flagged : (slipStep fl (lanesAt fl s).2 0 (lanesAt fl s).1).xch = (lanesAt fl s).1.xch := by
      have step : slipStep fl (lanesAt fl s).2 0 (lanesAt fl s).1 = (lanesAt fl s).1 := by
        simp [slipStep, alone, good]
      rw [step]
    rw [parkedWatch_xch, flagged, lanes]

end Sys2Proof.Machine

/-! PROOFS about the extension channel over a whole set, and the obligations on its states and on its removal timer. -/

namespace Sys2Proof.Machine

/-! ### Seating, lanes and detaching (R105, R107, R114 to R116, R121) -/

/-- With no test on its extensometer, the channel at the end of a set is what steps 1 and 2 make of it as the load
channel hands the set on, the slipped mark of a bad set beside it. -/
theorem arriveSet_channel {s : State} {x : SampleSet} (assembling : s.smu.assembling = some x) (none : Unextended s)
    (code : BitVec 24) (w : SetOrder) :
    ∃ fl u, fl.set = x ∧ u.xch = s.xch ∧ (∀ k, u.ctx.resident = some (.test k) → s.ctx.resident = some (.test k)) ∧
      (arriveSet code w s).xch = (lanesAt fl u).1.xch.flagged (lanesAt fl u).2.bad := by
  have received := received_load (back := fun _ => True) x (some code) w s
  refine ⟨_, _, loadStep_flightSet x (some code) w (countArrival s), received.removal.xch, received.resident, ?_⟩
  rw [arriveSet_eq assembling, (runSet_removal (back := fun _ => True) x (some code) w fun _ _ _ _ => trivial).1,
    sequenceSet_xch]
  exact xchStep_unextended (received.source none)

/-- The channel of a set whose lanes are processed: a jump leaves the slipped mark and the last good extension as they
stand at a bad set (R105, R106, R118). -/
theorem lanesAt_attached {fl : Flight} {s : State} (state : s.xch.state = .attached)
    (seated : fl.set.extSeated = true) :
    ∃ x : Xch, (lanesAt fl s).1.xch.flagged (lanesAt fl s).2.bad = x ∧ x.state = .attached ∧
      x.laneA = nextLaneA fl s ∧ x.laneB = nextLaneB fl s ∧
      ((nextLaneA fl s).jumpNow = true ∨ (nextLaneB fl s).jumpNow = true →
        x.slipped = true ∧ x.lastGood = s.xch.lastGood) := by
  obtain ⟨delta, diverges, valid, bad, step, jumps⟩ := lanesStep_processed (fl := fl) state
  have same : lanesAt fl s = lanesStep fl false s := by
    unfold lanesAt
    rw [channelStep_attached state seated]
  rw [same, step]
  refine ⟨_, rfl, state, rfl, rfl, fun jump => ?_⟩
  obtain ⟨rfl, rfl⟩ := jumps jump
  exact ⟨Bool.or_true _, rfl⟩

/-- Settles O44: the channel's states and lanes by the step that makes them, with nothing behind the channel's own part
of the set changing them. -/
theorem theExtensometerIsSeated : Obligations.TheExtensometerIsSeated := by
  intro code w s x power assembling unextended
  obtain ⟨fl, u, rfl, same, resident, ended⟩ := arriveSet_channel assembling unextended code w
  refine ⟨_, exec_conversionArrival code false w power, ?_, fun state => ?_, fun state seated => ?_,
    fun state seated written => ?_, fun zA zB pA pB state seated written zeroA zeroB prevA prevB isA isB => ?_,
    fun unseated leaves => ?_⟩
  all_goals
    rw [if_neg Bool.false_ne_true, ended]
  · exact lanesAt_armsAt
  · exact lanesAt_detached (same ▸ state)
  · obtain ⟨xch, bad⟩ := lanesAt_seating (s := u) (same ▸ state) seated
    rw [xch, bad, Xch.flagged_false]
    exact ⟨rfl, rfl, rfl, rfl, rfl, rfl, rfl, rfl, rfl, rfl, rfl, rfl⟩
  · obtain ⟨t, is, attached, laneA, laneB, jumps⟩ := lanesAt_attached (s := u) (same ▸ state) seated
    obtain ⟨zeroA, extA⟩ := nextLane_goesOn fl.set.armA _ fl.set.armAErr u.xch.laneA (written.trans (by rw [same]))
    obtain ⟨zeroB, extB⟩ := nextLane_goesOn fl.set.armB _ fl.set.armBErr u.xch.laneB (written.trans (by rw [same]))
    rw [is, laneA, laneB, ← same]
    refine ⟨attached, zeroA, zeroB, extA, extB, fun err => ?_, fun err => ?_⟩
    · obtain ⟨now, sticky⟩ := nextLane_err (fl := fl) (s := u) fl.set.armA _ _ u.xch.laneA err
      exact ⟨sticky, jumps (.inl now)⟩
    · obtain ⟨now, sticky⟩ := nextLane_err (fl := fl) (s := u) fl.set.armB _ _ u.xch.laneB err
      exact ⟨sticky, jumps (.inr now)⟩
  · obtain ⟨t, is, attached, laneA, laneB, -⟩ := lanesAt_attached (s := u) (same ▸ state) seated
    rw [← same] at written zeroA zeroB prevA prevB isA isB
    obtain ⟨zeroA, extA⟩ := nextLane_rebased fl.set.armA _ fl.set.armAErr _ written zeroA prevA isA
    obtain ⟨zeroB, extB⟩ := nextLane_rebased fl.set.armB _ fl.set.armBErr _ written zeroB prevB isB
    rw [is, laneA, laneB]
    exact ⟨attached, zeroA, zeroB, extA, extB⟩
  · have held : u.xch.state = .seating ∨ u.xch.state = .releasing ∨
        (u.xch.state = .attached ∧ u.residentSlot = none) := by
      rw [same]
      refine leaves.imp_right (.imp_right (.imp_right fun alone => ?_))
      exact Option.eq_none_iff_forall_ne_some.2 fun k test => alone k (resident k (residentSlot_eq_some.1 test))
    obtain ⟨xch, bad⟩ := lanesAt_detaches unseated held
    rw [xch, bad, Xch.flagged_false, same]
    exact ⟨rfl, rfl, rfl, rfl, rfl, rfl, rfl, rfl, rfl, rfl, rfl⟩

/-! ### The removal timer (R121, R122) -/

/-- The row of a removal timeout is the set at which it is due (log entry 4). -/
theorem exec_removalTimeout (conv : Option (BitVec 24)) (w : SetOrder) {s : State} (power : s.power = true)
    (due : removalDue s = true) : exec (.removalTimeout conv w) s = .next (completeSet conv w s) := by
  show Host.Outcome.next (powered (setWhere (fun _ _ => removalDue) conv w) s) = _
  simp [powered, power, setWhere, due]

/-- Settles O43: the timer expires and RMFAIL is told at step 1 of the channel's part, and no more than a resume of the
owner's test, which nothing pending or raised at the set brings about, would take the mark again. -/
theorem aRemovalTimesOut : Obligations.ARemovalTimesOut := by
  intro conv w s x n k power assembling seated state timer limit owner notResumed
  have due : removalDue s = true := by simp [removalDue, state, timer, assembling, limit, seated]
  have received := received_load (back := (· ≠ k)) x conv w s
  have flight := loadStep_flightSet x conv w (countSet conv w s)
  have same := received.removal.xch
  obtain ⟨⟨slipped, xch⟩, told⟩ := xchStep_timesOut (fl := (loadStep x conv w (countSet conv w s)).2)
    (by rw [same, state]) (by rw [flight, seated]) (by rw [same, timer]) (by rw [same, limit]) (by rw [same, owner])
  have only : ResumesOnly (· ≠ k) (sequenceSet x conv w (countSet conv w s)).1 := by
    refine (received.removal.resumes fun c j pending incoming test => ?_).chain (sequenceSet_way _ _ _ _).chain
    exact notResumed c pending (test ▸ incoming)
  have behind : WayFrame (xchStep (loadStep x conv w (countSet conv w s)).2 (loadStep x conv w (countSet conv w s)).1).1
      (sequenceSet x conv w (countSet conv w s)).1 := (evuStep_way _ _ _).trans (msqStep_way _ _ _ _)
  obtain ⟨ended, marked⟩ := runSet_removal x conv w only
  refine ⟨_, exec_removalTimeout conv w power due, ?_⟩
  rw [completeSet_eq assembling, ended, sequenceSet_xch, xch, same]
  exact ⟨rfl, state, owner, rfl, marked k (by simp) (told.way behind)⟩

end Sys2Proof.Machine

/-! PROOFS about the strain of a test on its extensometer (R108, R110 to R112, R117, R119, R120): a set that slips, one
that begins a removal and one that does neither, and the obligation from the three. -/

namespace Sys2Proof.Machine

theorem sat32_sat32 (v : Int) : sat32 (sat32 v) = sat32 v := by
  have bounds := clamp_bounds (lo := Config.minI32) (hi := Config.maxI32) (by decide) v
  unfold sat32
  generalize clamp Config.minI32 Config.maxI32 v = y at *
  unfold clamp
  split
  · omega
  · split <;> omega

/-- The crosshead strain under the offset of a handover is the strain carried across, where the offset does not
saturate (R111). -/
theorem handedStrain {carried ex : Int} (strain : sat32 carried = carried)
    (fits : carried - ex = sat32 (carried - ex)) :
    sat32 (ex + sat32 (carried - ex)) = carried := by
  rw [← fits, show ex + (carried - ex) = carried by omega, strain]

/-! ### The test of R119 -/

section
variable {fl : Flight} {o : TestOrder} {l : Live}

/-- A set at which R119 is evaluated, with the strain at the removal strain or beyond it. -/
abbrev RemovalReached (fl : Flight) (o : TestOrder) (l : Live) (strain : Int) : Prop :=
  fl.tareSet = false ∧ l.rt.eval.opened = true ∧ o.eRm ≠ 0 ∧ o.eRm ≤ strain

variable (ext : l.rt.source = .ext) (strain : Int)
include ext

theorem removalTest_unreached (h : ¬RemovalReached fl o l strain) : removalTest fl o l strain = none := by
  unfold removalTest
  refine if_pos ?_
  by_contra reached
  simp only [ext, Bool.or_eq_true, decide_eq_true_eq, not_or, bne_self_eq_false] at reached
  obtain ⟨⟨⟨⟨tare, opened⟩, strains⟩, -⟩, below⟩ := reached
  exact h ⟨by simpa using tare, by simpa using opened, strains, not_lt.1 below⟩

theorem removalTest_reached (h : RemovalReached fl o l strain) :
    removalTest fl o l strain =
      if l.rt.eval.settled = true then some false
      else if sat32 (o.eRm + 2000000) ≤ strain then some true else none := by
  obtain ⟨tare, opened, strains, reached⟩ := h
  unfold removalTest
  rw [if_neg (by simp [tare, opened, strains, ext, reached])]

theorem removalTest_eq_some {forced : Bool} (h : removalTest fl o l strain = some forced) :
    RemovalReached fl o l strain := by
  by_contra unreached
  rw [removalTest_unreached ext strain unreached] at h
  cases h

theorem removalTest_false_iff :
    removalTest fl o l strain = some false ↔ RemovalReached fl o l strain ∧ l.rt.eval.settled = true := by
  by_cases reached : RemovalReached fl o l strain
  · rw [removalTest_reached ext strain reached]
    by_cases settled : l.rt.eval.settled = true
    · simpa [settled] using reached
    · rw [if_neg settled]
      split <;> simp [settled]
  · simp [removalTest_unreached ext strain reached, reached]

theorem removalTest_true_iff :
    removalTest fl o l strain = some true ↔
      RemovalReached fl o l strain ∧ l.rt.eval.settled = false ∧ sat32 (o.eRm + 2000000) ≤ strain := by
  by_cases reached : RemovalReached fl o l strain
  · rw [removalTest_reached ext strain reached]
    by_cases settled : l.rt.eval.settled = true
    · simp [settled]
    · rw [if_neg settled]
      split
      · rename_i beyond
        simpa [settled, beyond] using reached
      · rename_i short
        simp [short]
  · simp [removalTest_unreached ext strain reached, reached]

end

/-! ### A set of a test on its extensometer -/

/-- The channel as a removal begins (R120). -/
def Xch.removed (k : SlotId) (limit : Nat) (x : Xch) : Xch :=
  { x with
    state := .releasing, laneA := x.laneA.quiet, laneB := x.laneB.quiet, delta := none, timer := .running 0
    owner := some k, limit := limit, extRel := true }

/-- A test whose crosshead reference is seated (R108). -/
def referredLive (p : Int) (l : Live) : Live := { l with rt := { l.rt with posRef := some (l.rt.posRef.getD p) } }

/-- A test on its extensometer has the strain of the averaged extension in use (R110). -/
theorem strainInUse_ext {l : Live} (ext : l.rt.source = .ext) (k : SlotId) (ex : Int) (s : State) :
    strainInUse k ex l s = extStrain (s.xch.delta.getD 0) (s.slot k).order.l0 := by
  unfold strainInUse
  rw [ext]

theorem beginRemoval_eq (k : SlotId) (strain ex : Int) (s : State) :
    (beginRemoval k strain ex s).xch = s.xch.removed k (s.slot k).order.rmTimeout ∧
    (beginRemoval k strain ex s).live = s.live.map (handedLive (sat32 (strain - ex))) := by
  have handed := handover_frame k .removal strain ex s
  have limit : ((handover k .removal strain ex s).slot k).order = (s.slot k).order := handed.order k
  refine ⟨?_, handed.live⟩
  unfold beginRemoval
  dsimp only
  rw [limit, handed.xch]
  rfl

section
variable (fl : Flight) {f : LaneFacts} {k : SlotId} {s : State} {l : Live}

/-- The crosshead strain of a set (R108). -/
abbrev crossheadAt (fl : Flight) (o : TestOrder) (l : Live) : Int :=
  crossheadStrain fl.set.xh (l.rt.posRef.getD fl.set.xh) fl.after (complianceOf fl.set.tables) o.lc

variable (live : s.live = some l)
include live

theorem seatPosRef_live : (seatPosRef fl.set.xh s).live = some (referredLive fl.set.xh l) := by
  simp [seatPosRef, live, referredLive]

theorem setCrosshead_seated :
    setCrosshead fl k (seatPosRef fl.set.xh s) = crossheadAt fl (s.slot k).order l := by
  unfold setCrosshead
  rw [seatPosRef_live fl live]
  rfl

variable (resident : s.residentSlot = some k) (ext : l.rt.source = .ext)
include resident ext

/-- A set with invalid lanes slips: the last good extension is carried across (R111, R117). -/
theorem residentStrain_slips (invalid : f.valid = false) {carried ex : Int}
    (strain : carried = extStrain (s.xch.lastGood.getD 0) (s.slot k).order.l0)
    (crosshead : ex = crossheadAt fl (s.slot k).order l) :
    (residentStrain fl f k s).1.xch = { s.xch with slipped := true } ∧
    (residentStrain fl f k s).1.live = some (handedLive (sat32 (carried - ex)) (referredLive fl.set.xh l)) ∧
    (residentStrain fl f k s).2 = (sat32 (ex + sat32 (carried - ex)), none) := by
  obtain ⟨xch, handed⟩ := slipStep_slips (fl := fl) (seatPosRef_live fl live) ext invalid (k := k) resident ex
  have handed : (slipStep fl f ex (seatPosRef fl.set.xh s)).live =
      some (handedLive (sat32 (carried - ex)) (referredLive fl.set.xh l)) := by rw [handed, strain]; rfl
  unfold residentStrain
  dsimp only
  rw [setCrosshead_seated fl live, ← crosshead, handed]
  dsimp only
  rw [removalTest_xhd rfl]
  exact ⟨xch, handed, rfl⟩

variable (valid : f.valid = true) {carried : Int}
  (strain : carried = extStrain (s.xch.delta.getD 0) (s.slot k).order.l0)
include valid strain

/-- A set with valid lanes at which no removal begins carries its own strain (R110). -/
theorem residentStrain_stays (none : removalTest fl (s.slot k).order l carried = Option.none) :
    residentStrain fl f k s = (seatPosRef fl.set.xh s, carried, Option.none) := by
  have stays := fun ex => slipStep_valid (fl := fl) (seatPosRef_live fl live) ext valid (k := k) resident ex
  have carries : strainInUse k (setCrosshead fl k (seatPosRef fl.set.xh s)) (referredLive fl.set.xh l)
      (seatPosRef fl.set.xh s) = carried := (strainInUse_ext (l := referredLive _ l) ext _ _ _).trans strain.symm
  have untested : removalTest fl ((seatPosRef fl.set.xh s).slot k).order (referredLive fl.set.xh l) carried =
      Option.none := none
  unfold residentStrain
  dsimp only
  rw [stays, seatPosRef_live fl live]
  dsimp only
  rw [carries, untested]

/-- A set with valid lanes that begins a removal carries its strain across (R111, R120). -/
theorem residentStrain_removes {forced : Bool} (begins : removalTest fl (s.slot k).order l carried = some forced)
    {ex : Int} (crosshead : ex = crossheadAt fl (s.slot k).order l) :
    (residentStrain fl f k s).1.xch = s.xch.removed k (s.slot k).order.rmTimeout ∧
    (residentStrain fl f k s).1.live = some (handedLive (sat32 (carried - ex)) (referredLive fl.set.xh l)) ∧
    (residentStrain fl f k s).2 = (sat32 (ex + sat32 (carried - ex)), some forced) := by
  have stays := slipStep_valid (fl := fl) (seatPosRef_live fl live) ext valid (k := k) resident ex
  have carries : strainInUse k ex (referredLive fl.set.xh l) (seatPosRef fl.set.xh s) = carried :=
    (strainInUse_ext (l := referredLive _ l) ext _ _ _).trans strain.symm
  have tested : removalTest fl ((seatPosRef fl.set.xh s).slot k).order (referredLive fl.set.xh l) carried =
      some forced := begins
  obtain ⟨xch, handed⟩ := beginRemoval_eq k carried ex (seatPosRef fl.set.xh s)
  have handed : (beginRemoval k carried ex (seatPosRef fl.set.xh s)).live =
      some (handedLive (sat32 (carried - ex)) (referredLive fl.set.xh l)) := by
    rw [handed, seatPosRef_live fl live]
    rfl
  unfold residentStrain
  dsimp only
  rw [setCrosshead_seated fl live, ← crosshead, stays, seatPosRef_live fl live]
  dsimp only
  rw [carries, tested]
  dsimp only
  rw [handed]
  exact ⟨xch, rfl, rfl⟩

end

/-- Settles O45: with invalid lanes the set slips; with valid ones the test of R119 says whether a removal begins. -/
theorem aHandoverKeepsTheStrain : Obligations.AHandoverKeepsTheStrain := by
  intro fl f k s l resident live ext carried off ex r strain crosshead offset run
  have inRange : sat32 carried = carried := by rw [strain]; exact sat32_sat32 _
  subst offset run
  rcases valid : f.valid with _ | _
  · rw [valid, if_neg Bool.false_ne_true] at strain
    obtain ⟨xch, handed, out⟩ := residentStrain_slips fl live resident ext valid strain crosshead
    rw [out, handed, xch]
    exact ⟨handedStrain inRange, nofun, nofun, fun _ => ⟨rfl, rfl⟩, fun none => absurd rfl none, fun _ => ⟨rfl, rfl⟩⟩
  · rw [valid, if_pos rfl] at strain
    have begins := fun (evaluated : Prop) (is : evaluated ↔ RemovalReached fl (s.slot k).order l carried) =>
      And.intro ((removalTest_false_iff ext carried).trans (and_congr_left' is.symm))
        ((removalTest_true_iff ext carried).trans (and_congr_left' is.symm))
    rcases test : removalTest fl (s.slot k).order l carried with _ | forced
    · rw [test] at begins
      rw [residentStrain_stays fl live resident ext valid strain test, seatPosRef_live fl live]
      refine ⟨fun _ => rfl, fun _ _ => ⟨congrArg some ext, rfl, rfl⟩, fun _ => begins, nofun,
        fun none => absurd rfl none, ?_⟩
      rintro (invalid | none)
      · cases invalid
      · exact absurd rfl none
    · rw [test] at begins
      obtain ⟨xch, handed, out⟩ := residentStrain_removes fl live resident ext valid strain test crosshead
      obtain ⟨-, -, strains, reached⟩ := removalTest_eq_some ext carried test
      rw [out, handed, xch]
      exact ⟨handedStrain inRange, nofun, fun _ => begins, nofun,
        fun _ => ⟨rfl, rfl, rfl, rfl, rfl, rfl, rfl, strains, reached⟩, fun _ => ⟨rfl, rfl⟩⟩

end Sys2Proof.Machine

/-! PROOFS about the modulus window (R132 to R134, R136): what a set does to an open window, an open window over a list
of sets in closed form, and the obligation from the branches of the fit and of the bending. -/

namespace Sys2Proof.Machine

/-! ### A set at an open window (R132, R133) -/

section
variable (o : TestOrder) {i : EvalIn} {ev : Eval}

theorem evalWindowStep_held (held : i.held = true) : evalWindowStep o i ev = ev := if_pos held

theorem evalWindowStep_below {o : TestOrder} (unopened : ev.window = .notOpened) (below : i.stress < o.sLo) :
    evalWindowStep o i ev = ev := by
  simp [evalWindowStep, unopened, below.not_ge]

theorem evalWindowStep_opens {o : TestOrder} (unopened : ev.window = .notOpened) (notHeld : i.held = false)
    (reached : o.sLo ≤ i.stress) : evalWindowStep o i ev = evalWindowStep o i { ev with window := .opened } := by
  simp [evalWindowStep, unopened, notHeld, reached]

theorem evalWindowStep_of_opened (opened : ev.window = .opened) (notHeld : i.held = false) :
    evalWindowStep o i ev =
      if o.sHi < i.stress then enterRising i (closeWindow o none ev)
      else if Config.fitFull ≤ ev.n + 1 then enterRising i (closeWindow o (some .fitFull) (accumulate i ev))
      else accumulate i ev := by
  simp [evalWindowStep, opened, notHeld, accumulate]

theorem evalWindowStep_stays_opened (opened : ev.window = .opened) : (evalWindowStep o i ev).window ≠ .notOpened := by
  rcases evalWindowStep_cases o i ev with same | ⟨-, -, ⟨-, -, takes⟩ | ⟨-, leaves⟩ | ⟨-, -, fills⟩⟩
  · simp [same, opened]
  · simp [takes, accumulate]
  · simp [leaves, enterRising]
  · simp [fills, enterRising]

end

/-! ### An open window over a list of sets (R132) -/

/-- The evaluation behind an open window that took these sets, and that alone: their count, their four exact sums, the
source of the first and the extensions of the last. -/
def windowOver (taken : List EvalIn) : Eval :=
  { Eval.start with
    window := .opened
    n := taken.length
    sumE := (taken.map (·.strain)).sum
    sumS := (taken.map (·.stress)).sum
    sumEE := (taken.map fun i => i.strain * i.strain).sum
    sumES := (taken.map fun i => i.strain * i.stress).sum
    fitSource := taken.head?.map (·.source)
    lastExts := taken.getLast?.bind (·.exts) }

theorem accumulate_windowOver (i : EvalIn) (taken : List EvalIn) :
    accumulate i (windowOver taken) = windowOver (taken ++ [i]) := by
  cases taken with
  | nil => simp [accumulate, windowOver]
  | cons first rest =>
    have last : (first :: (rest ++ [i])).getLast? = some i := List.getLast?_concat (l := first :: rest)
    simp [accumulate, windowOver, add_assoc, last]

/-- The window stays open over sets at or below its upper stress, fewer than 4,096 of them not held. -/
theorem foldl_evalWindowStep (o : TestOrder) (sets : List EvalIn)
    (within : ∀ i ∈ sets.filter (fun i => !i.held), i.stress ≤ o.sHi)
    (few : (sets.filter fun i => !i.held).length < 4096) :
    sets.foldl (fun ev i => evalWindowStep o i ev) { Eval.start with window := .opened } =
      windowOver (sets.filter fun i => !i.held) := by
  induction sets using List.reverseRecOn with
  | nil => rfl
  | append_singleton before i ih =>
    rw [List.foldl_append, List.foldl_cons, List.foldl_nil]
    rcases held : i.held with _ | _
    · simp only [List.filter_append, List.filter_singleton, held, Bool.not_false, cond_true, List.forall_mem_append,
        List.forall_mem_singleton, List.length_append, List.length_singleton] at within few ⊢
      have room : ¬Config.fitFull ≤ (windowOver (before.filter fun i => !i.held)).n + 1 := by
        simp only [windowOver, Config.fitFull]
        omega
      rw [ih within.1 (by omega), evalWindowStep_of_opened o rfl held, if_neg within.2.not_gt, if_neg room,
        accumulate_windowOver]
    · simp only [List.filter_append, List.filter_singleton, held, Bool.not_true, cond_false, List.append_nil]
        at within few ⊢
      rw [ih within few, evalWindowStep_held o held]

/-! ### The fit of R134 -/

theorem roundDiv_nonneg {a b : Int} (ha : 0 ≤ a) (hb : 0 < b) : 0 ≤ roundDiv a b := by
  have floor := Int.ediv_nonneg ha hb.le
  rw [roundDiv_of_pos a hb]
  unfold roundPos
  dsimp only
  split
  · exact floor
  · split
    · omega
    · split <;> omega

theorem sat32_of_pos {x : Int} (pos : 0 < x) : sat32 x = min 2147483647 x := by
  unfold sat32 clamp Config.minI32 Config.maxI32
  rw [if_neg (by omega)]
  split <;> omega

section
variable {ev : Eval}

theorem fitOf_short (short : ev.n < 32) : fitOf ev = (none, some .fitShort) := if_pos short

variable {num den b : Int} (long : 32 ≤ ev.n) (numEq : num = ev.n * ev.sumES - ev.sumE * ev.sumS)
  (denEq : den = ev.n * ev.sumEE - ev.sumE * ev.sumE) (bEq : b = roundDiv (num * 65536) den)
include long numEq denEq bEq

theorem fitOf_flat (flat : den ≤ 0 ∨ num ≤ 0 ∨ b = 0) : fitOf ev = (none, some .fitFlat) := by
  unfold fitOf
  dsimp only
  rw [if_neg (show ¬ev.n < Config.fitShort from long.not_gt), ← numEq, ← denEq, ← bEq]
  split
  · rfl
  · exact if_pos (by tauto)

theorem fitOf_slope (hden : 0 < den) (hnum : 0 < num) (hb : b ≠ 0) :
    fitOf ev =
      (some { e := sat32 (roundDiv (sat32 b * 100000) 65536), b := sat32 b
              a := sat32 (roundDiv (ev.sumS * 65536 - sat32 b * ev.sumE) (ev.n * 65536)) }, none) := by
  unfold fitOf
  dsimp only
  rw [if_neg (show ¬ev.n < Config.fitShort from long.not_gt), ← numEq, ← denEq, ← bEq, if_neg (by omega), if_neg hb]

end

/-! ### The bending of R136 -/

theorem bendingOf_ext {ev : Eval} {a b : Int} (source : ev.fitSource = some .ext) (exts : ev.lastExts = some (a, b))
    (pos : 0 < a + b) : bendingOf ev = some (sat32 (roundDiv (1000 * absI (a - b)) (a + b))) := by
  simp [bendingOf, source, exts, pos]

theorem bendingOf_none {ev : Eval} (without : ev.fitSource ≠ some .ext ∨ ev.lastExts = none) : bendingOf ev = none := by
  unfold bendingOf
  split
  next source exts => simp [source, exts] at without
  next => rfl

theorem closeFit_bendHigh_some (o : TestOrder) (m : Option CloseMark) {ev : Eval} {b : Int}
    (bending : bendingOf ev = some b) :
    (closeFit o m ev).results.bendHigh = true ↔ o.bendLim < b := by
  simp [closeFit, bending]

theorem closeFit_bendHigh_none (o : TestOrder) (m : Option CloseMark) {ev : Eval} (bending : bendingOf ev = none) :
    (closeFit o m ev).results.bendHigh = false := by
  simp [closeFit, bending]

/-- Settles O57: the open window over the list in closed form, and at its close the branches of the fit and of the
bending. -/
theorem theFitGivesTheModulus : Obligations.TheFitGivesTheModulus := by
  refine ⟨fun o i ev unopened => ⟨?_, fun notHeld reached => ?_⟩, ?_, fun o i ev opened notHeld within count => ?_⟩
  · rintro (held | below)
    · exact evalWindowStep_held o held
    · exact evalWindowStep_below unopened below
  · rw [evalWindowStep_opens unopened notHeld reached]
    exact evalWindowStep_stays_opened o rfl
  · rintro o sets _ _ rfl within few rfl
    rw [foldl_evalWindowStep o sets within few]
    generalize sets.filter (fun i => !i.held) = taken
    refine ⟨rfl, rfl, rfl, rfl, rfl, ?_⟩
    rintro _ _ _ _ num den b rfl rfl rfl rfl numEq denEq bEq i _ rfl notHeld above
    rw [evalWindowStep_of_opened o rfl notHeld, if_pos above]
    simp only [enterRising, closeWindow_window, closeWindow_results, closeFit_closeMark, closeFit_fitN, closeFit_fit,
      closeFit_failMark, closeFit_bending]
    refine ⟨trivial, trivial, trivial, rfl, fun short => ?_, fun long flat => ?_, fun long hden hnum hb => ?_,
      fun a b source exts pos => ?_, fun without => ?_⟩
    · simp [fitOf_short (ev := windowOver taken) short]
    · simp [fitOf_flat (ev := windowOver taken) long numEq denEq bEq flat]
    · have pos : 0 < b := by
        have := roundDiv_nonneg (a := num * 65536) (by omega) hden
        omega
      rw [fitOf_slope (ev := windowOver taken) long numEq denEq bEq hden hnum hb, sat32_of_pos pos]
      exact ⟨pos, rfl, _, rfl, by dsimp only; omega, rfl, rfl, rfl⟩
    · have bending := bendingOf_ext source exts pos
      exact ⟨bending, closeFit_bendHigh_some o none bending⟩
    · have bending := bendingOf_none without
      exact ⟨bending, closeFit_bendHigh_none o none bending⟩
  · have full : Config.fitFull ≤ ev.n + 1 := by simp [Config.fitFull, count]
    rw [evalWindowStep_of_opened o opened notHeld, if_neg within.not_gt, if_pos full]
    simp [enterRising, accumulate, count]

end Sys2Proof.Machine

/-! PROOFS about the yield and the offset proof (R138, R139, R142 to R144): what the step of each yield state leaves
unchanged, a plateau over a list of sets, the branches of the offset step, and the obligation from them. -/

namespace Sys2Proof.Machine

section
variable (o : TestOrder) (i : EvalIn) (ev : Eval)

/-! ### What the steps of a set leave unchanged (R129) -/

/-- PLATEAU at a set with its tracker and ReH (R139): the end determines Ae and ReL, from the minimum behind the 26th
set where that set lies before it, and from the whole plateau otherwise; a set that does not end it moves the minima. -/
theorem plateauStep_some {p : Plateau} {h : Point} (plateau : ev.plateau = some p) (upper : ev.results.reH = some h) :
    ((h.stress < i.stress ∨ sat32 (h.strain + o.ePlat) ≤ i.strain) ∧ ∃ v transient,
      plateauStep o i ev = { ev with
        yState := .hardening
        results := { ev.results with
          ae := some (sat32 (i.strain - h.strain)), reL := some v, reLTransient := transient } } ∧
      ((p.drop + 26 < i.index ∧ p.minAfter = some v ∧ transient = ev.results.reLTransient) ∨
        ((i.index ≤ p.drop + 26 ∨ p.minAfter = none) ∧ v = p.minAll ∧ transient = true))) ∨
    (i.stress ≤ h.stress ∧ i.strain < sat32 (h.strain + o.ePlat) ∧
      plateauStep o i ev = { ev with plateau := some { p with
        minAll := minWith (some p.minAll) i.stress
        minAfter := if p.drop + 26 ≤ i.index then some (minWith p.minAfter i.stress) else p.minAfter } }) := by
  unfold plateauStep
  rw [plateau, upper]
  dsimp only
  split
  next ends =>
    refine .inl ⟨ends, ?_⟩
    split
    next m after late => exact ⟨m, _, rfl, .inl ⟨by simpa using late, after, rfl⟩⟩
    next other =>
      refine ⟨_, _, rfl, .inr ⟨?_, rfl, rfl⟩⟩
      by_cases late : i.index ≤ p.drop + 26
      · exact .inl late
      · refine .inr (Option.eq_none_iff_forall_ne_some.mpr fun m after => other m after ?_)
        simpa using late
  next lasts => exact .inr ⟨by omega, by omega, rfl⟩

theorem plateauStep_cases :
    plateauStep o i ev = ev ∨ ∃ p h, ev.plateau = some p ∧ ev.results.reH = some h := by
  unfold plateauStep
  split
  next p h plateau upper => exact .inr ⟨p, h, plateau, upper⟩
  next => exact .inl rfl

/-- What the yield step may write (R137 to R139): the yield state, its two trackers, and the yield fields of the
record. -/
theorem evalYieldStep_eq (was : YieldState) :
    ∃ y peak plateau reH reL transient ae kind, evalYieldStep o was i ev = { ev with
      yState := y, peak := peak, plateau := plateau
      results := { ev.results with
        reH := reH, reL := reL, reLTransient := transient, ae := ae, yieldKind := kind } } := by
  rcases evalYieldStep_cases o was i ev with same | ⟨-, -, enters⟩ | ⟨-, -, rises⟩ | ⟨-, -, runs⟩
  · exact ⟨_, _, _, _, _, _, _, _, same⟩
  · exact ⟨_, _, _, _, _, _, _, _, enters⟩
  · rw [rises]
    rcases peak : ev.peak with _ | pk
    · exact ⟨_, _, _, _, _, _, _, _, by rw [risingStep, peak]⟩
    · obtain ⟨_, -, ⟨-, drops⟩ | ⟨-, follows⟩⟩ := risingStep_some o i ev pk peak
      · exact ⟨_, _, _, _, _, _, _, _, drops⟩
      · exact ⟨_, _, _, _, _, _, _, _, follows⟩
  · rw [runs]
    rcases plateauStep_cases o i ev with same | ⟨p, h, plateau, upper⟩
    · exact ⟨_, _, _, _, _, _, _, _, same⟩
    · rcases plateauStep_some o i ev plateau upper with ⟨-, v, transient, ends, -⟩ | ⟨-, -, lasts⟩
      · exact ⟨_, _, _, _, _, _, _, _, ends⟩
      · exact ⟨_, _, _, _, _, _, _, _, lasts⟩

/-- What the offset step may write (R142 to R144): the offset proof and Rp, and in RISING the yield. -/
theorem evalOffsetStep_eq :
    ∃ y offset prevD rp atClose kind, evalOffsetStep o i ev = { ev with
      yState := y, offset := offset, prevD := prevD
      results := { ev.results with rp := rp, rpAtClose := atClose, yieldKind := kind } } ∧
    ((y = ev.yState ∧ kind = ev.results.yieldKind) ∨ (ev.yState = .rising ∧ y = .hardening ∧ kind = some .rp)) := by
  rcases evalOffsetStep_cases o i ev with same | ⟨d, keeps⟩ | ⟨stress, strain, atClose, finds⟩
  · exact ⟨_, _, _, _, _, _, same, .inl ⟨rfl, rfl⟩⟩
  · exact ⟨_, _, _, _, _, _, keeps, .inl ⟨rfl, rfl⟩⟩
  · rw [finds]
    obtain ⟨_, rfl, ⟨rising, yields⟩ | ⟨-, leaves⟩⟩ := foundRp_cases stress strain i.source atClose ev
    · exact ⟨_, _, _, _, _, _, yields, .inr ⟨rising, rfl, rfl⟩⟩
    · exact ⟨_, _, _, _, _, _, leaves, .inl ⟨rfl, rfl⟩⟩

/-- The end of a set runs the window step, the yield step, and the offset step where the proof ran before the set and
still does (R129). -/
theorem evalTail_cases (was : Eval) :
    ∃ t, t = evalYieldStep o was.yState i (evalWindowStep o i ev) ∧
      ((¬(was.offset = .running ∧ t.offset = .running) ∧ evalTail o was i ev = evalFinish o i t) ∨
        ((was.offset = .running ∧ t.offset = .running) ∧
          evalTail o was i ev = evalFinish o i (evalOffsetStep o i t))) := by
  refine ⟨_, rfl, ?_⟩
  unfold evalTail
  dsimp only
  split
  next runs => exact .inr ⟨runs, rfl⟩
  next rests => exact .inl ⟨rests, rfl⟩

end

section
variable {o : TestOrder} {i : EvalIn} {ev : Eval}

/-- Behind a closed window the offset step runs at a set exactly where the proof ran before it. -/
theorem evalTail_running (closed : ev.window = .closed) (running : ev.offset = .running) :
    evalTail o ev i ev = evalFinish o i (evalOffsetStep o i (evalYieldStep o ev.yState i ev)) := by
  obtain ⟨t, rfl, ⟨rests, -⟩ | ⟨-, runs⟩⟩ := evalTail_cases o i ev ev
  · rw [evalWindowStep_closed o i ev closed] at rests
    obtain ⟨_, _, _, _, _, _, _, _, yields⟩ := evalYieldStep_eq o i ev ev.yState
    exact absurd ⟨running, by rw [yields]; exact running⟩ rests
  · rw [runs, evalWindowStep_closed o i ev closed]

theorem evalTail_idle (closed : ev.window = .closed) (idle : ev.offset ≠ .running) :
    evalTail o ev i ev = evalFinish o i (evalYieldStep o ev.yState i ev) := by
  obtain ⟨t, rfl, ⟨-, rests⟩ | ⟨runs, -⟩⟩ := evalTail_cases o i ev ev
  · rw [rests, evalWindowStep_closed o i ev closed]
  · exact absurd runs.1 idle

/-! ### The upper yield drop (R138) -/

theorem evalYieldStep_rising (rising : ev.yState = .rising) : evalYieldStep o ev.yState i ev = risingStep o i ev := by
  simp [evalYieldStep, rising]

/-- A set above the peak candidate, which moves up to it, does not drop. -/
theorem candidate_drops_iff (pk : Point) (order : 0 ≤ o.dDrop) :
    i.stress <
        (if pk.stress < i.stress then { stress := i.stress, strain := i.strain } else pk : Point).stress - o.dDrop ↔
      i.stress < pk.stress - o.dDrop := by
  split
  · dsimp only
    omega
  · rfl

/-- A set in RISING that drops: the offset step that may follow leaves the yield it made alone. -/
theorem evalTail_drops {pk : Point} (closed : ev.window = .closed) (rising : ev.yState = .rising)
    (drops : risingStep o i ev = { ev with
      peak := some pk, yState := .plateau
      plateau := some { drop := i.index, minAll := i.stress, minAfter := none }
      results := { ev.results with reH := some pk, yieldKind := some .reH } }) :
    (evalTail o ev i ev).yState = .plateau ∧ (evalTail o ev i ev).results.reH = some pk ∧
    (evalTail o ev i ev).results.yieldKind = some .reH ∧
    (evalTail o ev i ev).plateau = some { drop := i.index, minAll := i.stress, minAfter := none } := by
  by_cases running : ev.offset = .running
  · rw [evalTail_running closed running, evalYieldStep_rising rising, drops]
    obtain ⟨_, _, _, _, _, _, leaves, ⟨rfl, rfl⟩ | ⟨other, -⟩⟩ := evalOffsetStep_eq o i { ev with
      peak := some pk, yState := .plateau
      plateau := some { drop := i.index, minAll := i.stress, minAfter := none }
      results := { ev.results with reH := some pk, yieldKind := some .reH } }
    · rw [leaves]
      exact ⟨rfl, rfl, rfl, rfl⟩
    · cases other
  · rw [evalTail_idle closed running, evalYieldStep_rising rising, drops]
    exact ⟨rfl, rfl, rfl, rfl⟩

/-- A set in RISING that does not drop: the candidate follows, and only an Rp found at the set leaves RISING. -/
theorem evalTail_follows {pk : Point} (closed : ev.window = .closed) (rising : ev.yState = .rising)
    (follows : risingStep o i ev = { ev with peak := some pk }) :
    (evalTail o ev i ev).peak = some pk ∧ (evalTail o ev i ev).results.reH = ev.results.reH ∧
    (evalTail o ev i ev).plateau = ev.plateau ∧ (ev.offset ≠ .running → (evalTail o ev i ev).yState = .rising) := by
  by_cases running : ev.offset = .running
  · rw [evalTail_running closed running, evalYieldStep_rising rising, follows]
    obtain ⟨_, _, _, _, _, _, leaves, -⟩ := evalOffsetStep_eq o i { ev with peak := some pk }
    rw [leaves]
    exact ⟨rfl, rfl, rfl, fun idle => absurd running idle⟩
  · rw [evalTail_idle closed running, evalYieldStep_rising rising, follows]
    exact ⟨rfl, rfl, rfl, fun _ => rising⟩

/-! ### A plateau over a list of sets (R139) -/

theorem min?_concat (l : List Int) (x : Int) : (l ++ [x]).min? = some (minWith l.min? x) := by
  cases l with
  | nil => rfl
  | cons a l =>
    simp only [List.cons_append, List.min?_cons', List.foldl_append, List.foldl_cons, List.foldl_nil, minWith,
      Option.some.injEq]
    split <;> omega

/-- A plateau that no set of the list ends keeps two minima: of all its sets, and of those from the 26th behind the drop
on. -/
theorem foldl_plateauStep (o : TestOrder) {d : Nat} {s0 : Int} {h : Point} {ev0 : Eval}
    (upper : ev0.results.reH = some h) (plateau : ev0.plateau = some { drop := d, minAll := s0, minAfter := none })
    (sets : List EvalIn) (numbered : sets.map (·.index) = List.range' (d + 1) sets.length)
    (within : ∀ j ∈ sets, j.stress ≤ h.stress ∧ j.strain < sat32 (h.strain + o.ePlat)) :
    ∃ p, sets.foldl (fun ev j => plateauStep o j ev) ev0 = { ev0 with plateau := some p } ∧ p.drop = d ∧
      (s0 :: sets.map (·.stress)).min? = some p.minAll ∧ ((sets.drop 25).map (·.stress)).min? = p.minAfter := by
  induction sets using List.reverseRecOn with
  | nil => exact ⟨_, by rw [← plateau]; rfl, rfl, rfl, rfl⟩
  | append_singleton before j ih =>
    rw [List.map_append, List.length_append, List.length_singleton, List.range'_1_concat] at numbered
    obtain ⟨numbered, last⟩ := List.append_inj' numbered rfl
    obtain ⟨p, runs, rfl, all, after⟩ := ih numbered fun j' mem => within j' (List.mem_append_left _ mem)
    obtain ⟨low, short⟩ := within j (List.mem_append_right _ (List.mem_singleton_self j))
    have index : j.index = p.drop + 1 + before.length := by simpa using last
    rw [List.foldl_append, runs]
    rcases plateauStep_some o j { ev0 with plateau := some p } rfl upper with ⟨ends, -⟩ | ⟨-, -, lasts⟩
    · omega
    · refine ⟨_, lasts, rfl, ?_, ?_⟩
      · rw [List.map_append, ← List.cons_append]
        exact (min?_concat _ j.stress).trans (by rw [all])
      · dsimp only
        by_cases late : 25 ≤ before.length
        · rw [if_pos (by omega), List.drop_append_of_le_length late, List.map_append, ← after]
          exact min?_concat _ j.stress
        · rw [if_neg (by omega), ← after, List.drop_eq_nil_of_le (by simp; omega),
            List.drop_eq_nil_of_le (by omega)]

/-! ### The offset proof (R142, R143) -/

@[simp] theorem foundRp_offset (stress strain : Int) (source : Source) (atClose : Bool) (ev : Eval) :
    (foundRp stress strain source atClose ev).offset = .stopped := by
  obtain ⟨_, -, ⟨-, found⟩ | ⟨-, found⟩⟩ := foundRp_cases stress strain source atClose ev <;> rw [found]

@[simp] theorem foundRp_rp (stress strain : Int) (source : Source) (atClose : Bool) (ev : Eval) :
    (foundRp stress strain source atClose ev).results.rp =
      some { stress := stress, strain := strain, source := source } := by
  obtain ⟨_, rfl, ⟨-, found⟩ | ⟨-, found⟩⟩ := foundRp_cases stress strain source atClose ev <;> rw [found]

@[simp] theorem foundRp_rpAtClose (stress strain : Int) (source : Source) (atClose : Bool) (ev : Eval) :
    (foundRp stress strain source atClose ev).results.rpAtClose = atClose := by
  obtain ⟨_, rfl, ⟨-, found⟩ | ⟨-, found⟩⟩ := foundRp_cases stress strain source atClose ev <;> rw [found]

/-- An Rp found in RISING is the yield; found elsewhere it leaves yield state and kind alone (R144). -/
theorem foundRp_yields (stress strain : Int) (source : Source) (atClose : Bool) (rising : ev.yState = .rising) :
    (foundRp stress strain source atClose ev).yState = .hardening ∧
    (foundRp stress strain source atClose ev).results.yieldKind = some .rp := by
  obtain ⟨_, -, ⟨-, found⟩ | ⟨other, -⟩⟩ := foundRp_cases stress strain source atClose ev
  · rw [found]
    exact ⟨rfl, rfl⟩
  · exact absurd rising other

theorem foundRp_leaves (stress strain : Int) (source : Source) (atClose : Bool) (other : ev.yState ≠ .rising) :
    (foundRp stress strain source atClose ev).yState = ev.yState ∧
    (foundRp stress strain source atClose ev).results.yieldKind = ev.results.yieldKind := by
  obtain ⟨_, rfl, ⟨rising, -⟩ | ⟨-, found⟩⟩ := foundRp_cases stress strain source atClose ev
  · exact absurd rising other
  · rw [found]
    exact ⟨rfl, rfl⟩

section
variable {f : Fit} {d : Int} (fit : ev.results.fit = some f) (distance : d = offsetDistance o f i.stress i.strain)
include fit distance

theorem evalOffsetStep_above (above : 0 < d) : evalOffsetStep o i ev = { ev with prevD := some d } := by
  unfold evalOffsetStep
  rw [fit]
  dsimp only
  rw [← distance]
  split <;> exact if_neg (by omega)

theorem evalOffsetStep_first (onLine : d ≤ 0) (first : ev.prevD = none) :
    evalOffsetStep o i ev = foundRp i.stress i.strain i.source true ev := by
  unfold evalOffsetStep
  rw [fit, first]
  dsimp only
  rw [← distance, if_pos onLine]

theorem evalOffsetStep_crosses {d0 : Int} {p : EvalSample} (onLine : d ≤ 0) (before : ev.prevD = some d0)
    (above : 0 < d0) (prev : ev.prev = some p) :
    evalOffsetStep o i ev =
      foundRp (sat32 (p.stress + roundDiv ((i.stress - p.stress) * d0) (d0 - d)))
        (sat32 (p.strain + roundDiv ((i.strain - p.strain) * d0) (d0 - d))) i.source false ev := by
  unfold evalOffsetStep
  rw [fit, before, prev]
  dsimp only
  rw [← distance, if_pos ⟨onLine, above⟩]

theorem evalOffsetStep_finds (onLine : d ≤ 0)
    (before : ∀ d0, ev.prevD = some d0 → 0 < d0 ∧ ev.prev.isSome = true) :
    ∃ stress strain atClose, evalOffsetStep o i ev = foundRp stress strain i.source atClose ev := by
  rcases prevD : ev.prevD with _ | d0
  · exact ⟨_, _, _, evalOffsetStep_first fit distance onLine prevD⟩
  · obtain ⟨above, some⟩ := before d0 prevD
    obtain ⟨p, prev⟩ := Option.isSome_iff_exists.mp some
    exact ⟨_, _, _, evalOffsetStep_crosses fit distance onLine prevD above prev⟩

end

/-- The yield step leaves what the offset proof reads and writes alone. -/
theorem evalYieldStep_keeps (o : TestOrder) (i : EvalIn) (ev : Eval) (was : YieldState) :
    (evalYieldStep o was i ev).results.fit = ev.results.fit ∧ (evalYieldStep o was i ev).results.rp = ev.results.rp ∧
    (evalYieldStep o was i ev).offset = ev.offset ∧ (evalYieldStep o was i ev).prevD = ev.prevD ∧
    (evalYieldStep o was i ev).prev = ev.prev := by
  obtain ⟨_, _, _, _, _, _, _, _, yields⟩ := evalYieldStep_eq o i ev was
  rw [yields]
  exact ⟨rfl, rfl, rfl, rfl, rfl⟩

/-- Past RISING the yield step never returns to it, and the kind of the yield stands. -/
theorem evalYieldStep_past (fitted : ev.yState ≠ .waitFit) (past : ev.yState ≠ .rising) :
    (evalYieldStep o ev.yState i ev).yState ≠ .rising ∧
    (evalYieldStep o ev.yState i ev).results.yieldKind = ev.results.yieldKind := by
  rcases evalYieldStep_cases o ev.yState i ev with same | ⟨waits, -⟩ | ⟨rising, -⟩ | ⟨-, -, runs⟩
  · rw [same]
    exact ⟨past, rfl⟩
  · exact absurd waits fitted
  · exact absurd rising past
  · rw [runs]
    rcases plateauStep_cases o i ev with same | ⟨p, h, plateau, upper⟩
    · rw [same]
      exact ⟨past, rfl⟩
    · rcases plateauStep_some o i ev plateau upper with ⟨-, _, _, ends, -⟩ | ⟨-, -, lasts⟩
      · rw [ends]
        exact ⟨nofun, rfl⟩
      · rw [lasts]
        exact ⟨past, rfl⟩

end

/-- Settles O58: a set in RISING by whether it drops, a plateau over its list of sets and at its end, and the branches
of the offset step behind the yield step. -/
theorem theCurveYields : Obligations.TheCurveYields := by
  refine ⟨?_, ?_, ?_⟩
  · rintro o i ev pk _ closed rising peak rfl pk' rfl
    obtain ⟨_, rfl, ⟨drop, drops⟩ | ⟨stays, follows⟩⟩ := risingStep_some o i ev pk peak
    · exact ⟨fun _ => evalTail_drops closed rising drops, fun stays => absurd drop stays.not_gt⟩
    · exact ⟨fun drop => absurd drop stays.not_gt, fun _ => evalTail_follows closed rising follows⟩
  · rintro o d s0 h ev0 _ _ sets i state upper plateau numbered index within ends rfl rfl
    obtain ⟨p, runs, rfl, all, after⟩ := foldl_plateauStep o upper plateau sets numbered within
    rw [runs]
    rcases plateauStep_some o i { ev0 with plateau := some p } rfl upper with
      ⟨-, v, transient, ended, least⟩ | ⟨low, short, -⟩
    · rw [ended]
      refine ⟨state, rfl, rfl, rfl, v, rfl, fun early => ?_, fun late => ?_⟩
      · rcases least with ⟨late, -⟩ | ⟨-, rfl, rfl⟩
        · omega
        · exact ⟨rfl, List.min?_eq_some_iff.mp all⟩
      · rcases least with ⟨-, some, rfl⟩ | ⟨early | none, -⟩
        · exact ⟨rfl, List.min?_eq_some_iff.mp (after.trans some)⟩
        · omega
        · have := congrArg List.length (List.min?_eq_none_iff.mp (after.trans none))
          simp at this
          omega
    · omega
  · rintro o i ev f d _ closed running fit fitted rfl distance
    obtain ⟨fit', rp, offset, prevD, prev⟩ := evalYieldStep_keeps o i ev ev.yState
    have atSet := evalTail_running (o := o) (i := i) closed running
    refine ⟨fun above => ?_, fun onLine first => ?_, fun d0 p onLine before above was => ?_, fun onLine before => ?_⟩
    · rw [atSet, evalOffsetStep_above (fit'.trans fit) distance above]
      exact ⟨rfl, offset.trans running, rp⟩
    · rw [atSet, evalOffsetStep_first (fit'.trans fit) distance onLine (prevD.trans first)]
      exact ⟨foundRp_offset .., foundRp_rpAtClose .., foundRp_rp ..⟩
    · rw [atSet, evalOffsetStep_crosses (fit'.trans fit) distance onLine (prevD.trans before) above (prev.trans was)]
      exact ⟨foundRp_offset .., foundRp_rpAtClose .., foundRp_rp ..⟩
    · obtain ⟨_, _, _, finds⟩ := evalOffsetStep_finds (fit'.trans fit) distance onLine
        (by rw [prevD, prev]; exact before)
      refine ⟨fun pk rising peak order stays => ?_, fun pk rising peak order drop => ?_, fun past => ?_⟩
      · obtain ⟨_, rfl, ⟨drop, -⟩ | ⟨-, follows⟩⟩ := risingStep_some o i ev pk peak
        · exact absurd ((candidate_drops_iff pk order).mp drop) stays.not_gt
        · rw [atSet, finds]
          exact foundRp_yields _ _ _ _ (by rw [evalYieldStep_rising rising, follows]; exact rising)
      · obtain ⟨_, rfl, ⟨-, drops⟩ | ⟨stays, -⟩⟩ := risingStep_some o i ev pk peak
        · obtain ⟨state, -, kind, -⟩ := evalTail_drops closed rising drops
          exact ⟨state, kind⟩
        · exact absurd ((candidate_drops_iff pk order).mpr drop) stays.not_gt
      · obtain ⟨stillPast, kind⟩ := evalYieldStep_past (o := o) (i := i) fitted past
        rw [atSet, finds]
        exact (foundRp_leaves _ _ _ _ stillPast).2.trans kind

end Sys2Proof.Machine

/-! PROOFS about what the evaluation settles (R133, R134, R141, R156): what each step of a set may still change of a
closed window and of a yield, what keeps the yields in their order, and the obligation from the steps. -/

namespace Sys2Proof.Machine

/-! ### The closing steps in their parts (R140, R155) -/

/-- A plateau cut gives ReL one of the two minima, and changes nothing else but its mark (R140). -/
theorem cutPlateau_eq (ev : Eval) :
    ∃ reL transient, cutPlateau ev = { ev with
      results := { ev.results with reL := reL, reLTransient := transient } } ∧
    (reL = ev.results.reL ∨
      ∃ p, ev.yState = .plateau ∧ ev.plateau = some p ∧ (reL = some p.minAll ∨ reL = p.minAfter)) := by
  unfold cutPlateau
  split
  next p state plateau _ =>
    split
    next m after => exact ⟨_, _, rfl, .inr ⟨p, state, plateau, .inr after.symm⟩⟩
    next => exact ⟨_, _, rfl, .inr ⟨p, state, plateau, .inl rfl⟩⟩
  next => exact ⟨_, _, rfl, .inl rfl⟩

/-- The maxima determined are those of the tracker (R155). -/
theorem determineMaxima_eq (ev : Eval) :
    ∃ rm fm ag, determineMaxima ev = { ev with results := { ev.results with rm := rm, fm := fm, ag := ag } } ∧
    ((ev.maxT = none ∧ rm = ev.results.rm) ∨ ∃ m, ev.maxT = some m ∧ rm = some m.rm) := by
  unfold determineMaxima
  split
  next without => exact ⟨_, _, _, rfl, .inl ⟨without, rfl⟩⟩
  next m tracked => exact ⟨_, _, _, rfl, .inr ⟨m, tracked, rfl⟩⟩

theorem closingSteps_shuts (o : TestOrder) (ev : Eval) : (closingSteps o ev).opened = false := by
  unfold closingSteps
  split
  · rfl
  next shut => simpa using shut

/-- A fracture writes the elongation and the fracture fields ahead of the closing steps (R151). -/
theorem fractureSteps_eq (o : TestOrder) (c : Criterion) (i : EvalIn) (ev : Eval) :
    ∃ elong fracture t, t = { ev with results := { ev.results with elong := elong, fracture := fracture } } ∧
      fractureSteps o c i ev = closingSteps o t := ⟨_, _, _, rfl, rfl⟩

/-! ### What stays settled (R133, R134, R141) -/

/-- Before the window has closed the yield state waits for it. -/
def Waits (ev : Eval) : Prop := ev.window ≠ .closed → ev.yState = .waitFit

theorem yieldSeen_iff (ev : Eval) : yieldSeen ev = true ↔ ev.yState = .plateau ∨ ev.yState = .hardening := by
  simp [yieldSeen]

/-- From one evaluation to a later one a closed window stays closed with what its fit gave, and a yield stays seen. -/
structure Settles (ev t : Eval) : Prop where
  waits : Waits t
  fit : ev.window = .closed → t.window = .closed ∧ t.results.fit = ev.results.fit ∧
    t.results.closeMark = ev.results.closeMark ∧ t.results.fitN = ev.results.fitN
  seen : yieldSeen ev = true → yieldSeen t = true

namespace Settles

theorem trans {ev t u : Eval} (h : Settles ev t) (g : Settles t u) : Settles ev u where
  waits := g.waits
  fit closed := by
    obtain ⟨closedT, fit, mark, n⟩ := h.fit closed
    obtain ⟨closedU, fit', mark', n'⟩ := g.fit closedT
    exact ⟨closedU, fit'.trans fit, mark'.trans mark, n'.trans n⟩
  seen yield := g.seen (h.seen yield)

variable {ev t : Eval}

/-- A step that leaves the window, the fit and the yield state alone. -/
theorem of_same (waits : Waits ev) (window : t.window = ev.window) (state : t.yState = ev.yState)
    (fit : t.results.fit = ev.results.fit) (mark : t.results.closeMark = ev.results.closeMark)
    (n : t.results.fitN = ev.results.fitN) : Settles ev t where
  waits still := by rw [state]; exact waits (by rwa [← window])
  fit closed := ⟨window.trans closed, fit, mark, n⟩
  seen yield := by rw [yieldSeen_iff] at yield ⊢; rwa [state]

/-- A step that closes a window: no yield has been seen before it. -/
theorem of_close (waits : Waits ev) (before : ev.window ≠ .closed) (closed : t.window = .closed) : Settles ev t where
  waits still := absurd closed still
  fit was := absurd was before
  seen yield := by simp [yieldSeen_iff, waits before] at yield

/-- A step behind the closed window that leaves the fit alone and takes no yield back. -/
theorem of_closed (closed : t.window = .closed)
    (fit : t.results.fit = ev.results.fit ∧ t.results.closeMark = ev.results.closeMark ∧
      t.results.fitN = ev.results.fitN)
    (seen : yieldSeen ev = true → yieldSeen t = true) : Settles ev t where
  waits still := absurd closed still
  fit _ := ⟨closed, fit⟩
  seen := seen

end Settles

/-- The yield step takes no yield back: from PLATEAU it goes to HARDENING alone (R139, R141). -/
theorem evalYieldStep_seen (o : TestOrder) (i : EvalIn) {ev : Eval} (was : YieldState) (seen : yieldSeen ev = true) :
    yieldSeen (evalYieldStep o was i ev) = true := by
  rcases evalYieldStep_cases o was i ev with same | ⟨state, -, -⟩ | ⟨-, state, -⟩ | ⟨-, -, runs⟩
  · rwa [same]
  · simp [yieldSeen_iff, state] at seen
  · simp [yieldSeen_iff, state] at seen
  · rw [runs]
    rcases plateauStep_cases o i ev with same | ⟨p, h, plateau, upper⟩
    · rwa [same]
    · rcases plateauStep_some o i ev plateau upper with ⟨-, _, _, ends, -⟩ | ⟨-, -, lasts⟩
      · rw [ends]
        rfl
      · rw [lasts]
        exact seen

section
variable (o : TestOrder) (i : EvalIn) {ev : Eval} (waits : Waits ev)
include waits

theorem evalResume_settles : Settles ev (evalResume i ev) := by
  unfold evalResume
  split <;> exact .of_same waits rfl rfl rfl rfl rfl

theorem evalSourceStep_settles : Settles ev (evalSourceStep o i ev) := by
  rcases evalSourceStep_cases o i ev with ⟨-, same | ⟨opened, -, closes⟩⟩ | ⟨_, _, -, ⟨-, rfl⟩ | ⟨opened, rfl⟩, marks⟩
  · rw [same]
    exact .of_same waits rfl rfl rfl rfl rfl
  · exact .of_close waits (by simp [opened]) (by simp [closes, enterRising])
  · rw [marks]
    exact .of_same waits rfl rfl rfl rfl rfl
  · exact .of_close waits (by simp [opened]) (by simp [marks, enterRising])

theorem evalMaxStep_settles : Settles ev (evalMaxStep o i ev) := .of_same waits rfl rfl rfl rfl rfl

theorem evalWindowStep_settles : Settles ev (evalWindowStep o i ev) := by
  rcases evalWindowStep_cases o i ev with same | ⟨-, before, ⟨-, -, takes⟩ | ⟨-, leaves⟩ | ⟨-, -, fills⟩⟩
  · rw [same]
    exact .of_same waits rfl rfl rfl rfl rfl
  · have state := waits before
    rw [takes]
    exact ⟨fun _ => state, fun closed => absurd closed before, fun yield => by simp [yieldSeen_iff, state] at yield⟩
  · exact .of_close waits before (by simp [leaves, enterRising])
  · exact .of_close waits before (by simp [fills, enterRising])

theorem evalYieldStep_settles (was : YieldState) : Settles ev (evalYieldStep o was i ev) := by
  by_cases closed : ev.window = .closed
  · obtain ⟨_, _, _, _, _, _, _, _, step⟩ := evalYieldStep_eq o i ev was
    exact .of_closed (by rw [step]; exact closed) (by rw [step]; exact ⟨rfl, rfl, rfl⟩) (evalYieldStep_seen o i was)
  · have state := waits closed
    rcases evalYieldStep_cases o was i ev with same | ⟨-, entry, -⟩ | ⟨-, rising, -⟩ | ⟨-, plateau, -⟩
    · rw [same]
      exact .of_same waits rfl rfl rfl rfl rfl
    · exact absurd entry closed
    · simp [state] at rising
    · simp [state] at plateau

theorem evalOffsetStep_settles : Settles ev (evalOffsetStep o i ev) := by
  obtain ⟨_, _, _, _, _, _, step, ⟨rfl, -⟩ | ⟨rising, rfl, -⟩⟩ := evalOffsetStep_eq o i ev
  · rw [step]
    exact .of_same waits rfl rfl rfl rfl rfl
  · rw [step]
    refine ⟨fun still => ?_, fun closed => ⟨closed, rfl, rfl, rfl⟩, fun _ => rfl⟩
    simp [waits still] at rising

theorem evalFinish_settles : Settles ev (evalFinish o i ev) := .of_same waits rfl rfl rfl rfl rfl

theorem closingSteps_settles : Settles ev (closingSteps o ev) := by
  unfold closingSteps
  split
  · obtain ⟨_, _, cut, -⟩ := cutPlateau_eq (if ev.window = .opened then closeFit o (some .fitCut) ev else ev)
    obtain ⟨_, _, _, maxima, -⟩ := determineMaxima_eq
      (cutPlateau (if ev.window = .opened then closeFit o (some .fitCut) ev else ev))
    dsimp only
    rw [maxima, cut]
    split
    next opened => exact .of_close waits (by simp [opened]) rfl
    next => exact .of_same waits rfl rfl rfl rfl rfl
  · exact .of_same waits rfl rfl rfl rfl rfl

/-- Steps 4 to 7 of R129 settle, whatever state the set found. -/
theorem evalTail_settles (was : Eval) : Settles ev (evalTail o was i ev) := by
  have window := evalWindowStep_settles o i waits
  have yields := window.trans (evalYieldStep_settles o i window.waits was.yState)
  obtain ⟨_, rfl, ⟨-, step⟩ | ⟨-, step⟩⟩ := evalTail_cases o i ev was
  · rw [step]
    exact yields.trans (evalFinish_settles o i yields.waits)
  · rw [step]
    have offset := yields.trans (evalOffsetStep_settles o i yields.waits)
    exact offset.trans (evalFinish_settles o i offset.waits)

theorem fractureSteps_settles (c : Criterion) : Settles ev (fractureSteps o c i ev) := by
  obtain ⟨_, _, t, recorded, step⟩ := fractureSteps_eq o c i ev
  have record : Settles ev t := by
    rw [recorded]
    exact .of_same waits rfl rfl rfl rfl rfl
  rw [step]
  exact record.trans (closingSteps_settles o record.waits)

end

/-- A set ends in the closing steps of a fracture or in steps 4 to 7 of R129. -/
theorem evalSet_cases (o : TestOrder) (i : EvalIn) (ev : Eval) :
    ∃ t, t = evalMaxStep o i (evalSourceStep o i (evalResume i ev)) ∧
      ((∃ c, (evalSet o i ev).1 = fractureSteps o c i t) ∨
        (evalSet o i ev).1 = evalTail o (evalResume i ev) i t) := by
  refine ⟨_, rfl, ?_⟩
  unfold evalSet
  dsimp only
  split
  next c _ => exact .inl ⟨c, rfl⟩
  next => exact .inr rfl

theorem evalSet_settles (o : TestOrder) (i : EvalIn) {ev : Eval} (waits : Waits ev) :
    Settles ev (evalSet o i ev).1 := by
  have resume := evalResume_settles i waits
  have source := resume.trans (evalSourceStep_settles o i resume.waits)
  have maxima := source.trans (evalMaxStep_settles o i source.waits)
  obtain ⟨_, rfl, ⟨c, step⟩ | step⟩ := evalSet_cases o i ev
  · rw [step]
    exact maxima.trans (fractureSteps_settles o i maxima.waits c)
  · rw [step]
    exact maxima.trans (evalTail_settles o i maxima.waits _)

/-! ### What keeps the yields in their order (R156) -/

section
variable {o : TestOrder} {i : EvalIn} {ev : Eval}

/-- A yield state past WAIT_FIT stands behind a closed window. -/
theorem YieldsOrdered.closed (h : YieldsOrdered ev) (state : ev.yState ≠ .waitFit) : ev.window = .closed := by
  by_contra still
  exact state (h.waits still)

theorem YieldsOrdered.closeFit (h : YieldsOrdered ev) (o : TestOrder) (m : Option CloseMark) :
    YieldsOrdered (closeFit o m ev) :=
  { h with waits := fun still => absurd rfl still }

theorem YieldsOrdered.closeWindow (h : YieldsOrdered ev) (o : TestOrder) (m : Option CloseMark) :
    YieldsOrdered (closeWindow o m ev) := by
  rw [closeWindow_eq]
  exact { h.closeFit o m with }

/-- RISING is entered with a candidate within the greatest stress, where no yield is determined. -/
theorem YieldsOrdered.enterRising (h : YieldsOrdered ev) (closed : ev.window = .closed) (state : ev.yState = .waitFit)
    (within : ∃ m ∈ ev.maxT, i.stress ≤ m.rm) : YieldsOrdered (enterRising i ev) :=
  { h with
    waits := fun still => absurd closed still
    unseen := fun _ => h.unseen (.inl state)
    peak := by
      rintro - _ ⟨⟩
      exact within }

/-- A plateau cut takes ReL from minima that lie at or below ReH. -/
theorem YieldsOrdered.cutPlateau (h : YieldsOrdered ev) : YieldsOrdered (cutPlateau ev) := by
  obtain ⟨reL, _, cut, rfl | ⟨p, state, plateau, least⟩⟩ := cutPlateau_eq ev
  · rw [cut]
    exact { h with }
  · rw [cut]
    obtain ⟨u, upper, all, after⟩ := h.plateau p plateau
    refine { h with
      unseen := fun early => by simp [state] at early
      lower := fun v low => ⟨u, upper, ?_⟩ }
    rcases least with rfl | rfl
    · obtain rfl := Option.some.inj low
      exact all
    · exact after v low

/-- The evaluation is shut with the greatest stress of its tracker, which no ReH exceeds. -/
theorem YieldsOrdered.shut (h : YieldsOrdered ev) : YieldsOrdered { determineMaxima ev with opened := false } := by
  obtain ⟨rm, _, _, maxima, ⟨-, rfl⟩ | ⟨m, tracker, rfl⟩⟩ := determineMaxima_eq ev
  · rw [maxima]
    exact { h with tracked := nofun }
  · rw [maxima]
    refine { h with
      tracked := nofun
      greatest := ?_ }
    rintro _ ⟨⟩ u upper
    obtain ⟨m', tracker', below⟩ := h.upper u upper
    obtain rfl := Option.some.inj (tracker.symm.trans tracker')
    exact below

theorem YieldsOrdered.closingSteps (h : YieldsOrdered ev) (o : TestOrder) : YieldsOrdered (closingSteps o ev) := by
  unfold Machine.closingSteps
  split
  · dsimp only
    split
    · exact (h.closeFit o _).cutPlateau.shut
    · exact h.cutPlateau.shut
  · exact h

theorem YieldsOrdered.parkEval (h : YieldsOrdered ev) (o : TestOrder) : YieldsOrdered (parkEval o ev) := by
  rcases parkEval_cases o ev with same | ⟨-, closes⟩
  · rwa [same]
  · rw [closes]
    exact h.closeWindow o _

/-- The yields of an open evaluation lie in their order, and the tracker has taken the stress of the set. -/
structure OrderedAt (i : EvalIn) (ev : Eval) : Prop where
  ordered : YieldsOrdered ev
  opened : ev.opened = true
  within : ∃ m ∈ ev.maxT, i.stress ≤ m.rm

/-- The maximum step raises the bound of every candidate and takes the stress of the set. -/
theorem YieldsOrdered.evalMaxStep (h : YieldsOrdered ev) (opened : ev.opened = true) (o : TestOrder) (i : EvalIn) :
    OrderedAt i (evalMaxStep o i ev) := by
  obtain ⟨m, step, -, within, grows⟩ := evalMaxStep_eq o i ev
  have raise : ∀ x : Int, (∃ m0 ∈ ev.maxT, x ≤ m0.rm) → ∃ m' ∈ some m, x ≤ m'.rm := fun x ⟨m0, tracked, below⟩ =>
    ⟨m, rfl, below.trans (grows m0 tracked).2⟩
  rw [step]
  exact ⟨{ h with
    peak := fun rising p mem => raise _ (h.peak rising p mem)
    upper := fun u mem => raise _ (h.upper u mem) }, opened, m, rfl, within⟩

/-- A first resumed set seats the candidate at its own stress, which the maximum step is yet to take (R154): so the
order ahead of that step is stated of what it will leave. -/
theorem evalResume_ordered (h : OrderedAt i (evalMaxStep o i ev)) :
    OrderedAt i (evalMaxStep o i (evalResume i ev)) := by
  unfold evalResume
  split
  · refine ⟨{ h.ordered with peak := fun rising p mem => ?_ }, h.opened, h.within⟩
    change ev.yState = .rising at rising
    have seated : (if ev.yState = .rising then some { stress := i.stress, strain := i.strain } else ev.peak) = some p :=
      mem
    rw [if_pos rising] at seated
    obtain rfl := Option.some.inj seated
    exact h.within
  · exact h

theorem OrderedAt.enterRising_closeWindow (h : OrderedAt i ev) (before : ev.window ≠ .closed) (m : Option CloseMark) :
    OrderedAt i (enterRising i (closeWindow o m ev)) where
  ordered := (h.ordered.closeWindow o m).enterRising (by simp) (by simp [h.ordered.waits before])
    (by simpa using h.within)
  opened := by simpa [enterRising] using h.opened
  within := by simpa [enterRising] using h.within

theorem evalMaxStep_closeWindow (o : TestOrder) (i : EvalIn) (m : Option CloseMark) (ev : Eval) :
    evalMaxStep o i (closeWindow o m ev) = closeWindow o m (evalMaxStep o i ev) := by
  unfold closeWindow startOffset
  exact apply_ite (evalMaxStep o i) _ _ _

/-- A close with its entry to RISING may go ahead of the maximum step as well as behind it. -/
theorem evalMaxStep_closes_ordered (h : OrderedAt i (evalMaxStep o i ev)) (before : ev.window ≠ .closed)
    (m : Option CloseMark) : OrderedAt i (evalMaxStep o i (enterRising i (closeWindow o m ev))) := by
  have swap : evalMaxStep o i (enterRising i (closeWindow o m ev)) =
      enterRising i (closeWindow o m (evalMaxStep o i ev)) :=
    congrArg (enterRising i) (evalMaxStep_closeWindow o i m ev)
  rw [swap]
  exact h.enterRising_closeWindow before m

theorem evalSourceStep_ordered (h : OrderedAt i (evalMaxStep o i ev)) :
    OrderedAt i (evalMaxStep o i (evalSourceStep o i ev)) := by
  rcases evalSourceStep_cases o i ev with ⟨-, same | ⟨opened, -, closes⟩⟩ | ⟨_, ev', -, cut, marks⟩
  · rwa [same]
  · rw [closes]
    exact evalMaxStep_closes_ordered h (by simp [opened]) _
  · have seen : OrderedAt i (evalMaxStep o i { ev with removalSeen := true }) :=
      ⟨{ h.ordered with }, h.opened, h.within⟩
    have cutOrdered : OrderedAt i (evalMaxStep o i ev') := by
      rcases cut with ⟨-, rfl⟩ | ⟨opened, rfl⟩
      · exact seen
      · exact evalMaxStep_closes_ordered seen (by simp [opened]) _
    rw [marks]
    exact ⟨{ cutOrdered.ordered with }, cutOrdered.opened, cutOrdered.within⟩

theorem minWith_le {m : Option Int} {x b : Int} (least : ∀ v ∈ m, v ≤ b) (low : x ≤ b) : minWith m x ≤ b := by
  unfold minWith
  split
  next v =>
    have := least v rfl
    split <;> omega
  next => exact low

section
variable (h : OrderedAt i ev)
include h

/-- The sums of an open window are no part of the order of the yields. -/
theorem OrderedAt.takes (before : ev.window ≠ .closed) : OrderedAt i (accumulate i { ev with window := .opened }) :=
  ⟨{ h.ordered with waits := fun _ => h.ordered.waits before }, h.opened, h.within⟩

theorem OrderedAt.evalWindowStep : OrderedAt i (evalWindowStep o i ev) := by
  rcases evalWindowStep_cases o i ev with same | ⟨-, before, ⟨-, -, takes⟩ | ⟨-, leaves⟩ | ⟨-, -, fills⟩⟩
  · rwa [same]
  · rw [takes]
    exact h.takes before
  · rw [leaves]
    exact OrderedAt.enterRising_closeWindow (ev := { ev with window := .opened })
      ⟨{ h.ordered with waits := fun _ => h.ordered.waits before }, h.opened, h.within⟩ nofun _
  · rw [fills]
    exact (h.takes before).enterRising_closeWindow nofun _

theorem OrderedAt.risingStep (rising : ev.yState = .rising) : OrderedAt i (risingStep o i ev) := by
  have closed := h.ordered.closed (by simp [rising])
  obtain ⟨-, lower, -⟩ := h.ordered.unseen (.inr rising)
  rcases peak : ev.peak with _ | pk
  · rw [Machine.risingStep, peak]
    exact h
  · obtain ⟨pk', candidate, branch⟩ := risingStep_some o i ev pk peak
    have top : i.stress ≤ pk'.stress ∧ ∃ m ∈ ev.maxT, pk'.stress ≤ m.rm := by
      rw [candidate]
      split
      · exact ⟨le_rfl, h.within⟩
      · exact ⟨by omega, h.ordered.peak rising pk peak⟩
    obtain ⟨above, below⟩ := top
    rcases branch with ⟨-, drops⟩ | ⟨-, follows⟩
    · rw [drops]
      refine ⟨{ h.ordered with
        waits := fun still => absurd closed still
        unseen := nofun
        peak := nofun
        upper := ?_
        plateau := ?_
        lower := fun v low => by simp [lower] at low
        greatest := fun r max => by simp [h.ordered.tracked h.opened] at max }, h.opened, h.within⟩
      · rintro _ ⟨⟩
        exact below
      · rintro _ ⟨⟩
        exact ⟨pk', rfl, above, nofun⟩
    · rw [follows]
      refine ⟨{ h.ordered with peak := ?_ }, h.opened, h.within⟩
      rintro - _ ⟨⟩
      exact below

theorem OrderedAt.plateauStep (state : ev.yState = .plateau) : OrderedAt i (plateauStep o i ev) := by
  have closed := h.ordered.closed (by simp [state])
  rcases plateauStep_cases o i ev with same | ⟨p, u, plateau, upper⟩
  · rwa [same]
  · obtain ⟨u', upper', all, after⟩ := h.ordered.plateau p plateau
    obtain rfl := Option.some.inj (upper.symm.trans upper')
    rcases plateauStep_some o i ev plateau upper with ⟨-, v, _, ends, least⟩ | ⟨low, -, lasts⟩
    · rw [ends]
      refine ⟨{ h.ordered with
        waits := fun still => absurd closed still
        unseen := nofun
        peak := nofun
        lower := ?_ }, h.opened, h.within⟩
      rintro _ ⟨⟩
      rcases least with ⟨-, least, -⟩ | ⟨-, rfl, -⟩
      · exact ⟨u, upper, after v least⟩
      · exact ⟨u, upper, all⟩
    · rw [lasts]
      refine ⟨{ h.ordered with
        unseen := fun early => by simp [state] at early
        plateau := ?_ }, h.opened, h.within⟩
      rintro _ ⟨⟩
      refine ⟨u, upper, minWith_le (fun v least => by obtain rfl := Option.some.inj least; exact all) low, ?_⟩
      dsimp only
      split
      · rintro _ ⟨⟩
        exact minWith_le after low
      · exact after

theorem OrderedAt.evalYieldStep (was : YieldState) : OrderedAt i (evalYieldStep o was i ev) := by
  rcases evalYieldStep_cases o was i ev with same | ⟨state, closed, enters⟩ | ⟨-, rising, rises⟩ | ⟨-, plateau, runs⟩
  · rwa [same]
  · rw [enters]
    exact ⟨h.ordered.enterRising closed state h.within, h.opened, h.within⟩
  · rw [rises]
    exact h.risingStep rising
  · rw [runs]
    exact h.plateauStep plateau

theorem OrderedAt.evalOffsetStep : OrderedAt i (evalOffsetStep o i ev) := by
  obtain ⟨_, _, _, _, _, _, step, ⟨rfl, -⟩ | ⟨rising, rfl, -⟩⟩ := evalOffsetStep_eq o i ev
  · rw [step]
    exact ⟨{ h.ordered with }, h.opened, h.within⟩
  · have closed := h.ordered.closed (by simp [rising])
    rw [step]
    exact ⟨{ h.ordered with
      waits := fun still => absurd closed still
      unseen := nofun
      peak := nofun }, h.opened, h.within⟩

theorem OrderedAt.evalFinish : OrderedAt i (evalFinish o i ev) := ⟨{ h.ordered with }, h.opened, h.within⟩

theorem OrderedAt.evalTail (was : Eval) : OrderedAt i (evalTail o was i ev) := by
  have yields := h.evalWindowStep (o := o).evalYieldStep (o := o) was.yState
  obtain ⟨_, rfl, ⟨-, step⟩ | ⟨-, step⟩⟩ := evalTail_cases o i ev was
  · rw [step]
    exact yields.evalFinish
  · rw [step]
    exact yields.evalOffsetStep.evalFinish

theorem OrderedAt.fractureSteps (c : Criterion) : YieldsOrdered (fractureSteps o c i ev) := by
  obtain ⟨_, _, t, recorded, step⟩ := fractureSteps_eq o c i ev
  have record : YieldsOrdered t := by
    rw [recorded]
    exact { h.ordered with }
  rw [step]
  exact record.closingSteps o

end

theorem evalSet_ordered (h : YieldsOrdered ev) (opened : ev.opened = true) : YieldsOrdered (evalSet o i ev).1 := by
  have tracked := evalSourceStep_ordered (evalResume_ordered (h.evalMaxStep opened o i))
  obtain ⟨_, rfl, ⟨c, step⟩ | step⟩ := evalSet_cases o i ev
  · rw [step]
    exact tracked.fractureSteps c
  · rw [step]
    exact (tracked.evalTail _).ordered

end

theorem start_yieldsOrdered : YieldsOrdered Eval.start where
  waits _ := rfl
  unseen _ := ⟨rfl, rfl, rfl⟩
  peak := nofun
  upper := nofun
  plateau := nofun
  lower := nofun
  tracked _ := rfl
  greatest := nofun

/-- Settles O60: every step of a set settles, and keeps the yields in their order. -/
theorem resultsAreDeterminedOnce : Obligations.ResultsAreDeterminedOnce := by
  refine ⟨fun o i ev waits => ?_, start_yieldsOrdered, fun o ev _ h =>
    ⟨fun i opened => evalSet_ordered h opened, h.parkEval o, h.closingSteps o⟩⟩
  have set := evalSet_settles o i waits
  have shut := closingSteps_shuts o ev
  exact ⟨set.waits, set.fit, set.seen, closingSteps_closed o ev, shut, closingSteps_closed o _ shut⟩

end Sys2Proof.Machine

/-! PROOFS about CLEAR (R170, R171): what `clearRefusal` answers by the check it comes to, the state after an accepted
CLEAR, and the obligation from the checks taken one after the other. -/

namespace Sys2Proof.Machine

/-- The fault-class lines by name (R170): `faultLineActive` says whether one of them reads active. -/
theorem faultLineActive_iff (s : State) :
    faultLineActive s = true ↔
      ∃ fn ∈ [LineFn.estop, .limitUp, .limitLo, .driveFault], lineActive s fn = true := by
  simp [faultLineActive, or_assoc]

theorem faultLineActive_eq_false_iff (s : State) :
    faultLineActive s = false ↔
      ∀ fn ∈ [LineFn.estop, .limitUp, .limitLo, .driveFault], lineActive s fn = false := by
  simp [faultLineActive, and_assoc]

/-! ### The checks of R170 -/

section
variable {s : State}

theorem clearRefusal_of_phase (other : s.ctx.phase ≠ .safe) : clearRefusal s = some (Reply.only .state) := if_pos other

variable (safe : s.ctx.phase = .safe)
include safe

theorem clearRefusal_of_line (active : faultLineActive s = true) :
    clearRefusal s = some (Reply.notReady .faultLine) := by
  simp [clearRefusal, safe, active]

variable (quiet : faultLineActive s = false)
include quiet

theorem clearRefusal_of_run (short : s.smu.delivered < 3) : clearRefusal s = some (Reply.notReady .stream) := by
  simp [clearRefusal, safe, quiet, short]

variable (delivered : 3 ≤ s.smu.delivered)
include delivered

theorem clearRefusal_of_hard (hard : s.lch.hard = true) : clearRefusal s = some (Reply.notReady .hardLoad) := by
  simp [clearRefusal, safe, quiet, hard, Nat.not_lt.2 delivered]

theorem clearRefusal_passed (soft : s.lch.hard = false) : clearRefusal s = none := by
  simp [clearRefusal, safe, quiet, soft, Nat.not_lt.2 delivered]

end

/-! ### The answer -/

theorem serveClear_refused (p : Port) {r : Reply} {s : State} (refused : clearRefusal s = some r) :
    serveClear p [] s = (r, s) := by
  simp [serveClear, readNone, refused]

theorem serveClear_accepted (p : Port) {s : State} (passed : clearRefusal s = none) :
    serveClear p [] s = (Reply.only .ok, clearFaults p s) := by
  simp [serveClear, readNone, passed]

/-- In IDLE the drive is off, and a port tare is left to run (R90, R173). -/
theorem setPhase_idle (s : State) :
    setPhase .idle s = { s with ctx := { s.ctx with phase := .idle }, flu := { s.flu with drvEn := false } } := rfl

theorem announcePhase_idle {s : State} (idle : s.ctx.phase = .idle) :
    announcePhase s = raiseEvent none (.phase .idle none) s := by
  simp [announcePhase, idle]

/-- The effect of R171 with its two events in their order: PHASE first, then CLEARED with the number of entries. -/
theorem clearFaults_eq (p : Port) (s : State) :
    clearFaults p s = raiseEvent (some p) (.cleared s.flu.faults.length)
      (raiseEvent none (.phase .idle none)
        { s with
          flu := { s.flu with faults := [], alarm := false, drvEn := false }
          ctx := { s.ctx with phase := .idle, resident := none } }) := by
  unfold clearFaults
  dsimp only
  rw [setPhase_idle, announcePhase_idle rfl]

/-- Settles O25: the checks of `clearRefusal` in their order, and the effect of R171 where all of them pass. -/
theorem clearEmptiesTheFaultSet : Obligations.ClearEmptiesTheFaultSet := by
  intro p tag s take sender
  have refused := fun {r} (refusal : clearRefusal (huntAgain p s) = some r) =>
    answers_of_serve (c := .clear p tag []) (tag := tag) take sender rfl (serveClear_refused p refusal)
  refine ⟨fun other => refused (clearRefusal_of_phase other), fun safe => ⟨fun active => ?_, fun lines => ?_⟩⟩
  · exact refused (clearRefusal_of_line safe ((faultLineActive_iff s).2 active))
  have quiet : faultLineActive (huntAgain p s) = false := (faultLineActive_eq_false_iff s).2 lines
  refine ⟨fun short => ?_, fun delivered hard => ?_, fun delivered soft => ?_⟩
  · exact refused (clearRefusal_of_run safe quiet short)
  · exact refused (clearRefusal_of_hard safe quiet delivered hard)
  · have accepted := serveClear_accepted p (clearRefusal_passed (s := huntAgain p s) safe quiet delivered soft)
    rw [clearFaults_eq] at accepted
    exact answers_of_serve take sender rfl accepted

end Sys2Proof.Machine

/-! PROOFS about READ_RECORDS (R190 to R192): the records a read takes, what a removal makes of the arm and of an open
gap, and the obligation from the two answers of `readStream`. -/

namespace Sys2Proof.Machine

/-! ### The records taken (R192) -/

theorem takeRecords_cons_fits {room : Nat} {r : List Word16} (rest : List (List Word16)) (fits : r.length ≤ room) :
    takeRecords room (r :: rest) =
      (r :: (takeRecords (room - r.length) rest).1, (takeRecords (room - r.length) rest).2) := by
  simp [takeRecords, fits]

theorem takeRecords_cons_over {room : Nat} {r : List Word16} (rest : List (List Word16)) (long : room < r.length) :
    takeRecords room (r :: rest) = ([], r :: rest) := by
  simp [takeRecords, Nat.not_le.2 long]

theorem occupancy_cons (r : List Word16) (rest : List (List Word16)) :
    occupancy (r :: rest) = r.length + occupancy rest := by
  simp [occupancy]

/-- A read takes the longest run of whole records from the head that fits. -/
theorem takeRecords_spec (room : Nat) (records : List (List Word16)) :
    records = (takeRecords room records).1 ++ (takeRecords room records).2 ∧
    occupancy (takeRecords room records).1 ≤ room ∧
    ∀ r rest, (takeRecords room records).2 = r :: rest →
      room < occupancy (takeRecords room records).1 + r.length := by
  induction records generalizing room with
  | nil => simp [takeRecords, occupancy]
  | cons r rest ih =>
    rcases Nat.lt_or_ge room r.length with long | fits
    · rw [takeRecords_cons_over rest long]
      refine ⟨rfl, Nat.zero_le _, fun head tail same => ?_⟩
      obtain ⟨rfl, -⟩ := List.cons.inj same
      simpa [occupancy] using long
    · obtain ⟨split, within, full⟩ := ih (room - r.length)
      rw [takeRecords_cons_fits rest fits]
      refine ⟨congrArg (r :: ·) split, ?_, fun head tail same => ?_⟩
      · rw [occupancy_cons]
        omega
      · have := full head tail same
        rw [occupancy_cons]
        omega

/-! ### What follows a removal (R190, R191) -/

/-- An event does not look at the stream. -/
theorem raiseEvent_withRst (n : Option Port) (e : Event) (s : State) (r : Rst) :
    raiseEvent n e { s with rst := r } = { raiseEvent n e s with rst := r } := by
  have one : ∀ (p : Port) (u : State), deliverTo n e { u with rst := r } p = { deliverTo n e u p with rst := r } := by
    intro p u
    show (if delivers n e p (u.port p) then _ else _) = _
    unfold deliverTo
    split <;> rfl
  simp only [raiseEvent, allPorts, List.foldl_cons, List.foldl_nil, one]

/-- An admission that leaves 1,536 words or less raises nothing (R191). -/
theorem admitRecords_low {words : List (List Word16)} {s : State}
    (low : occupancy (s.rst.records ++ words) ≤ 1536) :
    admitRecords words s = { s with rst := { s.rst with records := s.rst.records ++ words } } :=
  if_neg fun high => absurd high.1 (Nat.not_lt.2 low)

/-- An admission past 1,536 words that finds the arm set raises STREAM_HIGH (R191). -/
theorem admitRecords_rise {words : List (List Word16)} {s : State}
    (high : 1536 < occupancy (s.rst.records ++ words)) (armed : s.rst.armed = true) :
    admitRecords words s =
      raiseEvent none (.streamHigh (occupancy (s.rst.records ++ words)) s.rst.gap.isSome)
        { s with rst := { s.rst with records := s.rst.records ++ words, armed := false } } :=
  if_pos ⟨high, armed⟩

/-- The arm after a removal (R191). -/
def armedAfter (r : Rst) : Bool := decide (occupancy r.records ≤ 1536) || r.armed

theorem armed_on_removal (s : State) :
    (if occupancy s.rst.records ≤ Config.streamHigh then { s with rst := { s.rst with armed := true } } else s) =
      { s with rst := { s.rst with armed := armedAfter s.rst } } := by
  unfold armedAfter
  split
  case isTrue low => simp [show occupancy s.rst.records ≤ 1536 from low]
  case isFalse high => simp [show ¬ occupancy s.rst.records ≤ 1536 from high]

/-- No gap is open, or fewer than 512 words are free: a removal leaves the stream to its arm (R190). -/
theorem afterRead_stays {s : State} (stays : s.rst.gap = none ∨ 2048 < occupancy s.rst.records + 512) :
    afterRead s = { s with rst := { s.rst with armed := armedAfter s.rst } } := by
  unfold afterRead
  simp only [armed_on_removal]
  split
  · rfl
  · rename_i g opened
    have tight : 2048 < occupancy s.rst.records + 512 := stays.resolve_left (by simp [opened])
    refine if_neg fun free => ?_
    simp only [freeWords, Config.gapCloseFree, Config.streamWords] at free
    omega

section
variable {s : State} {g : Gap} (opened : s.rst.gap = some g) (free : occupancy s.rst.records + 512 ≤ 2048)
include opened free

/-- Where 512 words are free the arm is set, and the GAP record of an open gap is admitted (R190, R191). -/
theorem afterRead_closes :
    afterRead s =
      let t := admitRecords [gapRecord g] { s with rst := { s.rst with armed := true } }
      { t with rst := { t.rst with gap := none } } := by
  have armed : armedAfter s.rst = true := by
    simp only [armedAfter, Bool.or_eq_true, decide_eq_true_eq]
    omega
  have room : Config.gapCloseFree ≤ freeWords s.rst := by
    simp only [freeWords, Config.gapCloseFree, Config.streamWords]
    omega
  unfold afterRead
  simp only [armed_on_removal, armed]
  split
  · rename_i closed
    cases opened.symm.trans closed
  · rename_i g' opened'
    cases opened.symm.trans opened'
    exact if_pos room

/-- A GAP record that leaves 1,536 words or less raises nothing (R191). -/
theorem afterRead_closes_low (low : occupancy s.rst.records + (gapRecord g).length ≤ 1536) :
    afterRead s = { s with rst := { records := s.rst.records ++ [gapRecord g], gap := none, armed := true } } := by
  rw [afterRead_closes opened free, admitRecords_low (by simpa [occupancy] using low)]

/-- A GAP record past 1,536 words raises STREAM_HIGH while the gap is still open (R191). -/
theorem afterRead_closes_high (high : 1536 < occupancy s.rst.records + (gapRecord g).length) :
    afterRead s =
      { raiseEvent none (.streamHigh (occupancy s.rst.records + (gapRecord g).length) true) s with
        rst := { records := s.rst.records ++ [gapRecord g], gap := none, armed := false } } := by
  have words : occupancy (s.rst.records ++ [gapRecord g]) = occupancy s.rst.records + (gapRecord g).length := by
    simp [occupancy]
  rw [afterRead_closes opened free, admitRecords_rise (by simpa only [words] using high) rfl]
  simp only [raiseEvent_withRst, words, opened, Option.isSome_some]

/-- The stream behind a gap that closes, whatever its record raises. -/
theorem afterRead_closes_rst :
    (afterRead s).rst.records = s.rst.records ++ [gapRecord g] ∧ (afterRead s).rst.gap = none := by
  rcases Nat.lt_or_ge 1536 (occupancy s.rst.records + (gapRecord g).length) with high | low
  · rw [afterRead_closes_high opened free high]
    exact ⟨rfl, rfl⟩
  · rw [afterRead_closes_low opened free low]
    exact ⟨rfl, rfl⟩

end

/-! ### The answer (R192) -/

/-- The part with the records that a read leaves. -/
def leaving (left : List (List Word16)) (s : State) : State := { s with rst := { s.rst with records := left } }

theorem readMaximum_two (high low : Byte) : readMaximum [high, low] = some (high.toNat * 256 + low.toNat) := rfl

theorem serveReadRecords_two (high low : Byte) (s : State) :
    serveReadRecords [high, low] s = readStream (high.toNat * 256 + low.toNat) s := by
  simp only [serveReadRecords, readMaximum_two]

theorem readStatus_eq (n : Nat) : readStatus n = if 120 < n then .clamped else .ok := rfl

theorem recordsReply_results (st : Status) (occ : Nat) (gap : Option Gap) (taken : List (List Word16)) :
    (recordsReply st occ gap taken).results =
      natBytes16 occ ++ [if gap.isSome then 1 else 0] ++ taken.flatten.flatMap (fun w => bytes16 w) := by
  cases gap <;> rfl

section
variable {n : Nat} {s : State} {taken left : List (List Word16)}
  (take : takeRecords (min 120 n) s.rst.records = (taken, left))
include take

/-- A read that takes nothing changes nothing: the stream is empty, or its head record does not fit (RANGE). -/
theorem readStream_keeps (nothing : taken = []) :
    readStream n s =
      (recordsReply (if left = [] then readStatus n else .range) (occupancy left) s.rst.gap [], s) := by
  obtain ⟨whole, -, -⟩ := takeRecords_spec (min 120 n) s.rst.records
  simp only [take, nothing, List.nil_append] at whole
  unfold readStream
  simp only [show Config.readWords = 120 from rfl, take, nothing]
  split
  · rename_i empty
    simp [← whole, empty, occupancy]
  · rename_i kept _
    simp [← whole, kept]
  · contradiction

/-- A read that takes records leaves the others. -/
theorem readStream_takes (something : taken ≠ []) :
    readStream n s =
      (recordsReply (readStatus n) (occupancy left) (afterRead (leaving left s)).rst.gap taken,
        afterRead (leaving left s)) := by
  unfold readStream
  simp only [show Config.readWords = 120 from rfl, take]
  split
  · rename_i empty
    rw [empty] at take
    cases take
    contradiction
  · contradiction
  · rfl

end

/-- Settles O35: what `takeRecords` takes and leaves, then the two answers of `readStream`, with nothing taken and with
the removal behind it. -/
theorem readRecordsTakesTheOldest : Obligations.ReadRecordsTakesTheOldest := by
  intro tag high low s canTake
  have answers := fun {reply t} run =>
    answers_of_serve (c := .readRecords .supervisor tag [high, low]) (tag := tag) (reply := reply) (t := t) canTake
      (by decide) rfl ((serveReadRecords_two high low _).trans run)
  obtain ⟨whole, within, full⟩ := takeRecords_spec (min 120 (high.toNat * 256 + low.toNat)) s.rst.records
  rcases take : takeRecords (min 120 (high.toNat * 256 + low.toNat)) s.rst.records with ⟨taken, left⟩
  rw [take] at whole within full
  by_cases nothing : taken = []
  · refine ⟨taken, left, _, true, _, _, rfl, whole, within, full,
      answers (readStream_keeps (s := huntAgain .supervisor s) take nothing), ?_, fun _ => rfl,
      fun _ kept => if_neg kept, fun empty => ?_, absurd nothing⟩
    · rw [recordsReply_results, nothing]
    · exact if_pos (empty.resolve_right (not_not_intro nothing))
  · refine ⟨taken, left, _, armedAfter { s.rst with records := left }, _, _, rfl, whole, within, full,
      answers (readStream_takes (s := huntAgain .supervisor s) take nothing), recordsReply_results _ _ _ _,
      fun empty => absurd empty nothing, fun empty => absurd empty nothing, fun _ => readStatus_eq _,
      fun _ => ⟨rfl, fun stays => afterRead_stays stays, fun g opened free => ?_⟩⟩
    obtain ⟨records, closed⟩ := afterRead_closes_rst (s := leaving left (huntAgain .supervisor s)) opened free
    refine ⟨records, closed, fun low => afterRead_closes_low opened free low, fun high => ?_⟩
    rw [afterRead_closes_high (s := leaving left (huntAgain .supervisor s)) opened free high]
    simp only [leaving, raiseEvent_withRst, huntAgain_rst]

end Sys2Proof.Machine

/-! PROOFS about a step and its command: the front of the queue, and that no effect of a command touches the commands
that wait. -/

namespace Sys2Proof.Machine

/-- The queue of waiting commands is no part of what an effect changes. -/
theorem Effect.pending {s t : State} (effect : Effect s t) : t.pending = s.pending := by
  cases effect with
  | none | ports | move | powerOn | powerLoss => rfl
  | request r p tag body => exact (served_keeps r p tag body s).pending
  | reset p tag body =>
    exact ((clockFrame_keeps p body s).trans (takeFrame_keeps _ _ _ _ _ (serveReset_keeps p tag body))).pending
  | frame p tag code body => exact ((clockFrame_keeps p body s).trans (frameArrives_keeps p tag code body _)).pending
  | feed gap p bytes => exact (feed_keeps gap p bytes s).pending
  | line u c => exact (resetArrives_keeps c { s with ptu := u }).pending
  | set conv w => exact (completeSet_keeps conv w s).pending
  | instant levels order w => exact (takeInstant_keeps levels order w s).pending
  | write => exact (completeWrite_keeps s).pending

/-- Settles O1, by the two cases of `step`. -/
theorem stepRunsTheFrontCommand : Obligations.StepRunsTheFrontCommand := by
  refine ⟨fun _ _ _ => rfl, fun s empty => ?_⟩
  simp only [step, empty]

/-- Settles O2: each command has one of the effects, and none of these touches the commands that wait. -/
theorem noCommandStopsThePart : Obligations.NoCommandStopsThePart := by
  intro c s
  obtain ⟨t, next, effect⟩ := exec_effect c s
  exact ⟨t, next, effect.pending⟩

end Sys2Proof.Machine

/-! PROOFS about the event queues (R200 to R204): where an event goes, and what GET_EVENT and SET_EVENTS answer. -/

namespace Sys2Proof.Machine

/-- A port a delivery reaches, in the words of R201. -/
theorem delivers_iff (named : Option Port) (e : Event) (p : Port) (x : PortState) :
    delivers named e p x = true ↔ named = some p ∨ namedOnly e = false ∧ x.mask.getLsbD (eventClass e) = true := by
  simp [delivers]

/-- Settles O11: each port by `raiseEvent_port`, the rest of the part by the frame of an event. -/
theorem eventsReachTheirQueues : Obligations.EventsReachTheirQueues := by
  intro named e s
  refine ⟨fun p => ?_, ?_⟩
  · rw [raiseEvent_port]
    by_cases reached : delivers named e p (s.port p) = true
    · rw [if_pos reached, if_pos ((delivers_iff ..).1 reached)]
      rfl
    · rw [if_neg reached, if_neg (mt (delivers_iff ..).2 reached)]
  · have frame := raiseEvent_frame named e s
    exact frame.rest.trans (congrArg (fun u => { s with ptu := u }) frame.unit)

theorem eventReply_eq (x : PortState) :
    eventReply x =
      { status := .ok
        results :=
          [byte ((if x.queue = [] then 0 else 1) + (if x.overflow then 2 else 0)), byte (x.queue.length - 1)] ++
            (x.queue.head?.map eventEntry).getD (List.replicate 15 0) } := by
  rcases queue : x.queue with _ | ⟨e, rest⟩ <;> simp [eventReply, flag, queue]

theorem takeEvent_eq (x : PortState) :
    takeEvent x =
      { x with queue := x.queue.drop 1, overflow := false, atn := decide (1 < x.queue.length) } := by
  rcases queue : x.queue with _ | ⟨e, _ | ⟨f, rest⟩⟩ <;> simp [takeEvent, queue]

/-- A mask of two bytes is read while its four high bits are clear (R202). -/
theorem readMask_two {high low : Byte} (defined : high.toNat < 16) :
    readMask [high, low] = some (BitVec.ofNat 12 (high.toNat * 256 + low.toNat)) := by
  have fits : high.toNat * 256 + low.toNat < 4096 := by omega
  simp [readMask, rd16, definedFlags, rdEnd, fits]

theorem readMask_undefined {high low : Byte} (undefined : 16 ≤ high.toNat) : readMask [high, low] = none := by
  have great : 4096 ≤ high.toNat * 256 + low.toNat := by omega
  simp [readMask, rd16, definedFlags, great]

/-- Two bytes read as a number are sent as they came. -/
theorem natBytes16_two (high low : Byte) : natBytes16 (high.toNat * 256 + low.toNat) = [high, low] := by
  have value : (BitVec.ofNat 16 (high.toNat * 256 + low.toNat)).toNat = high.toNat * 256 + low.toNat := by
    rw [BitVec.toNat_ofNat]
    omega
  unfold natBytes16 bytes16
  congr 1
  · apply BitVec.eq_of_toNat_eq
    rw [BitVec.extractLsb'_toNat, value, Nat.shiftRight_eq_div_pow]
    omega
  · congr 1
    apply BitVec.eq_of_toNat_eq
    rw [BitVec.extractLsb'_toNat, value, Nat.shiftRight_eq_div_pow]
    omega

/-- Every port may read its queue and set its mask. -/
theorem all_send_events (p : Port) : p ∈ senders .getEvent ∧ p ∈ senders .setEvents := by
  cases p <;> decide

/-- Settles O12: the answer and the port that GET_EVENT leaves, then the mask by its four high bits. -/
theorem eventQueuesAreRead : Obligations.EventQueuesAreRead := by
  refine ⟨fun p tag s take => ?_, fun p tag high low s take => ⟨fun defined => ?_, fun undefined => ?_⟩⟩
  · refine answers_of_serve take (all_send_events p).1 rfl ?_
    simp [serveGetEvent, readNone, eventReply_eq, takeEvent_eq, huntAgain]
  · refine answers_of_serve take (all_send_events p).2 rfl ?_
    have value : (high.toNat * 256 + low.toNat) % 4096 = high.toNat * 256 + low.toNat := by omega
    simp [serveSetEvents, readMask_two defined, value, natBytes16_two, huntAgain]
  · refine answers_of_serve take (all_send_events p).2 rfl ?_
    simp [serveSetEvents, readMask_undefined undefined, malformed]

end Sys2Proof.Machine

/-! PROOFS about the checks of R196 ahead of a request's own: the codes and the rows of the table, the ports of R199,
and the form of a body as its reader takes it (R209). -/

namespace Sys2Proof.Machine

/-! ### Codes and rows (R196) -/

theorem requestOfCode_requestCode (r : Request) : requestOfCode (requestCode r) = some r := by
  cases r <;> decide

theorem requestCode_bounds (r : Request) : 1 ≤ (requestCode r).toNat ∧ (requestCode r).toNat ≤ 31 := by
  cases r <;> decide

/-- A code beyond those of 10.1 names no request. -/
theorem requestOfCode_unknown {code : Byte} (unknown : codeUnknown code = true) : requestOfCode code = none := by
  have range : code.toNat = 0 ∨ 31 < code.toNat := by simpa [codeUnknown] using unknown
  refine List.find?_eq_none.2 fun r _ same => ?_
  have bounds := requestCode_bounds r
  rw [eq_of_beq same] at bounds
  omega

theorem serveCode_unknown {code : Byte} (unknown : codeUnknown code = true) (p : Port) (tag : Byte) (body : List Byte)
    (s : State) : serveCode p tag code body s = beginServing p tag code (some (Reply.only .unknown)) s := by
  simp only [serveCode, requestOfCode_unknown unknown]

theorem serveCode_reset (p : Port) (tag : Byte) (body : List Byte) :
    serveCode p tag (requestCode .reset) body = serveReset p tag body := by
  funext s
  simp only [serveCode, requestOfCode_requestCode]

theorem serveCode_request {r : Request} (other : r ≠ .reset) (p : Port) (tag : Byte) (body : List Byte) :
    serveCode p tag (requestCode r) body = serveRequest r p tag (serveBody r p body) := by
  funext s
  simp only [serveCode, requestOfCode_requestCode]

/-- A row of the table runs the request's own function, RESET apart. -/
theorem exec_row {r : Request} (other : r ≠ .reset) (p : Port) (tag : Byte) (body : List Byte) (s : State) :
    ∀ c ∈ rowsOf p tag body r, exec c s = .next (request r p tag body (serveBody r p body) s) := by
  cases r
  case reset => exact absurd rfl other
  case load => exact List.forall_mem_cons.2 ⟨rfl, List.forall_mem_singleton.2 rfl⟩
  all_goals exact List.forall_mem_singleton.2 rfl

/-- A request's frame on a port is the frame of its code (R196). -/
theorem exec_row_frame (r : Request) (p : Port) (tag : Byte) (body : List Byte) (s : State) :
    ∀ c ∈ rowsOf p tag body r,
      exec c s = .next (frameArrives p tag (requestCode r) body (clockFrame p body s)) := by
  intro c row
  unfold frameArrives
  by_cases reset : r = .reset
  · subst reset
    rw [serveCode_reset, List.mem_singleton.1 row]
    rfl
  · rw [serveCode_request reset, exec_row reset p tag body s c row]
    rfl

/-! ### No request's own function answers NOT_PERMITTED (R196, R199) -/

/-- An answer's status is not that of the permission check. -/
abbrev Permits (x : Reply × State) : Prop := x.1.status ≠ .notPermitted

theorem firstFailure_mem {l : List (Bool × Status)} {st : Status} (fails : firstFailure l = some st) :
    st ∈ l.map Prod.snd := by
  induction l with
  | nil => cases fails
  | cons x rest ih =>
    obtain ⟨ok, own⟩ := x
    cases ok
    · cases fails
      exact List.mem_cons_self
    · exact List.mem_cons_of_mem _ (ih fails)

/-- Every check of a LOAD refuses with MALFORMED or RANGE (R3, R4, R34). -/
theorem loadChecks_statuses (t : Tables) (o : TestOrder) (gs : List SegmentBody) :
    ∀ st ∈ (loadChecks t o gs).map Prod.snd, st = .malformed ∨ st = .range := by
  have context : ∀ st ∈ (orderChecks t o).map Prod.snd, st = .malformed ∨ st = .range := by simp [orderChecks]
  have segment : ∀ g, ∀ st ∈ (segmentChecks g).map Prod.snd, st = .malformed ∨ st = .range := by
    intro g
    unfold segmentChecks
    cases segmentOf g <;> simp [valueChecks]
  intro st mem
  simp only [loadChecks, List.map_append, List.map_flatMap, List.mem_append, List.mem_flatMap, List.map_cons,
    List.map_nil, List.mem_singleton] at mem
  rcases mem with (own | count) | ⟨g, -, own⟩
  · exact context st own
  · exact .inl count
  · exact segment g st own

theorem motionRefusal_permits {s : State} {r : Reply} (refused : motionRefusal s = some r) :
    r.status ≠ .notPermitted := by
  unfold motionRefusal at refused
  repeat' split at refused
  all_goals cases refused
  all_goals nofun

theorem moveRefusal_permits {p : Port} {v : Int} {s : State} {r : Reply} (refused : moveRefusal p v s = some r) :
    r.status ≠ .notPermitted := by
  unfold moveRefusal at refused
  split at refused
  · rename_i stopped
    cases refused
    exact motionRefusal_permits stopped
  · repeat' split at refused
    all_goals cases refused
    all_goals nofun

theorem bindRefusal_permits {b : BindBody} {s : State} {r : Reply} (refused : bindRefusal b s = some r) :
    r.status ≠ .notPermitted := by
  unfold bindRefusal at refused
  dsimp only at refused
  repeat' split at refused
  all_goals cases refused
  all_goals nofun

theorem resumeRefusal_permits {p : Port} {k : SlotId} {s : State} {r : Reply} (refused : resumeRefusal p k s = some r) :
    r.status ≠ .notPermitted := by
  unfold resumeRefusal at refused
  repeat' split at refused
  all_goals cases refused
  all_goals nofun

theorem clearRefusal_permits {s : State} {r : Reply} (refused : clearRefusal s = some r) :
    r.status ≠ .notPermitted := by
  unfold clearRefusal at refused
  repeat' split at refused
  all_goals cases refused
  all_goals nofun

theorem amendRefusal_permits {rate : Int} {b : Bank} {s : State} {st : Status}
    (refused : amendRefusal rate b s = some st) :
    st ≠ .notPermitted := by
  unfold amendRefusal at refused
  repeat' split at refused
  all_goals cases refused
  all_goals nofun

theorem loadOrder_permits (k : SlotId) (o : TestOrder) (gs : List SegmentBody) (s : State) :
    Permits (loadOrder k o gs s) := by
  unfold loadOrder
  split
  · nofun
  · split
    · rename_i st fails
      rcases loadChecks_statuses _ _ _ st (firstFailure_mem fails) with rfl | rfl <;> nofun
    · dsimp only
      split <;> nofun

theorem serveHeader_permits (body : List Byte) (s : State) : Permits (serveHeader body s) := by
  unfold serveHeader
  split <;> nofun

theorem serveProgram_permits (body : List Byte) (s : State) : Permits (serveProgram body s) := by
  unfold serveProgram
  split
  · nofun
  · split
    · nofun
    · split
      · exact loadOrder_permits _ _ _ _
      · nofun

theorem serveLoad_permits (body : List Byte) (s : State) : Permits (serveLoad body s) := by
  unfold serveLoad
  split
  · nofun
  · split
    · exact serveHeader_permits _ _
    · split
      · exact serveProgram_permits _ _
      · nofun

theorem readStream_permits (n : Nat) (s : State) : Permits (readStream n s) := by
  have status : readStatus n ≠ .notPermitted := by
    unfold readStatus
    split <;> nofun
  unfold readStream
  dsimp only
  split
  · exact status
  · nofun
  · exact status

theorem serveReadRecords_permits (body : List Byte) (s : State) : Permits (serveReadRecords body s) := by
  unfold serveReadRecords
  split
  · exact readStream_permits _ _
  · nofun

theorem serveMove_permits (p : Port) (body : List Byte) (s : State) : Permits (serveMove p body s) := by
  unfold serveMove moveTo
  split
  · split
    · exact moveRefusal_permits ‹_›
    · dsimp only
      split <;> split <;> nofun
  · nofun

theorem serveBind_permits (body : List Byte) (s : State) : Permits (serveBind body s) := by
  unfold serveBind
  split
  · nofun
  · split
    · exact bindRefusal_permits ‹_›
    · nofun

theorem serveJog_permits (p : Port) (body : List Byte) (s : State) : Permits (serveJog p body s) := by
  unfold serveJog jogAt
  split
  · split
    · exact motionRefusal_permits ‹_›
    · dsimp only
      split <;> nofun
  · nofun

theorem serveResume_permits (p : Port) (body : List Byte) (s : State) : Permits (serveResume p body s) := by
  unfold serveResume resumeSlot
  split
  · split
    · exact resumeRefusal_permits ‹_›
    · nofun
  · nofun

theorem serveClear_permits (p : Port) (body : List Byte) (s : State) : Permits (serveClear p body s) := by
  unfold serveClear
  split
  · nofun
  · split
    · exact clearRefusal_permits ‹_›
    · nofun

theorem serveAmend_permits (p : Port) (body : List Byte) (s : State) : Permits (serveAmend p body s) := by
  unfold serveAmend amendActive
  split
  · split
    · nofun
    · split
      · exact amendRefusal_permits ‹_›
      · dsimp only
        split <;> nofun
  · nofun

/-- No request's own function answers NOT_PERMITTED: the checks behind LOAD, MOVE, BIND, JOG, RESUME, CLEAR and AMEND
have statuses of their own, and every branch of the other functions names one. -/
theorem serveBody_permits (r : Request) (p : Port) (body : List Byte) (s : State) : Permits (serveBody r p body s) := by
  cases r
  case load => exact serveLoad_permits body s
  case readRecords => exact serveReadRecords_permits body s
  case move => exact serveMove_permits p body s
  case bind => exact serveBind_permits body s
  case jog => exact serveJog_permits p body s
  case resume => exact serveResume_permits p body s
  case clear => exact serveClear_permits p body s
  case amend => exact serveAmend_permits p body s
  all_goals
    simp only [serveBody, servePromote, promoteSlot, serveFree, freeSlot, serveClearCondition, clearMark,
      serveZeroPosition, serveNext, nextReply, serveRelease, releaseSlot, serveJogStop, serveHold, serveStart,
      startBound, serveAbort, abortSlot, serveLeave, serveTare, serveCalOpen, calOpen, serveCalData, calData, serveCalCommit,
      serveCalClose, serveCalRead, serveReadContext, contextReply, serveGetResults, resultsReply, serveStatus,
      serveGetEvent, serveSetEvents]
    repeat' split
  all_goals nofun

/-! ### A request on a port that can take it -/

theorem exec_row_taken {r : Request} {p : Port} {tag : Byte} {body : List Byte} {s : State} (take : CanTake p s) :
    ∀ c ∈ rowsOf p tag body r, exec c s = .next (serveCode p tag (requestCode r) body (huntAgain p s)) := by
  intro c row
  rw [exec_row_frame r p tag body s c row, clockFrame_free take, frameArrives, takeFrame_taken take]

theorem serveCode_forbidden {r : Request} {p : Port} (forbidden : p ∉ senders r) (tag : Byte) (body : List Byte)
    (s : State) :
    serveCode p tag (requestCode r) body s =
      beginServing p tag (requestCode r) (some (Reply.only .notPermitted)) s := by
  have closed := mt (permitted_iff r p).1 forbidden
  by_cases reset : r = .reset
  · subst reset
    rw [serveCode_reset, serveReset, if_neg closed]
  · rw [serveCode_request reset, serveRequest, if_neg closed]

theorem serveCode_sent {r : Request} {p : Port} (other : r ≠ .reset) (sender : p ∈ senders r) (tag : Byte)
    (body : List Byte) (s : State) :
    serveCode p tag (requestCode r) body s =
      beginServing p tag (requestCode r) (some (serveBody r p body s).1) (serveBody r p body s).2 := by
  rw [serveCode_request other, serveRequest, if_pos ((permitted_iff r p).2 sender)]

/-- Settles O7: the table of R199 by `permitted_iff`, the other answers by `serveBody_permits`. -/
theorem requestsNeedTheirPort : Obligations.RequestsNeedTheirPort := by
  intro r p tag body s take c row
  have run := exec_row_taken take c row
  refine ⟨fun forbidden => ?_, fun sender other => ?_⟩
  · exact run.trans (congrArg Host.Outcome.next (serveCode_forbidden forbidden ..))
  · exact ⟨_, _, serveBody_permits r p body (huntAgain p s),
      run.trans (congrArg Host.Outcome.next (serveCode_sent other sender ..))⟩

/-! ### What a reader takes from a body (R209) -/

section
variable {l r : List Byte}

theorem length_of_rd8 {n : Nat} (read : rd8 l = some (n, r)) : l.length = r.length + 1 := by
  rcases l with _ | ⟨b, rest⟩ <;> cases read
  rfl

theorem length_of_rd16 {n : Nat} (read : rd16 l = some (n, r)) : l.length = r.length + 2 := by
  unfold rd16 at read
  split at read <;> cases read
  rfl

theorem length_of_rdU32 {n : Nat} (read : rdU32 l = some (n, r)) : l.length = r.length + 4 := by
  unfold rdU32 at read
  split at read <;> cases read
  rfl

theorem length_of_rdS32 {v : Int} (read : rdS32 l = some (v, r)) : l.length = r.length + 4 := by
  obtain ⟨⟨n, rest⟩, word, same⟩ := Option.map_eq_some_iff.1 read
  cases same
  exact length_of_rdU32 word

theorem length_of_rdN {n : Nat} {x : List Byte} (read : rdN n l = some (x, r)) : l.length = r.length + n := by
  unfold rdN at read
  split at read <;> cases read
  rw [List.length_drop]
  omega

theorem length_of_rdEnd {α : Type} {a b : α} (read : rdEnd a l = some b) : l.length = 0 := by
  rcases l with _ | ⟨c, rest⟩ <;> cases read
  rfl

end

section
variable {body : List Byte}

theorem length_of_readNone {u : Unit} (read : readNone body = some u) : body.length = 0 := by
  rcases body with _ | ⟨b, rest⟩ <;> cases read
  rfl

theorem length_of_readSlot {k : SlotId} (read : readSlot body = some k) : body.length = 1 := by
  obtain ⟨⟨n, r⟩, slot, read⟩ := Option.bind_eq_some_iff.1 read
  obtain ⟨k, named, read⟩ := Option.bind_eq_some_iff.1 read
  have := length_of_rd8 slot
  have := length_of_rdEnd read
  omega

theorem length_of_readTable {n : Nat} (read : readTable body = some n) : body.length = 1 := by
  obtain ⟨⟨t, r⟩, table, read⟩ := Option.bind_eq_some_iff.1 read
  have := length_of_rd8 table
  have := length_of_rdEnd read
  omega

theorem length_of_readSlotMark {x : SlotId × Nat} (read : readSlotMark body = some x) : body.length = 2 := by
  obtain ⟨⟨n, r⟩, slot, read⟩ := Option.bind_eq_some_iff.1 read
  obtain ⟨k, named, read⟩ := Option.bind_eq_some_iff.1 read
  obtain ⟨⟨m, r'⟩, mark, read⟩ := Option.bind_eq_some_iff.1 read
  have := length_of_rd8 slot
  have := length_of_rd8 mark
  have := length_of_rdEnd read
  omega

theorem length_of_readSlotPart {x : SlotId × Nat} (read : readSlotPart body = some x) : body.length = 2 := by
  obtain ⟨⟨n, r⟩, slot, read⟩ := Option.bind_eq_some_iff.1 read
  obtain ⟨k, named, read⟩ := Option.bind_eq_some_iff.1 read
  obtain ⟨⟨m, r'⟩, part, read⟩ := Option.bind_eq_some_iff.1 read
  dsimp only at read
  split at read
  · have := length_of_rd8 slot
    have := length_of_rd8 part
    have := length_of_rdEnd read
    omega
  · cases read

theorem length_of_readMaximum {n : Nat} (read : readMaximum body = some n) : body.length = 2 := by
  obtain ⟨⟨m, r⟩, words, read⟩ := Option.bind_eq_some_iff.1 read
  have := length_of_rd16 words
  have := length_of_rdEnd read
  omega

theorem length_of_readMask {m : BitVec 12} (read : readMask body = some m) : body.length = 2 := by
  obtain ⟨⟨n, r⟩, mask, read⟩ := Option.bind_eq_some_iff.1 read
  obtain ⟨d, defined, read⟩ := Option.bind_eq_some_iff.1 read
  have := length_of_rd16 mask
  have := length_of_rdEnd read
  omega

theorem length_of_readJog {v : Int} (read : readJog body = some v) : body.length = 4 := by
  obtain ⟨⟨x, r⟩, velocity, read⟩ := Option.bind_eq_some_iff.1 read
  have := length_of_rdS32 velocity
  have := length_of_rdEnd read
  omega

theorem length_of_readCalOpen {x : Nat × Nat} (read : readCalOpen body = some x) : body.length = 5 := by
  obtain ⟨⟨t, r⟩, table, read⟩ := Option.bind_eq_some_iff.1 read
  obtain ⟨⟨n, r'⟩, revision, read⟩ := Option.bind_eq_some_iff.1 read
  have := length_of_rd8 table
  have := length_of_rdU32 revision
  have := length_of_rdEnd read
  omega

theorem length_of_readMove {x : Int × Int} (read : readMove body = some x) : body.length = 8 := by
  obtain ⟨⟨t, r⟩, target, read⟩ := Option.bind_eq_some_iff.1 read
  obtain ⟨⟨v, r'⟩, speed, read⟩ := Option.bind_eq_some_iff.1 read
  have := length_of_rdS32 target
  have := length_of_rdS32 speed
  have := length_of_rdEnd read
  omega

theorem length_of_readAmend {x : Int × Option Int} (read : readAmend body = some x) : body.length = 9 := by
  obtain ⟨⟨f, r⟩, flags, read⟩ := Option.bind_eq_some_iff.1 read
  obtain ⟨g, defined, read⟩ := Option.bind_eq_some_iff.1 read
  obtain ⟨⟨rate, r'⟩, first, read⟩ := Option.bind_eq_some_iff.1 read
  obtain ⟨⟨v, r''⟩, second, read⟩ := Option.bind_eq_some_iff.1 read
  have := length_of_rd8 flags
  have := length_of_rdS32 first
  have := length_of_rdS32 second
  have := length_of_rdEnd read
  omega

/-- A BIND whose first two bytes are read is as long as its identifier calls for. -/
theorem length_of_readBind {b n : Byte} {rest : List Byte} {x : BindBody} (read : readBind (b :: n :: rest) = some x) :
    rest.length = n.toNat + 8 := by
  obtain ⟨k, named, read⟩ := Option.bind_eq_some_iff.1 read
  obtain ⟨⟨c, r₀⟩, count, read⟩ := Option.bind_eq_some_iff.1 read
  cases count
  obtain ⟨⟨name, r⟩, identifier, read⟩ := Option.bind_eq_some_iff.1 read
  obtain ⟨⟨v, r'⟩, first, read⟩ := Option.bind_eq_some_iff.1 read
  obtain ⟨⟨w, r''⟩, second, read⟩ := Option.bind_eq_some_iff.1 read
  have := length_of_rdN identifier
  have := length_of_rdU32 first
  have := length_of_rdU32 second
  have := length_of_rdEnd read
  omega

end

theorem none_of_length {α : Type} {read : List Byte → Option α} {n : Nat} {body : List Byte}
    (whole : ∀ {x}, read body = some x → body.length = n) (wrong : body.length ≠ n) : read body = none :=
  Option.eq_none_iff_forall_ne_some.2 fun _ found => wrong (whole found)

theorem slotOf_none {n : Nat} (great : 8 ≤ n) : slotOf n = none := dif_neg (Nat.not_lt.2 great)

theorem readSlot_none {b : Byte} (great : 8 ≤ b.toNat) : readSlot [b] = none := by
  simp [readSlot, rd8, slotOf_none great]

theorem readBind_short {body : List Byte} (short : body.length < 2) : readBind body = none := by
  rcases body with _ | ⟨b, _ | ⟨n, rest⟩⟩
  · rfl
  · simp [readBind, rd8]
  · simp only [List.length_cons] at short
    omega

theorem readBind_none {b n : Byte} {rest : List Byte} (wrong : 8 ≤ b.toNat ∨ rest.length ≠ n.toNat + 8) :
    readBind (b :: n :: rest) = none := by
  rcases wrong with great | wrong
  · simp [readBind, rd8, slotOf_none great]
  · exact Option.eq_none_iff_forall_ne_some.2 fun _ found => wrong (length_of_readBind found)

/-- The length that the table of a CAL_DATA calls for, behind the table byte (10.3). -/
theorem contentLength_iff (t : TableId) (l : List Byte) :
    contentLength t l = true ↔ l.length =
      (match t with
       | .frame => 39
       | .loadR1 | .loadR2 | .loadR3 => 1 + 8 * (l.headD 0).toNat
       | .arms => 8
       | .compliance => 4) := by
  cases t
  case loadR1 | loadR2 | loadR3 => rcases l with _ | ⟨m, rest⟩ <;> simp [contentLength, Nat.add_comm 1]
  all_goals simp [contentLength]

/-! ### Bodies of a wrong form (R196, R209) -/

/-- A body of another length than its layout is refused by the request's own function. -/
theorem serveBody_wrongLength {r : Request} {n : Nat} {body : List Byte} (layout : fixedLength r = some n)
    (wrong : body.length ≠ n) (p : Port) (s : State) : serveBody r p body s = (malformed, s) := by
  cases r <;> cases layout
  case reset => rfl
  case promote | free | abort | resume | getResults =>
    simp only [serveBody, servePromote, serveFree, serveAbort, serveResume, serveGetResults,
      none_of_length length_of_readSlot wrong]
  case calRead => simp only [serveBody, serveCalRead, none_of_length length_of_readTable wrong]
  case clearCondition => simp only [serveBody, serveClearCondition, none_of_length length_of_readSlotMark wrong]
  case readRecords => simp only [serveBody, serveReadRecords, none_of_length length_of_readMaximum wrong]
  case readContext => simp only [serveBody, serveReadContext, none_of_length length_of_readSlotPart wrong]
  case setEvents => simp only [serveBody, serveSetEvents, none_of_length length_of_readMask wrong]
  case jog => simp only [serveBody, serveJog, none_of_length length_of_readJog wrong]
  case calOpen => simp only [serveBody, serveCalOpen, none_of_length length_of_readCalOpen wrong]
  case move => simp only [serveBody, serveMove, none_of_length length_of_readMove wrong]
  case amend => simp only [serveBody, serveAmend, none_of_length length_of_readAmend wrong]
  all_goals
    simp only [serveBody, serveZeroPosition, serveNext, serveRelease, serveJogStop, serveHold, serveStart, serveLeave,
      serveTare, serveClear, serveCalCommit, serveCalClose, serveStatus, serveGetEvent,
      none_of_length length_of_readNone wrong]

/-- And so is RESET's, which has no answer otherwise (R207). -/
theorem serveReset_malformed {p : Port} {body : List Byte} (sender : p ∈ senders .reset) (wrong : body.length ≠ 0)
    (tag : Byte) (s : State) :
    serveReset p tag body s = beginServing p tag (requestCode .reset) (some malformed) s := by
  simp only [serveReset, (permitted_iff .reset p).2 sender, if_true, none_of_length length_of_readNone wrong]

section
variable {r : Request} {p : Port} {tag : Byte} {body : List Byte} {s : State} (take : CanTake p s)
  (sender : p ∈ senders r)
include take sender

/-- A request whose own function refuses the body is refused, and nothing changes. -/
theorem refuses_of_body (other : r ≠ .reset) (refused : ∀ s, serveBody r p body s = (malformed, s)) :
    ∀ c ∈ rowsOf p tag body r, Refuses c s p r tag .malformed := by
  intro c row
  show exec c s = _
  rw [exec_row_taken take c row, serveCode_sent other sender, refused]
  rfl

theorem refuses_of_length {n : Nat} (layout : fixedLength r = some n) (wrong : body.length ≠ n) :
    ∀ c ∈ rowsOf p tag body r, Refuses c s p r tag .malformed := by
  by_cases reset : r = .reset
  · subst reset
    cases layout
    intro c row
    show exec c s = _
    rw [exec_row_taken take c row, serveCode_reset, serveReset_malformed sender wrong]
    rfl
  · exact refuses_of_body take sender reset (serveBody_wrongLength layout wrong p)

end

theorem serveLoad_malformed {body : List Byte} (one : body.head? ≠ some 1) (two : body.head? ≠ some 2) (s : State) :
    serveLoad body s = (malformed, s) := by
  rcases body with _ | ⟨b, rest⟩
  · rfl
  · have first : b ≠ 1 := fun e => one (e ▸ rfl)
    have second : b ≠ 2 := fun e => two (e ▸ rfl)
    simp only [serveLoad, first, second, if_false]

theorem serveBind_malformed {body : List Byte} (unread : readBind body = none) (s : State) :
    serveBind body s = (malformed, s) := by
  simp only [serveBind, unread]

theorem serveCalData_malformed {p : Port} {body : List Byte} (unread : readCalData body = none) (s : State) :
    serveCalData p body s = (malformed, s) := by
  simp only [serveCalData, unread]

theorem readCalData_none {t : TableId} {b : Byte} {content : List Byte} (table : b.toNat = tableCode t)
    (wrong : ¬ contentLength t content = true) : readCalData (b :: content) = none := by
  simp [readCalData, rd8, table, tableOfCode_tableCode, wrong]

/-- Five requests have a body that is one slot (10.2). -/
theorem serveBody_slot {r : Request} (one : r ∈ [Request.promote, .free, .abort, .resume, .getResults])
    {body : List Byte} (unread : readSlot body = none) (p : Port) (s : State) : serveBody r p body s = (malformed, s) := by
  simp only [List.mem_cons, List.not_mem_nil, or_false] at one
  rcases one with rfl | rfl | rfl | rfl | rfl <;>
    simp only [serveBody, servePromote, serveFree, serveAbort, serveResume, serveGetResults, unread]

/-- Settles O8: each body is one that the request's reader gives up, by its length or its slot byte. -/
theorem bodiesOfWrongFormAreRefused : Obligations.BodiesOfWrongFormAreRefused := by
  refine ⟨?_, ?_, ?_, ?_, ?_⟩
  · intro r n p tag body s take sender layout wrong
    exact refuses_of_length take sender layout wrong
  · intro r p tag b s take sender great one
    have other : r ≠ .reset := by
      rintro rfl
      exact absurd one (by decide)
    exact refuses_of_body take sender other (serveBody_slot one (readSlot_none great) p)
  · intro tag body s take
    have refused := fun unread =>
      refuses_of_body (r := .bind) (tag := tag) (body := body) take (by decide) (by decide) (serveBind_malformed unread)
        _ (List.mem_singleton_self _)
    refine ⟨fun short => refused (readBind_short short), ?_⟩
    rintro b n rest rfl wrong
    exact refused (readBind_none wrong)
  · intro p tag b rest t s take sender table wrong
    have refused := fun {body} unread =>
      refuses_of_body (r := .calData) (tag := tag) (body := body) take sender (by decide)
        (serveCalData_malformed unread) _ (List.mem_singleton_self _)
    exact ⟨refused (readCalData_none table (mt (contentLength_iff t rest).1 wrong)), refused rfl⟩
  · intro tag body s take one two
    exact refuses_of_body take (by decide) (by decide) (serveLoad_malformed one two)

end Sys2Proof.Machine

/-! PROOFS about the links (R194, R195, R197): a port that serves, the reply that is ready and its end, and the
receiver's verdict on the bytes behind a sync byte. -/

namespace Sys2Proof.Machine

/-! ### Frames on a port that serves (R197) -/

@[simp] theorem clockFrame_port (p q : Port) (body : List Byte) (s : State) : (clockFrame p body s).port q = s.port q :=
  clockLink_port ..

@[simp] theorem hears_clockFrame (p q : Port) (body : List Byte) (s : State) :
    hears q (clockFrame p body s) = hears q s :=
  hears_clockLink ..

/-- A frame on a port that serves is answered BUSY once, whatever the part would do with it. -/
theorem takeFrame_serving {p : Port} {s : State} {v : Serving} (heard : hears p s = true)
    (serving : (s.port p).serving = some v) (tag code : Byte) (f : State → State) :
    takeFrame p tag code f s =
      s.setPort p { s.port p with rx := [], busy := some ((s.port p).busy.getD { tag := tag, code := code }) } := by
  unfold takeFrame
  simp only [heard, if_true, huntAgain_port, serving]
  rcases waits : (s.port p).busy with _ | f <;> simp [answerBusy, waits, huntAgain, serving]

theorem frameArrives_serving {p : Port} {s : State} {v : Serving} (heard : hears p s = true)
    (serving : (s.port p).serving = some v) (tag code : Byte) (body : List Byte) :
    frameArrives p tag code body (clockFrame p body s) =
      (clockFrame p body s).setPort p { s.port p with
        rx := [], busy := some ((s.port p).busy.getD { tag := tag, code := code }) } := by
  rw [frameArrives, takeFrame_serving ((hears_clockFrame ..).trans heard) ((clockFrame_port ..).symm ▸ serving),
    clockFrame_port]

/-! ### The reply that is ready (R195, R197) -/

theorem readyReply_free {x : PortState} (free : x.serving = none) : readyReply x = none := by
  simp only [readyReply, free]

section
variable {x : PortState} {v : Serving} (serving : x.serving = some v)
include serving

theorem readyReply_reply {r : Reply} (own : x.busyTurn = false) (reply : v.reply = some r) :
    readyReply x = some (v.tag, v.code, r.body) := by
  simp [readyReply, serving, own, reply]

theorem readyReply_busy {f : BusyFrame} (turn : x.busyTurn = true ∨ v.reply = none) (busy : x.busy = some f) :
    readyReply x = some (f.tag, f.code, [byte (statusCode .busy)]) := by
  have none_own : (if x.busyTurn then none else v.reply) = none := by
    rcases turn with turn | turn <;> simp [turn]
  simp only [readyReply, serving, none_own, busy]
  rfl

theorem readyReply_none (noReply : v.reply = none) (noBusy : x.busy = none) : readyReply x = none := by
  simp [readyReply, serving, noReply, noBusy]

theorem replyReady_of_reply (ready : v.reply.isSome = true) : replyReady x = true := by
  simp [replyReady, serving, ready]

/-- The port after the end of a reply, by the turn it was (R197). -/
theorem replyDone_eq (ready : v.reply.isSome = true) :
    replyDone x =
      if x.busyTurn = true then { x with serving := none, busy := none, busyTurn := false }
      else if x.busy.isSome = true then { x with busyTurn := true }
      else { x with serving := none } := by
  have replied : v.reply.isNone = false := by
    rw [← Option.not_isSome, ready]
    rfl
  simp [replyDone, serving, replied]

end

theorem misoByte_ready {s : State} {tag code : Byte} {body : List Byte} {b : Byte}
    (ready : readyReply s.ptu.supervisor = some (tag, code, body))
    (next : (wireFrame tag code body)[s.ptu.misoSent]? = some b) : misoByte s = b := by
  simp [misoByte, ready, next]

theorem misoByte_fill {s : State} (idle : readyReply s.ptu.supervisor = none) : misoByte s = 0xFF := by
  simp only [misoByte, idle]
  rfl

/-- The end of a reply changes its port, the driver of the cell link and the supervisor's transmit position, and nothing
else (R195, R197). -/
theorem sendReply_eq {p : Port} {s : State} {v : Serving} (driven : p = .cell → s.ptu.cellDe = true)
    (serving : (s.port p).serving = some v) (ready : v.reply.isSome = true) :
    sendReply p s =
      { s with ptu := { s.ptu.setPort p (replyDone (s.port p)) with
        misoSent := if p = .supervisor then 0 else s.ptu.misoSent
        cellDe := if p = .cell then false else s.ptu.cellDe } } := by
  have waits := replyReady_of_reply serving ready
  cases p
  case cell => exact if_pos (driven rfl)
  all_goals exact if_pos waits

/-! ### The receiver (R194) -/

theorem hunt_sync (rest : List Byte) : hunt (0xA5 :: rest) = 0xA5 :: rest := if_pos rfl

/-- Bytes without a sync byte are ignored. -/
theorem hunt_none {bytes : List Byte} (silent : ∀ b ∈ bytes, b ≠ 0xA5) : hunt bytes = [] := by
  induction bytes with
  | nil => rfl
  | cons b rest ih =>
    obtain ⟨head, tail⟩ := List.forall_mem_cons.1 silent
    exact (if_neg head).trans (ih tail)

theorem huntAgain_hunting {p : Port} {s : State} (hunting : (s.port p).rx = []) : huntAgain p s = s := by
  have same : { s.port p with rx := [] } = s.port p := by rw [← hunting]
  rw [huntAgain, same, State.setPort_self]

section
variable {gap : Bool} {p : Port} {n : Nat} {rest : List Byte} {s : State}

theorem receive_silent {bytes : List Byte} (silent : hunt bytes = []) :
    receive gap p (n + 1) bytes s = huntAgain p s := by
  simp only [receive, silent]

theorem receive_good {tag code : Byte} {body after : List Byte} (good : inspect rest = .good tag code body after) :
    receive gap p (n + 1) (0xA5 :: rest) s = receive gap p n after (frameArrives p tag code body s) := by
  simp only [receive, hunt_sync, good]

theorem receive_bad (bad : inspect rest = .bad) :
    receive gap p (n + 1) (0xA5 :: rest) s = receive gap p n rest s := by
  simp only [receive, hunt_sync, bad]

theorem receive_timeout (partly : inspect rest = .partly) :
    receive true p (n + 1) (0xA5 :: rest) s = receive true p n rest s := by
  simp only [receive, hunt_sync, partly, if_true]

theorem receive_kept (partly : inspect rest = .partly) :
    receive false p (n + 1) (0xA5 :: rest) s = s.setPort p { s.port p with rx := 0xA5 :: rest } := by
  simp only [receive, hunt_sync, partly, Bool.false_eq_true, if_false]

end

theorem byte_length {body : List Byte} (short : body.length ≤ 250) : (byte body.length).toNat = body.length := by
  rw [byte, BitVec.toNat_ofNat]
  omega

theorem inspect_long {len : Byte} (long : 250 < len.toNat) (rest : List Byte) : inspect (len :: rest) = .bad :=
  if_pos long

theorem inspect_partly {len : Byte} {rest : List Byte} (short : len.toNat ≤ 250)
    (missing : rest.length < len.toNat + 4) :
    inspect (len :: rest) = .partly :=
  (if_neg (Nat.not_lt.2 short)).trans (if_pos missing)

/-- What a receiver makes of a whole frame is for its CRC to say. -/
theorem inspect_framed {body sum : List Byte} (short : body.length ≤ 250) (two : sum.length = 2) (tag code : Byte)
    (rest : List Byte) :
    inspect (framed tag code body ++ sum ++ rest) =
      if bytes16 (crc (framed tag code body)) = sum then .good tag code body rest else .bad := by
  have len := byte_length short
  have whole : ¬ (tag :: code :: (body ++ (sum ++ rest))).length < body.length + 4 := by
    simp only [List.length_cons, List.length_append]
    omega
  have content : (body ++ (sum ++ rest)).take body.length = body := List.take_left
  have check : ((body ++ (sum ++ rest)).drop body.length).take 2 = sum := by
    rw [List.drop_left, ← two, List.take_left]
  have behind : (body ++ (sum ++ rest)).drop (body.length + 2) = rest := by
    rw [← two, ← List.drop_drop, List.drop_left, List.drop_left]
  simp only [framed, List.cons_append, List.append_assoc, inspect, maxLength, len, if_neg (Nat.not_lt.2 short),
    if_neg whole, content, check, behind]
  rfl

section
variable {p : Port} {s : State} (heard : hears p s = true) (hunting : (s.port p).rx = [])
include heard hunting

theorem feed_hunting (gap : Bool) (bytes : List Byte) :
    feed gap p bytes s = receive gap p (bytes.length + 1) bytes (clockLink p bytes.length s) := by
  simp only [feed, heard, hunting, if_true, List.nil_append]

/-- Bytes that leave a HUNTING receiver HUNTING are clocked and forgotten. -/
theorem feed_silent (gap : Bool) {bytes : List Byte} (silent : hunt bytes = []) :
    feed gap p bytes s = clockLink p bytes.length s := by
  rw [feed_hunting heard hunting, receive_silent silent, huntAgain_hunting]
  rw [clockLink_port, hunting]

/-- Where a frame is discarded, the part goes on as if its sync byte alone had come before (R194). -/
theorem feed_discard {gap : Bool} {rest : List Byte}
    (discard : ∀ n u, receive gap p (n + 1) (0xA5 :: rest) u = receive gap p n rest u) :
    feed gap p (0xA5 :: rest) s = feed gap p rest (clockLink p 1 s) := by
  rw [feed_hunting heard hunting, discard,
    feed_hunting ((hears_clockLink ..).trans heard) ((clockLink_port ..).symm ▸ hunting), clockLink_clockLink,
    List.length_cons, Nat.add_comm 1]

theorem feed_kept {rest : List Byte} (partly : inspect rest = .partly) :
    feed false p (0xA5 :: rest) s =
      (clockLink p (rest.length + 1) s).setPort p { s.port p with rx := 0xA5 :: rest } := by
  rw [feed_hunting heard hunting, receive_kept partly, clockLink_port, List.length_cons]

end

theorem length_wireFrame (tag code : Byte) (body : List Byte) : (wireFrame tag code body).length = body.length + 6 := by
  simp [wireFrame, framed, bytes16]

/-- A whole frame is taken, and the receiver hunts again. -/
theorem feed_wireFrame {p : Port} {s : State} {body : List Byte} (heard : hears p s = true)
    (hunting : (s.port p).rx = []) (short : body.length ≤ 250) (gap : Bool) (tag code : Byte) :
    feed gap p (wireFrame tag code body) s = huntAgain p (frameArrives p tag code body (clockFrame p body s)) := by
  have good := inspect_framed (sum := bytes16 (crc (framed tag code body))) short rfl tag code []
  rw [if_pos rfl, List.append_nil] at good
  have clock : clockFrame p body s = clockLink p (wireFrame tag code body).length s := by
    rw [clockFrame, hunting, length_wireFrame]
    rfl
  rw [feed_hunting heard hunting, clock, length_wireFrame]
  exact (receive_good good).trans (receive_silent rfl)

/-- Settles O10: a whole frame by `feed_wireFrame`; each discard by what `inspect` says of the bytes behind the sync
byte. -/
theorem theReceiverTakesFrames : Obligations.TheReceiverTakesFrames := by
  refine ⟨fun r p tag body s heard hunting short c row => ?_, fun p s heard hunting => ⟨?_, ?_, ?_, ?_⟩⟩
  · exact ⟨_, exec_row_frame r p tag body s c row,
      congrArg Host.Outcome.next (feed_wireFrame heard hunting short false tag (requestCode r))⟩
  · intro bytes silent
    exact ⟨congrArg Host.Outcome.next (feed_silent heard hunting false (hunt_none silent)),
      congrArg Host.Outcome.next (feed_silent heard hunting true (hunt_none silent))⟩
  · intro len rest long
    exact congrArg Host.Outcome.next (feed_discard heard hunting fun _ _ => receive_bad (inspect_long long rest))
  · intro tag code body sum rest short two wrong
    have bad := (inspect_framed short two tag code rest).trans (if_neg wrong.symm)
    exact congrArg Host.Outcome.next (feed_discard heard hunting fun _ _ => receive_bad bad)
  · intro len rest short missing
    have partly := inspect_partly short missing
    exact ⟨congrArg Host.Outcome.next (feed_discard heard hunting fun _ _ => receive_timeout partly),
      congrArg Host.Outcome.next (feed_kept heard hunting partly)⟩

/-- Fill bytes are no sync bytes (10.1). -/
theorem hunt_fill (n : Nat) : hunt (List.replicate n 0xFF) = [] :=
  hunt_none fun b fill => by
    rw [List.eq_of_mem_replicate fill]
    decide

theorem clockLink_ready {s : State} {tag code : Byte} {body : List Byte} (heard : hears .supervisor s = true)
    (ready : readyReply s.ptu.supervisor = some (tag, code, body)) (n : Nat) :
    clockLink .supervisor n s =
      { s with ptu := { s.ptu with misoSent := min (wireFrame tag code body).length (s.ptu.misoSent + n) } } := by
  simp [clockLink, heard, ready, frameLength, length_wireFrame]

/-- Settles O9: UNKNOWN by the codes, BUSY by `frameArrives_serving`, the bytes out by the reply that is ready, the end
of a reply by `sendReply_eq`. -/
theorem framesAreAnsweredAndRepliesLeave : Obligations.FramesAreAnsweredAndRepliesLeave := by
  refine ⟨?_, ?_, ?_, ?_, ?_, ?_, ?_⟩
  · intro p tag code body s take unknown
    show Host.Outcome.next (frameArrives p tag code body (clockFrame p body s)) = _
    rw [clockFrame_free take, frameArrives, takeFrame_taken take, serveCode_unknown unknown]
  · intro p tag code body s v heard serving
    exact congrArg Host.Outcome.next (frameArrives_serving heard serving tag code body)
  · intro r p tag body s v _ _ c row
    exact exec_row_frame r p tag body s c row
  · intro s v powered off serving ready
    have waits := replyReady_of_reply serving ready
    exact congrArg Host.Outcome.next (if_pos (by simp [powered, off, waits]))
  · intro s free
    exact misoByte_fill (readyReply_free free)
  · intro s v serving
    refine ⟨fun r b own reply next => misoByte_ready (readyReply_reply serving own reply) next,
      fun f b turn busy next => misoByte_ready (readyReply_busy serving turn busy) next,
      fun noReply noBusy => misoByte_fill (readyReply_none serving noReply noBusy), ?_⟩
    intro n r powered hunting own reply
    have heard : hears .supervisor s = true := by simp [hears, powered]
    refine congrArg Host.Outcome.next ((feed_silent heard hunting false (hunt_fill n)).trans ?_)
    rw [List.length_replicate, clockLink_ready heard (readyReply_reply serving own reply)]
  · intro p s v powered driven serving ready
    refine ⟨sendReply p s, congrArg Host.Outcome.next (if_pos powered), ?_⟩
    rw [sendReply_eq driven serving ready, ← replyDone_eq serving ready]
    refine ⟨rfl, ?_, rfl, fun q other => Ptu.port_setPort_other s.ptu _ other, Ptu.port_setPort_same s.ptu p _⟩
    cases p <;> rfl

end Sys2Proof.Machine

/-! PROOFS about the reports kept back (R32, R45, R168): no operation but `post` and `drain` touches them, and a set
that is completed has drained them all. -/

namespace Sys2Proof.Machine

/-! ### The shared operations -/

section
variable (k : SlotId) (s : State)

@[simp] theorem setMark_transit (m : Mark) (v : Int) (n : BitVec 32) :
    (setMark k m v n s).ctx.transit = s.ctx.transit := (setMark_frame k m v n s).transit

@[simp] theorem offer_transit (raises : Bool) (o : Offer) : (offer raises o k s).ctx.transit = s.ctx.transit :=
  (offer_frame raises o k s).transit

@[simp] theorem offerMark_transit (m : MarkKind) (n : BitVec 32) : (offerMark m k n s).ctx.transit = s.ctx.transit :=
  (offerMark_frame m k n s).transit

@[simp] theorem offerEnd_transit : (offerEnd k s).ctx.transit = s.ctx.transit := (offerEnd_frame k s).transit

@[simp] theorem offerResume_transit : (offerResume k s).ctx.transit = s.ctx.transit := (offerResume_frame k s).transit

@[simp] theorem offerLast_transit (raises : Bool) : (offerLast raises k s).ctx.transit = s.ctx.transit := by
  unfold offerLast
  split
  · split <;> simp
  · rfl

@[simp] theorem announcePhase_ctx : (announcePhase s).ctx = s.ctx := by simp [announcePhase]

@[simp] theorem announceEnd_ctx (c : Context) (o : Option TestOutcome) : (announceEnd c o s).ctx = s.ctx := by
  cases c <;> cases o <;> simp [announceEnd]

@[simp] theorem supersede_ctx (c : Changeover) : (supersede c s).ctx = s.ctx := by
  unfold supersede
  split <;> simp

@[simp] theorem raiseCause_transit (cause : Cause) (r : Requester) (i : Option Context) (e : Option EndCause) :
    (raiseCause cause r i e s).ctx.transit = s.ctx.transit := by
  unfold raiseCause beginChangeover
  split
  · rfl
  · split
    · simp
    · split <;> simp

@[simp] theorem abandonPortTare_ctx : (abandonPortTare s).ctx = s.ctx := by
  unfold abandonPortTare
  split <;> simp

@[simp] theorem abandonStartTare_transit (raises : Bool) :
    (abandonStartTare raises k s).ctx.transit = s.ctx.transit := by
  unfold abandonStartTare
  split <;> simp

@[simp] theorem setPhase_transit (p : Phase) : (setPhase p s).ctx.transit = s.ctx.transit := by
  unfold setPhase
  split <;> simp

@[simp] theorem beginStartTare_ctx (o : TestOrder) (rt : Runtime) : (beginStartTare o rt s).ctx = s.ctx := by
  unfold beginStartTare
  split <;> rfl

@[simp] theorem leaveTest_transit (o : Option TestOutcome) : (leaveTest k o s).ctx.transit = s.ctx.transit := by
  cases live : s.live with
  | none => simp [leaveTest, live]
  | some l => exact (leaveTest_frame k o s l live).transit

@[simp] theorem enterResumed_transit : (enterResumed k s).ctx.transit = s.ctx.transit := by
  unfold enterResumed
  split
  · rfl
  · simp [handBack]

@[simp] theorem enterService_transit (holder : Option Port) :
    (enterService holder s).ctx.transit = s.ctx.transit := by simp [enterService]

@[simp] theorem enterIdle_transit : (enterIdle s).ctx.transit = s.ctx.transit := by simp [enterIdle]

@[simp] theorem enterIncoming_transit (c : Changeover) : (enterIncoming c s).ctx.transit = s.ctx.transit := by
  unfold enterIncoming
  split <;> simp

@[simp] theorem completeChangeover_transit (c : Changeover) :
    (completeChangeover c s).ctx.transit = s.ctx.transit := by
  cases out : c.outgoing <;> simp [completeChangeover, out]

@[simp] theorem startTest_transit : (startTest k s).ctx.transit = s.ctx.transit := by
  rw [(startTest_frame k s).transit]
  simp [startedTest, beginTest]

@[simp] theorem autostartWith_transit (f : Frame) : (autostartWith f s).ctx.transit = s.ctx.transit := by
  unfold autostartWith
  split
  · split <;> simp
  · rfl

end

/-! ### Faults and reports -/

section
variable (s : State)

@[simp] theorem faultLeaves_transit (m : Mark) : (faultLeaves m s).ctx.transit = s.ctx.transit := by
  unfold faultLeaves
  split <;> simp

@[simp] theorem faultClears_transit : (faultClears s).ctx.transit = s.ctx.transit := by
  unfold faultClears
  split <;> simp

@[simp] theorem takeFault_transit (m : Mark) : (takeFault m s).ctx.transit = s.ctx.transit := by
  unfold takeFault
  cases s.residentSlot <;> simp

@[simp] theorem enterFault_ctx (e : FaultEntry) : (enterFault e s).ctx = s.ctx := by simp [enterFault]

@[simp] theorem faultReport_transit (kind : FaultKind) : (faultReport kind s).ctx.transit = s.ctx.transit := by
  unfold faultReport
  split
  · rfl
  split
  · simp
  · dsimp only
    split <;> simp

@[simp] theorem takeReport_transit (r : Report) : (takeReport s r).ctx.transit = s.ctx.transit := by
  cases r with
  | mark k m v n => exact setMark_transit k s m v n
  | fracture k n c f fm => exact (takeFracture_frame k n c f fm s).transit
  | fault kind => exact faultReport_transit s kind

end

@[simp] theorem foldl_takeReport_transit (l : List Report) (s : State) :
    (l.foldl takeReport s).ctx.transit = s.ctx.transit := by
  induction l generalizing s with
  | nil => rfl
  | cons r rest ih => rw [List.foldl_cons, ih, takeReport_transit]

/-- The last drain of a set leaves nothing kept back. -/
theorem drainAll_nothing (s : State) : NothingKeptBack (drain (fun _ => true) s) := by
  simp [NothingKeptBack, drainAll_eq, clearTransit]

theorem completeSet_nothing (conv : Option (BitVec 24)) (w : SetOrder) {s : State} (nothing : NothingKeptBack s) :
    NothingKeptBack (completeSet conv w s) := by
  cases assembling : s.smu.assembling with
  | none => simpa [completeSet, withinSet, assembling] using nothing
  | some x =>
    rw [completeSet_eq assembling]
    unfold runSet NothingKeptBack
    rw [autostartWith_transit]
    exact drainAll_nothing _

theorem examineGuard_transit (s : State) : (examineGuard s).ctx.transit = s.ctx.transit := by
  unfold examineGuard
  split
  · dsimp only
    split <;> split <;> simp
  · rfl

theorem takeItem_nothing (w : SetOrder) (old : Tables) (before : State) (i : LineItem) {s : State}
    (nothing : NothingKeptBack s) : NothingKeptBack (takeItem w old before s i) := by
  have line (fn : LineFn) (kind : FaultKind) : NothingKeptBack (reportLine fn kind before s) := by
    unfold reportLine NothingKeptBack
    split <;> simp [nothing]
  cases i with
  | estop | limitUp | limitLo | driveFault => exact line _ _
  | examine => exact (examineGuard_transit s).trans nothing
  | posLost =>
    unfold takeItem NothingKeptBack
    dsimp only
    split <;> simp [nothing]
  | missed => exact completeSet_nothing none w (s := { s with inForce := missedTables old s.inForce }) nothing

theorem takeInstant_nothing (levels : BitVec 8) (order : List LineItem) (w : SetOrder) {s : State}
    (nothing : NothingKeptBack s) : NothingKeptBack (takeInstant levels order w s) := by
  have first : NothingKeptBack (missFirst order w s) := by
    unfold missFirst
    split
    · exact nothing
    · exact completeSet_nothing none w nothing
  have items (old : Tables) (before : State) (l : List LineItem) (u : State) (h : NothingKeptBack u) :
      NothingKeptBack (l.foldl (takeItem w old before) u) :=
    List.foldlRecOn l _ h fun _ h i _ => takeItem_nothing w old before i h
  exact items _ _ _ (sampleLines levels (takeUp (tickClock (missFirst order w s)))) first

/-! ### The requests -/

section
variable (p : Port) (body : List Byte) (s : State)

theorem serveLoad_transit : (serveLoad body s).2.ctx.transit = s.ctx.transit := by
  unfold serveLoad serveHeader serveProgram loadOrder dropAssembly
  repeat' split
  all_goals rfl

theorem emptySlot_transit (k : SlotId) : (emptySlot k s).ctx.transit = s.ctx.transit := by
  unfold emptySlot
  dsimp only
  split <;> rfl

theorem serveFree_transit : (serveFree body s).2.ctx.transit = s.ctx.transit := by
  unfold serveFree freeSlot
  repeat' split
  all_goals simp [emptySlot_transit]

theorem serveClearCondition_transit : (serveClearCondition body s).2.ctx.transit = s.ctx.transit := by
  unfold serveClearCondition clearMark
  repeat' split
  all_goals rfl

theorem serveBind_transit : (serveBind body s).2.ctx.transit = s.ctx.transit := by
  unfold serveBind
  split
  · rfl
  split
  · rfl
  · simp [bindSlot, State.setQueue]

theorem serveRelease_transit : (serveRelease body s).2.ctx.transit = s.ctx.transit := by
  unfold serveRelease releaseSlot unbind
  repeat' split
  all_goals simp [State.setQueue]

theorem serveStart_transit : (serveStart body s).2.ctx.transit = s.ctx.transit := by
  unfold serveStart startBound
  repeat' split
  all_goals simp

theorem serveHold_transit : (serveHold p body s).2.ctx.transit = s.ctx.transit := by
  unfold serveHold
  repeat' split
  all_goals simp

theorem directVoid_transit (k : SlotId) : (directVoid k s).ctx.transit = s.ctx.transit := by simp [directVoid]

theorem serveAbort_transit : (serveAbort p body s).2.ctx.transit = s.ctx.transit := by
  unfold serveAbort abortSlot
  repeat' split
  all_goals simp [directVoid_transit]

theorem serveResume_transit : (serveResume p body s).2.ctx.transit = s.ctx.transit := by
  unfold serveResume resumeSlot
  split
  · split
    · rfl
    · dsimp only
      split <;> simp
  · rfl

theorem serveLeave_transit : (serveLeave p body s).2.ctx.transit = s.ctx.transit := by
  unfold serveLeave
  repeat' split
  all_goals simp

theorem serveClear_transit : (serveClear p body s).2.ctx.transit = s.ctx.transit := by
  unfold serveClear
  repeat' split
  all_goals simp [clearFaults]

theorem ensureService_transit : (ensureService p s).ctx.transit = s.ctx.transit := by
  unfold ensureService
  split <;> simp

theorem serveJog_transit : (serveJog p body s).2.ctx.transit = s.ctx.transit := by
  unfold serveJog jogAt
  repeat' split
  all_goals simp [setService, ensureService_transit]

theorem serveMove_transit : (serveMove p body s).2.ctx.transit = s.ctx.transit := by
  unfold serveMove moveTo
  repeat' split
  all_goals simp [setService, ensureService_transit]

theorem serveAmend_transit : (serveAmend p body s).2.ctx.transit = s.ctx.transit := by
  unfold serveAmend amendActive supersedeStage
  repeat' split
  all_goals simp

theorem admitRecords_ctx (words : List (List Word16)) : (admitRecords words s).ctx = s.ctx := by
  unfold admitRecords
  dsimp only
  split <;> simp

theorem afterRead_ctx : (afterRead s).ctx = s.ctx := by
  unfold afterRead
  rw [armed_on_removal]
  dsimp only
  split
  · rfl
  · split
    · exact admitRecords_ctx _ _
    · rfl

theorem serveReadRecords_transit : (serveReadRecords body s).2.ctx.transit = s.ctx.transit := by
  unfold serveReadRecords readStream
  dsimp only
  repeat' split
  all_goals simp [afterRead_ctx]

theorem serveCalOpen_transit : (serveCalOpen p body s).2.ctx.transit = s.ctx.transit := by
  unfold serveCalOpen calOpen
  repeat' split
  all_goals rfl

theorem serveCalData_transit : (serveCalData p body s).2.ctx.transit = s.ctx.transit := by
  unfold serveCalData calData
  repeat' split
  all_goals rfl

theorem serveCalCommit_transit : (serveCalCommit p body s).2.ctx.transit = s.ctx.transit := by
  unfold serveCalCommit
  repeat' split
  all_goals rfl

theorem serveCalClose_transit : (serveCalClose p body s).2.ctx.transit = s.ctx.transit := by
  unfold serveCalClose
  repeat' split
  all_goals rfl

theorem serveCalRead_transit : (serveCalRead body s).2.ctx.transit = s.ctx.transit := by
  unfold serveCalRead
  repeat' split
  all_goals rfl

theorem servePromote_transit : (servePromote body s).2.ctx.transit = s.ctx.transit := by
  unfold servePromote promoteSlot
  repeat' split
  all_goals rfl

theorem serveNext_transit : (serveNext body s).2.ctx.transit = s.ctx.transit := by
  unfold serveNext
  split <;> rfl

theorem serveJogStop_transit : (serveJogStop p body s).2.ctx.transit = s.ctx.transit := by
  unfold serveJogStop
  repeat' split
  all_goals rfl

theorem serveZeroPosition_transit : (serveZeroPosition body s).2.ctx.transit = s.ctx.transit := by
  unfold serveZeroPosition
  repeat' split
  all_goals rfl

theorem serveTare_transit : (serveTare p body s).2.ctx.transit = s.ctx.transit := by
  unfold serveTare
  repeat' split
  all_goals rfl

theorem serveGetEvent_transit : (serveGetEvent p body s).2.ctx.transit = s.ctx.transit := by
  unfold serveGetEvent
  split <;> rfl

theorem serveSetEvents_transit : (serveSetEvents p body s).2.ctx.transit = s.ctx.transit := by
  unfold serveSetEvents
  split <;> rfl

theorem serveReadContext_transit : (serveReadContext body s).2.ctx.transit = s.ctx.transit := by
  unfold serveReadContext
  split <;> rfl

theorem serveGetResults_transit : (serveGetResults body s).2.ctx.transit = s.ctx.transit := by
  unfold serveGetResults
  split <;> rfl

theorem serveStatus_transit : (serveStatus p body s).2.ctx.transit = s.ctx.transit := by
  unfold serveStatus
  split <;> rfl

theorem serveBody_transit (r : Request) : (serveBody r p body s).2.ctx.transit = s.ctx.transit := by
  cases r with
  | load => exact serveLoad_transit body s
  | promote => exact servePromote_transit body s
  | free => exact serveFree_transit body s
  | clearCondition => exact serveClearCondition_transit body s
  | readRecords => exact serveReadRecords_transit body s
  | move => exact serveMove_transit p body s
  | zeroPosition => exact serveZeroPosition_transit body s
  | reset => rfl
  | next => exact serveNext_transit body s
  | bind => exact serveBind_transit body s
  | release => exact serveRelease_transit body s
  | jog => exact serveJog_transit p body s
  | jogStop => exact serveJogStop_transit p body s
  | hold => exact serveHold_transit p body s
  | start => exact serveStart_transit body s
  | abort => exact serveAbort_transit p body s
  | resume => exact serveResume_transit p body s
  | leave => exact serveLeave_transit p body s
  | tare => exact serveTare_transit p body s
  | clear => exact serveClear_transit p body s
  | amend => exact serveAmend_transit p body s
  | calOpen => exact serveCalOpen_transit p body s
  | calData => exact serveCalData_transit p body s
  | calCommit => exact serveCalCommit_transit p body s
  | calClose => exact serveCalClose_transit p body s
  | readContext => exact serveReadContext_transit body s
  | getResults => exact serveGetResults_transit body s
  | status => exact serveStatus_transit p body s
  | getEvent => exact serveGetEvent_transit p body s
  | setEvents => exact serveSetEvents_transit p body s
  | calRead => exact serveCalRead_transit body s

end

/-- A completed write touches the store and the ports, and a reset that waited for it keeps nothing back. -/
theorem completeWrite_nothing {s : State} (nothing : NothingKeptBack s) : NothingKeptBack (completeWrite s) := by
  unfold completeWrite
  split
  · dsimp only
    unfold deferredReset
    split
    · rfl
    · simpa [NothingKeptBack] using nothing
  · exact nothing

theorem nothingKeptBack_invariant : Invariant NothingKeptBack where
  initial _ := rfl
  outside _ _ _ _ nothing := nothing
  smu _ _ nothing := nothing
  serve r p body s nothing := (serveBody_transit p body s r).trans nothing
  reset _ _ _ := rfl
  set conv w _ nothing := completeSet_nothing conv w nothing
  instant levels order w _ nothing := takeInstant_nothing levels order w nothing
  write _ nothing := completeWrite_nothing nothing

/-- Settles O5: the agreement of the contexts is an invariant, and so is that no report is kept back. -/
theorem stepKeepsTheContexts : Obligations.StepKeepsTheContexts :=
  ⟨fun _ _ suits run => contextsSuit_invariant.step suits run,
   fun _ _ nothing run => nothingKeptBack_invariant.step nothing run⟩

end Sys2Proof.Machine

/-! PROOFS about the state after POWER_ON (R33, R181, R208) and the requests on orders and grips (R7, R8, R10 to R12,
R30, R210): what each request's own function answers by the check it comes to, and the obligations from these. -/

namespace Sys2Proof.Machine

/-- Settles O6: the initial state meets every invariant, and its fields are those of `State.initial`. -/
theorem resetMeetsTheInvariants : Obligations.ResetMeetsTheInvariants :=
  ⟨(initial_fits _).1, (initial_fits _).2, outputsFollow_invariant.initial _, (demandStands_invariant.initial _).2,
   initial_suits _, nothingKeptBack_invariant.initial _, initial_slot _, rfl, rfl, rfl, rfl, rfl, rfl,
   fun p => by cases p <;> rfl⟩

/-! ### The order queue (R7) -/

/-- A request on one slot is answered by the request's function of that slot. -/
theorem answers_of_slot {c : Instr} {r : Request} {p : Port} {tag b : Byte} {k : SlotId}
    {f : SlotId → State → Reply × State}
    {serve : State → Reply × State} {reply : Reply} {s t : State} (take : CanTake p s) (sender : p ∈ senders r)
    (run : exec c s = .next (request r p tag [b] serve s))
    (reads : serve (huntAgain p s) = match readSlot [b] with
      | some k => f k (huntAgain p s)
      | none => (malformed, huntAgain p s))
    (slot : b.toNat = k.val) (answer : f k (huntAgain p s) = (reply, t)) :
    Answers c s p r tag reply t :=
  answers_of_serve take sender run (by rw [reads, readSlot_one slot]; exact answer)

theorem promoteSlot_loaded {k : SlotId} {s : State} (loaded : (s.slot k).state = .loaded) :
    promoteSlot k s = (Reply.only .ok, s.setQueue (k :: s.ctx.queue.erase k)) := if_pos loaded

theorem promoteSlot_refused {k : SlotId} {s : State} (other : (s.slot k).state ≠ .loaded) :
    promoteSlot k s = (Reply.only .state, s) := if_neg other

theorem nextReply_eq (s : State) :
    nextReply s =
      { status := .ok
        results := match s.ctx.queue with
          | [] => [255, 0]
          | k :: _ => byte k.val :: byte (s.slot k).order.specimenId.length :: (s.slot k).order.specimenId } := by
  unfold nextReply
  cases s.ctx.queue <;> rfl

/-- Settles O16: PROMOTE by the state of the slot, NEXT by the queue. -/
theorem theOrderQueue : Obligations.TheOrderQueue := by
  refine ⟨fun tag b k s take slot => ?_, fun tag s take => ?_⟩
  · have answers := fun {reply t} => answers_of_slot (c := .promote .supervisor tag [b]) (reply := reply) (t := t)
      (f := promoteSlot) take (by simp [senders]) rfl rfl slot
    exact ⟨fun loaded => answers (promoteSlot_loaded loaded), fun other => answers (promoteSlot_refused other)⟩
  · exact answers_of_serve take (by simp [senders]) rfl
      (congrArg (·, huntAgain .cell s) (nextReply_eq (huntAgain .cell s)))

/-! ### FREE (R8) -/

theorem freeSlot_freeable {k : SlotId} {s : State} (freeable : freeable k s = true) :
    freeSlot k s = (Reply.only .ok,
      { (s.setSlot k Slot.blank).setQueue (s.ctx.queue.erase k) with
        xch := { s.xch with owner := if s.xch.owner = some k then none else s.xch.owner } }) := by
  unfold freeSlot emptySlot
  rw [if_pos freeable]
  by_cases owned : s.xch.owner = some k <;> simp [owned, State.setQueue, State.setSlot]

theorem freeSlot_refused {k : SlotId} {s : State} (kept : freeable k s = false) :
    freeSlot k s = (Reply.only .state, s) := by simp [freeSlot, kept]

/-- Settles O17, by the state of the slot. -/
theorem freeEmptiesASlot : Obligations.FreeEmptiesASlot := by
  intro tag b k s take slot
  have answers := fun {reply t} => answers_of_slot (c := .free .supervisor tag [b]) (reply := reply) (t := t)
    (f := freeSlot) take (by simp [senders]) rfl rfl slot
  refine ⟨fun leaves => answers (freeSlot_freeable ?_), fun stays => answers (freeSlot_refused ?_)⟩
  · rcases leaves with loaded | ⟨ended | ended, unbound⟩ <;> simp [freeable, *]
  · rcases stays with empty | bound | resident | parked | ⟨ended | ended, bound⟩ <;> simp [freeable, *]

/-! ### CLEAR_CONDITION (R30) -/

theorem markOfNumber_markNumber (m : Mark) : markOfNumber (markNumber m) = some m := by cases m <;> rfl

theorem markOfNumber_none {n : Nat} (wrong : n = 0 ∨ 22 < n) : markOfNumber n = none := by
  rcases wrong with rfl | great
  · rfl
  · rw [markOfNumber, if_neg (by omega), List.getElem?_eq_none]
    show 22 ≤ n - 1
    omega

theorem readSlotMark_two {b c : Byte} {k : SlotId} (slot : b.toNat = k.val) :
    readSlotMark [b, c] = some (k, c.toNat) := by
  simp [readSlotMark, rd8, slotOf, rdEnd, slot]

section
variable {k : SlotId} {m : Mark} {s : State}

theorem clearMark_unknown {n : Nat} (wrong : n = 0 ∨ 22 < n) : clearMark k n s = (malformed, s) := by
  simp [clearMark, markOfNumber_none wrong]

theorem clearMark_of_state (other : (s.slot k).state ≠ .parked) :
    clearMark k (markNumber m) s = (Reply.only .state, s) := by
  simp [clearMark, markOfNumber_markNumber, other]

theorem clearMark_of_class (parked : (s.slot k).state = .parked) (terminate : markClass m ≠ .terminate)
    (operator : markClass m ≠ .operator) : clearMark k (markNumber m) s = (Reply.only .range, s) := by
  simp [clearMark, markOfNumber_markNumber, parked, clearable, terminate, operator]

theorem clearMark_cleared (parked : (s.slot k).state = .parked)
    (clears : markClass m = .terminate ∨ markClass m = .operator) :
    clearMark k (markNumber m) s = (Reply.only .ok,
      s.setSlot k { s.slot k with marks := (s.slot k).marks.filter (fun x => decide (x ≠ m)) }) := by
  have acts : clearable m = true := by simpa [clearable] using clears
  simp only [clearMark, markOfNumber_markNumber, parked, acts, ne_eq, not_true_eq_false, if_false, if_true]
  congr 3
  exact List.filter_congr fun x _ => by simp [bne, Bool.beq_eq_decide_eq]

end

/-- Settles O18: the checks of R30 one after the other. -/
theorem clearConditionRemovesAMark : Obligations.ClearConditionRemovesAMark := by
  intro tag b c k s take slot
  have answers {n : Nat} {reply : Reply} {t : State} (number : c.toNat = n)
      (answer : clearMark k n (huntAgain .supervisor s) = (reply, t)) :
      Answers (.clearCondition .supervisor tag [b, c]) s .supervisor .clearCondition tag reply t :=
    answers_of_serve take (by simp [senders]) rfl
      (by rw [serveClearCondition, readSlotMark_two slot, number]; exact answer)
  exact ⟨fun wrong => answers rfl (clearMark_unknown wrong), fun m number =>
    ⟨fun other => answers number (clearMark_of_state other),
     fun parked terminate operator => answers number (clearMark_of_class parked terminate operator),
     fun parked clears => answers number (clearMark_cleared parked clears)⟩⟩

end Sys2Proof.Machine

/-! PROOFS about LOAD (R3, R4, R34, R35, R210): the two parts of a LOAD by the check each comes to, the orders that the
checks let pass, and the limits of what is stored. -/

namespace Sys2Proof.Machine

/-! ### The two parts of a LOAD (R210) -/

section
variable {body : List Byte} {s : State}

theorem serveLoad_header (a : Assembly) (read : readHeader body = some a) :
    serveLoad (1 :: body) s = (Reply.only .ok, { s with ptu := { s.ptu with assembly := some a } }) := by
  simp [serveLoad, serveHeader, read]

theorem serveLoad_header_malformed (unread : readHeader body = none) :
    serveLoad (1 :: body) s = (Reply.only .malformed, s) := by
  simp [serveLoad, serveHeader, unread, malformed]

theorem serveLoad_program : serveLoad (2 :: body) s = serveProgram body s := rfl

theorem serveProgram_malformed (unread : readProgram body = none) :
    serveProgram body s = (Reply.only .malformed, dropAssembly s) := by
  simp [serveProgram, unread, malformed]

theorem dropAssembly_empty (empty : s.ptu.assembly = none) : dropAssembly s = s := by
  unfold dropAssembly
  rw [← empty]

variable {k : SlotId} {gs : List SegmentBody} (read : readProgram body = some (k, gs))
include read

theorem serveProgram_other (other : ∀ a, s.ptu.assembly = some a → a.slot ≠ k) :
    serveProgram body s = (Reply.only .state, dropAssembly s) := by
  cases held : s.ptu.assembly with
  | none => simp [serveProgram, read, held, dropAssembly_empty held]
  | some a => simp [serveProgram, read, held, other a held]

theorem serveProgram_held {a : Assembly} (held : s.ptu.assembly = some a) (slot : a.slot = k) :
    serveProgram body s = loadOrder k a.order gs (dropAssembly s) := by
  simp [serveProgram, read, held, slot]

end

section
variable {k : SlotId} {o : TestOrder} {gs : List SegmentBody} {s : State}

theorem loadOrder_of_state (taken : (s.slot k).state ≠ .empty) : loadOrder k o gs s = (Reply.only .state, s) :=
  if_pos taken

theorem loadOrder_of_check {st : Status} (empty : (s.slot k).state = .empty)
    (fails : firstFailure (loadChecks s.inForce o gs) = some st) : loadOrder k o gs s = (Reply.only st, s) := by
  simp [loadOrder, empty, fails]

theorem loadOrder_accepted (empty : (s.slot k).state = .empty)
    (passes : firstFailure (loadChecks s.inForce o gs) = none) :
    loadOrder k o gs s =
      (Reply.only (if limitOrder s.inForce (withProgram o gs) = withProgram o gs then .ok else .clamped),
       (s.setSlot k { Slot.blank with
          state := .loaded, order := limitOrder s.inForce (withProgram o gs) }).setQueue (s.ctx.queue ++ [k])) := by
  simp only [loadOrder, empty, ne_eq, not_true_eq_false, if_false, passes]
  rfl

end

/-- Settles O13: part 1 by what the body reads as, part 2 by the header held, the slot and the checks. -/
theorem loadMakesAnOrder : Obligations.LoadMakesAnOrder := by
  have part1 {tag : Byte} {body : List Byte} {s t : State} {reply : Reply} (take : CanTake .supervisor s)
      (answer : serveLoad (1 :: body) (huntAgain .supervisor s) = (reply, t)) :
      Answers (.loadHeader .supervisor tag (1 :: body)) s .supervisor .load tag reply t :=
    answers_of_serve take (by simp [senders]) rfl answer
  have part2 {tag : Byte} {body : List Byte} {s t : State} {reply : Reply} (take : CanTake .supervisor s)
      (answer : serveProgram body (huntAgain .supervisor s) = (reply, t)) :
      Answers (.load .supervisor tag (2 :: body)) s .supervisor .load tag reply t :=
    answers_of_serve take (by simp [senders]) rfl answer
  refine ⟨fun tag body s take => ⟨fun a read => part1 take (serveLoad_header a read), fun unread => ?_⟩,
    fun tag body s take unread => part2 take (serveProgram_malformed unread), fun tag body k gs s take read =>
      ⟨fun a held slot => ?_, fun other => part2 take (serveProgram_other read other)⟩⟩
  · exact part1 take (serveLoad_header_malformed unread)
  · have start : serveProgram body (huntAgain .supervisor s) =
        loadOrder k a.order gs (dropAssembly (huntAgain .supervisor s)) := serveProgram_held read held slot
    refine ⟨fun st fails empty => ?_, fun taken => ?_, fun passes empty o program => ?_⟩
    · exact part2 take (start.trans (loadOrder_of_check empty fails))
    · exact part2 take (start.trans (loadOrder_of_state taken))
    · subst program
      exact part2 take (start.trans (loadOrder_accepted empty passes))

/-! ### The orders that pass (R3, R4, R34) -/

/-- A list of checks passes where every check does. -/
theorem firstFailure_none_iff (l : List (Bool × Status)) : firstFailure l = none ↔ ∀ c ∈ l, c.1 = true := by
  induction l with
  | nil => simp [firstFailure]
  | cons c rest ih =>
    obtain ⟨ok, st⟩ := c
    cases ok <;> simp [firstFailure, ih]

theorem within_iff (lo hi x : Int) : within lo hi x = true ↔ lo ≤ x ∧ x ≤ hi := by simp [within]

theorem specimenValid_iff (l : List Byte) :
    specimenValid l = true ↔ 1 ≤ l.length ∧ l.length ≤ 16 ∧ ∀ b ∈ l, 0x20 ≤ b.toNat ∧ b.toNat ≤ 0x7E := by
  simp [specimenValid, printable, and_assoc]

theorem atLeastIf_iff (lo : Int) (v : Option Int) : atLeastIf lo v = true ↔ ∀ x, v = some x → lo ≤ x := by
  cases v <;> simp [atLeastIf]

/-- The RANGE check of R4 on the clamped window, behind the order of its bounds. -/
theorem clampWindow_differs (t : Tables) (o : TestOrder) (order : o.winLo < o.winHi) :
    ((clampWindow t o).winLo != (clampWindow t o).winHi) = true ↔
      ∀ f, t.frame = some f → clamp f.hardLo f.hardHi o.winLo ≠ clamp f.hardLo f.hardHi o.winHi := by
  cases frame : t.frame with
  | none => simp [clampWindow, hardWindow, frame, order.ne]
  | some f => simp [clampWindow, hardWindow, frame]

theorem modeOf_isSome (n : Nat) : (modeOf n).isSome = true ↔ n ≤ 2 := by
  match n with
  | 0 | 1 | 2 => simp [modeOf]
  | n + 3 => simp [modeOf]

theorem endKindOf_isSome (n : Nat) : (endKindOf n).isSome = true ↔ n ≤ 7 := by
  match n with
  | 0 | 1 | 2 | 3 | 4 | 5 | 6 | 7 => simp [endKindOf]
  | n + 8 => simp [endKindOf]

/-- The number of an end kind, in the words that the statement uses of it. -/
theorem endKindOf_code {n : Nat} {e : EndKind} (kind : endKindOf n = some e) : endKindCode e = n := by
  match n with
  | 0 | 1 | 2 | 3 | 4 | 5 | 6 | 7 => cases kind; rfl
  | n + 8 => cases kind

theorem takesEndValue_iff (e : EndKind) : takesEndValue e = true ↔ endKindCode e ∈ [0, 1, 2, 3, 5] := by
  cases e <;> simp [takesEndValue, endKindCode]

/-- What R34 asks of a segment. -/
abbrev SegmentPasses (g : SegmentBody) : Prop :=
  g.mode ≤ 2 ∧ g.endKind ≤ 7 ∧ (g.endValue.isSome = true ↔ g.endKind ∈ [0, 1, 2, 3, 5]) ∧
  (g.backup.isSome = true ↔ g.endKind = 4) ∧ (g.endKind = 1 → g.rate ≠ 0) ∧
  (g.endKind = 5 → ∀ v, g.endValue = some v → 1 ≤ v ∧ v ≤ 2147483647) ∧ (∀ v, g.backup = some v → 1 ≤ v)

/-- The checks of R34 on a segment of a known mode and end kind. -/
theorem valueChecks_pass {g : SegmentBody} {m : Mode} {e : EndKind} (kind : endKindOf g.endKind = some e) :
    (∀ c ∈ valueChecks { mode := m, rate := g.rate, vmax := g.vmax, kp := g.kp, endKind := e, endValue := g.endValue,
                         backup := g.backup }, c.1 = true) ↔
      (g.endValue.isSome = true ↔ g.endKind ∈ [0, 1, 2, 3, 5]) ∧ (g.backup.isSome = true ↔ g.endKind = 4) ∧
      (g.endKind = 1 → g.rate ≠ 0) ∧ (g.endKind = 5 → ∀ v, g.endValue = some v → 1 ≤ v ∧ v ≤ 2147483647) ∧
      (∀ v, g.backup = some v → 1 ≤ v) := by
  rw [← endKindOf_code kind, ← takesEndValue_iff, ← atLeastIf_iff]
  cases e <;> cases g.endValue <;> cases g.backup <;>
    simp [valueChecks, takesEndValue, endKindCode, atLeastIf, within]

theorem segmentChecks_pass (g : SegmentBody) : (∀ c ∈ segmentChecks g, c.1 = true) ↔ SegmentPasses g := by
  cases mode : modeOf g.mode with
  | none =>
    have wrong : ¬ g.mode ≤ 2 := by simp [← modeOf_isSome, mode]
    simp [segmentChecks, SegmentPasses, mode, wrong]
  | some m =>
    have known : g.mode ≤ 2 := by simp [← modeOf_isSome, mode]
    cases kind : endKindOf g.endKind with
    | none =>
      have wrong : ¬ g.endKind ≤ 7 := by simp [← endKindOf_isSome, kind]
      simp [segmentChecks, SegmentPasses, mode, kind, wrong]
    | some e =>
      have kinds : g.endKind ≤ 7 := by simp [← endKindOf_isSome, kind]
      have values := valueChecks_pass (m := m) kind
      simp only [segmentChecks, segmentOf, mode, kind, SegmentPasses, known, kinds, List.forall_mem_cons,
        Option.isSome_some, true_and]
      exact values

/-! ### The limits of what is stored (R3, R4, R35) -/

theorem clampNat_bounds {lo hi : Nat} (h : lo ≤ hi) (n : Nat) : lo ≤ clampNat lo hi n ∧ clampNat lo hi n ≤ hi := by
  unfold clampNat
  split
  · omega
  · split <;> omega

section
variable (t : Tables) (o : TestOrder)

theorem limitOrder_eq : limitOrder t o =
    { o with
      kS0 := clamp o.kSMin o.kSMax o.kS0
      kE0 := clamp o.kEMin o.kEMax o.kE0
      recordInterval := clampNat 1 1000 o.recordInterval
      rmTimeout := clampNat 100 10000 o.rmTimeout
      winLo := (clampWindow t o).winLo
      winHi := (clampWindow t o).winHi
      segments := (clampProgram t o).segments } := by
  unfold limitOrder clampProgram clampWindow hardWindow
  cases t.frame <;> rfl

variable {t} {f : Frame} (frame : t.frame = some f)
include frame

theorem clampWindow_bounds (order : f.hardLo ≤ f.hardHi) :
    f.hardLo ≤ (clampWindow t o).winLo ∧ (clampWindow t o).winHi ≤ f.hardHi := by
  simp only [clampWindow, hardWindow, frame, Option.map_some]
  exact ⟨(clamp_bounds order _).1, (clamp_bounds order _).2⟩

theorem clampProgram_bounds (nonneg : 0 ≤ f.vfs) : ∀ g ∈ (clampProgram t o).segments,
    0 ≤ g.vmax ∧ g.vmax ≤ f.vfs ∧ (g.mode = .position → -(f.vfs / 100) ≤ g.rate ∧ g.rate ≤ f.vfs / 100) := by
  simp only [clampProgram, frame, List.mem_map]
  rintro _ ⟨g, -, rfl⟩
  have rates : -(f.vfs / 100) ≤ f.vfs / 100 := by omega
  refine ⟨(clamp_bounds nonneg _).1, (clamp_bounds nonneg _).2, fun position => ?_⟩
  have position : g.mode = .position := position
  simp only [clampSegment, position, if_true]
  exact clamp_bounds rates _

end

/-- Settles O14: the checks one by one, and the bounds of each clamp. -/
theorem ordersThatAreAccepted : Obligations.OrdersThatAreAccepted := by
  intro t o gs
  refine ⟨?_, fun h => ?_, fun h => ?_, ?_, ?_, fun f frame => ⟨fun h => ?_, fun g mem nonneg => ?_⟩⟩
  · rw [firstFailure_none_iff, loadChecks, List.forall_mem_append, List.forall_mem_append, List.forall_mem_flatMap]
    simp only [segmentChecks_pass]
    simp only [orderChecks, List.forall_mem_cons, List.not_mem_nil, false_implies, implies_true, and_true, within_iff,
      specimenValid_iff, atLeastIf_iff, decide_eq_true_eq, Bool.and_eq_true, Bool.or_eq_true, Bool.not_eq_true']
    by_cases order : o.winLo < o.winHi
    · rw [clampWindow_differs t o order]
      simp only [← Bool.not_eq_true, ← imp_iff_not_or, and_assoc]
    · simp [order]
  · rw [limitOrder_eq]; exact clamp_bounds h _
  · rw [limitOrder_eq]; exact clamp_bounds h _
  · rw [limitOrder_eq]; exact clampNat_bounds (by decide) _
  · rw [limitOrder_eq]; exact clampNat_bounds (by decide) _
  · rw [limitOrder_eq]; exact clampWindow_bounds o frame h
  · rw [limitOrder_eq] at mem
    exact clampProgram_bounds o frame nonneg g mem

end Sys2Proof.Machine

/-! PROOFS about the start of a test (R16 to R18) and the grips (R10 to R12, R17): what a change of phase and a start do
to each block, and BIND, RELEASE and START by the check each comes to. -/

namespace Sys2Proof.Machine

/-! ### A change of phase (R13, R90, R173) -/

section
variable (s : State)

/-- Abandoning a port tare changes the running tare and the event queues alone. -/
theorem abandonPortTare_frame :
    EventFrame { s with lch := { s.lch with tareRun := (abandonPortTare s).lch.tareRun } } (abandonPortTare s) := by
  unfold abandonPortTare
  split
  · simpa using raiseEvent_frame _ _ { s with lch := { s.lch with tareRun := none } }
  · exact EventFrame.refl s

/-- The part in a phase, its running tare left open. -/
def phased (p : Phase) (run : Option TareRun) (s : State) : State :=
  { s with
    ctx := { s.ctx with phase := p }
    flu := { s.flu with drvEn := p == .test || p == .service }
    lch := { s.lch with tareRun := run } }

theorem setPhase_frame (p : Phase) : EventFrame (phased p (setPhase p s).lch.tareRun s) (setPhase p s) := by
  unfold setPhase
  dsimp only
  split
  · exact abandonPortTare_frame
      { s with ctx := { s.ctx with phase := p }, flu := { s.flu with drvEn := p == .test || p == .service } }
  · exact EventFrame.refl _

variable {s} {t : State}

theorem EventFrame.ctx (h : EventFrame s t) : t.ctx = s.ctx := by rw [h.rest]
theorem EventFrame.msq (h : EventFrame s t) : t.msq = s.msq := by rw [h.rest]
theorem EventFrame.slot (h : EventFrame s t) (k : SlotId) : t.slot k = s.slot k := by rw [h.rest]; rfl
theorem EventFrame.withTare (h : EventFrame s t) (run : Option TareRun) :
    EventFrame { s with lch := { s.lch with tareRun := run } } { t with lch := { t.lch with tareRun := run } } where
  rest := by rw [h.rest]
  unit := h.unit
  ports := h.ports
  fit := h.fit

theorem EventFrame.rst (h : EventFrame s t) : t.rst = s.rst := by rw [h.rest]

/-- A change of phase with the start tare that may begin behind it. -/
theorem beginStartTare_phased (p : Phase) (o : TestOrder) (rt : Runtime) (s : State) :
    ∃ run, EventFrame (phased p run s) (beginStartTare o rt (setPhase p s)) ∧
      (o.tareAtStart = true → rt.tareDone = false → run = some { kind := .start, sum := 0, count := 0 }) := by
  have phase := setPhase_frame s p
  unfold beginStartTare
  split
  · exact ⟨_, phase.withTare _, fun _ _ => rfl⟩
  · rename_i off
    exact ⟨_, phase, fun asked pending => absurd (by simp [asked, pending]) off⟩

end

/-! ### The start of a test (R18) -/

section
variable (k : SlotId) (s : State)

theorem startOrder_tare : (startOrder k s).tareAtStart = (s.slot k).order.tareAtStart := by
  unfold startOrder clampProgram clampWindow hardWindow
  cases s.inForce.frame <;> rfl

/-- The part as a start leaves it, before its marks and records and with the running tare left open (R18). -/
def started (run : Option TareRun) : State := phased .test run (beginTest k (startOrder k s) s)

theorem startTest_started :
    ∃ run, MarkFrame (started k s run) (startTest k s) ∧
      ((s.slot k).order.tareAtStart = true → run = some { kind := .start, sum := 0, count := 0 }) := by
  obtain ⟨run, frame, tare⟩ := beginStartTare_phased .test (startOrder k s) (startRuntime (startOrder k s))
    (beginTest k (startOrder k s) s)
  exact ⟨run, frame.mark.trans (startTest_frame k s), fun asked => tare (startOrder_tare k s ▸ asked) rfl⟩

theorem started_slot_same (run : Option TareRun) :
    (started k s run).slot k =
      { s.slot k with
        state := .resident, order := startOrder k s, runtime := some (startRuntime (startOrder k s)) } :=
  State.slot_setSlot_same s k _

theorem startTest_slot_same :
    ∃ marks, (startTest k s).slot k =
      { s.slot k with
        state := .resident, order := startOrder k s, runtime := some (startRuntime (startOrder k s))
        marks := marks } := by
  obtain ⟨run, frame, -⟩ := startTest_started k s
  exact ⟨_, (frame.slots k).trans (by rw [started_slot_same])⟩

end

/-! ### START (R17) -/

section
variable {k : SlotId} {s : State}

theorem startBound_unbound (unbound : ∀ k, s.ctx.binding = some k → (s.slot k).state ≠ .bound) :
    startBound s = (Reply.only .state, s) := by
  unfold startBound
  split
  · rfl
  · rename_i k binding
    rw [if_pos (unbound k binding)]

theorem startBound_pending (binding : s.ctx.binding = some k) (bound : (s.slot k).state = .bound)
    (pending : s.ctx.changeover ≠ none) : startBound s = (Reply.only .changeover, s) := by
  simp [startBound, binding, bound, Option.isSome_iff_ne_none, pending]

theorem startBound_unmet {i : Item} (binding : s.ctx.binding = some k) (bound : (s.slot k).state = .bound)
    (free : s.ctx.changeover = none) (unmet : firstUnmet k startItems s = some i) :
    startBound s = (Reply.notReady i, s) := by
  simp [startBound, binding, bound, free, unmet]

theorem startBound_ready (binding : s.ctx.binding = some k) (bound : (s.slot k).state = .bound)
    (free : s.ctx.changeover = none) (ready : firstUnmet k startItems s = none) :
    startBound s = (Reply.only .ok, startTest k s) := by
  simp [startBound, binding, bound, free, ready]

end

/-- Settles O21: the refusals by the checks in order; a started test by the frame of the start. -/
theorem startBeginsTheTest : Obligations.StartBeginsTheTest := by
  intro p tag s take
  have answers {reply : Reply} {t : State} (answer : startBound (huntAgain p s) = (reply, t)) :
      Answers (.start p tag []) s p .start tag reply t :=
    answers_of_serve take (by cases p <;> simp [senders]) rfl answer
  refine ⟨fun unbound => answers (startBound_unbound unbound), fun k binding bound => ?_⟩
  refine ⟨fun pending => answers (startBound_pending binding bound pending),
    fun free i unmet => answers (startBound_unmet binding bound free unmet), fun free ready => ?_⟩
  obtain ⟨run, frame, tare⟩ := startTest_started k (huntAgain p s)
  obtain ⟨marks, slot⟩ := startTest_slot_same k (huntAgain p s)
  refine ⟨_, answers (startBound_ready binding bound free ready), serves_beginServing .., ?_⟩
  simp only [beginServing_ctx, beginServing_slot, beginServing_xch, beginServing_msq, beginServing_lch,
    beginServing_smu, beginServing_cst, beginServing_flu, beginServing_live, slot, frame.queue, frame.binding,
    frame.phase, frame.resident, frame.flu, frame.lch, frame.live, frame.active, frame.inactive, frame.smu, frame.cst,
    frame.xch]
  exact ⟨trivial, rfl, rfl, rfl, fun j other => startTest_other other _, rfl, binding, rfl, rfl, rfl, rfl, rfl,
    rfl, rfl, congrArg Msq.dac frame.msq, congrArg Msq.prevDemand frame.msq, tare, rfl, rfl, rfl, rfl⟩

/-! ### BIND (R10, R11, R17) -/

section
variable {b : BindBody} {s : State}

theorem EventFrame.itemHolds {s t : State} (h : EventFrame s t) (k : SlotId) (i : Item) :
    itemHolds k t i = itemHolds k s i := by
  rw [h.rest]
  cases i <;> rfl

/-- A part with a specimen in the grips, its BOUND event left out (R10). -/
def gripped (b : BindBody) (s : State) : State :=
  let t := (s.setSlot b.slot
    { s.slot b.slot with
      state := .bound
      dims := some { first := b.first, second := b.second }
      s0 := some (crossSection (s.slot b.slot).order.shape b.first b.second) }).setQueue (s.ctx.queue.erase b.slot)
  { t with ctx := { t.ctx with binding := some b.slot } }

theorem bindSlot_eq : bindSlot b s = raiseEvent none (.bound b.slot) (gripped b s) := rfl

theorem gripped_slot_same :
    (gripped b s).slot b.slot =
      { s.slot b.slot with
        state := .bound
        dims := some { first := b.first, second := b.second }
        s0 := some (crossSection (s.slot b.slot).order.shape b.first b.second) } :=
  State.slot_setSlot_same s b.slot _

/-- Nothing that R16 asks changes at a BIND. -/
theorem firstUnmet_bindSlot (items : List Item) :
    firstUnmet b.slot items (bindSlot b s) = firstUnmet b.slot items s := by
  have holds (i : Item) : itemHolds b.slot (bindSlot b s) i = itemHolds b.slot s i := by
    rw [bindSlot_eq, (raiseEvent_frame _ _ _).itemHolds]
    cases i
    case extensometer => simp only [Sys2Proof.Machine.itemHolds, gripped_slot_same]; rfl
    all_goals rfl
  unfold firstUnmet
  simp only [holds]

theorem bindSlot_frame : (bindSlot b s).frame = s.frame := by
  rw [bindSlot_eq, (raiseEvent_frame _ _ _).mark.frame]
  rfl

theorem autostartWith_bindSlot (f : Frame) :
    autostartWith f (bindSlot b s) =
      if f.autostart = true ∧ firstUnmet b.slot startItems s = none then startTest b.slot (bindSlot b s)
      else bindSlot b s := by
  have binding : (bindSlot b s).ctx.binding = some b.slot := by
    rw [bindSlot_eq, (raiseEvent_frame _ _ _).ctx]
    rfl
  have bound : ((bindSlot b s).slot b.slot).state = .bound := by
    rw [bindSlot_eq, raiseEvent_slot, gripped_slot_same]
  simp only [autostartWith, binding, bound, firstUnmet_bindSlot, true_and]

theorem serveBind_accepted {body : List Byte} (reads : readBind body = some b) (passes : bindRefusal b s = none) :
    serveBind body s = (Reply.only .ok, autostartWith s.frame (bindSlot b s)) := by
  simp only [serveBind, reads, passes, bindSlot_frame]

theorem serveBind_refused {body : List Byte} {r : Reply} (reads : readBind body = some b)
    (fails : bindRefusal b s = some r) : serveBind body s = (r, s) := by
  simp only [serveBind, reads, fails]

end

/-- Settles O19: the checks of R10 in order, then the start of R17 or none. -/
theorem bindTakesTheGrips : Obligations.BindTakesTheGrips := by
  refine ⟨fun tag body b s take reads loaded unbound idle grips named suits => ?_,
    fun tag body b s take reads => ?_, fun w t => ⟨rfl, rfl, rfl⟩⟩
  · have answer := serveBind_accepted (s := huntAgain .cell s) reads
      (by simp [bindRefusal, loaded, unbound, idle, named, suits,
        show gripsClosed (huntAgain .cell s) = true from grips])
    rw [autostartWith_bindSlot, huntAgain_frame,
      show firstUnmet b.slot startItems (huntAgain .cell s) = firstUnmet b.slot startItems s from rfl] at answer
    refine ⟨fun auto ready => ?_, fun stays => ?_⟩
    · rw [if_pos ⟨auto, ready⟩] at answer
      obtain ⟨run, frame, -⟩ := startTest_started b.slot (bindSlot b (huntAgain .cell s))
      obtain ⟨marks, slot⟩ := startTest_slot_same b.slot (bindSlot b (huntAgain .cell s))
      refine ⟨_, answers_of_serve take (by simp [senders]) rfl answer, serves_beginServing .., ?_⟩
      simp only [beginServing_ctx, beginServing_slot, slot, frame.phase, frame.binding, frame.queue]
      have ctx : (bindSlot b (huntAgain .cell s)).ctx = _ := (raiseEvent_frame _ _ _).ctx
      exact ⟨trivial, rfl, congrArg Ctx.binding ctx, congrArg Ctx.queue ctx⟩
    · rw [if_neg (fun ⟨auto, ready⟩ => stays.elim (by simp [auto]) (· ready))] at answer
      exact answers_of_serve take (by simp [senders]) rfl answer
  · have refuses {r : Reply} (fails : bindRefusal b s = some r) :
        OnlyAnswers (.bind .cell tag body) s .cell .bind tag r :=
      answers_of_serve take (by simp [senders]) rfl (serveBind_refused (s := huntAgain .cell s) reads fails)
    refine ⟨fun other => refuses ?_, fun loaded busy => refuses ?_, fun loaded unbound idle =>
      ⟨fun open_ => refuses ?_, fun closed wrong => refuses ?_, fun closed named wrong => refuses ?_⟩⟩
    · simp [bindRefusal, other]
    · simp [bindRefusal, loaded, Option.isSome_iff_ne_none, busy]
    · simp [bindRefusal, loaded, unbound, idle, open_]
    · simp [bindRefusal, loaded, unbound, idle, closed, wrong]
    · simp [bindRefusal, loaded, unbound, idle, closed, named, wrong]

/-! ### RELEASE (R12) -/

/-- Settles O20, by the state of the bound slot. -/
theorem releaseFreesTheGrips : Obligations.ReleaseFreesTheGrips := by
  intro tag s take
  have answers {reply : Reply} {t : State} (answer : serveRelease [] (huntAgain .cell s) = (reply, t)) :
      Answers (.release .cell tag []) s .cell .release tag reply t :=
    answers_of_serve take (by simp [senders]) rfl answer
  have frees {k : SlotId} (binding : s.ctx.binding = some k) :
      serveRelease [] (huntAgain .cell s) = releaseSlot k (huntAgain .cell s) := by
    simp [serveRelease, readNone, binding]
  refine ⟨fun unbound => answers (by simp [serveRelease, readNone, unbound]), fun k binding =>
    ⟨fun bound => answers ?_, fun ended => answers ?_, fun held => answers ?_⟩⟩
  · rw [frees binding, releaseSlot, huntAgain_slot, bound]
    rfl
  · rcases ended with state | state <;> rw [frees binding, releaseSlot, huntAgain_slot, state] <;> rfl
  · rcases held with state | state <;> rw [frees binding, releaseSlot, huntAgain_slot, state]

end Sys2Proof.Machine

/-! PROOFS about condition marks and causes (R19, R20, R31, R32) and about offers to the record stream (R188 to R191):
when a mark or a drop makes TERMINATE pending, what a cause does to the pending changeover, and the two obligations from
these. -/

namespace Sys2Proof.Machine

/-! ### Causes (R19, R20) -/

section
variable (cause : Cause) (r : Requester) (i : Option Context) (e : Option EndCause)

section
variable {s : State} {out : Context} (resident : s.ctx.resident = some out)
include resident

theorem raiseCause_begins (calm : s.ctx.changeover = none) :
    raiseCause cause r i e s =
      raiseEvent (requesterPort r) (.changeoverBegun cause r out i)
        { s with
          msq := { s.msq with stillCount := 0 }
          ctx := { s.ctx with
            changeover := some
              { cause := cause, requester := r, outgoing := out, incoming := i, elapsed := 0, endCause := e } } } := by
  simp only [raiseCause, resident, calm, beginChangeover]

theorem raiseCause_replaces {old : Changeover} (pending : s.ctx.changeover = some old)
    (rank : causeRank old.cause < causeRank cause) :
    EventFrame
      { s with
        ctx := { s.ctx with
          changeover := some
            { cause := cause, requester := r, outgoing := out, incoming := i, elapsed := old.elapsed,
              endCause := e } } }
      (raiseCause cause r i e s) := by
  have frame := raiseCause_accepted cause r i e s resident (by simp [causeAccepted, pending, rank])
  rw [pending] at frame
  exact frame

omit resident in
theorem raiseCause_outranked {old : Changeover} (pending : s.ctx.changeover = some old)
    (rank : causeRank cause ≤ causeRank old.cause) : raiseCause cause r i e s = s :=
  raiseCause_refused _ _ _ _ _ (.inr (by simp [causeAccepted, pending, rank]))

end

theorem raiseCause_rst (s : State) : (raiseCause cause r i e s).rst = s.rst := by
  rcases resident : s.ctx.resident with _ | out
  · rw [raiseCause_refused _ _ _ _ _ (.inl resident)]
  · cases accepted : causeAccepted cause s with
    | false => rw [raiseCause_refused _ _ _ _ _ (.inr accepted)]
    | true => exact (raiseCause_accepted cause r i e s resident accepted).rst

end

theorem terminate_of_rank {c : Cause} (rank : causeRank .terminate ≤ causeRank c) : c = .terminate := by
  cases c
  · exact absurd rank (by decide)
  · exact absurd rank (by decide)
  · rfl

/-- A TERMINATE raised with a context resident is pending, or another one is. -/
theorem raiseCause_terminate (r : Requester) (i : Option Context) (e : Option EndCause) {s : State} {out : Context}
    (resident : s.ctx.resident = some out) :
    ∃ c, (raiseCause .terminate r i e s).ctx.changeover = some c ∧ c.cause = .terminate := by
  obtain ⟨c, pending, rank⟩ := raiseCause_pending .terminate r i e resident
  exact ⟨c, pending, terminate_of_rank rank⟩

/-! ### Marks (R31, R32) -/

section
variable {k : SlotId} {m : Mark} {s : State}

theorem raiseMarkCause_terminate {out : Context} (resident : s.ctx.resident = some out)
    (terminate : markClass m = .terminate) (enabled : stopEnabled (s.slot k).order m = true)
    (unbroken : Mark.fracture ∉ (s.slot k).marks) :
    ∃ c, (raiseMarkCause k m s).ctx.changeover = some c ∧ c.cause = .terminate := by
  have raised : raiseMarkCause k m s = raiseCause .terminate .internal none (some (.mark m)) s := by
    simp [raiseMarkCause, enabled, terminate, unbroken]
  rw [raised]
  exact raiseCause_terminate _ _ _ resident

theorem OnlyNew.unbroken {ms : List Mark} {t : State} (h : OnlyNew ms s t) (others : Mark.fracture ∉ ms)
    (unbroken : Mark.fracture ∉ (s.slot k).marks) : Mark.fracture ∉ (t.slot k).marks :=
  fun broken => (h k _ broken).elim unbroken others

theorem setMark_present (v : Int) (n : BitVec 32) (present : m ∈ (s.slot k).marks) : setMark k m v n s = s :=
  if_pos present

/-- Outside RESIDENT a mark joins the condition set and nothing else follows (R32). -/
theorem setMark_unheld (v : Int) (n : BitVec 32) (new : m ∉ (s.slot k).marks) (state : (s.slot k).state ≠ .resident) :
    setMark k m v n s = addMark k m s := by
  have stays : ((addMark k m s).slot k).state ≠ .resident := by rwa [(addMark_frame k m s).state]
  simp only [setMark, new, stays, if_false]

/-- A new terminate-class mark of the resident test with its stop enable on leaves TERMINATE pending (R31). -/
theorem setMark_terminates {out : Context} (v : Int) (n : BitVec 32) (new : m ∉ (s.slot k).marks)
    (state : (s.slot k).state = .resident) (resident : s.ctx.resident = some out)
    (terminate : markClass m = .terminate) (enabled : stopEnabled (s.slot k).order m = true)
    (unbroken : Mark.fracture ∉ (s.slot k).marks) :
    ∃ c, (setMark k m v n s).ctx.changeover = some c ∧ c.cause = .terminate := by
  have frame := (addMark_frame k m s).trans (offerEvent_frame .markSet n k (markNumber m) v (addMark k m s))
  have marks : OnlyNew [m, .gap] s (offerEvent .markSet n k (markNumber m) v (addMark k m s)) :=
    (addMark_new k s (by simp)).trans (offer_new _ _ _ _ (by simp))
  have run : setMark k m v n s = raiseMarkCause k m (offerEvent .markSet n k (markNumber m) v (addMark k m s)) := by
    simp [setMark, new, (addMark_frame k m s).state, state]
  have other : m ≠ .fracture := by rintro rfl; cases terminate
  rw [run]
  exact raiseMarkCause_terminate (frame.resident.trans resident) terminate (by rwa [frame.order])
    (marks.unbroken (by simp [other.symm]) unbroken)

theorem addMark_rst : (addMark k m s).rst = s.rst := by simp [addMark]

end

/-- Settles O52: a mark by whether it is new and whose slot it is for, a cause by what is pending. -/
theorem marksAndCausesAct : Obligations.MarksAndCausesAct := by
  refine ⟨fun k m v n s => ⟨setMark_present v n, fun new => ?_⟩, fun cause r i e out s resident =>
    ⟨fun calm => ?_, fun old pending => ⟨fun rank => ?_, raiseCause_outranked _ _ _ _ pending⟩⟩⟩
  · have frame := setMark_frame k m v n s
    refine ⟨mem_setMark .., frame.marks k, frame.state k, fun j other => setMark_other other .., fun state => ?_,
      fun state resident enabled =>
        ⟨fun terminate unbroken => setMark_terminates v n new state resident terminate enabled unbroken,
         fun operator => setMark_pending v n new state resident operator enabled⟩⟩
    have calm := addMark_noCause k m s
    rw [setMark_unheld v n new state]
    exact ⟨addMark_rst, calm.changeover, calm.msq⟩
  · rw [raiseCause_begins _ _ _ _ resident calm, raiseEvent_ctx, raiseEvent_msq]
    exact ⟨rfl, rfl⟩
  · have frame := raiseCause_replaces cause r i e resident pending rank
    exact ⟨congrArg Ctx.changeover frame.ctx, frame.msq⟩

/-! ### Offers to the stream (R188, R189, R191) -/

section
variable {o : Offer} {s : State}

theorem offerRaw_admits : (offerRaw o s).2 = admits o s.rst := by
  unfold offerRaw
  split
  · exact Eq.symm ‹_›
  · exact (Bool.eq_false_of_not_eq_true ‹_›).symm

theorem offerRaw_taken (taken : (offerRaw o s).2 = true) : (offerRaw o s).1 = admitRecords o.records s := by
  rw [offerRaw_admits] at taken
  simp [offerRaw, taken]

theorem offerRaw_dropped (dropped : (offerRaw o s).2 = false) :
    (offerRaw o s).1 =
      { s with rst := { s.rst with gap := some (gapAfterDrop o.index o.records.length s.rst.gap) } } := by
  rw [offerRaw_admits] at dropped
  simp [offerRaw, dropped]

theorem admits_iff :
    admits o s.rst = true ↔
      if o.sample = true then occupancy s.rst.records + occupancy o.records + 64 ≤ 2048 ∧ s.rst.gap = none
      else occupancy s.rst.records + occupancy o.records ≤ 2048 := by
  cases sample : o.sample <;> simp [admits, sample, Config.streamReserve, Config.streamWords, Nat.add_assoc]

theorem gapAfterDrop_fields (index : BitVec 32) (n : Nat) (g : Option Gap) :
    (gapAfterDrop index n g).first = (g.map (·.first)).getD index ∧ (gapAfterDrop index n g).last = index ∧
    (gapAfterDrop index n g).tally = min 65535 ((g.map (·.tally)).getD 0 + n) := by
  cases g <;> simp [gapAfterDrop, Config.maxU16]

theorem admitRecords_rst_gap (words : List (List Word16)) : (admitRecords words s).rst.gap = s.rst.gap := by
  unfold admitRecords
  dsimp only
  split
  · rw [raiseEvent_rst]
  · rfl

/-- An open gap stays open behind every offer (R190). -/
theorem offerRaw_gap (opened : s.rst.gap.isSome = true) : (offerRaw o s).1.rst.gap.isSome = true := by
  cases taken : (offerRaw o s).2 with
  | true => rw [offerRaw_taken taken, admitRecords_rst_gap, opened]
  | false => rw [offerRaw_dropped taken]; rfl

variable {k : SlotId}

theorem raiseMarkCause_rst (m : Mark) : (raiseMarkCause k m s).rst = s.rst := by
  unfold raiseMarkCause
  split
  · split
    · split
      · rfl
      · exact raiseCause_rst ..
    · exact raiseCause_rst ..
    · rfl
    · rfl
  · rfl

/-- A drop is reported with GAP in the condition set, and the gap stays open. -/
theorem reportGap_gap (raises : Bool) (n : BitVec 32) (opened : s.rst.gap.isSome = true) :
    Mark.gap ∈ ((reportGap raises k n s).slot k).marks ∧ (reportGap raises k n s).rst.gap.isSome = true := by
  have joined := mem_addMark k .gap s
  have still : (addMark k .gap s).rst.gap.isSome = true := by rwa [addMark_rst]
  unfold reportGap
  split
  · exact ⟨‹_›, opened⟩
  · dsimp only
    split
    · have raw := (offerRaw_frame (Offer.one false (eventRecord .markSet n k (markNumber .gap) 0) n)
        (addMark k .gap s)).mark.marks k _ joined
      split
      · rw [raiseMarkCause_slot, raiseMarkCause_rst]
        exact ⟨raw, offerRaw_gap still⟩
      · exact ⟨raw, offerRaw_gap still⟩
    · exact ⟨joined, still⟩

theorem reportGap_present (raises : Bool) (n : BitVec 32) (present : Mark.gap ∈ (s.slot k).marks) :
    reportGap raises k n s = s := if_pos present

theorem reportGap_unheld (raises : Bool) (n : BitVec 32) (state : (s.slot k).state ≠ .resident) :
    NoCause s (reportGap raises k n s) := by
  have stays : ((addMark k .gap s).slot k).state ≠ .resident := by rwa [(addMark_frame k .gap s).state]
  unfold reportGap
  split
  · exact ⟨rfl, rfl⟩
  · simp only [stays, if_false]
    exact addMark_noCause k .gap s

/-- The GAP of a drop in the resident test leaves TERMINATE pending where its stop enable is on (R31, R189). -/
theorem reportGap_terminates {out : Context} (n : BitVec 32) (new : Mark.gap ∉ (s.slot k).marks)
    (state : (s.slot k).state = .resident) (resident : s.ctx.resident = some out)
    (enabled : (s.slot k).order.tGap = true) (unbroken : Mark.fracture ∉ (s.slot k).marks) :
    ∃ c, (reportGap true k n s).ctx.changeover = some c ∧ c.cause = .terminate := by
  let v := (offerRaw (Offer.one false (eventRecord .markSet n k (markNumber .gap) 0) n) (addMark k .gap s)).1
  have frame : MarkFrame s v := (addMark_frame k .gap s).trans (offerRaw_frame _ _).mark
  have marks : OnlyNew [.gap] s v := (addMark_new k s (by simp)).trans (.of_slots (offerRaw_slot _ _))
  have run : reportGap true k n s = raiseMarkCause k .gap v := by
    simp [reportGap, new, (addMark_frame k .gap s).state, state, v]
  rw [run]
  exact raiseMarkCause_terminate (frame.resident.trans resident) rfl (by rwa [frame.order])
    (marks.unbroken (by simp) unbroken)

theorem offer_taken (raises : Bool) (taken : (offerRaw o s).2 = true) : offer raises o k s = (offerRaw o s).1 := by
  simp [offer, taken]

theorem offer_dropped (raises : Bool) (dropped : (offerRaw o s).2 = false) :
    offer raises o k s = reportGap raises k o.index (offerRaw o s).1 := by
  simp [offer, dropped]

end

/-- Settles O53: the stream by whether it takes the offer, then the GAP that a drop sets. -/
theorem theStreamTakesOffers : Obligations.TheStreamTakesOffers := by
  refine ⟨fun o s _ => ⟨by rw [offerRaw_admits, admits_iff], fun taken n count => ?_, fun dropped => ?_⟩,
    fun o k s => ⟨fun plain => ?_, fun dropped => ?_⟩⟩
  · rw [offerRaw_taken taken, count, ← occupancy_append]
    refine ⟨fun high => if_pos high, fun low => if_neg fun ⟨above, armed⟩ => ?_⟩
    rcases low with low | unarmed
    · exact absurd above (not_lt.2 low)
    · exact absurd (armed.symm.trans unarmed) (by decide)
  · obtain ⟨first, last, tally⟩ := gapAfterDrop_fields o.index o.records.length s.rst.gap
    exact ⟨_, first, last, tally, offerRaw_dropped dropped⟩
  · cases taken : (offerRaw o s).2 with
    | true => exact offer_taken true taken
    | false =>
      rw [offer_dropped true taken]
      exact reportGap_present _ _ (by rw [offerRaw_slot]; exact plain.resolve_left (by simp [taken]))
  · have opened : (offerRaw o s).1.rst.gap.isSome = true := by rw [offerRaw_dropped dropped]; rfl
    obtain ⟨gap, still⟩ := reportGap_gap (k := k) true o.index opened
    have raw := (offerRaw_frame o s).noCause
    have same := offerRaw_slot o s k
    refine ⟨?_, fun j other => offer_other other .., ?_, fun state resident enabled new unbroken => ?_, fun calm => ?_⟩
    · rwa [offer_dropped true dropped]
    · rwa [offer_dropped true dropped]
    · rw [offer_dropped true dropped]
      exact reportGap_terminates o.index (by rwa [same]) (by rwa [same])
        ((offerRaw_frame o s).mark.resident.trans resident) (by rwa [same]) (by rwa [same])
    · rcases calm with unheld | off | broken
      · rw [offer_dropped true dropped]
        exact (raw.trans (reportGap_unheld true o.index (by rwa [same]))).changeover
      · exact (offer_noCause true o (.inr (.inl off))).changeover
      · exact (offer_noCause true o (.inr (.inr (.inr broken)))).changeover

end Sys2Proof.Machine

/-! PROOFS about the requests that change contexts (R20, R24 to R29): a pending changeover that marks leave alone, what
a direct ABORT and a resume do to each block, and HOLD, LEAVE, ABORT and RESUME by the check each comes to. -/

namespace Sys2Proof.Machine

/-! ### A pending changeover that marks leave alone (R19) -/

/-- A changeover is pending that no mark of a sample can replace: it is a TERMINATE, or the resident test has the stop
enables of those marks off. -/
structure Firm (c : Changeover) (s : State) : Prop where
  pending : s.ctx.changeover = some c
  calm : ∀ k, (s.slot k).state = .resident → c.cause = .terminate ∨ NoStops (s.slot k).order

/-- The pending changeover and its still-count stand. -/
structure Stands (c : Changeover) (s t : State) : Prop where
  firm : Firm c t
  still : t.msq.stillCount = s.msq.stillCount

section
variable {c : Changeover} {s t u : State}

theorem Stands.refl (firm : Firm c s) : Stands c s s := ⟨firm, rfl⟩

theorem Stands.trans (h : Stands c s t) (g : Stands c t u) : Stands c s u := ⟨g.firm, g.still.trans h.still⟩

theorem Stands.pending (h : Stands c s t) : t.ctx.changeover = some c := h.firm.pending

theorem Firm.of_noCause (h : Firm c s) (frame : MarkFrame s t) (calm : NoCause s t) : Stands c s t where
  firm :=
    { pending := calm.changeover.trans h.pending
      calm := fun k resident => by rw [frame.order]; exact h.calm k (by rwa [← frame.state]) }
  still := congrArg Msq.stillCount calm.msq

theorem RecordFrame.stands (frame : RecordFrame s t) (h : Firm c s) : Stands c s t :=
  h.of_noCause frame.mark frame.noCause

theorem EventFrame.stands (frame : EventFrame s t) (h : Firm c s) : Stands c s t := frame.record.stands h

/-- A cause of no higher rank is discarded. -/
theorem Firm.raiseCause (h : Firm c s) {cause : Cause} (rank : causeRank cause ≤ causeRank c.cause) (r : Requester)
    (i : Option Context) (e : Option EndCause) : Machine.raiseCause cause r i e s = s :=
  raiseCause_outranked _ _ _ _ h.pending rank

theorem causeRank_terminate (c : Cause) : causeRank c ≤ causeRank .terminate := by cases c <;> decide

theorem causeRank_operator (c : Cause) : causeRank .operator ≤ causeRank c := by cases c <;> decide

theorem stopEnabled_noStops {o : TestOrder} {m : Mark} (off : NoStops o) (terminate : markClass m = .terminate)
    (other : m ≠ .aborted) : stopEnabled o m = false := by
  obtain ⟨overload, slip, gap, track⟩ := off
  cases m with
  | overload => exact overload
  | slip => exact slip
  | gap => exact gap
  | track => exact track
  | aborted => exact absurd rfl other
  | _ => cases terminate

variable {k : SlotId} {m : Mark}

theorem Firm.raiseMarkCause (h : Firm c s) (resident : (s.slot k).state = .resident)
    (sampled : c.cause = .terminate ∨ m ≠ .aborted) : raiseMarkCause k m s = s := by
  unfold Machine.raiseMarkCause
  split
  case isFalse => rfl
  case isTrue enabled =>
    split
    case h_1 terminate =>
      split
      · rfl
      · by_cases ends : c.cause = .terminate
        · exact h.raiseCause (ends ▸ le_rfl) ..
        · have off := stopEnabled_noStops ((h.calm k resident).resolve_left ends) terminate (sampled.resolve_left ends)
          exact absurd enabled (by simp [off])
    case h_2 => exact h.raiseCause (causeRank_operator _) ..
    all_goals rfl

theorem Firm.addMark (h : Firm c s) (k : SlotId) (m : Mark) : Stands c s (addMark k m s) :=
  h.of_noCause (addMark_frame k m s) (addMark_noCause k m s)

theorem Firm.reportGap (h : Firm c s) (raises : Bool) (k : SlotId) (n : BitVec 32) :
    Stands c s (reportGap raises k n s) := by
  have added := h.addMark k .gap
  have raw := (offerRaw_frame (Offer.one false (eventRecord .markSet n k (markNumber .gap) 0) n)
    (Machine.addMark k .gap s))
  have offered := added.trans (raw.stands added.firm)
  unfold Machine.reportGap
  split
  · exact .refl h
  · dsimp only
    split
    case isTrue resident =>
      split
      · rwa [offered.firm.raiseMarkCause (raw.mark.state k ▸ resident) (.inr (by decide))]
      · exact offered
    case isFalse => exact added

theorem Firm.offer (h : Firm c s) (raises : Bool) (o : Offer) (k : SlotId) : Stands c s (offer raises o k s) := by
  have raw := (offerRaw_frame o s).stands h
  unfold Machine.offer
  dsimp only
  split
  · exact raw
  · exact raw.trans (raw.firm.reportGap _ _ _)

/-- A mark of a sample, or any mark while a TERMINATE is pending, leaves the changeover as it is. -/
theorem Firm.setMark (h : Firm c s) (k : SlotId) (v : Int) (n : BitVec 32)
    (sampled : c.cause = .terminate ∨ m ≠ .aborted) : Stands c s (setMark k m v n s) := by
  have added := h.addMark k m
  have offered := added.trans
    (added.firm.offer true (Offer.one false (eventRecord .markSet n k (markNumber m) v) n) k)
  have frame := offerEvent_frame .markSet n k (markNumber m) v (Machine.addMark k m s)
  unfold Machine.setMark
  split
  · exact .refl h
  · dsimp only
    split
    case isTrue resident =>
      exact (offered.firm.raiseMarkCause (frame.state k ▸ resident) sampled).symm ▸ offered
    case isFalse => exact added

end

/-! ### HOLD and LEAVE (R20, R24, R26) -/

section
variable {p : Port} {s : State}

theorem anyParked_iff : anyParked s = true ↔ ∃ k : SlotId, (s.slot k).state = .parked := by
  simp only [anyParked, List.any_eq_true, Vector.mem_toList_iff, Vector.mem_iff_getElem, beq_iff_eq, State.slot]
  constructor
  · rintro ⟨x, ⟨i, small, rfl⟩, parked⟩
    exact ⟨⟨i, small⟩, parked⟩
  · rintro ⟨k, parked⟩
    exact ⟨_, ⟨k.val, k.isLt, rfl⟩, parked⟩

/-- An OPERATOR that a port raises with nothing pending (R20). -/
theorem raiseCause_requested {out : Context} (i : Option Context) (resident : s.ctx.resident = some out)
    (free : s.ctx.changeover = none) :
    raiseCause .operator (.port p) i none s =
      raiseEvent (some p) (.changeoverBegun .operator (.port p) out i)
        { s with
          msq := { s.msq with stillCount := 0 }
          ctx := { s.ctx with changeover := some (requested p out i) } } :=
  raiseCause_begins _ _ _ _ resident free

theorem serveHold_of_phase (other : s.ctx.phase ≠ .test) : serveHold p [] s = (Reply.only .state, s) := by
  simp [serveHold, readNone, other]

theorem serveHold_pending (test : s.ctx.phase = .test) (pending : s.ctx.changeover ≠ none) :
    serveHold p [] s = (Reply.only .changeover, s) := by
  simp [serveHold, readNone, test, Option.isSome_iff_ne_none, pending]

theorem serveHold_accepted (test : s.ctx.phase = .test) (free : s.ctx.changeover = none) :
    serveHold p [] s = (Reply.only .ok, raiseCause .operator (.port p) (some .service) none s) := by
  simp [serveHold, readNone, test, free]

theorem serveLeave_of_phase (other : s.ctx.phase ≠ .service) : serveLeave p [] s = (Reply.only .state, s) := by
  simp [serveLeave, readNone, other]

theorem serveLeave_of_holder (service : s.ctx.phase = .service) (supervisor : p = .supervisor)
    (other : s.ctx.holder ≠ some .supervisor) : serveLeave p [] s = (Reply.only .notHolder, s) := by
  simp [serveLeave, readNone, service, supervisor, other]

section
variable (service : s.ctx.phase = .service) (held : p = .supervisor → s.ctx.holder = some .supervisor)
include service held

theorem serveLeave_pending (pending : s.ctx.changeover ≠ none) : serveLeave p [] s = (Reply.only .changeover, s) := by
  simp [serveLeave, readNone, service, Option.isSome_iff_ne_none, pending]
  exact fun supervisor other => absurd (held supervisor) other

theorem serveLeave_parked (free : s.ctx.changeover = none) (parked : anyParked s = true) :
    serveLeave p [] s = (Reply.only .state, s) := by
  simp [serveLeave, readNone, service, free, parked]
  exact fun supervisor other => absurd (held supervisor) other

theorem serveLeave_accepted (free : s.ctx.changeover = none) (empty : anyParked s = false) :
    serveLeave p [] s = (Reply.only .ok, raiseCause .operator (.port p) none none s) := by
  simp [serveLeave, readNone, service, free, empty]
  exact fun supervisor other => absurd (held supervisor) other

end
end

/-- Settles O22: both requests by their checks, and the OPERATOR that R20 begins. -/
theorem holdAndLeaveRaiseOperator : Obligations.HoldAndLeaveRaiseOperator := by
  refine ⟨fun tag s take => ?_, fun p tag s take sender => ?_⟩
  · have answers {reply : Reply} {t : State} (answer : serveHold .pendant [] (huntAgain .pendant s) = (reply, t)) :
        Answers (.hold .pendant tag []) s .pendant .hold tag reply t :=
      answers_of_serve take (by simp [senders]) rfl answer
    exact ⟨fun other => answers (serveHold_of_phase (s := huntAgain .pendant s) other),
      fun test pending => answers (serveHold_pending test pending), fun k test free resident =>
        answers ((serveHold_accepted (s := huntAgain .pendant s) test free).trans
          (congrArg (Reply.only .ok, ·) (raiseCause_requested (s := huntAgain .pendant s) _ resident free)))⟩
  · have answers {reply : Reply} {t : State} (answer : serveLeave p [] (huntAgain p s) = (reply, t)) :
        Answers (.leave p tag []) s p .leave tag reply t :=
      answers_of_serve take sender rfl answer
    refine ⟨fun other => answers (serveLeave_of_phase other),
      fun service supervisor other => answers (serveLeave_of_holder service supervisor other), fun service held =>
        ⟨fun pending => answers (serveLeave_pending service held pending),
         fun free k parked => answers (serveLeave_parked service held free (anyParked_iff.2 ⟨k, parked⟩)),
         fun free empty resident => answers ?_⟩⟩
    have none_ : anyParked (huntAgain p s) = false :=
      Bool.eq_false_iff.2 fun parked => (anyParked_iff.1 parked).elim empty
    have raised := raiseCause_requested (p := p) (s := huntAgain p s) none resident free
    exact (serveLeave_accepted (s := huntAgain p s) service held free none_).trans (congrArg (Reply.only .ok, ·) raised)

/-! ### ABORT (R25) -/

section
variable {p : Port} {k : SlotId} {s : State}

theorem abortSlot_other (active : (s.slot k).state ≠ .resident) (parked : (s.slot k).state ≠ .parked) :
    abortSlot p k s = (Reply.only .state, s) := by
  unfold abortSlot
  split
  · exact absurd ‹_› active
  · exact absurd ‹_› parked
  · rfl

theorem abortSlot_ending {c : Changeover} (state : (s.slot k).state = .resident) (pending : s.ctx.changeover = some c)
    (ends : c.cause = .terminate) : abortSlot p k s = (Reply.only .changeover, s) := by
  simp [abortSlot, state, causeAccepted, pending, ends]

theorem causeAccepted_terminate (open_ : ∀ c, s.ctx.changeover = some c → c.cause ≠ .terminate) :
    causeAccepted .terminate s = true := by
  unfold causeAccepted
  split
  · rfl
  · rename_i old pending
    have other := open_ old pending
    cases cause : old.cause with
    | terminate => exact absurd cause other
    | _ => rfl

/-- The TERMINATE that an ABORT of the resident test leaves pending (R25). -/
def abortChangeover (p : Port) (k : SlotId) (s : State) : Changeover :=
  { cause := .terminate, requester := .port p, outgoing := .test k, incoming := none
    elapsed := (s.ctx.changeover.map (·.elapsed)).getD 0, endCause := some (.mark .aborted) }

/-- An ABORT of the resident test, behind the cause it raises. -/
def aborting (p : Port) (k : SlotId) (s : State) : State :=
  let t := raiseCause .terminate (.port p) none (some (.mark .aborted)) s
  setMark k .aborted 0 (lastIndex t k 9) t

theorem abortSlot_resident (state : (s.slot k).state = .resident)
    (open_ : ∀ c, s.ctx.changeover = some c → c.cause ≠ .terminate) :
    abortSlot p k s = (Reply.only .ok, aborting p k s) := by
  simp [abortSlot, state, causeAccepted_terminate open_, aborting]

/-- The part with the TERMINATE of an ABORT pending; its control state has the still-count of that cause. -/
def abortPending (p : Port) (k : SlotId) (s : State) : State :=
  { s with
    ctx := { s.ctx with changeover := some (abortChangeover p k s) }
    msq := { s.msq with stillCount := continuedStill s.msq s.ctx.changeover } }

/-- Beside the pending TERMINATE, an ABORT of the resident test sets marks in its slot and offers records and events. -/
theorem aborting_frame (resident : s.ctx.resident = some (.test k))
    (open_ : ∀ c, s.ctx.changeover = some c → c.cause ≠ .terminate) :
    MarkFrame (abortPending p k s) (aborting p k s) ∧
    (aborting p k s).ctx.changeover = some (abortChangeover p k s) ∧
    ∀ j, j ≠ k → (aborting p k s).slot j = s.slot j := by
  have raised := raiseCause_accepted .terminate (.port p) none (some (.mark .aborted)) s resident
    (causeAccepted_terminate open_)
  have same : raisedChangeover .terminate (.port p) (.test k) none (some (.mark .aborted)) s.ctx.changeover =
      abortChangeover p k s := by
    unfold abortChangeover raisedChangeover
    cases s.ctx.changeover <;> rfl
  rw [same] at raised
  have firm : Firm (abortChangeover p k s) (raiseCause .terminate (.port p) none (some (.mark .aborted)) s) :=
    ⟨congrArg Ctx.changeover raised.ctx, fun _ _ => .inl rfl⟩
  exact ⟨raised.mark.trans (setMark_frame ..), (firm.setMark k 0 _ (.inl rfl)).pending,
    fun j other => (setMark_other other ..).trans (raised.slot j)⟩

/-! #### A PARKED test (R25, R155) -/

theorem abortSlot_awaited {c : Changeover} (state : (s.slot k).state = .parked) (pending : s.ctx.changeover = some c)
    (incoming : c.incoming = some (.test k)) : abortSlot p k s = (Reply.only .changeover, s) := by
  simp [abortSlot, state, incomingPending, pending, incoming]

theorem abortSlot_parked (state : (s.slot k).state = .parked)
    (free : ∀ c, s.ctx.changeover = some c → c.incoming ≠ some (.test k)) :
    abortSlot p k s = (Reply.only .ok, directVoid k s) := by
  have unawaited : incomingPending k s = false := by
    unfold incomingPending
    split
    · simpa using free _ ‹_›
    · rfl
  simp [abortSlot, state, unawaited]

/-- Outside RESIDENT an offer raises no cause (R189). -/
theorem offer_unheld (raises : Bool) (o : Offer) (state : (s.slot k).state ≠ .resident) :
    NoCause s (offer raises o k s) := by
  have raw := (offerRaw_frame o s).noCause
  cases taken : (offerRaw o s).2 with
  | true => rwa [offer_taken raises taken]
  | false =>
    rw [offer_dropped raises taken]
    exact raw.trans (reportGap_unheld raises o.index (by rwa [offerRaw_slot]))

theorem offerEnd_unheld (state : (s.slot k).state ≠ .resident) : NoCause s (offerEnd k s) := by
  unfold offerEnd
  refine (offer_unheld true _ state).trans (offer_unheld true _ ?_)
  exact (offerMark_frame .ended k _ s).state k ▸ state

/-- A parked test voided with its mark, its records and events left out (R25). -/
def voidedSlot (k : SlotId) (s : State) : State :=
  let s := setMark k .aborted 0 (lastIndex s k 9) s
  s.setSlot k
    { s.slot k with
      state := .void
      runtime := (s.slot k).runtime.map fun rt => { rt with eval := closingSteps (s.slot k).order rt.eval }
      outcome := some abortOutcome }

theorem directVoid_eq : directVoid k s = raiseEvent none (.testEnd k abortOutcome) (offerEnd k (voidedSlot k s)) := rfl

theorem voidedSlot_same :
    ((voidedSlot k s).slot k).state = .void ∧ Mark.aborted ∈ ((voidedSlot k s).slot k).marks ∧
    ((voidedSlot k s).slot k).outcome = some abortOutcome := by
  unfold voidedSlot
  simp only [State.slot_setSlot_same, mem_setMark, and_self]

theorem directVoid_frame : MarkFrame (voidedSlot k s) (directVoid k s) :=
  (offerEnd_frame k _).trans (raiseEvent_frame _ _ _).mark

theorem directVoid_other {j : SlotId} (other : j ≠ k) : (directVoid k s).slot j = s.slot j := by
  rw [directVoid_eq, raiseEvent_slot, offerEnd_other other]
  exact (State.slot_setSlot_other _ _ other).trans (setMark_other other ..)

theorem directVoid_noCause (state : (s.slot k).state = .parked) : NoCause s (directVoid k s) := by
  have marked : NoCause s (setMark k .aborted 0 (lastIndex s k 9) s) := by
    by_cases present : Mark.aborted ∈ (s.slot k).marks
    · rw [setMark_present _ _ present]
      exact ⟨rfl, rfl⟩
    · rw [setMark_unheld _ _ present (by simp [state])]
      exact addMark_noCause ..
  have voided : NoCause s (voidedSlot k s) := marked.trans ⟨rfl, rfl⟩
  rw [directVoid_eq]
  exact (voided.trans (offerEnd_unheld (by simp [voidedSlot_same.1]))).trans (raiseEvent_frame _ _ _).record.noCause

/-- What a voided parked test leaves as it was. -/
theorem directVoid_rest :
    (directVoid k s).ctx.phase = s.ctx.phase ∧ (directVoid k s).ctx.resident = s.ctx.resident ∧
    (directVoid k s).ctx.binding = s.ctx.binding ∧ (directVoid k s).ctx.queue = s.ctx.queue ∧
    (directVoid k s).live = s.live ∧ (directVoid k s).lch = s.lch ∧ (directVoid k s).flu = s.flu := by
  have frame := directVoid_frame (k := k) (s := s)
  have marked := setMark_frame k .aborted 0 (lastIndex s k 9) s
  exact ⟨frame.phase.trans marked.phase, frame.resident.trans marked.resident, frame.binding.trans marked.binding,
    frame.queue.trans marked.queue, frame.live.trans marked.live, frame.lch.trans marked.lch,
    frame.flu.trans marked.flu⟩

end

/-- Settles O23: by the state of the slot and what is pending. -/
theorem abortEndsATest : Obligations.AbortEndsATest := by
  intro p tag b k s take sender slot
  have answers := fun {reply t} => answers_of_slot (c := .abort p tag [b]) (reply := reply) (t := t)
    (f := abortSlot p) take sender rfl rfl slot
  refine ⟨fun active parked => answers (abortSlot_other active parked), fun state resident =>
    ⟨fun c pending ends => answers (abortSlot_ending state pending ends), fun open_ => ?_⟩, fun state =>
    ⟨fun c pending awaited => answers (abortSlot_awaited state pending awaited), fun free => ?_⟩⟩
  · obtain ⟨frame, changeover, others⟩ := aborting_frame (p := p) (s := huntAgain p s) resident open_
    refine ⟨_, answers (abortSlot_resident state open_), serves_beginServing .., mem_setMark .., ?_, changeover,
      frame.phase, frame.resident, frame.binding, frame.queue, others, frame.live⟩
    exact (frame.state k).trans state
  · obtain ⟨void, aborted, outcome⟩ := voidedSlot_same (k := k) (s := huntAgain p s)
    obtain ⟨phase, resident, binding, queue, live, lch, flu⟩ := directVoid_rest (k := k) (s := huntAgain p s)
    have frame := directVoid_frame (k := k) (s := huntAgain p s)
    have calm := directVoid_noCause (s := huntAgain p s) state
    exact ⟨_, answers (abortSlot_parked state free), serves_beginServing .., (frame.state k).trans void,
      frame.marks k _ aborted, (frame.outcome k).trans outcome, phase, resident, binding, queue, calm.changeover,
      fun j other => directVoid_other other, live, calm.msq, lch, flu⟩

/-! ### RESUME (R28, R29, R37) -/

section
variable {p : Port} {k : SlotId} {s : State}

/-- A resume of a parked test, its records and events left out and its running tare left open (R22, R29). -/
theorem enterResumed_phased {rt : Runtime} (runtime : (s.slot k).runtime = some rt) :
    ∃ run, EventFrame (phased .test run (handBack k (resumedRuntime (s.slot k).order rt) s)) (enterResumed k s) := by
  obtain ⟨run, frame, -⟩ := beginStartTare_phased .test (s.slot k).order (resumedRuntime (s.slot k).order rt)
    (handBack k (resumedRuntime (s.slot k).order rt) s)
  simp only [enterResumed, runtime]
  exact ⟨run, frame⟩

theorem handBack_slot_same (rt : Runtime) (run : Option TareRun) :
    (phased .test run (handBack k rt s)).slot k =
      { s.slot k with state := .resident, marks := resumedMarks (s.slot k).marks } :=
  State.slot_setSlot_same s k _

theorem mem_resumedMarks_iff {m : Mark} {marks : List Mark} :
    m ∈ resumedMarks marks ↔ m ∈ marks ∧ m ∉ [Mark.step, .holdpt, .rmfail] := by
  simp [resumedMarks, List.mem_filter, and_assoc]

theorem resumeSlot_refused {r : Reply} (refused : resumeRefusal p k s = some r) : resumeSlot p k s = (r, s) := by
  simp [resumeSlot, refused]

theorem resumeSlot_accepted (accepted : resumeRefusal p k s = none) :
    resumeSlot p k s =
      (Reply.only .ok,
        if s.ctx.phase = .service then raiseCause .operator (.port p) (some (.test k)) none s
        else announcePhase (enterResumed k (offerResume k s))) := by
  simp [resumeSlot, accepted]

theorem resumeRefusal_of_state
    (other : (s.slot k).state ≠ .parked ∨ (s.ctx.phase ≠ .service ∧ s.ctx.phase ≠ .idle)) :
    resumeRefusal p k s = some (Reply.only .state) := by
  unfold resumeRefusal
  by_cases parked : (s.slot k).state = .parked
  · rw [if_neg (not_not.2 parked), if_pos (other.resolve_left (not_not.2 parked))]
  · rw [if_pos parked]

theorem resumeRefusal_of_holder (parked : (s.slot k).state = .parked) (service : s.ctx.phase = .service)
    (supervisor : p = .supervisor) (other : s.ctx.holder ≠ some .supervisor) :
    resumeRefusal p k s = some (Reply.only .notHolder) := by
  simp [resumeRefusal, parked, service, supervisor, other]

section
variable (parked : (s.slot k).state = .parked)
  (held : s.ctx.phase = .idle ∨ (s.ctx.phase = .service ∧ (p = .supervisor → s.ctx.holder = some .supervisor)))
include held

/-- The checks of the phase and of the holder passed (R28). -/
theorem resume_held :
    ¬(s.ctx.phase ≠ .service ∧ s.ctx.phase ≠ .idle) ∧
    ¬(p = .supervisor ∧ s.ctx.phase = .service ∧ s.ctx.holder ≠ some .supervisor) := by
  rcases held with idle | ⟨service, holds⟩
  · exact ⟨fun other => other.2 idle, fun ⟨_, service, _⟩ => by cases service.symm.trans idle⟩
  · exact ⟨fun other => other.1 service, fun ⟨supervisor, _, other⟩ => other (holds supervisor)⟩

include parked

theorem resumeRefusal_pending (pending : s.ctx.changeover ≠ none) :
    resumeRefusal p k s = some (Reply.only .changeover) := by
  obtain ⟨phase, holder⟩ := resume_held held
  rw [resumeRefusal, if_neg (not_not.2 parked), if_neg phase, if_neg holder,
    if_pos (Option.isSome_iff_ne_none.2 pending)]

theorem resumeRefusal_unmet {i : Item} (free : s.ctx.changeover = none) (unmet : firstUnmet k resumeItems s = some i) :
    resumeRefusal p k s = some (Reply.notReady i) := by
  obtain ⟨phase, holder⟩ := resume_held held
  rw [resumeRefusal, if_neg (not_not.2 parked), if_neg phase, if_neg holder, free, unmet]
  rfl

theorem resumeRefusal_ready (free : s.ctx.changeover = none) (ready : firstUnmet k resumeItems s = none) :
    resumeRefusal p k s = if resumeExtensometer k s then none else some (Reply.notReady .extensometer) := by
  obtain ⟨phase, holder⟩ := resume_held held
  rw [resumeRefusal, if_neg (not_not.2 parked), if_neg phase, if_neg holder, free, ready]
  rfl

end

theorem resumeExtensometer_of {rt : Runtime} (runtime : (s.slot k).runtime = some rt) :
    resumeExtensometer k s = (rt.source == .xhd || s.xch.state == .attached) := by
  simp [resumeExtensometer, runtime]

/-- The immediate entry of a RESUME in IDLE (R28, R29). -/
def resumedIdle (k : SlotId) (s : State) : State := announcePhase (enterResumed k (offerResume k s))

/-- The parked test is taken up with the records of its slot, its saved runtime part and the bank it saved. -/
theorem resumedIdle_frame {rt : Runtime} (runtime : (s.slot k).runtime = some rt) :
    ∃ run v, MarkFrame s v ∧ (∀ j, j ≠ k → v.slot j = s.slot j) ∧
      EventFrame (phased .test run (handBack k (resumedRuntime (s.slot k).order rt) v)) (resumedIdle k s) := by
  have marks := offerResume_frame k s
  obtain ⟨run, frame⟩ := enterResumed_phased (s := offerResume k s) ((marks.runtime k).trans runtime)
  rw [marks.order] at frame
  exact ⟨run, _, marks, fun j other => offerMark_other other .., frame.trans (announcePhase_frame _)⟩

end

/-- Settles O24: the checks of R28, then OPERATOR in SERVICE and the entry of R29 in IDLE. -/
theorem resumeTakesUpAParkedTest : Obligations.ResumeTakesUpAParkedTest := by
  intro p tag b k s take sender slot
  have answers := fun {reply t} => answers_of_slot (c := .resume p tag [b]) (reply := reply) (t := t)
    (f := resumeSlot p) take sender rfl rfl slot
  have refuses {r : Reply} (refused : resumeRefusal p k (huntAgain p s) = some r) :
      OnlyAnswers (.resume p tag [b]) s p .resume tag r := answers (resumeSlot_refused refused)
  refine ⟨fun other => refuses (resumeRefusal_of_state other),
    fun parked service supervisor other => refuses (resumeRefusal_of_holder parked service supervisor other),
    fun parked held => ⟨fun pending => refuses (resumeRefusal_pending parked held pending),
      fun free i unmet => refuses (resumeRefusal_unmet parked held free unmet), fun free ready rt runtime => ?_⟩⟩
  have checks := resumeRefusal_ready (p := p) (s := huntAgain p s) parked held free ready
  rw [resumeExtensometer_of (s := huntAgain p s) runtime] at checks
  refine ⟨fun ext loose => refuses (by simp [checks, ext, loose]), fun seated => ?_⟩
  have accepts := resumeSlot_accepted (p := p) (k := k) (s := huntAgain p s) (by simp [checks, seated])
  refine ⟨fun service resident => answers ?_, fun idle => ?_⟩
  · rw [if_pos (show (huntAgain p s).ctx.phase = .service from service)] at accepts
    rw [accepts]
    exact congrArg (Reply.only .ok, ·) (raiseCause_requested (s := huntAgain p s) _ resident free)
  · obtain ⟨run, v, marks, others, frame⟩ := resumedIdle_frame (s := huntAgain p s) runtime
    rw [if_neg (by simp [idle])] at accepts
    have slot := (frame.slot k).trans (handBack_slot_same _ run)
    refine ⟨_, answers accepts, serves_beginServing .., ?_⟩
    rw [beginServing_slot, beginServing_ctx, beginServing_flu, beginServing_lch, beginServing_msq, beginServing_live]
    refine ⟨congrArg Slot.state slot, (congrArg Slot.order slot).trans (marks.order k), fun m removed kept => ?_,
      fun m present stays => ?_, fun j other => ?_, congrArg Ctx.phase frame.ctx, congrArg Ctx.resident frame.ctx,
      congrArg Flu.drvEn frame.mark.flu, congrArg Lch.lock frame.mark.lch, congrArg Msq.active frame.msq,
      congrArg Msq.inactive frame.msq, congrArg Msq.prevDemand frame.msq, congrArg Msq.ring frame.msq,
      congrArg (Option.map (·.rt.count)) frame.mark.live, congrArg (Option.map (·.rt.elapsed)) frame.mark.live,
      congrArg (Option.map (·.rt.source)) frame.mark.live⟩
    · exact (mem_resumedMarks_iff.1 (congrArg Slot.marks slot ▸ kept)).2 removed
    · exact (congrArg Slot.marks slot).symm ▸ mem_resumedMarks_iff.2 ⟨marks.marks k m present, stays⟩
    · exact ((frame.slot j).trans (State.slot_setSlot_other v _ other)).trans (others j other)

end Sys2Proof.Machine

/-! PROOFS about JOG, JOG_STOP and MOVE (R27, R54 to R56): the checks they share, what an accepted one does in SERVICE
and in IDLE, and the two obligations. -/

namespace Sys2Proof.Machine

section
variable {p : Port} {s : State}

/-! ### The checks of R54 -/

theorem motionRefusal_pending (pending : s.ctx.changeover ≠ none) : motionRefusal s = some (Reply.only .changeover) :=
  if_pos (Option.isSome_iff_ne_none.2 pending)

section
variable (free : s.ctx.changeover = none)
include free

theorem motionRefusal_of_phase (other : s.ctx.phase = .test ∨ s.ctx.phase = .safe) :
    motionRefusal s = some (Reply.only .state) := by
  rcases other with phase | phase <;> simp [motionRefusal, free, phase]

theorem motionRefusal_service (service : s.ctx.phase = .service) : motionRefusal s = none := by
  simp [motionRefusal, free, service]

variable (idle : s.ctx.phase = .idle)
include idle

theorem motionRefusal_window (opened : s.cst.window ≠ .closed) :
    motionRefusal s = some (Reply.notReady .calWindow) := by
  simp [motionRefusal, free, idle, calWindowOpen, opened]

variable (closed : s.cst.window = .closed)
include closed

theorem motionRefusal_tables (blank : s.inForce.frame.isNone = true) :
    motionRefusal s = some (Reply.notReady .tables) := by
  simp [motionRefusal, free, idle, calWindowOpen, closed, Option.isNone_iff_eq_none.1 blank]

theorem motionRefusal_idle (programmed : s.inForce.frame.isSome = true) : motionRefusal s = none := by
  simp [motionRefusal, free, idle, calWindowOpen, closed, Option.isSome_iff_ne_none.1 programmed]

end

/-! ### The service context (R27, R53) -/

theorem ensureService_service (service : s.ctx.phase = .service) : ensureService p s = s :=
  if_neg (by simp [service])

/-- The part with the service context resident at rest (R27, R53). -/
def serving (p : Port) (s : State) : State :=
  { s with
    msq := seatMsq (some (serviceBank s.frame)) s.msq
    ctx := { s.ctx with phase := .service, resident := some .service, holder := some p }
    flu := { s.flu with drvEn := true } }

theorem ensureService_idle (idle : s.ctx.phase = .idle) : EventFrame (serving p s) (ensureService p s) := by
  unfold ensureService
  rw [if_pos idle]
  exact announcePhase_frame (serving p s)

/-- A motion request taken in IDLE: the service context with the rate, target and speed of the request. -/
theorem setService_idle (idle : s.ctx.phase = .idle) (rate : Int) (target : Option Int) (speed : Int) :
    EventFrame (setService p rate target speed (serving p s))
      (setService p rate target speed (ensureService p s)) := by
  have frame := ensureService_idle (p := p) idle
  refine ⟨?_, frame.unit, frame.ports, frame.fit⟩
  unfold setService
  rw [frame.ctx, frame.msq, frame.rest]

theorem EventFrame.slots {t u : State} (h : EventFrame t u) : u.ctx.slots = t.ctx.slots := by rw [h.ctx]

/-! ### Limits (R54, R55) -/

theorem clamp_eq_self_iff (lo hi v : Int) : clamp lo hi v = v ↔ lo ≤ v ∧ v ≤ hi := by
  unfold clamp
  split_ifs <;> omega

theorem limitedSpeed_eq (jogMax speed : Int) : (if jogMax < speed then jogMax else speed) = min speed jogMax := by
  rw [min_def]
  split_ifs <;> omega

/-! ### JOG and JOG_STOP (R54) -/

theorem serveJog_refused {body : List Byte} {v : Int} {r : Reply} (reads : readJog body = some v)
    (refused : motionRefusal s = some r) : serveJog p body s = (r, s) := by
  simp [serveJog, reads, jogAt, refused]

theorem serveJog_accepted {body : List Byte} {v : Int} (reads : readJog body = some v)
    (accepted : motionRefusal s = none) :
    serveJog p body s =
      (Reply.only (if -s.frame.jogMax ≤ v ∧ v ≤ s.frame.jogMax then .ok else .clamped),
        setService p (countRate (clamp (-s.frame.jogMax) s.frame.jogMax v)) none 0 (ensureService p s)) := by
  simp [serveJog, reads, jogAt, accepted, clamp_eq_self_iff]

theorem serveJogStop_pending (pending : s.ctx.changeover ≠ none) :
    serveJogStop p [] s = (Reply.only .changeover, s) := by
  simp [serveJogStop, readNone, Option.isSome_iff_ne_none, pending]

theorem serveJogStop_of_phase (free : s.ctx.changeover = none) (other : s.ctx.phase ≠ .service) :
    serveJogStop p [] s = (Reply.only .state, s) := by
  simp [serveJogStop, readNone, free, other]

theorem serveJogStop_accepted (free : s.ctx.changeover = none) (service : s.ctx.phase = .service) :
    serveJogStop p [] s = (Reply.only .ok, setService p 0 none 0 s) := by
  simp [serveJogStop, readNone, free, service]

end

/-- Settles O27: the checks of R54, then the service segment in SERVICE and in IDLE. -/
theorem jogMovesTheCrosshead : Obligations.JogMovesTheCrosshead := by
  intro tag body v s take reads
  have jogs {reply : Reply} {t : State} (answer : serveJog .pendant body (huntAgain .pendant s) = (reply, t)) :
      Answers (.jog .pendant tag body) s .pendant .jog tag reply t :=
    answers_of_serve take (by simp [senders]) rfl answer
  have refuses {r : Reply} (refused : motionRefusal (huntAgain .pendant s) = some r) :
      OnlyAnswers (.jog .pendant tag body) s .pendant .jog tag r := jogs (serveJog_refused reads refused)
  have stops {reply : Reply} {t : State} (answer : serveJogStop .pendant [] (huntAgain .pendant s) = (reply, t)) :
      Answers (.jogStop .pendant tag []) s .pendant .jogStop tag reply t :=
    answers_of_serve take (by simp [senders]) rfl answer
  refine ⟨fun pending => ⟨refuses (motionRefusal_pending pending), stops (serveJogStop_pending pending)⟩, fun free =>
    ⟨fun other => refuses (motionRefusal_of_phase free other),
     fun other => stops (serveJogStop_of_phase (s := huntAgain .pendant s) free other),
     fun idle opened => refuses (motionRefusal_window free idle opened),
     fun service => ⟨?_, stops (serveJogStop_accepted (s := huntAgain .pendant s) free service)⟩,
     fun idle closed programmed => ?_⟩⟩
  · have accepted := serveJog_accepted (p := .pendant) reads
      (motionRefusal_service (s := huntAgain .pendant s) free service)
    rw [ensureService_service (s := huntAgain .pendant s) service] at accepted
    exact jogs accepted
  · have accepted := serveJog_accepted (p := .pendant) reads
      (motionRefusal_idle (s := huntAgain .pendant s) free idle closed programmed)
    have frame := setService_idle (p := .pendant) (s := huntAgain .pendant s) idle
      (countRate (clamp (-s.frame.jogMax) s.frame.jogMax v)) none 0
    exact ⟨_, jogs accepted, serves_beginServing .., congrArg Ctx.phase frame.ctx, congrArg Ctx.resident frame.ctx,
      congrArg Ctx.holder frame.ctx, congrArg Flu.drvEn frame.mark.flu, congrArg Msq.inactive frame.msq,
      congrArg Msq.prevDemand frame.msq, congrArg Msq.target frame.msq, congrArg Msq.active frame.msq,
      frame.slots, frame.mark.queue, frame.mark.binding, frame.mark.lch, frame.mark.smu, frame.mark.cst⟩

/-! ### MOVE (R55, R56) -/

section
variable {p : Port} {target speed : Int} {s : State} {body : List Byte}

theorem moveRefusal_of_motion {r : Reply} (refused : motionRefusal s = some r) : moveRefusal p speed s = some r := by
  simp [moveRefusal, refused]

theorem moveRefusal_of_holder {q : Port} (passes : motionRefusal s = none) (service : s.ctx.phase = .service)
    (holder : s.ctx.holder = some q) (other : q ≠ p) : moveRefusal p speed s = some (Reply.only .notHolder) := by
  simp [moveRefusal, passes, service, holder, other]

/-- A MOVE of a port that may move is judged by its speed (R55). -/
theorem moveRefusal_of_speed (passes : motionRefusal s = none)
    (may : ¬(s.ctx.phase = .service ∧ s.ctx.holder ≠ none ∧ s.ctx.holder ≠ some p)) :
    moveRefusal p speed s = if speed < 100 then some (Reply.only .range) else none := by
  simp only [moveRefusal, passes]
  rw [if_neg may]

theorem serveMove_refused {r : Reply} (reads : readMove body = some (target, speed))
    (refused : moveRefusal p speed s = some r) : serveMove p body s = (r, s) := by
  simp [serveMove, reads, moveTo, refused]

theorem serveMove_accepted (reads : readMove body = some (target, speed)) (accepted : moveRefusal p speed s = none) :
    serveMove p body s =
      (Reply.only (if speed ≤ s.frame.jogMax ∧ clamp s.frame.hardLo s.frame.hardHi target = target then .ok
        else .clamped),
       setService p
         (moveRate (ensureService p s).msq.qSet (clamp s.frame.hardLo s.frame.hardHi target)
           (countRate (min speed s.frame.jogMax)))
         (some (clamp s.frame.hardLo s.frame.hardHi target)) (countRate (min speed s.frame.jogMax))
         (ensureService p s)) := by
  simp only [serveMove, reads, moveTo, accepted, limitedSpeed_eq, min_eq_left_iff]

end

/-- Settles O28: the checks of R54, R56 and R55, then the target and the rate in SERVICE and in IDLE. -/
theorem moveSetsATarget : Obligations.MoveSetsATarget := by
  intro tag body target speed s take reads
  have moves {reply : Reply} {t : State} (answer : serveMove .supervisor body (huntAgain .supervisor s) = (reply, t)) :
      Answers (.move .supervisor tag body) s .supervisor .move tag reply t :=
    answers_of_serve take (by simp [senders]) rfl answer
  have refuses {r : Reply} (refused : moveRefusal .supervisor speed (huntAgain .supervisor s) = some r) :
      OnlyAnswers (.move .supervisor tag body) s .supervisor .move tag r := moves (serveMove_refused reads refused)
  have checks {r : Reply} (refused : motionRefusal (huntAgain .supervisor s) = some r) := refuses
    (moveRefusal_of_motion refused)
  refine ⟨fun pending => checks (motionRefusal_pending pending), fun free =>
    ⟨fun other => checks (motionRefusal_of_phase free other),
      fun idle opened => checks (motionRefusal_window free idle opened),
     fun idle closed blank => checks (motionRefusal_tables free idle closed blank), fun service => ?_⟩,
    fun free idle closed programmed => ?_⟩
  · have passes := motionRefusal_service (s := huntAgain .supervisor s) free service
    refine ⟨fun q holder other => refuses (moveRefusal_of_holder passes service holder other), fun holder => ?_⟩
    have judged := moveRefusal_of_speed (p := .supervisor) (speed := speed) passes
      (fun ⟨_, held, other⟩ => holder.elim held other)
    refine ⟨fun slow => refuses (judged.trans (if_pos slow)), fun enough q seated => ?_⟩
    have accepted := serveMove_accepted reads (judged.trans (if_neg (not_lt.2 enough)))
    rw [ensureService_service (s := huntAgain .supervisor s) service, huntAgain_msq, seated] at accepted
    exact moves accepted
  · have judged := moveRefusal_of_speed (p := .supervisor) (speed := speed)
      (motionRefusal_idle (s := huntAgain .supervisor s) free idle closed programmed)
      (fun ⟨service, _⟩ => by cases service.symm.trans idle)
    refine ⟨fun slow => refuses (judged.trans (if_pos slow)), fun enough => ?_⟩
    have accepted := serveMove_accepted reads (judged.trans (if_neg (not_lt.2 enough)))
    have frame := setService_idle (p := .supervisor) (s := huntAgain .supervisor s) idle
      (moveRate (ensureService .supervisor (huntAgain .supervisor s)).msq.qSet
        (clamp s.frame.hardLo s.frame.hardHi target) (countRate (min speed s.frame.jogMax)))
      (some (clamp s.frame.hardLo s.frame.hardHi target)) (countRate (min speed s.frame.jogMax))
    exact ⟨_, moves accepted, serves_beginServing .., congrArg Ctx.phase frame.ctx, congrArg Ctx.resident frame.ctx,
      congrArg Ctx.holder frame.ctx, congrArg Flu.drvEn frame.mark.flu, congrArg Msq.inactive frame.msq,
      congrArg Msq.prevDemand frame.msq, congrArg Msq.target frame.msq, congrArg Msq.speed frame.msq,
      congrArg (fun m => m.active.map fun b => (b.seg, b.mode, b.vmax, b.kp)) frame.msq,
      frame.slots, frame.mark.queue, frame.mark.binding, frame.mark.lch, frame.mark.smu, frame.mark.cst⟩

end Sys2Proof.Machine

/-! PROOFS about orders in the layout of READ_CONTEXT (10.2, R210): each field written is read back, a list of words and
a list of segments by induction, and the two parts of a LOAD from these. -/

namespace Sys2Proof.Machine

/-! ### Fields (R209) -/

section
variable (r : List Byte)

theorem rd8_byte {n : Nat} (small : n < 256) : rd8 (byte n :: r) = some (n, r) := by
  simp [rd8, byte, BitVec.toNat_ofNat, Nat.mod_eq_of_lt small]

theorem rd16_bytes16 (v : BitVec 16) : rd16 (bytes16 v ++ r) = some (v.toNat, r) := by
  have bound := v.isLt
  simp only [bytes16, List.cons_append, List.nil_append, rd16, BitVec.extractLsb'_toNat, Nat.shiftRight_eq_div_pow]
  congr 2
  omega

theorem rdU32_bytes32 (v : BitVec 32) : rdU32 (bytes32 v ++ r) = some (v.toNat, r) := by
  have bound := v.isLt
  simp only [bytes32, List.cons_append, List.nil_append, rdU32, BitVec.extractLsb'_toNat, Nat.shiftRight_eq_div_pow]
  congr 2
  omega

theorem rd16_natBytes16 {n : Nat} (small : n ≤ 65535) : rd16 (natBytes16 n ++ r) = some (n, r) := by
  rw [natBytes16, rd16_bytes16, BitVec.toNat_ofNat, Nat.mod_eq_of_lt (by omega)]

theorem rd16_be16 {x : Int} (bounds : 0 ≤ x ∧ x ≤ 65535) : rd16 (be16 x ++ r) = some (x.toNat, r) := by
  rw [be16, rd16_bytes16, bits16, BitVec.toNat_ofInt]
  congr 2
  omega

theorem toSigned32_bits32 {x : Int} (fits : Fits32 x) : toSigned32 (bits32 x).toNat = x := by
  rw [bits32, BitVec.toNat_ofInt, toSigned32]
  split_ifs <;> omega

theorem toNat_bits32 {x : Int} (fits : FitsU32 x) : ((bits32 x).toNat : Int) = x := by
  rw [bits32, BitVec.toNat_ofInt]
  omega

theorem rdS32_be32 {x : Int} (fits : Fits32 x) : rdS32 (be32 x ++ r) = some (x, r) := by
  simp [rdS32, be32, rdU32_bytes32, toSigned32_bits32 fits]

/-- A field that is read is handed to what reads the rest. -/
theorem bind_of_some {α β : Type} {x : Option α} {a : α} {f : α → Option β} (read : x = some a) : (x >>= f) = f a := by
  rw [read]
  rfl

theorem rdN_append (name : List Byte) : rdN name.length (name ++ r) = some (name, r) := by simp [rdN]

theorem slotOf_val (k : SlotId) : slotOf k.val = some k := by simp [slotOf]

theorem rd8_slot (k : SlotId) : rd8 (byte k.val :: r) = some (k.val, r) := rd8_byte r (by omega)

/-! ### The words of an order (10.2) -/

/-- The 21 words of an order as READ_CONTEXT lays them out. -/
def orderWords (o : TestOrder) : List Int :=
  [o.l0, o.lc, o.kS0, o.kE0, o.kSMin, o.kSMax, o.kEMin, o.kEMax, o.fLim, o.winLo, o.winHi, o.holdptStrain.getD 0,
   o.sLo, o.sHi, o.eP, o.dDrop, o.ePlat, o.fArm, o.eRm, o.jumpLim, o.divLim]

/-- The last 8 bytes of an order. -/
def orderTail (o : TestOrder) : List Byte :=
  natBytes16 o.recordInterval ++ (natBytes16 o.rmTimeout ++
    (be16 o.bendLim ++ [byte o.pFrac.toNat, byte o.pSharp.toNat]))

theorem orderBytes_eq (o : TestOrder) : orderBytes o = (orderWords o).flatMap be32 ++ orderTail o := by
  unfold orderBytes orderWords orderTail optBytes32
  simp only [List.flatMap_cons, List.flatMap_nil, List.append_assoc, List.nil_append]

/-- The words of an order as numbers. -/
def wordNats (o : TestOrder) : List Nat := (orderWords o).map fun x => (bits32 x).toNat

theorem wordNats_getD {o : TestOrder} {n : Nat} {x : Int} (field : (orderWords o).getD n 0 = x) :
    (wordNats o).getD n 0 = (bits32 x).toNat := by
  rw [← field]
  exact List.getD_map (orderWords o) 0 fun x => (bits32 x).toNat

theorem signedAt_wordNats {o : TestOrder} {n : Nat} {x : Int} (field : (orderWords o).getD n 0 = x) (fits : Fits32 x) :
    signedAt (wordNats o) n = x := by
  rw [signedAt, wordNats_getD field, toSigned32_bits32 fits]

theorem unsignedAt_wordNats {o : TestOrder} {n : Nat} {x : Int} (field : (orderWords o).getD n 0 = x)
    (fits : FitsU32 x) : unsignedAt (wordNats o) n = x := by
  rw [unsignedAt, wordNats_getD field, toNat_bits32 fits]

theorem readWords_be32 (xs : List Int) :
    readWords xs.length (xs.flatMap be32 ++ r) = some (xs.map fun x => (bits32 x).toNat, r) := by
  induction xs with
  | nil => rfl
  | cons x xs ih =>
    simp only [List.length_cons, List.flatMap_cons, List.append_assoc, readWords, be32, rdU32_bytes32]
    simp [ih]

end

/-! ### The flags of an order (10.2) -/

theorem optionsByte_reads (o : TestOrder) :
    optionsByte o < 2 ^ 6 ∧ shapeOf (optionsByte o % 4) = some o.shape ∧ (optionsByte o).testBit 2 = o.usesExt ∧
    (optionsByte o).testBit 3 = o.tareAtStart ∧ (optionsByte o).testBit 4 = o.laneDetail ∧
    (optionsByte o).testBit 5 = o.demandDetail := by
  unfold optionsByte
  generalize o.usesExt = a, o.tareAtStart = b, o.laneDetail = c, o.demandDetail = d
  cases o.shape <;> revert a b c d <;> decide

theorem stopsByte_reads (o : TestOrder) :
    stopsByte o < 2 ^ 6 ∧ (stopsByte o).testBit 0 = o.tOverload ∧ (stopsByte o).testBit 1 = o.tSlip ∧
    (stopsByte o).testBit 2 = o.tGap ∧ (stopsByte o).testBit 3 = o.tTrack ∧ (stopsByte o).testBit 4 = o.stepOn ∧
    (stopsByte o).testBit 5 = o.holdptOn := by
  unfold stopsByte
  generalize o.tOverload = a, o.tSlip = b, o.tGap = c, o.tTrack = d, o.stepOn = e, o.holdptOn = f
  revert a b c d e f
  decide

theorem definedFlags_of {width n : Nat} (defined : n < 2 ^ width) : definedFlags width n = some n := if_pos defined

/-! ### Segments (10.2) -/

/-- A segment as its bytes spell it. -/
def bodyOf (g : Segment) : SegmentBody :=
  { mode := modeCode g.mode, endKind := endKindCode g.endKind, rate := g.rate, vmax := g.vmax, kp := g.kp
    endValue := g.endValue, backup := g.backup }

theorem segmentOf_bodyOf (g : Segment) : segmentOf (bodyOf g) = some g := by
  have mode : modeOf (modeCode g.mode) = some g.mode := by cases g.mode <;> rfl
  have kind : endKindOf (endKindCode g.endKind) = some g.endKind := by cases g.endKind <;> rfl
  simp [segmentOf, bodyOf, mode, kind]

theorem segmentKind_reads (m : Mode) (e : EndKind) :
    modeCode m * 16 + endKindCode e < 256 ∧ (modeCode m * 16 + endKindCode e) / 16 = modeCode m ∧
    (modeCode m * 16 + endKindCode e) % 16 = endKindCode e := by
  have mode : modeCode m ≤ 2 := by cases m <;> decide
  have kind : endKindCode e ≤ 7 := by cases e <;> decide
  omega

theorem presence_reads (a b : Bool) :
    flag 0 a + flag 1 b < 2 ^ 2 ∧ (flag 0 a + flag 1 b).testBit 0 = a ∧ (flag 0 a + flag 1 b).testBit 1 = b := by
  revert a b
  decide

/-- An optional field of a segment. -/
def optField : Option Int → List Byte
  | some v => be32 v
  | none => []

theorem readOptional_optField {v : Option Int} (fits : ∀ x ∈ v, Fits32 x) (r : List Byte) :
    readOptional v.isSome (optField v ++ r) = some (v, r) := by
  cases v with
  | none => rfl
  | some x => simp [readOptional, optField, rdS32_be32 r (fits x rfl)]

theorem segmentBytes_eq (g : Segment) :
    segmentBytes g =
      byte (modeCode g.mode * 16 + endKindCode g.endKind) :: byte (flag 0 g.endValue.isSome + flag 1 g.backup.isSome) ::
        (be32 g.rate ++ (be32 g.vmax ++ (be16 g.kp ++ (optField g.endValue ++ optField g.backup)))) := by
  unfold segmentBytes
  cases g.endValue <;> cases g.backup <;> simp [optField]

/-- What a segment must be to fit its fields. -/
def SegmentFits (g : Segment) : Prop :=
  Fits32 g.rate ∧ Fits32 g.vmax ∧ (0 ≤ g.kp ∧ g.kp ≤ 65535) ∧ (∀ v ∈ g.endValue, Fits32 v) ∧ ∀ v ∈ g.backup, Fits32 v

theorem readSegment_segmentBytes {g : Segment} (fits : SegmentFits g) (r : List Byte) :
    readSegment (segmentBytes g ++ r) = some (bodyOf g, r) := by
  obtain ⟨rate, vmax, kp, endValue, backup⟩ := fits
  obtain ⟨small, mode, kind⟩ := segmentKind_reads g.mode g.endKind
  obtain ⟨defined, first, second⟩ := presence_reads g.endValue.isSome g.backup.isSome
  rw [segmentBytes_eq]
  simp only [List.cons_append, List.append_assoc, readSegment, rd8_byte _ small, rd8_byte _ (defined.trans (by decide)),
    definedFlags_of defined, rdS32_be32 _ rate, rdS32_be32 _ vmax, rd16_be16 _ kp, first, second,
    readOptional_optField endValue, readOptional_optField backup, mode, kind, Option.bind_eq_bind, Option.bind_some]
  simp [bodyOf, Int.toNat_of_nonneg kp.1]

theorem readSegments_flatMap {gs : List Segment} (fits : ∀ g ∈ gs, SegmentFits g) (r : List Byte) :
    readSegments gs.length (gs.flatMap segmentBytes ++ r) = some (gs.map bodyOf, r) := by
  induction gs with
  | nil => rfl
  | cons g gs ih =>
    simp [readSegments, readSegment_segmentBytes (fits g (by simp)), ih (fun x mem => fits x (by simp [mem]))]

/-! ### The two parts of a LOAD (R210) -/

theorem readProgram_segmentBytes (k : SlotId) {gs : List Segment} (count : gs.length ≤ 255)
    (fits : ∀ g ∈ gs, SegmentFits g) :
    readProgram ([byte k.val, byte gs.length] ++ gs.flatMap segmentBytes) = some (k, gs.map bodyOf) := by
  have program := readSegments_flatMap fits []
  rw [List.append_nil] at program
  simp [readProgram, rd8_slot, slotOf_val, rd8_byte _ (show gs.length < 256 by omega), program, rdEnd]

/-- What an order must be to fit its fields. -/
structure OrderFits (o : TestOrder) : Prop where
  name : o.specimenId.length ≤ 255
  bare : o.segments = []
  holdpt : o.holdptStrain.isSome = o.holdptOn
  signed : ∀ x ∈ [o.l0, o.lc, o.fLim, o.winLo, o.winHi, o.sLo, o.sHi, o.eP, o.dDrop, o.ePlat, o.fArm, o.eRm, o.jumpLim,
    o.divLim], Fits32 x
  strain : ∀ x ∈ o.holdptStrain, Fits32 x
  unsigned : ∀ x ∈ [o.kS0, o.kE0, o.kSMin, o.kSMax, o.kEMin, o.kEMax], FitsU32 x
  interval : o.recordInterval ≤ 65535
  timeout : o.rmTimeout ≤ 65535
  bend : 0 ≤ o.bendLim ∧ o.bendLim ≤ 65535
  frac : 0 ≤ o.pFrac ∧ o.pFrac ≤ 255
  sharp : 0 ≤ o.pSharp ∧ o.pSharp ≤ 255

/-- The words of an order spell its fields. -/
theorem headerOrder_orderWords {o : TestOrder} (fits : OrderFits o) :
    headerOrder o.specimenId o.shape (optionsByte o) (stopsByte o) (wordNats o)
      o.recordInterval o.rmTimeout o.bendLim.toNat o.pFrac.toNat o.pSharp.toNat = o := by
  obtain ⟨-, -, ext, tare, lanes, demand⟩ := optionsByte_reads o
  obtain ⟨-, overload, slip, gap, track, step, holdpt⟩ := stopsByte_reads o
  have signed := fits.signed
  have unsigned := fits.unsigned
  simp only [List.forall_mem_cons, List.not_mem_nil, false_imp_iff, implies_true, and_true] at signed unsigned
  obtain ⟨l0, lc, fLim, winLo, winHi, sLo, sHi, eP, dDrop, ePlat, fArm, eRm, jumpLim, divLim⟩ := signed
  obtain ⟨kS0, kE0, kSMin, kSMax, kEMin, kEMax⟩ := unsigned
  have strain : (if o.holdptOn then some (signedAt (wordNats o) 11) else none) = o.holdptStrain := by
    rw [← fits.holdpt]
    cases held : o.holdptStrain with
    | none => rfl
    | some x =>
      simp [signedAt_wordNats (show (orderWords o).getD 11 0 = x by simp [orderWords, held]) (fits.strain x held)]
  unfold headerOrder
  rw [ext, tare, lanes, demand, overload, slip, gap, track, step, holdpt, strain, Int.toNat_of_nonneg fits.bend.1,
    Int.toNat_of_nonneg fits.frac.1, Int.toNat_of_nonneg fits.sharp.1, signedAt_wordNats (n := 0) (x := o.l0) rfl l0,
    signedAt_wordNats (n := 1) (x := o.lc) rfl lc, unsignedAt_wordNats (n := 2) (x := o.kS0) rfl kS0,
    unsignedAt_wordNats (n := 3) (x := o.kE0) rfl kE0, unsignedAt_wordNats (n := 4) (x := o.kSMin) rfl kSMin,
    unsignedAt_wordNats (n := 5) (x := o.kSMax) rfl kSMax, unsignedAt_wordNats (n := 6) (x := o.kEMin) rfl kEMin,
    unsignedAt_wordNats (n := 7) (x := o.kEMax) rfl kEMax,
    signedAt_wordNats (n := 8) (x := o.fLim) rfl fLim, signedAt_wordNats (n := 9) (x := o.winLo) rfl winLo,
    signedAt_wordNats (n := 10) (x := o.winHi) rfl winHi, signedAt_wordNats (n := 12) (x := o.sLo) rfl sLo,
    signedAt_wordNats (n := 13) (x := o.sHi) rfl sHi, signedAt_wordNats (n := 14) (x := o.eP) rfl eP,
    signedAt_wordNats (n := 15) (x := o.dDrop) rfl dDrop, signedAt_wordNats (n := 16) (x := o.ePlat) rfl ePlat,
    signedAt_wordNats (n := 17) (x := o.fArm) rfl fArm, signedAt_wordNats (n := 18) (x := o.eRm) rfl eRm,
    signedAt_wordNats (n := 19) (x := o.jumpLim) rfl jumpLim,
    signedAt_wordNats (n := 20) (x := o.divLim) rfl divLim]
  exact congrArg (fun gs => { o with segments := gs }) fits.bare.symm

theorem readHeader_orderBytes (k : SlotId) {o : TestOrder} (fits : OrderFits o) :
    readHeader ([byte k.val, byte o.specimenId.length] ++ o.specimenId ++ [byte (optionsByte o), byte (stopsByte o)] ++
      orderBytes o) = some { slot := k, order := o } := by
  obtain ⟨options, shape, -⟩ := optionsByte_reads o
  obtain ⟨stops, -⟩ := stopsByte_reads o
  have words : readWords 21 ((orderWords o).flatMap be32 ++ orderTail o) = some (wordNats o, orderTail o) :=
    readWords_be32 (orderTail o) (orderWords o)
  rw [orderBytes_eq, List.append_assoc, List.append_assoc]
  unfold readHeader
  refine (bind_of_some (rd8_slot _ k)).trans ?_
  refine (bind_of_some (slotOf_val k)).trans ?_
  refine (bind_of_some (rd8_byte _ (Nat.lt_succ_of_le fits.name))).trans ?_
  refine (bind_of_some (rdN_append _ _)).trans ?_
  refine (bind_of_some (rd8_byte _ (options.trans (by decide)))).trans ?_
  refine (bind_of_some (definedFlags_of options)).trans ?_
  refine (bind_of_some shape).trans ?_
  refine (bind_of_some (rd8_byte _ (stops.trans (by decide)))).trans ?_
  refine (bind_of_some (definedFlags_of stops)).trans ?_
  refine (bind_of_some words).trans ?_
  unfold orderTail
  refine (bind_of_some (rd16_natBytes16 _ fits.interval)).trans ?_
  refine (bind_of_some (rd16_natBytes16 _ fits.timeout)).trans ?_
  refine (bind_of_some (rd16_be16 _ fits.bend)).trans ?_
  refine (bind_of_some (rd8_byte _ (by have := fits.frac; omega))).trans ?_
  refine (bind_of_some (rd8_byte _ (by have := fits.sharp; omega))).trans ?_
  exact congrArg (fun x : TestOrder => some (Assembly.mk k x)) (headerOrder_orderWords fits)

/-- Settles O15: the header from its fields, the program from its segments. -/
theorem ordersReadBack : Obligations.OrdersReadBack :=
  ⟨fun k _ name bare holdpt signed strain unsigned interval timeout bend frac sharp =>
    readHeader_orderBytes k
      { name, bare, holdpt, signed, strain, unsigned, interval, timeout, bend, frac, sharp },
   fun k gs count fits =>
    ⟨gs.map bodyOf, readProgram_segmentBytes k count fits, by
      simp [List.map_map, Function.comp_def, segmentOf_bodyOf]⟩⟩

end Sys2Proof.Machine

/-! PROOFS about the requests that report state (R6, R104, R157, R205): how long each group of a reply is, and that
READ_CONTEXT, GET_RESULTS, STATUS and CAL_READ answer and change nothing. -/

namespace Sys2Proof.Machine

/-! ### How long a reply is (10.3) -/

@[simp] theorem length_bytes16 (v : BitVec 16) : (bytes16 v).length = 2 := rfl
@[simp] theorem length_bytes32 (v : BitVec 32) : (bytes32 v).length = 4 := rfl
@[simp] theorem length_natBytes16 (n : Nat) : (natBytes16 n).length = 2 := rfl
@[simp] theorem length_natBytes32 (n : Nat) : (natBytes32 n).length = 4 := rfl
@[simp] theorem length_be16 (x : Int) : (be16 x).length = 2 := rfl
@[simp] theorem length_be32 (x : Int) : (be32 x).length = 4 := rfl
@[simp] theorem length_optBytes32 (v : Option Int) : (optBytes32 v).length = 4 := rfl
@[simp] theorem length_indexField (clock place count : Nat) : (indexField clock place count).length = 4 := rfl
@[simp] theorem length_fieldOr (clock place : Nat) (v : Option Int) : (fieldOr clock place v).length = 4 := rfl

@[simp] theorem length_maximum (determined tracked : Option Int) (running : Bool) :
    (maximum determined tracked running).length = 4 := by
  cases determined <;> rfl

theorem length_resultsRecord (k : SlotId) (s : State) : (resultsRecord k s).length = 74 := by
  simp [resultsRecord, resultValues]

section
variable (s : State)

theorem length_statusContexts : (statusContexts s).length = 17 := by simp [statusContexts]

theorem length_statusService : (statusService s).length = 9 := by
  unfold statusService
  split <;> simp

theorem length_statusDemand : (statusDemand s).length = 10 := by simp [statusDemand]

theorem length_statusLoad : (statusLoad s).length = 7 := by simp [statusLoad]

theorem length_statusExtension : (statusExtension s).length = 16 := by simp [statusExtension]

theorem length_statusResident : (statusResident s).length = 22 := by
  unfold statusResident
  split
  · simp
  · simp

/-- Ten entry places, those behind the last entry blank (R205). -/
theorem length_statusLines (few : s.flu.faults.length ≤ 10) : (statusLines s).length = 83 := by
  have entries : (s.flu.faults.flatMap (entryBytes s)).length = 8 * s.flu.faults.length := by
    rw [List.length_flatMap, List.map_congr_left (g := fun _ => 8) (fun e _ => by simp [entryBytes])]
    simp [mul_comm]
  simp [statusLines, entries]
  omega

theorem length_statusStream : (statusStream s).length = 13 := by
  unfold statusStream
  split <;> simp

theorem length_statusCalibration : (statusCalibration s).length = 7 := by simp [statusCalibration]

theorem length_statusPart (p : Port) : (statusPart p s).length = 3 := rfl

theorem length_statusReply (p : Port) (few : s.flu.faults.length ≤ 10) : (statusReply p s).results.length = 187 := by
  simp [statusReply, length_statusContexts, length_statusService, length_statusDemand, length_statusLoad,
    length_statusExtension, length_statusResident, length_statusLines s few, length_statusStream,
    length_statusCalibration, length_statusPart]

/-- STATUS begins with the phase, the resident context and the binding (10.3). -/
theorem take_statusReply (p : Port) :
    (statusReply p s).results.take 3 =
      [byte (phaseCode s.ctx.phase), byte (contextCodeOpt s.ctx.resident), byte (slotCodeOpt s.ctx.binding)] := by
  simp [statusReply, statusContexts]

/-! ### CAL_READ (R104) -/

variable {s}

theorem readTable_one (b : Byte) : readTable [b] = some b.toNat := rfl

theorem serveCalRead_writing {b : Byte} (writing : calWriting s = true) :
    serveCalRead [b] s = (Reply.only .busy, s) := by
  simp [serveCalRead, readTable_one, writing]

theorem serveCalRead_idle {b : Byte} {t : TableId} (idle : calWriting s = false) (names : b.toNat = tableCode t) :
    serveCalRead [b] s = (calReadReply t s.cst, s) := by
  simp [serveCalRead, readTable_one, idle, names, tableOfCode_tableCode]

theorem calReadReply_eq {b : Byte} {t : TableId} (c : Cst) (names : b.toNat = tableCode t) :
    calReadReply t c =
      { status := .ok
        results := [b, if (tableBytes c.work t).isSome then 1 else 0] ++ natBytes32 c.nv.revision ++
          (tableBytes c.work t).getD [] } := by
  have table : byte (tableCode t) = b := by simp [byte, ← names]
  have mark (x : Bool) : byte (flag 0 x) = if x then 1 else 0 := by cases x <;> rfl
  simp [calReadReply, table, mark]

theorem calWriting_iff : calWriting s = true ↔ ∃ t q c, s.cst.window = .writing t q c := by
  unfold calWriting
  split
  · simp [*]
  · rename_i other
    simpa using other

/-! ### READ_CONTEXT (R6) -/

theorem readSlotPart_two {b part : Byte} {k : SlotId} (slot : b.toNat = k.val)
    (defined : part.toNat = 1 ∨ part.toNat = 2) :
    readSlotPart [b, part] = some (k, part.toNat) := by
  simp [readSlotPart, rd8, slotOf, rdEnd, slot, defined]

end

/-- Settles O34: each request by its own reply, the state being the one it was asked of. -/
theorem readingChangesNothing : Obligations.ReadingChangesNothing := by
  refine ⟨fun p tag b part k s take slot defined => ?_, fun p tag s take few => ?_, fun p tag b t s take names => ?_⟩
  · have context {reply : Reply} (answer : contextReply k part.toNat (huntAgain p s) = reply) :
        OnlyAnswers (.readContext p tag [b, part]) s p .readContext tag reply :=
      answers_of_serve take (by cases p <;> simp [senders]) rfl
        (by rw [serveReadContext, readSlotPart_two slot defined, ← answer])
    have results {reply : Reply} (answer : resultsReply k (huntAgain p s) = reply) :
        OnlyAnswers (.getResults p tag [b]) s p .getResults tag reply :=
      answers_of_serve take (by cases p <;> simp [senders]) rfl
        (by rw [serveGetResults, readSlot_one slot, ← answer])
    exact ⟨fun empty => ⟨context (if_pos empty), results (if_pos empty)⟩, fun full =>
      ⟨resultsRecord k s, length_resultsRecord k s, context (if_neg full), results (if_neg full)⟩⟩
  · exact ⟨(statusReply p (huntAgain p s)).results, length_statusReply _ p few, take_statusReply _ p,
      answers_of_serve take (by cases p <;> simp [senders]) rfl rfl⟩
  · have answers {reply : Reply} (answer : serveCalRead [b] (huntAgain p s) = (reply, huntAgain p s)) :
        OnlyAnswers (.calRead p tag [b]) s p .calRead tag reply :=
      answers_of_serve take (by cases p <;> simp [senders]) rfl answer
    refine ⟨fun t0 q c writing => answers (serveCalRead_writing (calWriting_iff.2 ⟨t0, q, c, writing⟩)), fun idle =>
      answers ((serveCalRead_idle ?_ names).trans (congrArg (·, huntAgain p s) (calReadReply_eq _ names)))⟩
    exact Bool.eq_false_iff.2 fun writing => (calWriting_iff.1 writing).elim fun t0 ⟨q, c, h⟩ => idle t0 q c h

end Sys2Proof.Machine

/-! PROOFS about resets and the supply (R33, R96, R103, R179, R206 to R208): when a reset takes effect, what it does to
each slot, and POWER_ON behind POWER_LOSS. -/

namespace Sys2Proof.Machine

/-! ### When a reset takes effect (R103, R179, R207) -/

section
variable {cause : ResetCause} {s : State}

theorem resetArrives_idle (idle : calWriting s = false) : resetArrives cause s = applyReset cause s := by
  simp [resetArrives, idle]

theorem resetArrives_writing (writing : calWriting s = true) :
    resetArrives cause s = { s with ptu := { s.ptu with resetWait := some cause } } := if_pos writing

theorem exec_resetLine_armed (powered : s.power = true) (armed : s.ptu.lineArmed = true) :
    exec .resetLine s = .next (resetArrives .line { s with ptu := { s.ptu with lineArmed := false } }) := by
  have falls : (s.power && s.ptu.lineArmed) = true := by simp [powered, armed]
  exact congrArg _ (if_pos falls)

theorem exec_reset_taken {tag : Byte} (take : CanTake .supervisor s) :
    exec (.reset .supervisor tag []) s = .next (takeReset .supervisor tag (huntAgain .supervisor s)) := by
  show Host.Outcome.next _ = _
  rw [clockFrame_free take, takeFrame_taken take]
  rfl

theorem takeReset_idle {p : Port} {tag : Byte} (idle : calWriting s = false) :
    takeReset p tag s = applyReset .request s := by
  simp [takeReset, idle, resetArrives_idle idle]

theorem takeReset_writing {p : Port} {tag : Byte} (writing : calWriting s = true) :
    takeReset p tag s = { beginServing p tag (requestCode .reset) none s with
      ptu := { (beginServing p tag (requestCode .reset) none s).ptu with resetWait := some .request } } := by
  have still : calWriting (beginServing p tag (requestCode .reset) none s) = true := writing
  rw [takeReset, if_pos writing, resetArrives_writing still]

/-! ### The slots at a reset (R33) -/

theorem applyReset_slot (k : SlotId) : (applyReset cause s).slot k = resetSlot s.msq s.live (s.slot k) := by
  simp [applyReset, State.slot]

/-- A RESIDENT or PARKED slot is VOID with the RESET mark behind a reset. -/
theorem resetSlot_held (m : Msq) (live : Option Live) {x : Slot} (held : x.state = .resident ∨ x.state = .parked) :
    (resetSlot m live x).state = .void ∧ Mark.reset ∈ (resetSlot m live x).marks ∧
    (resetSlot m live x).outcome = some { void := true, cause := .mark .reset } := by
  have joined : Mark.reset ∈ (if Mark.reset ∈ x.marks then x.marks else x.marks ++ [.reset]) := by
    split
    · assumption
    · simp
  unfold resetSlot
  rcases held with state | state
  · cases live <;> simp [state, joined]
  · simp [state, joined]

theorem resetSlot_free (m : Msq) (live : Option Live) {x : Slot} (active : x.state ≠ .resident)
    (parked : x.state ≠ .parked) : resetSlot m live x = x := by
  unfold resetSlot
  cases state : x.state with
  | resident => exact absurd state active
  | parked => exact absurd state parked
  | _ => rfl

end

/-- Settles O36: RESET and RESET_N by whether a write runs, then what a reset leaves. -/
theorem resetsTakeEffect : Obligations.ResetsTakeEffect := by
  refine ⟨fun tag s take => ⟨fun idle => ?_, fun writing => ?_⟩, fun s powered =>
    ⟨fun unarmed => ?_, fun armed idle => ?_, fun armed writing => ?_, ?_⟩, fun cause s =>
    ⟨fun k held => ?_, fun k active parked => ?_, ?_⟩⟩
  · exact (exec_reset_taken take).trans (congrArg _ (takeReset_idle (s := huntAgain .supervisor s) idle))
  · refine ⟨_, (exec_reset_taken take).trans (congrArg _ (takeReset_writing writing)), rfl, ?_, rfl, rfl, rfl, rfl, rfl⟩
    exact serves_beginServing .supervisor tag (requestCode .reset) none (huntAgain .supervisor s)
  · exact congrArg _ (if_neg (by simp [unarmed]))
  · exact (exec_resetLine_armed powered armed).trans (congrArg _ (resetArrives_idle idle))
  · exact (exec_resetLine_armed powered armed).trans (congrArg _ (resetArrives_writing writing))
  · exact congrArg _ (if_pos powered)
  · rw [applyReset_slot]
    exact resetSlot_held _ _ held
  · rw [applyReset_slot]
    exact resetSlot_free _ _ active parked
  · rintro t rfl
    refine ⟨rfl, rfl, rfl, rfl, rfl, rfl, rfl, rfl, rfl, rfl, rfl, rfl, rfl, rfl, rfl, rfl, rfl, rfl, rfl, rfl, rfl,
      rfl,
      rfl, rfl, rfl, rfl, rfl, rfl, rfl, rfl, rfl, rfl, rfl, rfl, rfl, rfl, rfl, rfl, rfl, rfl, rfl, rfl, rfl, rfl, rfl,
      rfl, rfl, rfl, rfl, rfl, rfl, rfl, fun p => ?_⟩
    cases p <;> exact ⟨rfl, rfl, rfl, rfl⟩

/-! ### The supply (R33, R96, R97) -/

theorem exec_powerOn (s : State) : exec .powerOn s = .next { State.initial s.cst.nv with pending := s.pending } := rfl

theorem exec_powerLoss (s : State) : exec .powerLoss s = .next { unsupplied s.cst.nv with pending := s.pending } := rfl

/-- Settles O37: by the effect of each command; a write cut off finds its table cleared in the nonvolatile memory. -/
theorem theSupplyComesAndGoes : Obligations.TheSupplyComesAndGoes := by
  refine ⟨exec_powerOn, fun s => ⟨_, exec_powerLoss s, rfl, rfl, fun p => rfl, exec_powerOn _⟩,
    fun p tag s t q c take sender unlocked opened opener idle => ?_⟩
  have answer := serveCalCommit_accepted (s := huntAgain p s) unlocked opened opener idle rfl
  refine ⟨_, _, _, answers_of_serve take sender rfl answer, exec_powerLoss _, exec_powerOn _, ?_, rfl⟩
  exact tableBytes_clearTable_same t _

end Sys2Proof.Machine

/-! PROOFS about the fracture of a test (R147 to R151): the criteria at an evaluated set, what the fracture set
determines, and the report of a fracture at the context store. -/

namespace Sys2Proof.Machine

/-! ### The maximum tracker (R147, R149) -/

section
variable (o : TestOrder) (i : EvalIn) (ev : Eval)

/-- The maxima behind a set. -/
def maximaAt : MaxTracker :=
  match ev.maxT with
  | none => { fm := i.force, rm := i.stress, eFm := i.strain, source := i.source }
  | some m =>
    { fm := max m.fm i.force
      rm := max m.rm i.stress
      eFm := if m.fm < i.force then i.strain else m.eFm
      source := if m.fm < i.force then i.source else m.source }

/-- The maxima and the arming of the fracture detector behind a set. -/
def tracked : Eval :=
  { ev with maxT := some (maximaAt i ev), armed := ev.armed || decide (o.fArm ≤ (maximaAt i ev).fm) }

theorem evalMaxStep_tracked : evalMaxStep o i ev = tracked o i ev := by
  unfold evalMaxStep tracked maximaAt
  cases ev.maxT with
  | none => rfl
  | some m =>
    by_cases force : m.fm < i.force <;> by_cases stress : m.rm < i.stress
    · simp only [force, stress, if_true, max_eq_right force.le, max_eq_right stress.le]
    · simp only [force, stress, if_true, if_false, max_eq_right force.le, max_eq_left (not_lt.1 stress)]
    · simp only [force, stress, if_true, if_false, max_eq_left (not_lt.1 force), max_eq_right stress.le]
    · simp only [force, stress, if_false, max_eq_left (not_lt.1 force), max_eq_left (not_lt.1 stress)]

theorem armed_tracked_iff : (tracked o i ev).armed = true ↔ ev.armed = true ∨ o.fArm ≤ (maximaAt i ev).fm := by
  simp [tracked]

/-! ### The criteria (R150) -/

/-- SHARP: against the force ten sets ago, where that force is at least half the maximum. -/
def SharpAt : Prop :=
  ∃ f10 rest, ev.history = f10 :: rest ∧ rest.length = 9 ∧ (maximaAt i ev).fm ≤ 2 * f10 ∧
    i.force ≤ roundDiv (f10 * (100 - o.pSharp)) 100

/-- LEVEL: against the maximum. -/
def LevelAt : Prop := i.force ≤ roundDiv ((maximaAt i ev).fm * o.pFrac) 100

variable {o i ev}

theorem fractureTest_unarmed (calm : (tracked o i ev).armed = false) : fractureTest o i (tracked o i ev) = none := by
  simp [fractureTest, calm]

section
variable (armed : (tracked o i ev).armed = true)
include armed

theorem fractureTest_sharp (sharp : SharpAt o i ev) : fractureTest o i (tracked o i ev) = some .sharp := by
  obtain ⟨f10, rest, history, nine, half, below⟩ := sharp
  simp [fractureTest, armed, show (tracked o i ev).maxT = some (maximaAt i ev) from rfl,
    show (tracked o i ev).history = f10 :: rest from history, nine, half, below]

/-- Without SHARP the test of an armed detector is that of LEVEL. -/
theorem fractureTest_of_not_sharp (dull : ¬SharpAt o i ev) :
    fractureTest o i (tracked o i ev) =
      if i.force ≤ roundDiv ((maximaAt i ev).fm * o.pFrac) 100 then some .level else none := by
  have maxima : (tracked o i ev).maxT = some (maximaAt i ev) := rfl
  have same : (tracked o i ev).history = ev.history := rfl
  unfold fractureTest
  rw [armed, maxima, same]
  cases history : ev.history with
  | nil => rfl
  | cons f10 rest =>
    by_cases nine : rest.length = 9
    · have off : ¬((maximaAt i ev).fm ≤ 2 * f10 ∧ i.force ≤ roundDiv (f10 * (100 - o.pSharp)) 100) :=
        fun met => dull ⟨f10, rest, history, nine, met⟩
      simp only [List.length_cons, nine, decide_true, ← Bool.decide_and, off, decide_false, Bool.false_eq_true,
        if_false]
    · simp [nine]

end

/-! ### The fracture set (R151) -/

section
variable (closed : ev.window = .closed) (kept : i.removal = none) (going : i.resumed = false)
include closed kept going

/-- At a set of a closed window without a removal mark the first two steps of R129 change the maxima alone. -/
theorem evalMaxStep_plain : evalMaxStep o i (evalSourceStep o i (evalResume i ev)) = tracked o i ev := by
  have resume : evalResume i ev = ev := by simp [evalResume, going]
  have source : evalSourceStep o i ev = ev := by simp [evalSourceStep, kept, closed]
  rw [resume, source, evalMaxStep_tracked]

theorem evalSet_fracture {c : Criterion} (met : fractureTest o i (tracked o i ev) = some c) :
    evalSet o i ev = (fractureSteps o c i (tracked o i ev), some c) := by
  simp only [evalSet, evalMaxStep_plain closed kept going, met]

theorem evalSet_whole (unmet : fractureTest o i (tracked o i ev) = none) :
    evalSet o i ev = (evalTail o (evalResume i ev) i (tracked o i ev), none) := by
  simp only [evalSet, evalMaxStep_plain closed kept going, unmet]

end

/-- Behind a closed window, steps 4 to 7 of R129 leave the fracture fields, the maxima and the arming alone. -/
theorem evalTail_keeps (was : Eval) (closed : ev.window = .closed) :
    (evalTail o was i ev).opened = ev.opened ∧ (evalTail o was i ev).maxT = ev.maxT ∧
    (evalTail o was i ev).armed = ev.armed ∧ (evalTail o was i ev).results.fracture = ev.results.fracture := by
  obtain ⟨_, _, _, _, _, _, _, _, yields⟩ := evalYieldStep_eq o i ev was.yState
  obtain ⟨_, rfl, ⟨-, tail⟩ | ⟨-, tail⟩⟩ := evalTail_cases o i ev was
  · rw [tail, evalWindowStep_closed o i ev closed, yields]
    exact ⟨rfl, rfl, rfl, rfl⟩
  · obtain ⟨_, _, _, _, _, _, offset, -⟩ := evalOffsetStep_eq o i (evalYieldStep o was.yState i ev)
    rw [tail, evalWindowStep_closed o i ev closed, offset, yields]
    exact ⟨rfl, rfl, rfl, rfl⟩

/-- What a cut plateau and determined maxima leave (R140, R148). -/
theorem determineMaxima_cutPlateau {m : MaxTracker} (maxima : ev.maxT = some m) :
    ∃ reL transient, determineMaxima (cutPlateau ev) =
      { ev with results :=
        { ev.results with
          reL := reL
          reLTransient := transient
          rm := some m.rm
          fm := some { force := m.fm, strain := m.eFm }
          ag := ev.results.fit.map fun f =>
            { value := sat32 (m.eFm - elasticStrain m.rm f.b), source := m.source } } } := by
  obtain ⟨reL, transient, cut, -⟩ := cutPlateau_eq ev
  refine ⟨reL, transient, ?_⟩
  rw [cut]
  simp only [determineMaxima, maxima]
  cases ev.results.fit <;> rfl

/-- The elongation at a fracture set: that of the set before it on the fitted slope (R151). -/
def elongationAt (ev : Eval) : Option Elongation :=
  ev.results.fit.bind fun f => ev.prev.map fun p =>
    { value := sat32 (p.strain - elasticStrain p.stress f.b), source := p.source }

/-- A set with its maxima tracked and its fracture fields written (R151). -/
def withFracture (o : TestOrder) (c : Criterion) (i : EvalIn) (ev : Eval) : Eval :=
  { tracked o i ev with
    results :=
      { ev.results with
        elong := elongationAt ev, fracture := some { criterion := c, force := i.force, index := i.index } } }

theorem fractureSteps_tracked (c : Criterion) (opened : ev.opened = true) (closed : ev.window = .closed) :
    fractureSteps o c i (tracked o i ev) =
      { determineMaxima (cutPlateau (withFracture o c i ev)) with opened := false } := by
  have written : fractureSteps o c i (tracked o i ev) = closingSteps o (withFracture o c i ev) := by
    unfold fractureSteps withFracture elongationAt tracked
    cases fit : ev.results.fit <;> cases ev.prev <;> simp [fit]
  rw [written, closingSteps_opened o (withFracture o c i ev) opened]
  simp [show (withFracture o c i ev).window = .closed from closed]

/-- The fields behind a fracture set (R148, R151). -/
theorem fractureSteps_fields (c : Criterion) (opened : ev.opened = true) (closed : ev.window = .closed) {t : Eval}
    (steps : t = fractureSteps o c i (tracked o i ev)) :
    t.opened = false ∧ t.yState = ev.yState ∧ t.history = ev.history ∧ t.prev = ev.prev ∧
    t.results.fracture = some { criterion := c, force := i.force, index := i.index } ∧
    t.results.rm = some (maximaAt i ev).rm ∧
    t.results.fm = some { force := (maximaAt i ev).fm, strain := (maximaAt i ev).eFm } ∧
    t.results.ag = (ev.results.fit.map fun f =>
      { value := sat32 ((maximaAt i ev).eFm - elasticStrain (maximaAt i ev).rm f.b),
        source := (maximaAt i ev).source }) ∧
    t.results.elong = elongationAt ev := by
  obtain ⟨reL, transient, determined⟩ :=
    determineMaxima_cutPlateau (ev := withFracture o c i ev) (m := maximaAt i ev) rfl
  rw [steps, fractureSteps_tracked c opened closed, determined]
  exact ⟨rfl, rfl, rfl, rfl, rfl, rfl, rfl, rfl, rfl⟩

end

/-! ### A fracture at the context store (R19, R151) -/

section
variable {k : SlotId} {s : State}

/-- FRACTURE raises no cause, and a GAP behind it raises none either (R31). -/
theorem setMark_fracture_noCause (v : Int) (n : BitVec 32) : NoCause s (setMark k .fracture v n s) := by
  by_cases present : Mark.fracture ∈ (s.slot k).marks
  · rw [setMark_present v n present]
    exact ⟨rfl, rfl⟩
  · have added := addMark_noCause k .fracture s
    have joined := mem_addMark k .fracture s
    have quiet (u : State) : raiseMarkCause k .fracture u = u := by simp [raiseMarkCause, stopEnabled]
    unfold setMark
    rw [if_neg present]
    dsimp only
    split
    · rw [quiet]
      exact added.trans (offer_noCause true _ (.inr (.inr (.inr joined))))
    · exact added

/-- The END of a fracture (R151). -/
def fractureEnd (s : State) : State := raiseCause .endTest .internal none (some (.mark .fracture)) s

theorem takeReport_fracture {n : Nat} {c : Criterion} {force fm : Int} (resident : s.ctx.resident = some (.test k)) :
    takeReport s (.fracture k n c force fm) =
      raiseEvent none (.fracture k n c force fm)
        (fractureEnd (setMark k .fracture force (BitVec.ofNat 32 n) s)) := by
  have still := (setMark_frame k .fracture force (BitVec.ofNat 32 n) s).resident.trans resident
  simp only [takeReport, still, if_true]
  rfl

variable {out : Context} (resident : s.ctx.resident = some out)
include resident

theorem fractureEnd_pending (operator : ∀ old, s.ctx.changeover = some old → old.cause = .operator) :
    (fractureEnd s).ctx.changeover = some
      { cause := .endTest, requester := .internal, outgoing := out, incoming := none
        elapsed := (s.ctx.changeover.map (·.elapsed)).getD 0, endCause := some (.mark .fracture) } := by
  unfold fractureEnd
  cases pending : s.ctx.changeover with
  | none => rw [raiseCause_begins _ _ _ _ resident pending, raiseEvent_ctx]; rfl
  | some old =>
    have rank : causeRank old.cause < causeRank .endTest := by rw [operator old pending]; decide
    exact congrArg Ctx.changeover (raiseCause_replaces _ _ _ _ resident pending rank).ctx

omit resident in
theorem fractureEnd_outranked {old : Changeover} (pending : s.ctx.changeover = some old)
    (other : old.cause ≠ .operator) : fractureEnd s = s := by
  refine raiseCause_outranked _ _ _ _ pending ?_
  cases cause : old.cause with
  | operator => exact absurd cause other
  | _ => decide

end

section
variable {o : TestOrder} {i : EvalIn} {ev : Eval} {level sharp : Prop}
  (hlevel : level ↔ (ev.armed = true ∨ o.fArm ≤ (maximaAt i ev).fm) ∧ LevelAt o i ev)
  (hsharp : sharp ↔ (ev.armed = true ∨ o.fArm ≤ (maximaAt i ev).fm) ∧ SharpAt o i ev)
include hsharp

/-- The criterion met at a set, SHARP ahead of LEVEL (R150). -/
theorem fractureTest_of_sharp (met : sharp) : fractureTest o i (tracked o i ev) = some .sharp := by
  obtain ⟨armed, at_⟩ := hsharp.1 met
  exact fractureTest_sharp ((armed_tracked_iff o i ev).2 armed) at_

include hlevel

theorem fractureTest_of_level (dull : ¬sharp) (met : level) : fractureTest o i (tracked o i ev) = some .level := by
  obtain ⟨armed, at_⟩ := hlevel.1 met
  rw [fractureTest_of_not_sharp ((armed_tracked_iff o i ev).2 armed) (fun at' => dull (hsharp.2 ⟨armed, at'⟩))]
  exact if_pos at_

theorem fractureTest_of_neither (dull : ¬sharp) (above : ¬level) : fractureTest o i (tracked o i ev) = none := by
  cases armed : (tracked o i ev).armed with
  | false => exact fractureTest_unarmed armed
  | true =>
    have arms := (armed_tracked_iff o i ev).1 armed
    rw [fractureTest_of_not_sharp armed (fun at' => dull (hsharp.2 ⟨arms, at'⟩))]
    exact if_neg fun at_ => above (hlevel.2 ⟨arms, at_⟩)

end

/-- Settles O59: a set of a closed window by the criterion met, then the report of its fracture. -/
theorem aFractureEndsTheTest : Obligations.AFractureEndsTheTest := by
  refine ⟨fun o i ev t out opened closed kept going set => ?_, fun k n c force fm s t resident state new report => ?_⟩
  · refine ⟨(maximaAt i ev).fm, (maximaAt i ev).rm, (maximaAt i ev).eFm, (maximaAt i ev).source,
      fun first => by simp [maximaAt, first], fun m before => ?_, fun level sharp hlevel hsharp => ?_⟩
    · simp only [maximaAt, before, true_and]
      exact ⟨fun above => by simp [above], fun below => by simp [not_lt.2 below]⟩
    · have at_ {c : Criterion} (met : fractureTest o i (tracked o i ev) = some c) :
          t = fractureSteps o c i (tracked o i ev) ∧ out = some c :=
        Prod.mk.inj (set.trans (evalSet_fracture closed kept going met))
      refine ⟨fun met => (at_ (fractureTest_of_sharp hsharp met)).2,
        fun dull met => (at_ (fractureTest_of_level hlevel hsharp dull met)).2, fun dull above => ?_,
          fun c fractured => ?_⟩
      · obtain ⟨rfl, rfl⟩ := Prod.mk.inj
          (set.trans (evalSet_whole closed kept going (fractureTest_of_neither hlevel hsharp dull above)))
        obtain ⟨open_, maxima, armed, fracture⟩ := evalTail_keeps (o := o) (i := i) (ev := tracked o i ev)
          (evalResume i ev) closed
        exact ⟨rfl, open_.trans opened, fracture, maxima, by rw [armed, armed_tracked_iff]⟩
      · cases test : fractureTest o i (tracked o i ev) with
        | none =>
          obtain ⟨-, rfl⟩ := Prod.mk.inj (set.trans (evalSet_whole closed kept going test))
          cases fractured
        | some d =>
          obtain ⟨steps, rfl⟩ := at_ test
          cases fractured
          obtain ⟨closes, yState, history, prev, fracture, rm, fm, ag, elong⟩ :=
            fractureSteps_fields c opened closed steps
          refine ⟨closes, yState, history, prev, fracture, rm, fm,
            fun f fit => ⟨by rw [ag, fit]; rfl, fun p before => ?_⟩,
            fun unfit => ?_⟩
          · rw [elong, elongationAt, fit, before]
            rfl
          · rw [ag, elong, elongationAt, unfit]
            exact ⟨rfl, rfl⟩
  · have marked := setMark_frame k .fracture force (BitVec.ofNat 32 n) s
    have calm := setMark_fracture_noCause (k := k) (s := s) force (BitVec.ofNat 32 n)
    have mark : Mark.fracture ∈ ((setMark k .fracture force (BitVec.ofNat 32 n) s).slot k).marks := mem_setMark ..
    have still := marked.resident.trans resident
    have slot (j : SlotId) : t.slot j = (setMark k .fracture force (BitVec.ofNat 32 n) s).slot j := by
      rw [report, takeReport_fracture resident, raiseEvent_slot, fractureEnd, raiseCause_slot]
    have frame := takeFracture_frame k n c force fm s
    have changeover : t.ctx.changeover =
        (fractureEnd (setMark k .fracture force (BitVec.ofNat 32 n) s)).ctx.changeover := by
      rw [report, takeReport_fracture resident, raiseEvent_ctx]
    refine ⟨by rwa [slot], report ▸ frame.phase, report ▸ frame.resident,
      fun j other => (slot j).trans (setMark_other other ..), fun operator => ?_, fun old pending other => ?_⟩
    · rw [changeover, fractureEnd_pending still (by rwa [calm.changeover]), calm.changeover]
    · have waits := calm.changeover.trans pending
      rw [changeover, fractureEnd_outranked waits other, waits]

end Sys2Proof.Machine

/-! PROOFS about a quiet set on its way, whatever tare is running (R76, R89), and the start that follows a set with no
request (R17). -/

namespace Sys2Proof.Machine

/-! ### A quiet set through the chain -/

section
variable {x : SampleSet} {conv : Option (BitVec 24)} {s₀ s : State}

@[simp] theorem finishTare_transit (run : TareRun) (s : State) : (finishTare run s).ctx.transit = s.ctx.transit := by
  rcases kind : run.kind with p | _
  · exact (finishTare_port kind s).mark.transit
  · rcases resident : s.residentSlot with _ | k
    · rw [finishTare_alone kind resident]
    · exact (finishTare_start kind resident).transit

@[simp] theorem collectTare_transit (fl : Flight) (s : State) : (collectTare fl s).ctx.transit = s.ctx.transit := by
  unfold collectTare
  split
  · split
    · dsimp only
      split
      · exact finishTare_transit _ s
      · rfl
    · rfl
  · rfl

theorem sequenceSet_quiet_chain (quiet : quietSet x conv s₀ = true) (lch : s.lch = s₀.lch) (w : SetOrder) :
    ChainFrame s (sequenceSet x conv w s).1 :=
  ((loadStep_quiet_chain quiet lch w).trans (overloadCheck_chain _ _)).trans (sequenceSet_way x conv w s).chain

/-- A quiet set keeps no FAULT back. -/
theorem sequenceSet_quiet_kept (quiet : quietSet x conv s₀ = true) (lch : s.lch = s₀.lch) (w : SetOrder)
    (none : NoFaultKept s) : NoFaultKept (sequenceSet x conv w s).1 := by
  have converted := (convertedState_way x conv w s).faultless ((lchConvert_set quiet lch w).kept none)
  have collected : NoFaultKept (collectTare (lchConvert x conv w s).2 (convertedState x conv w s)) := by
    unfold NoFaultKept
    rwa [collectTare_transit]
  exact (sequenceSet_way x conv w s).faultless ((overloadCheck_way _ _).faultless collected)

/-- The set handed on says whether a quiesce was in progress when it arrived (R21). -/
theorem sequenceSet_quiesce (w : SetOrder) (s : State) :
    (sequenceSet x conv w s).2.quiesce = s.ctx.changeover.isSome :=
  lchConvert_quiesce x conv w s

/-- With no context resident no cause is raised on the way of a set (R19). -/
theorem ChainFrame.free {s t : State} (h : ChainFrame s t) (alone : s.ctx.resident = none)
    (free : s.ctx.changeover = none) : t.ctx.changeover = none := by
  rcases h.cause with same | ⟨c, -, cause⟩
  · exact same.trans free
  · exact absurd cause.outgoing (by simp [alone])

theorem runSet_eq (w : SetOrder) (s : State) :
    runSet x conv w s =
      autostartWith (x.tables.frame.getD Frame.blank)
        (drain (fun _ => true) (quiesceSample (sequenceSet x conv w s).2 (sequenceSet x conv w s).1)) := rfl

theorem resident_of_idle {r : Option Context} (fits : residentFits .idle r = true) : r = none := by
  cases r
  · rfl
  · cases fits

/-- In IDLE with no changeover pending, a quiet set leaves the chain to the end of the set. -/
theorem completeSet_quiet_idle (assembling : s.smu.assembling = some x) (quiet : quietSet x conv s = true)
    (kept : NothingKeptBack s) (alone : s.ctx.resident = none) (free : s.ctx.changeover = none) (w : SetOrder) :
    ∃ u t, ChainFrame { s with smu := u } t ∧ t.ctx.changeover = none ∧
      completeSet conv w s = autostartWith (x.tables.frame.getD Frame.blank) t := by
  obtain ⟨u, counted⟩ := countSet_quiet quiet w
  have chain : ChainFrame { s with smu := u } (sequenceSet x conv w { s with smu := u }).1 :=
    sequenceSet_quiet_chain (s := { s with smu := u }) quiet rfl w
  have faultless : NoFaultKept { s with smu := u } := fun kind h => by simp [show s.ctx.transit = [] from kept] at h
  obtain ⟨drained, -⟩ := drain_set (which := fun _ => true)
    (sequenceSet_quiet_kept (s := { s with smu := u }) quiet rfl w faultless)
  have whole := chain.trans drained.chain
  refine ⟨u, drain (fun _ => true) (sequenceSet x conv w { s with smu := u }).1, whole, whole.free alone free, ?_⟩
  have still : (sequenceSet x conv w { s with smu := u }).2.quiesce = false := by
    simp [sequenceSet_quiesce, free]
  rw [completeSet_eq assembling, counted, runSet_eq, quiesceSample_of_motion still]

end

/-! ### The start (R17) -/

section
variable {s t : State} {k : SlotId}

/-- What R16 asks of a test without the extensometer outlasts the chain. -/
theorem ChainFrame.firstUnmet {u : Smu} (h : ChainFrame { s with smu := u } t) (free : t.ctx.changeover = none)
    (plain : (s.slot k).order.usesExt = false) (ready : ∀ i ∈ startItems, itemHolds k s i = true) :
    firstUnmet k startItems t = none := by
  suffices holds : ∀ i ∈ startItems, itemHolds k t i = true from
    List.find?_eq_none.2 fun i listed => by simp [holds i listed]
  intro i listed
  have before := ready i listed
  have flu : t.flu = s.flu := h.flu
  have tables : t.inForce = s.inForce := h.inForce
  have cst : t.cst = s.cst := h.cst
  have phase : t.ctx.phase = s.ctx.phase := h.phase
  have order : (t.slot k).order = (s.slot k).order := h.order k
  cases i
  case changeover => simp [itemHolds, free]
  case extensometer => simp [itemHolds, order, plain]
  case stream | hardLoad => simp [startItems] at listed
  all_goals
    simpa only [itemHolds, phase, calWindowOpen, cst, lineActive, flu, gripsClosed, faultLineActive, State.frame,
      tables]
      using before

end

/-- Settles O51: what R16 asks outlasts the set, so the start test behind it starts the bound slot. -/
theorem autostartBeginsTheTest : Obligations.AutostartBeginsTheTest := by
  intro conv w s x f k power suits kept assembling quiet table auto binding bound plain ready
  have idle : s.ctx.phase = .idle := by simpa [itemHolds] using ready .phase (by simp [startItems])
  have free : s.ctx.changeover = none := by simpa [itemHolds] using ready .changeover (by simp [startItems])
  have alone : s.ctx.resident = none := by
    have fits := suits.resident.1
    rw [idle] at fits
    exact resident_of_idle fits
  obtain ⟨u, t, chain, settled, completed⟩ := completeSet_quiet_idle assembling quiet kept alone free w
  have unmet : firstUnmet k startItems t = none := chain.firstUnmet settled plain ready
  have starts : completeSet conv w s = startTest k t := by
    rw [completed, table]
    have bound' : (t.slot k).state = .bound := (chain.state k).trans bound
    simp [autostartWith, chain.binding, binding, auto, bound', unmet]
  obtain ⟨run, frame, -⟩ := startTest_started k t
  obtain ⟨marks, slot⟩ := startTest_slot_same k t
  refine ⟨startTest k t, ?_, by rw [slot], frame.phase, frame.resident, congrArg Flu.drvEn frame.flu,
    congrArg Lch.lock frame.lch, congrArg Msq.dac frame.msq, ?_, ?_⟩
  · show Host.Outcome.next (powered (setWhere autostarted conv w) s) = _
    simp [powered, power, setWhere, autostarted, binding, bound, starts, slot]
  · rw [frame.live]; rfl
  · rw [frame.live]; rfl

end Sys2Proof.Machine

/-! PROOFS about a FAULT (R23, R167): what taking one leaves of the part and of the test it voids; and about a sample
instant as the run of fault reports it makes (R75, R163 to R168). -/

namespace Sys2Proof.Machine

/-! ### Taking a FAULT (R23) -/

section
variable {k : SlotId} {s : State}

/-- The part as a FAULT leaves it once its test has left, events aside and with the running tare left open. -/
def safed (run : Option TareRun) (s : State) : State :=
  phased .safe run { s with
    msq := restMsq s.msq
    ctx := { s.ctx with resident := some .safe, holder := none, changeover := none } }

theorem faultClears_eq (s : State) :
    ∃ ptu, faultClears s = { s with ctx := { s.ctx with changeover := none }, ptu := ptu } := by
  unfold faultClears
  split
  · exact ⟨_, (supersede_frame _ { s with ctx := { s.ctx with changeover := none } }).rest⟩
  · rename_i none
    exact ⟨s.ptu, by rw [← none]⟩

theorem takeFault_eq (m : Mark) (s : State) :
    ∃ run ptu, takeFault m s = { safed run (faultLeaves m s) with ptu := ptu } := by
  obtain ⟨cleared, clears⟩ := faultClears_eq (faultLeaves m s)
  have safe := (setPhase_frame
    { faultClears (faultLeaves m s) with
      msq := restMsq (faultClears (faultLeaves m s)).msq
      ctx := { (faultClears (faultLeaves m s)).ctx with resident := some .safe, holder := none } } .safe).trans
    (announcePhase_frame _)
  rw [clears] at safe
  unfold takeFault
  dsimp only
  rw [clears]
  cases s.residentSlot with
  | none => exact ⟨_, _, safe.rest⟩
  | some k => exact ⟨_, _, (safe.trans (raiseEvent_frame _ _ _)).rest⟩

/-- Leaving touches neither the calibration store nor the frame line unit. -/
theorem faultLeaves_kept (m : Mark) (s : State) : (faultLeaves m s).cst = s.cst ∧ (faultLeaves m s).flu = s.flu := by
  unfold faultLeaves
  split
  · rename_i k _
    have owed := (offerLast_chain false k s).trans (abandonStartTare_chain false k _)
    rcases live : (abandonStartTare false k (offerLast false k s)).live with _ | l
    · unfold leaveTest
      rw [live]
      exact ⟨owed.cst, owed.flu⟩
    · have left := leaveTest_frame k (some { void := true, cause := .mark m }) _ l live
      exact ⟨left.cst.trans owed.cst, left.flu.trans owed.flu⟩
  · exact ⟨rfl, rfl⟩

/-- The resident test of a FAULT is VOID by its mark, and keeps its marks (R23). -/
theorem faultLeaves_voids (m : Mark) (resident : s.residentSlot = some k) (live : s.live.isSome = true) :
    ((faultLeaves m s).slot k).state = .void ∧
    ((faultLeaves m s).slot k).outcome = some { void := true, cause := .mark m } ∧
    ∀ m' ∈ (s.slot k).marks, m' ∈ ((faultLeaves m s).slot k).marks := by
  have owed := (offerLast_chain false k s).trans (abandonStartTare_chain false k _)
  obtain ⟨l, held⟩ := Option.isSome_iff_exists.1 (owed.live.trans live)
  have left := leaveTest_frame k (some { void := true, cause := .mark m }) _ l held
  have leaves : faultLeaves m s =
      leaveTest k (some { void := true, cause := .mark m }) (abandonStartTare false k (offerLast false k s)) := by
    unfold faultLeaves
    rw [resident]
  have slot := left.slots k
  simp only [leftTest, State.slot_setSlot_same] at slot
  rw [leaves]
  refine ⟨by rw [slot]; rfl, by rw [slot], fun m' mem => left.marks k m' ?_⟩
  simpa only [leftTest, State.slot_setSlot_same] using owed.marks k m' mem

theorem takeFault_ctx (m : Mark) (s : State) :
    (takeFault m s).ctx =
      { (faultLeaves m s).ctx with phase := .safe, resident := some .safe, holder := none, changeover := none } := by
  obtain ⟨run, ptu, taken⟩ := takeFault_eq m s
  rw [taken]
  rfl

theorem takeFault_flu (m : Mark) (s : State) : (takeFault m s).flu = { s.flu with drvEn := false } := by
  obtain ⟨run, ptu, taken⟩ := takeFault_eq m s
  rw [taken, ← (faultLeaves_kept m s).2]
  rfl

theorem takeFault_cst (m : Mark) (s : State) : (takeFault m s).cst = s.cst := by
  obtain ⟨run, ptu, taken⟩ := takeFault_eq m s
  rw [taken, ← (faultLeaves_kept m s).1]
  rfl

theorem takeFault_dac (m : Mark) (s : State) : (takeFault m s).msq.dac = 0 := by
  obtain ⟨run, ptu, taken⟩ := takeFault_eq m s
  rw [taken]
  rfl

theorem takeFault_slot (m : Mark) (s : State) (k : SlotId) : (takeFault m s).slot k = (faultLeaves m s).slot k := by
  obtain ⟨run, ptu, taken⟩ := takeFault_eq m s
  rw [taken]
  rfl

end

/-! ### A fault report (R166, R167) -/

/-- The part with a FAULT of a kind entered and taken: SAFE, the drive off, ALARM on, and the test that was resident
VOID by the mark of the kind (R23, R167, R173, R174). -/
structure Felled (kind : FaultKind) (s t : State) : Prop where
  phase : t.ctx.phase = .safe
  resident : t.ctx.resident = some .safe
  changeover : t.ctx.changeover = none
  drvEn : t.flu.drvEn = false
  alarm : t.flu.alarm = true
  dac : t.msq.dac = 0
  entry : ∃ e, t.flu.faults.head? = some e ∧ e.kind = kind ∧ e.phase = s.ctx.phase ∧ e.voided.map (·.1) = s.residentSlot
  slot : ∀ k, s.residentSlot = some k →
    (t.slot k).state = .void ∧ faultMark kind ∈ (t.slot k).marks ∧
      (t.slot k).outcome = some { void := true, cause := .mark (faultMark kind) }

/-- The part with a FAULT of a kind entered, and its mark set in the test that it will void (R166). -/
def blamed (kind : FaultKind) (s : State) : State :=
  match (faultEntry kind s).voided with
  | some (k, index) => setMark k (faultMark kind) 0 index (enterFault (faultEntry kind s) s)
  | none => enterFault (faultEntry kind s) s

section
variable {kind : FaultKind} {k : SlotId} {s : State}

theorem blamed_frame : MarkFrame (enterFault (faultEntry kind s) s) (blamed kind s) := by
  unfold blamed
  split
  · exact setMark_frame _ _ _ _ _
  · exact .refl _

theorem mem_blamed (resident : s.residentSlot = some k) : faultMark kind ∈ ((blamed kind s).slot k).marks := by
  have voided : (faultEntry kind s).voided = some (k, lastIndex s k 5) := by simp [faultEntry, resident]
  unfold blamed
  rw [voided]
  exact mem_setMark _ _ _ _ _

theorem enterFault_rest (e : FaultEntry) (s : State) :
    EventFrame { s with flu := { s.flu with faults := s.flu.faults ++ [e], alarm := true } } (enterFault e s) :=
  raiseEvent_frame _ _ _

theorem blamed_flu : (blamed kind s).flu =
    { s.flu with faults := s.flu.faults ++ [faultEntry kind s], alarm := true } :=
  blamed_frame.flu.trans (enterFault_rest _ s).mark.flu

theorem blamed_residentSlot : (blamed kind s).residentSlot = s.residentSlot := by
  unfold State.residentSlot
  rw [blamed_frame.resident, (enterFault_rest _ s).ctx]

theorem faultReport_known (known : InFaults kind s) : faultReport kind s = s := by
  obtain ⟨e, mem, same⟩ := List.mem_map.1 known
  exact if_pos (List.any_eq_true.2 ⟨e, mem, by simp [same]⟩)

theorem faultReport_safe (new : ¬InFaults kind s) (safe : s.ctx.phase = .safe) :
    faultReport kind s = enterFault { kind := kind, phase := .safe, voided := none } s := by
  unfold faultReport
  rw [if_neg (by simpa [InFaults] using new), if_pos safe]

theorem faultReport_first (new : ¬InFaults kind s) (phase : s.ctx.phase ≠ .safe) :
    faultReport kind s = takeFault (faultMark kind) (blamed kind s) := by
  unfold faultReport
  rw [if_neg (by simpa [InFaults] using new), if_neg phase]
  rfl

/-- The first report of a part that is not SAFE is entered and taken. -/
theorem faultReport_fells (none : s.flu.faults = []) (phase : s.ctx.phase ≠ .safe)
    (live : ∀ k, s.residentSlot = some k → s.live.isSome = true) : Felled kind s (faultReport kind s) := by
  rw [faultReport_first (by simp [InFaults, none]) phase]
  refine ⟨by rw [takeFault_ctx], by rw [takeFault_ctx], by rw [takeFault_ctx], by rw [takeFault_flu],
    by rw [takeFault_flu, blamed_flu], takeFault_dac _ _, ⟨faultEntry kind s, ?_, rfl, rfl, ?_⟩, fun k resident => ?_⟩
  · rw [takeFault_flu, blamed_flu, none]
    rfl
  · unfold faultEntry
    cases s.residentSlot <;> rfl
  · have held : (blamed kind s).live.isSome = true := by
      rw [blamed_frame.live, (enterFault_rest _ s).mark.live]
      exact live k resident
    obtain ⟨state, outcome, marks⟩ := faultLeaves_voids (faultMark kind) (blamed_residentSlot.trans resident) held
    rw [takeFault_slot]
    exact ⟨state, marks _ (mem_blamed resident), outcome⟩

theorem faultReport_cst : (faultReport kind s).cst = s.cst := by
  by_cases known : InFaults kind s
  · rw [faultReport_known known]
  · by_cases safe : s.ctx.phase = .safe
    · rw [faultReport_safe known safe, (enterFault_rest _ s).mark.cst]
    · rw [faultReport_first known safe, takeFault_cst, blamed_frame.cst, (enterFault_rest _ s).mark.cst]

/-- A report enters its kind behind the entries there are, or changes nothing. -/
theorem faultReport_faults :
    faultReport kind s = s ∨ ∃ e, (faultReport kind s).flu.faults = s.flu.faults ++ [e] := by
  by_cases known : InFaults kind s
  · exact .inl (faultReport_known known)
  · refine .inr ?_
    by_cases safe : s.ctx.phase = .safe
    · rw [faultReport_safe known safe, (enterFault_rest _ s).mark.flu]
      exact ⟨_, rfl⟩
    · rw [faultReport_first known safe, takeFault_flu, blamed_flu]
      exact ⟨_, rfl⟩

end

/-! ### Runs of fault reports -/

/-- One part is another with a fault report taken. -/
def Reports (s t : State) : Prop := ∃ kind, t = faultReport kind s

/-- Fault reports taken one after the other. -/
abbrev ReportRun : State → State → Prop := Relation.ReflTransGen Reports

section
variable {kind : FaultKind} {s t u : State}

theorem ReportRun.report (h : ReportRun s t) : ReportRun s (faultReport kind t) := h.tail ⟨kind, rfl⟩

theorem ReportRun.sensors (h : ReportRun s t) : SensorFrame s t := by
  induction h with
  | refl => exact .refl s
  | tail _ report ih =>
    obtain ⟨kind, rfl⟩ := report
    exact ih.trans (faultReport_sensors kind _).1

theorem ReportRun.xch (h : ReportRun s t) : t.xch = s.xch := by
  induction h with
  | refl => rfl
  | tail _ report ih =>
    obtain ⟨kind, rfl⟩ := report
    exact (faultReport_removal (back := fun _ => True) kind _).xch.trans ih

theorem ReportRun.cst (h : ReportRun s t) : t.cst = s.cst := by
  induction h with
  | refl => rfl
  | tail _ report ih =>
    obtain ⟨kind, rfl⟩ := report
    exact faultReport_cst.trans ih

theorem ReportRun.grows (h : ReportRun s t) : s.flu.faults <+: t.flu.faults := by
  induction h with
  | refl => exact List.prefix_rfl
  | tail _ report ih =>
    obtain ⟨kind, rfl⟩ := report
    rcases faultReport_faults (kind := kind) with same | ⟨e, entered⟩
    · rwa [same]
    · exact ih.trans ⟨_, entered.symm⟩

/-- A run that enters nothing changes nothing. -/
theorem ReportRun.eq_of_faults (h : ReportRun s t) (same : t.flu.faults = s.flu.faults) : t = s := by
  induction h using Relation.ReflTransGen.head_induction_on with
  | refl => rfl
  | head report run ih =>
    obtain ⟨kind, rfl⟩ := report
    rcases faultReport_faults (kind := kind) with stays | ⟨e, entered⟩
    · rw [stays] at ih
      exact ih same
    · have entries := (ReportRun.grows run).length_le
      simp [same, entered] at entries

/-- In SAFE, a run of reports adds entries alone (R167). -/
structure Joined (s t : State) : Prop where
  ctx : t.ctx = s.ctx
  drvEn : t.flu.drvEn = s.flu.drvEn
  msq : t.msq = s.msq
  alarm : s.flu.alarm = true → t.flu.alarm = true

theorem ReportRun.joined (h : ReportRun s t) (safe : s.ctx.phase = .safe) : Joined s t := by
  induction h with
  | refl => exact ⟨rfl, rfl, rfl, id⟩
  | @tail u v _ report ih =>
    obtain ⟨kind, rfl⟩ := report
    by_cases known : InFaults kind u
    · rwa [faultReport_known known]
    · have entered := enterFault_rest { kind := kind, phase := .safe, voided := none } u
      rw [faultReport_safe known (by rw [ih.ctx, safe])]
      refine ⟨entered.ctx.trans ih.ctx, ?_, entered.msq.trans ih.msq, fun _ => ?_⟩
      · rw [entered.mark.flu]
        exact ih.drvEn
      · rw [entered.mark.flu]

/-- What the first report brings outlasts those behind it. -/
theorem Felled.run (h : Felled kind s t) (run : ReportRun t u) : Felled kind s u := by
  have joined := run.joined h.phase
  have slot (k : SlotId) : u.slot k = t.slot k := by unfold State.slot; rw [joined.ctx]
  obtain ⟨e, first, facts⟩ := h.entry
  obtain ⟨l, more⟩ := run.grows
  refine ⟨by rw [joined.ctx, h.phase], by rw [joined.ctx, h.resident], by rw [joined.ctx, h.changeover],
    by rw [joined.drvEn, h.drvEn], joined.alarm h.alarm, by rw [joined.msq, h.dac], ⟨e, ?_, facts⟩,
    fun k resident => by rw [slot]; exact h.slot k resident⟩
  rw [← more, List.head?_append, first]
  rfl

/-- A part that is not SAFE, with the contexts in agreement, holds no FAULT and has its resident test live. -/
theorem ContextsSuit.unfelled (suits : ContextsSuit s) (phase : s.ctx.phase ≠ .safe) :
    s.flu.faults = [] ∧ ∀ k, s.residentSlot = some k → s.live.isSome = true := by
  refine ⟨?_, fun k resident => ?_⟩
  · by_contra some
    exact phase (suits.faults.1.1 some)
  · obtain ⟨fits, -, live⟩ := suits.resident
    rw [live]
    rw [residentSlot_eq_some.1 resident] at fits
    cases ph : s.ctx.phase <;> simp [ph, residentFits] at fits ⊢

/-- With the contexts in agreement and the phase not SAFE, the first report of a run brings what it brings. -/
theorem ReportRun.felled (h : ReportRun s t) (suits : ContextsSuit s) (phase : s.ctx.phase ≠ .safe) :
    t = s ∨ ∃ kind, Felled kind s t := by
  obtain ⟨none, live⟩ := suits.unfelled phase
  rcases h.cases_head with same | ⟨v, ⟨kind, rfl⟩, run⟩
  · exact .inl same.symm
  · exact .inr ⟨kind, (faultReport_fells none phase live).run run⟩

end

/-! ### The reports of an instant (R163, R164) -/

theorem SensorFrame.frame {s t : State} (h : SensorFrame s t) : t.frame = s.frame := by
  unfold State.frame
  rw [h.inForce]

theorem SensorFrame.lineActive {s t : State} (h : SensorFrame s t) (fn : LineFn) :
    lineActive t fn = lineActive s fn := by
  simp only [Machine.lineActive, h.frame, h.lines]

theorem reportLine_run (fn : LineFn) (kind : FaultKind) (before s : State) :
    ReportRun s (reportLine fn kind before s) := by
  unfold reportLine
  split
  · exact ReportRun.report .refl
  · exact .refl

theorem examineGuard_run (s : State) : ReportRun s (examineGuard s) := by
  have report (on : Bool) (kind : FaultKind) (u : State) : ReportRun u (if on then faultReport kind u else u) := by
    split
    · exact ReportRun.report .refl
    · exact .refl
  unfold examineGuard
  split
  · exact (report _ _ s).trans (report _ _ _)
  · exact .refl

/-- With no set waiting, the items of an instant are fault reports. -/
theorem takeItem_run (w : SetOrder) (old : Tables) (before : State) {s : State} (waits : s.smu.assembling = none)
    (i : LineItem) : ReportRun s (takeItem w old before s i) := by
  cases i with
  | estop | limitUp | limitLo | driveFault => exact reportLine_run _ _ _ _
  | examine => exact examineGuard_run s
  | posLost =>
    show ReportRun s (if s.smu.xhErr then faultReport .posLost s else s)
    split
    · exact ReportRun.report .refl
    · exact .refl
  | missed =>
    show ReportRun s (missAmong w old s)
    rw [missAmong_none waits]

/-- Every item of an instant, taken in the order the world gives. -/
def takeItems (w : SetOrder) (old : Tables) (before : State) (items : List LineItem) (s : State) : State :=
  items.foldl (takeItem w old before) s

section
variable {w : SetOrder} {old : Tables} {before s : State}

theorem takeItems_run (waits : s.smu.assembling = none) (items : List LineItem) :
    ReportRun s (takeItems w old before items s) := by
  induction items generalizing s with
  | nil => exact .refl
  | cons i items ih =>
    have first := takeItem_run w old before waits i
    exact first.trans (ih (by rw [first.sensors.smu, waits]))

theorem takeItems_append (a b : List LineItem) :
    takeItems w old before (a ++ b) s = takeItems w old before b (takeItems w old before a s) := List.foldl_append

/-- A kind that an item brings however the part stands is in the fault set behind the items. -/
theorem inFaults_takeItems (waits : s.smu.assembling = none) {i : LineItem} {items : List LineItem} (listed : i ∈ items)
    {kind : FaultKind} (brings : ∀ u, SensorFrame s u → InFaults kind (takeItem w old before u i)) :
    InFaults kind (takeItems w old before items s) := by
  obtain ⟨a, b, rfl⟩ := List.append_of_mem listed
  have ahead := (takeItems_run (w := w) (old := old) (before := before) waits a).sensors
  rw [takeItems_append]
  have here := takeItem_run w old before (ahead.smu ▸ waits) i
  exact (takeItems_run (here.sensors.smu ▸ ahead.smu ▸ waits) b).sensors.faults kind (brings _ ahead)

end

/-! ### The instant (R75) -/

section
variable {levels : BitVec 8} {order items : List LineItem} {w : SetOrder} {s t : State} {k : SlotId}

/-- The part at an instant once the readers have taken up the working copies and the lines are filtered (R101, R159). -/
def sampled (levels : BitVec 8) (s : State) : State := sampleLines levels (takeUp (tickClock s))

/-- The part at an instant with its reports taken (R163, R164). -/
def reported (levels : BitVec 8) (order : List LineItem) (w : SetOrder) (s : State) : State :=
  takeItems w s.inForce (takeUp (tickClock s)) (order ++ allItems) (sampled levels s)

theorem takeInstant_eq (waits : s.smu.assembling = none) :
    takeInstant levels order w s = latchSet (reported levels order w s) := by
  unfold takeInstant
  rw [missFirst_none waits]
  rfl

theorem reported_run (waits : s.smu.assembling = none) : ReportRun (sampled levels s) (reported levels order w s) :=
  takeItems_run (s := sampled levels s) waits _

theorem sampled_suits (suits : ContextsSuit s) : ContextsSuit (sampled levels s) :=
  (((smu_keeps s _).trans (lines_keeps _ _ _)).trans (lines_keeps _ _ _)).suit suits

/-- A fault-class line that becomes active reports, whatever has been taken ahead of it (R163). -/
theorem inFaults_reported_line {item : LineItem} {fn : LineFn} {kind : FaultKind} (waits : s.smu.assembling = none)
    (listed : item ∈ allItems)
    (takes : ∀ u, takeItem w s.inForce (takeUp (tickClock s)) u item = reportLine fn kind (takeUp (tickClock s)) u)
    (was : lineActive (takeUp s) fn = false) (now : lineActive (sampled levels s) fn = true) :
    InFaults kind (reported levels order w s) := by
  refine inFaults_takeItems (s := sampled levels s) waits (List.mem_append_right order listed) fun u ahead => ?_
  have active : (!lineActive (takeUp (tickClock s)) fn && lineActive u fn) = true := by
    rw [ahead.lineActive, now, show lineActive (takeUp (tickClock s)) fn = false from was]
    rfl
  rw [takes, reportLine, if_pos active]
  exact (faultReport_sensors kind u).2

/-- A report named first in the order is the one that voids the resident test (R168). -/
theorem reported_head {item : LineItem} {kind : FaultKind} (suits : ContextsSuit s) (waits : s.smu.assembling = none)
    (test : s.ctx.phase = .test) (first : order.head? = some item)
    (takes : takeItem w s.inForce (takeUp (tickClock s)) (sampled levels s) item =
      faultReport kind (sampled levels s)) :
    Felled kind (sampled levels s) (reported levels order w s) := by
  obtain ⟨rest, rfl⟩ := List.head?_eq_some_iff.1 first
  have phase : (sampled levels s).ctx.phase ≠ .safe := by
    rw [show (sampled levels s).ctx.phase = .test from test]
    decide
  obtain ⟨none, live⟩ := (sampled_suits (levels := levels) suits).unfelled phase
  have taken : reported levels (item :: rest) w s =
      takeItems w s.inForce (takeUp (tickClock s)) (rest ++ allItems) (faultReport kind (sampled levels s)) := by
    rw [← takes]
    rfl
  rw [taken]
  have waits' : (faultReport kind (sampled levels s)).smu.assembling = Option.none := by
    rw [(faultReport_sensors _ _).1.smu]
    exact waits
  exact (faultReport_fells none phase live).run (takeItems_run waits' _)

/-- Where no line and no crosshead error reports, the guard and the grips are examined on the part as it was sampled. -/
theorem reported_examined (waits : s.smu.assembling = none) (error : s.smu.xhErr = false)
    (calm : ∀ fn ∈ [LineFn.estop, .limitUp, .limitLo, .driveFault],
      lineActive (takeUp s) fn = false → lineActive (sampled levels s) fn = false) :
    ReportRun (examineGuard (sampled levels s)) (reported levels order w s) := by
  have idle (i : LineItem) (other : i ≠ .examine) :
      takeItem w s.inForce (takeUp (tickClock s)) (sampled levels s) i = sampled levels s := by
    have line (fn : LineFn) (kind : FaultKind) (listed : fn ∈ [LineFn.estop, .limitUp, .limitLo, .driveFault]) :
        reportLine fn kind (takeUp (tickClock s)) (sampled levels s) = sampled levels s := by
      refine if_neg fun active => ?_
      rw [Bool.and_eq_true, Bool.not_eq_true'] at active
      exact absurd (active.2.symm.trans (calm fn listed active.1)) (by decide)
    cases i with
    | examine => exact absurd rfl other
    | posLost => exact if_neg (by rw [show (sampled levels s).smu.xhErr = false from error]; decide)
    | missed => exact missAmong_none waits
    | estop | limitUp | limitLo | driveFault => exact line _ _ (by simp)
  obtain ⟨a, b, split, fresh⟩ := List.eq_append_cons_of_mem
    (List.mem_append_right order (show LineItem.examine ∈ allItems by simp [allItems]))
  have ahead : takeItems w s.inForce (takeUp (tickClock s)) a (sampled levels s) = sampled levels s :=
    List.foldlRecOn a _ (motive := (· = sampled levels s)) rfl fun u same i mem =>
      same ▸ idle i fun x => fresh (x ▸ mem)
  unfold reported
  rw [split, takeItems_append, ahead]
  exact takeItems_run (s := examineGuard (sampled levels s))
    (by rw [(examineGuard_sensors _).smu]; exact waits) b

end

/-! ### The examination of the guard and the grips (R164) -/

section
variable {s : State} (test : s.ctx.phase = .test)
include test

theorem examineGuard_test :
    examineGuard s =
      (if gripsClosed s = false then faultReport .gripLost else id)
        ((if lineActive s .guard = false then faultReport .guardOpen else id) s) := by
  unfold examineGuard
  rw [if_pos test]
  cases lineActive s .guard <;> cases gripsClosed s <;> rfl

theorem inFaults_examineGuard :
    (lineActive s .guard = false → InFaults .guardOpen (examineGuard s)) ∧
    (gripsClosed s = false → InFaults .gripLost (examineGuard s)) := by
  rw [examineGuard_test test]
  refine ⟨fun opened => ?_, fun opened => ?_⟩
  · rw [if_pos opened]
    have guard := (faultReport_sensors .guardOpen s).2
    split
    · exact (faultReport_sensors .gripLost _).1.faults _ guard
    · exact guard
  · rw [if_pos opened]
    exact (faultReport_sensors .gripLost _).2

/-- The end cause is GUARDOPEN where the guard is open, and GRIPLOST where the grips alone are (R164). -/
theorem examineGuard_fells (suits : ContextsSuit s) :
    (lineActive s .guard = false → Felled .guardOpen s (examineGuard s)) ∧
    (lineActive s .guard = true → gripsClosed s = false → Felled .gripLost s (examineGuard s)) := by
  obtain ⟨none, live⟩ := suits.unfelled (test ▸ by decide)
  have fells (kind : FaultKind) := faultReport_fells (kind := kind) none (test ▸ by decide) live
  rw [examineGuard_test test]
  refine ⟨fun opened => ?_, fun closed opened => ?_⟩
  · rw [if_pos opened]
    split
    · exact (fells .guardOpen).run (ReportRun.report .refl)
    · exact fells .guardOpen
  · rw [if_pos opened, if_neg (by simp [closed])]
    exact fells .gripLost

end

theorem ContextsSuit.test_of_resident {s : State} {k : SlotId} (suits : ContextsSuit s)
    (resident : s.ctx.resident = some (.test k)) : s.ctx.phase = .test := by
  have fits := suits.resident.1
  rw [resident] at fits
  cases phase : s.ctx.phase <;> simp [phase, residentFits] at fits ⊢

theorem ContextsSuit.safe_resident {s : State} (suits : ContextsSuit s) (safe : s.ctx.phase = .safe) :
    s.ctx.resident = some .safe := by
  have fits := suits.resident.1
  rw [safe] at fits
  rcases resident : s.ctx.resident with _ | (k | _ | _) <;> simp [resident, residentFits] at fits ⊢

/-- Settles O38: the reports of the instant are a run of fault reports, and the first of a run is the one
that counts. -/
theorem anInstantLatchesASet : Obligations.AnInstantLatchesASet := by
  intro levels order w s power waits
  have run := reported_run (levels := levels) (order := order) (w := w) waits
  have sensors := run.sensors
  have lines (fn : LineFn) :
      lineActive (latchSet (reported levels order w s)) fn = lineActive (sampled levels s) fn := sensors.lineActive fn
  have grips : gripsClosed (latchSet (reported levels order w s)) = gripsClosed (sampled levels s) := by
    simp only [gripsClosed, lines]
  have flu : (reported levels order w s).flu.lines = (sampled levels s).flu.lines := sensors.lines
  have cst : (reported levels order w s).cst = s.cst := run.cst
  have inForce : (reported levels order w s).inForce = s.cst.work := sensors.inForce
  have smu : (reported levels order w s).smu = (sampled levels s).smu := sensors.smu
  have range : (reported levels order w s).lch.range = s.lch.range := by rw [sensors.lch]; rfl
  have settle : (reported levels order w s).lch.settleNext = s.lch.settleNext := by rw [sensors.lch]; rfl
  refine ⟨latchSet (reported levels order w s), ?_, inForce, cst, run.xch, flu, ?_, range, range, rfl, fun error => ?_,
    fun same => ?_, fun item fn kind mark listed was now => ?_, fun test error calm => ?_, fun suits follows new => ?_⟩
  · rw [exec_sampleInstant levels order w power, takeInstant_eq waits]
  · rw [lines .extSeated]
    simp only [latchSet, smu, range, settle, inForce, cst, sensors.lineActive]
    rfl
  · refine inFaults_takeItems (s := sampled levels s) waits
      (List.mem_append_right order (show LineItem.posLost ∈ allItems by simp [allItems])) fun u ahead => ?_
    have taken : takeItem w s.inForce (takeUp (tickClock s)) u .posLost = faultReport .posLost u :=
      if_pos (by rw [ahead.smu]; exact error)
    rw [taken]
    exact (faultReport_sensors .posLost u).2
  · rw [run.eq_of_faults same]
    rfl
  · rw [lines] at now
    have takes : item ∈ allItems ∧
        (∀ u, takeItem w s.inForce (takeUp (tickClock s)) u item = reportLine fn kind (takeUp (tickClock s)) u) ∧
        faultMark kind = mark := by
      simp only [List.mem_cons, Prod.mk.injEq, List.not_mem_nil, or_false] at listed
      rcases listed with ⟨rfl, rfl, rfl, rfl⟩ | ⟨rfl, rfl, rfl, rfl⟩ | ⟨rfl, rfl, rfl, rfl⟩ | ⟨rfl, rfl, rfl, rfl⟩ <;>
        exact ⟨by simp [allItems], fun _ => rfl, rfl⟩
    obtain ⟨known, takes, rfl⟩ := takes
    refine ⟨inFaults_reported_line waits known takes was now, fun suits first k resident => ?_⟩
    have reports : takeItem w s.inForce (takeUp (tickClock s)) (sampled levels s) item =
        faultReport kind (sampled levels s) := by
      rw [takes]
      exact if_pos (by rw [now, show lineActive (takeUp (tickClock s)) fn = false from was]; rfl)
    have felled := reported_head (levels := levels) suits waits (suits.test_of_resident resident) first reports
    exact (felled.slot k (residentSlot_eq_some.2 resident)).2
  · have examined := reported_examined (levels := levels) (order := order) (w := w) waits error
      fun fn listed was => (lines fn).symm.trans (calm fn listed was)
    have test' : (sampled levels s).ctx.phase = .test := test
    obtain ⟨guard, grip⟩ := inFaults_examineGuard test'
    rw [lines, grips]
    refine ⟨fun opened => examined.sensors.faults _ (guard opened),
      fun opened => examined.sensors.faults _ (grip opened),
      fun suits k resident => ?_⟩
    obtain ⟨open_, lost⟩ := examineGuard_fells test' (sampled_suits suits)
    have slot := residentSlot_eq_some (s := sampled levels s) |>.2 resident
    exact ⟨fun opened => (((open_ opened).run examined).slot k slot).2.2,
      fun closed opened => (((lost closed opened).run examined).slot k slot).2.2⟩
  · by_cases safe : s.ctx.phase = .safe
    · have joined := run.joined safe
      have ctx : (reported levels order w s).ctx = s.ctx := joined.ctx
      have resident := suits.safe_resident safe
      have alarm : s.flu.alarm = true := by
        rw [follows.2]
        simpa using suits.faults.1.2 safe
      refine ⟨by rw [latchSet_ctx, ctx, safe], by rw [latchSet_ctx, ctx, resident], ?_, joined.alarm alarm,
        fun k test => absurd (resident.symm.trans test) (by simp)⟩
      rw [latchSet_flu, joined.drvEn]
      show s.flu.drvEn = false
      rw [follows.1, safe]
      rfl
    · rcases run.felled (sampled_suits suits) safe with same | ⟨kind, felled⟩
      · exact absurd (by rw [latchSet_flu, same]; rfl) new
      · refine ⟨felled.phase, felled.resident, felled.drvEn, felled.alarm, fun k resident => ?_⟩
        have slot := residentSlot_eq_some (s := sampled levels s) |>.2 resident
        obtain ⟨state, mark, outcome⟩ := felled.slot k slot
        obtain ⟨e, first, rfl, phase, voided⟩ := felled.entry
        exact ⟨state, e, first, phase.trans (suits.test_of_resident resident), voided.trans slot, mark, outcome⟩

end Sys2Proof.Machine

/-! PROOFS about a set on its way, as the causes it can raise: each block offers records, sets marks and raises causes
between plain updates, so a pending changeover keeps its elapsed count, and one that no mark can replace stands (R19,
R21). -/

namespace Sys2Proof.Machine

/-! ### A pending changeover keeps its elapsed count (R19) -/

/-- A pending changeover stays pending, or is replaced by one that goes on with its elapsed count. -/
def Elapses (s t : State) : Prop :=
  ∀ c, s.ctx.changeover = some c → ∃ d, t.ctx.changeover = some d ∧ d.elapsed = c.elapsed

section
variable {s t u : State}

theorem Elapses.of_same (same : t.ctx.changeover = s.ctx.changeover) : Elapses s t :=
  fun c pending => ⟨c, same.trans pending, rfl⟩

theorem Elapses.trans (h : Elapses s t) (g : Elapses t u) : Elapses s u := by
  intro c pending
  obtain ⟨d, now, same⟩ := h c pending
  obtain ⟨e, later, again⟩ := g d now
  exact ⟨e, later, again.trans same⟩

theorem raiseCause_elapses (cause : Cause) (r : Requester) (i : Option Context) (e : Option EndCause) (s : State) :
    Elapses s (raiseCause cause r i e s) := by
  intro c pending
  rcases resident : s.ctx.resident with _ | out
  · rw [raiseCause_refused _ _ _ _ _ (.inl resident)]
    exact ⟨c, pending, rfl⟩
  · rcases lt_or_ge (causeRank c.cause) (causeRank cause) with higher | lower
    · rw [(raiseCause_replaces _ r i e resident pending higher).ctx]
      exact ⟨_, rfl, rfl⟩
    · rw [raiseCause_outranked _ _ _ _ pending lower]
      exact ⟨c, pending, rfl⟩

theorem raiseMarkCause_elapses (k : SlotId) (m : Mark) (s : State) : Elapses s (raiseMarkCause k m s) := by
  unfold raiseMarkCause
  split
  · split
    · split
      · exact .of_same rfl
      · exact raiseCause_elapses _ _ _ _ s
    · exact raiseCause_elapses _ _ _ _ s
    all_goals exact .of_same rfl
  · exact .of_same rfl

theorem reportGap_elapses (raises : Bool) (k : SlotId) (n : BitVec 32) (s : State) :
    Elapses s (reportGap raises k n s) := by
  have added := (addMark_noCause k .gap s).changeover
  have offered := added.symm ▸ (offerRaw_frame (Offer.one false (eventRecord .markSet n k (markNumber .gap) 0) n)
    (addMark k .gap s)).noCause.changeover
  unfold reportGap
  split
  · exact .of_same rfl
  · dsimp only
    split
    · split
      · exact Elapses.trans (.of_same offered) (raiseMarkCause_elapses _ _ _)
      · exact .of_same offered
    · exact .of_same added

theorem offer_elapses (raises : Bool) (o : Offer) (k : SlotId) (s : State) : Elapses s (offer raises o k s) := by
  have raw : Elapses s (offerRaw o s).1 := .of_same (offerRaw_frame o s).noCause.changeover
  unfold offer
  dsimp only
  split
  · exact raw
  · exact raw.trans (reportGap_elapses _ _ _ _)

theorem setMark_elapses (k : SlotId) (m : Mark) (v : Int) (n : BitVec 32) (s : State) :
    Elapses s (setMark k m v n s) := by
  have added : Elapses s (addMark k m s) := .of_same (addMark_noCause k m s).changeover
  unfold setMark
  split
  · exact .of_same rfl
  · dsimp only
    split
    · exact (added.trans (offer_elapses _ _ _ _)).trans (raiseMarkCause_elapses _ _ _)
    · exact added

end

/-! ### The touches of a block -/

/-- What a sample leaves of the runtime part while a quiesce is in progress: its count, its program's progress, and its
evaluation (R2, R40, R129). -/
def Live.tally (l : Live) : Nat × (Nat × Nat) × Eval := (l.rt.count, l.progress, l.rt.eval)

/-- The counts and the bank that a saved runtime part goes on with (R29, R52). -/
def Runtime.course (rt : Runtime) : Nat × Nat × Nat × Option Bank := (rt.count, rt.elapsed, rt.segIndex, rt.active)

/-- A report that a sample makes: a mark other than ABORTED, or a fracture where one is possible. -/
def Sampled (fractures : Prop) : Report → Prop
  | .mark _ m _ _ => m ≠ .aborted
  | .fracture .. => fractures
  | .fault _ => False

variable {fractures : Prop}

/-- An update that raises no cause; reports that it keeps back are those of a sample of the resident test. -/
structure Plain (fractures : Prop) (s t : State) : Prop where
  resident : t.ctx.resident = s.ctx.resident
  changeover : t.ctx.changeover = s.ctx.changeover
  still : t.msq.stillCount = s.msq.stillCount
  state : ∀ k, (t.slot k).state = (s.slot k).state
  order : ∀ k, (t.slot k).order = (s.slot k).order
  saved : ∀ k, (t.slot k).runtime.map Runtime.course = (s.slot k).runtime.map Runtime.course
  tally : t.live.map Live.tally = s.live.map Live.tally
  transit : ∀ r ∈ t.ctx.transit, r ∈ s.ctx.transit ∨ (s.residentSlot.isSome = true ∧ Sampled fractures r)

/-- One thing that a block does with a set. -/
inductive Touch (fractures : Prop) : State → State → Prop
  | plain {s t : State} : Plain fractures s t → Touch fractures s t
  | offered (raises : Bool) (o : Offer) (k : SlotId) (s : State) : Touch fractures s (offer raises o k s)
  | marked (k : SlotId) {m : Mark} (v : Int) (n : BitVec 32) (s : State) :
      m ≠ .aborted → Touch fractures s (setMark k m v n s)
  | ended (k : SlotId) (s : State) : fractures → s.ctx.resident = some (.test k) →
      Touch fractures s (raiseCause .endTest .internal none (some (.mark .fracture)) s)
  | examined (s : State) : Touch fractures s (examineResumed s)

/-- What the blocks do with a set, one thing after the other. -/
abbrev Touches (fractures : Prop) : State → State → Prop := Relation.ReflTransGen (Touch fractures)

section
variable {s t : State} {c : Changeover}

/-- The touches that are no plain update add marks and raise causes. -/
theorem Touch.frame (h : Touch fractures s t) : Plain fractures s t ∨ MarkFrame s t := by
  cases h with
  | plain h => exact .inl h
  | offered => exact .inr (offer_frame _ _ _ _)
  | marked => exact .inr (setMark_frame _ _ _ _ _)
  | examined => exact .inr (examineResumed_frame _)
  | ended k _ _ resident =>
    exact .inr (raiseCause_frame _ _ _ _ _ k (.inr resident) (.inl ⟨by decide, rfl, rfl⟩))

/-- What every touch leaves. -/
structure Touched (fractures : Prop) (s t : State) : Prop where
  resident : t.ctx.resident = s.ctx.resident
  state : ∀ k, (t.slot k).state = (s.slot k).state
  order : ∀ k, (t.slot k).order = (s.slot k).order
  saved : ∀ k, (t.slot k).runtime.map Runtime.course = (s.slot k).runtime.map Runtime.course
  tally : t.live.map Live.tally = s.live.map Live.tally
  transit : ∀ r ∈ t.ctx.transit, r ∈ s.ctx.transit ∨ (s.residentSlot.isSome = true ∧ Sampled fractures r)

theorem Touch.touched (h : Touch fractures s t) : Touched fractures s t := by
  rcases h.frame with plain | frame
  · exact { plain with }
  · exact ⟨frame.resident, frame.state, frame.order, fun k => by rw [frame.runtime], by rw [frame.live],
      fun r mem => .inl (frame.transit ▸ mem)⟩

theorem residentSlot_congr (resident : t.ctx.resident = s.ctx.resident) : t.residentSlot = s.residentSlot := by
  unfold State.residentSlot
  rw [resident]

theorem Touched.refl (s : State) : Touched fractures s s :=
  ⟨rfl, fun _ => rfl, fun _ => rfl, fun _ => rfl, rfl, fun _ => .inl⟩

theorem Touched.trans {u : State} (h : Touched fractures s t) (g : Touched fractures t u) : Touched fractures s u := by
  refine ⟨g.resident.trans h.resident, fun k => (g.state k).trans (h.state k), fun k => (g.order k).trans (h.order k),
    fun k => (g.saved k).trans (h.saved k), g.tally.trans h.tally, fun r mem => ?_⟩
  rcases g.transit r mem with before | made
  · exact h.transit r before
  · rw [residentSlot_congr h.resident] at made
    exact .inr made

theorem Touches.touched (h : Touches fractures s t) : Touched fractures s t := by
  induction h with
  | refl => exact .refl s
  | tail _ touch ih => exact ih.trans touch.touched

theorem examineResumed_elapses (s : State) : Elapses s (examineResumed s) := by
  unfold examineResumed
  split
  · split
    · split
      · exact raiseCause_elapses _ _ _ _ s
      · exact .of_same rfl
    · exact .of_same rfl
  · exact .of_same rfl

/-- A pending changeover keeps its elapsed count, replaced or not. -/
theorem Touches.elapses (h : Touches fractures s t) : Elapses s t := by
  induction h with
  | refl => exact .of_same rfl
  | tail _ touch ih =>
    refine ih.trans ?_
    cases touch with
    | plain h => exact .of_same h.changeover
    | offered => exact offer_elapses _ _ _ _
    | marked => exact setMark_elapses _ _ _ _ _
    | ended => exact raiseCause_elapses _ _ _ _ _
    | examined => exact examineResumed_elapses _

/-- With the stop enables off, the first resumed sample ends nothing (R29). -/
theorem resumedCause_noStops {o : TestOrder} (off : NoStops o) (marks : List Mark) : resumedCause o marks = none := by
  refine List.find?_eq_none.2 fun m listed => ?_
  have calm : stopEnabled o m = false := by
    refine stopEnabled_noStops off ?_ ?_ <;>
    · simp only [resumeMarks, List.mem_cons, List.not_mem_nil, or_false] at listed
      rcases listed with rfl | rfl | rfl | rfl <;> decide
  simp [calm]

theorem Firm.examineResumed (h : Firm c s) (resident : ∀ k, s.residentSlot = some k → (s.slot k).state = .resident) :
    Machine.examineResumed s = s := by
  unfold Machine.examineResumed
  split
  · rename_i k l slot _
    split
    · split
      · rename_i m found
        rcases h.calm k (resident k slot) with ends | off
        · exact h.raiseCause (ends ▸ le_rfl) ..
        · exact absurd (found.symm.trans (resumedCause_noStops off _)) (by simp)
      · rfl
    · rfl
  · rfl

/-- A changeover that no mark can replace stands, and its still-count, where no fracture outranks it. -/
theorem Touch.stands (h : Touch fractures s t) (firm : Firm c s) (rank : fractures → c.cause ≠ .operator)
    (resident : ∀ k, s.residentSlot = some k → (s.slot k).state = .resident) : Stands c s t := by
  cases h with
  | plain h =>
    refine ⟨⟨h.changeover.trans firm.pending, fun k held => ?_⟩, h.still⟩
    rw [h.order]
    exact firm.calm k (by rwa [← h.state])
  | offered => exact firm.offer _ _ _
  | marked _ _ _ _ other => exact firm.setMark _ _ _ (.inr other)
  | examined =>
    rw [firm.examineResumed resident]
    exact .refl firm
  | ended k _ possible _ =>
    have below : causeRank .endTest ≤ causeRank c.cause := by
      have ends := rank possible
      cases cause : c.cause with
      | operator => exact absurd cause ends
      | endTest | terminate => decide
    rw [firm.raiseCause below]
    exact .refl firm

theorem Touches.stands (h : Touches fractures s t) (firm : Firm c s) (rank : fractures → c.cause ≠ .operator)
    (resident : ∀ k, s.residentSlot = some k → (s.slot k).state = .resident) : Stands c s t := by
  induction h with
  | refl => exact .refl firm
  | tail before touch ih =>
    have touched := Touches.touched before
    refine ih.trans (touch.stands ih.firm rank fun k slot => ?_)
    rw [touched.state]
    exact resident k (residentSlot_congr touched.resident ▸ slot)

end

end Sys2Proof.Machine

/-! PROOFS about the touches of each block of the chain (R113, R129, R149, 3.2): the load channel, the extension
channel, the evaluation unit and the motion sequencer, a set after a set of the chain. -/

namespace Sys2Proof.Machine

variable {fractures : Prop}

/-! ### Plain updates -/

section
variable {s t : State}

theorem Plain.touches (h : Plain fractures s t) : Touches fractures s t := .single (.plain h)

theorem EventFrame.touches (h : EventFrame s t) : Touches fractures s t :=
  Plain.touches ⟨h.mark.resident, by rw [h.ctx], by rw [h.msq], h.mark.state, h.mark.order,
    fun k => by rw [h.mark.runtime], by rw [h.mark.live],
    fun r mem => .inl (by rwa [h.ctx] at mem)⟩

variable (s)

theorem touches_smu (u : Smu) : Touches fractures s { s with smu := u } :=
  Plain.touches ⟨rfl, rfl, rfl, fun _ => rfl, fun _ => rfl, fun _ => rfl, rfl, fun _ => .inl⟩

theorem touches_lch (l : Lch) : Touches fractures s { s with lch := l } :=
  Plain.touches ⟨rfl, rfl, rfl, fun _ => rfl, fun _ => rfl, fun _ => rfl, rfl, fun _ => .inl⟩

theorem touches_xch (x : Xch) : Touches fractures s { s with xch := x } :=
  Plain.touches ⟨rfl, rfl, rfl, fun _ => rfl, fun _ => rfl, fun _ => rfl, rfl, fun _ => .inl⟩

theorem touches_msq {m : Msq} (still : m.stillCount = s.msq.stillCount) : Touches fractures s { s with msq := m } :=
  Plain.touches ⟨rfl, rfl, still, fun _ => rfl, fun _ => rfl, fun _ => rfl, rfl, fun _ => .inl⟩

theorem touches_liveMap {f : Live → Live} (same : ∀ l, (f l).tally = l.tally) :
    Touches fractures s { s with live := s.live.map f } :=
  Plain.touches ⟨rfl, rfl, rfl, fun _ => rfl, fun _ => rfl, fun _ => rfl, by
    cases s.live with
    | none => rfl
    | some l => exact congrArg some (same l), fun _ => .inl⟩

variable {s}

theorem touches_live {l l' : Live} (live : s.live = some l) (same : l'.tally = l.tally) :
    Touches fractures s { s with live := some l' } :=
  Plain.touches ⟨rfl, rfl, rfl, fun _ => rfl, fun _ => rfl, fun _ => rfl, by rw [live]; exact congrArg some same,
    fun _ => .inl⟩

theorem setMark_touches (k : SlotId) {m : Mark} (v : Int) (n : BitVec 32) (s : State) (other : m ≠ .aborted) :
    Touches fractures s (setMark k m v n s) := .single (.marked k v n s other)

theorem offer_touches (raises : Bool) (o : Offer) (k : SlotId) (s : State) : Touches fractures s (offer raises o k s) :=
  .single (.offered raises o k s)

theorem offerEvent_touches (e : RecordEvent) (n : BitVec 32) (k : SlotId) (sub : Nat) (v : Int) (s : State) :
    Touches fractures s (offerEvent e n k sub v s) := offer_touches _ _ _ _

/-- Only a report of the resident test is kept back. -/
theorem keep_touches {r : Report} (resident : s.residentSlot.isSome = true) (sampled : Sampled fractures r) :
    Touches fractures s { s with ctx := { s.ctx with transit := s.ctx.transit ++ [r] } } :=
  Plain.touches ⟨rfl, rfl, rfl, fun _ => rfl, fun _ => rfl, fun _ => rfl, rfl, fun q mem => by
    rcases List.mem_append.1 mem with before | made
    · exact .inl before
    · exact .inr ⟨resident, List.mem_singleton.1 made ▸ sampled⟩⟩

theorem takeFracture_touches {k : SlotId} {n : Nat} {c : Criterion} {f fm : Int} (possible : fractures) (s : State) :
    Touches fractures s (takeReport s (.fracture k n c f fm)) := by
  have marked : Touches fractures s (setMark k .fracture f (BitVec.ofNat 32 n) s) := setMark_touches _ _ _ _ (by decide)
  unfold takeReport
  dsimp only
  split
  · rename_i resident
    exact (marked.tail (.ended k _ possible resident)).trans (raiseEvent_frame _ _ _).touches
  · exact marked.trans (raiseEvent_frame _ _ _).touches

theorem takeReport_touches {r : Report} (sampled : Sampled fractures r) (s : State) :
    Touches fractures s (takeReport s r) := by
  cases r with
  | mark => exact setMark_touches _ _ _ _ sampled
  | fracture => exact takeFracture_touches sampled s
  | fault => exact sampled.elim

theorem post_touches {keep : Bool} {r : Report} (sampled : Sampled fractures r)
    (resident : keep = true → s.residentSlot.isSome = true) : Touches fractures s (post keep r s) := by
  unfold post
  split
  · exact keep_touches (resident ‹_›) sampled
  · exact takeReport_touches sampled s

/-- A mark of a sample of the resident test. -/
theorem post_mark_touches {keep : Bool} {k : SlotId} {m : Mark} {v : Int} {n : BitVec 32} (other : m ≠ .aborted)
    {j : SlotId} (resident : s.residentSlot = some j) : Touches fractures s (post keep (.mark k m v n) s) :=
  post_touches (r := .mark k m v n) other fun _ => by rw [resident]; rfl

end

/-! ### The load channel -/

section
variable (fl : Flight) (s : State)

theorem settleMark_touches : Touches fractures s (settleMark fl s) := by
  unfold settleMark
  split
  · split
    · exact post_mark_touches (by decide) ‹_›
    · exact .refl
  · exact .refl

theorem overloadCheck_touches : Touches fractures s (overloadCheck fl s) := by
  unfold overloadCheck
  split
  · split
    · exact post_mark_touches (by decide) ‹_›
    · exact .refl
  · exact .refl

theorem finishTare_eq_start {run : TareRun} {k : SlotId} {s : State} (kind : run.kind = .start)
    (resident : s.residentSlot = some k) :
    finishTare run s =
      offerEvent .tare (BitVec.ofNat 32 (setIndex s)) k 1 (taredLch run s.lch).tare
        (raiseEvent none (.tareDone (taredLch run s.lch).tare (some k))
          { s with lch := taredLch run s.lch, live := s.live.map taredLive }) := by
  have slot : State.residentSlot { s with lch := taredLch run s.lch } = some k := resident
  unfold finishTare
  rw [kind]
  dsimp only
  split
  · rename_i h
    cases h
  · rename_i j _ held
    cases slot.symm.trans held
    rfl
  · rename_i none
    exact absurd (slot.symm.trans none) (by simp)

theorem finishTare_touches (run : TareRun) : Touches fractures s (finishTare run s) := by
  have tared : Touches fractures s { s with lch := taredLch run s.lch } := touches_lch s _
  rcases kind : run.kind with p | _
  · exact tared.trans (finishTare_port kind s).touches
  · rcases resident : s.residentSlot with _ | k
    · rw [finishTare_alone kind resident]
      exact tared
    · have done : Touches fractures { s with lch := taredLch run s.lch }
          { s with lch := taredLch run s.lch, live := s.live.map taredLive } := touches_liveMap _ fun _ => rfl
      rw [finishTare_eq_start kind resident]
      exact ((tared.trans done).trans (raiseEvent_frame _ _ _).touches).trans (offerEvent_touches _ _ _ _ _ _)

theorem collectTare_touches : Touches fractures s (collectTare fl s) := by
  unfold collectTare
  split
  · split
    · dsimp only
      split
      · exact finishTare_touches s _
      · exact touches_lch s _
    · exact .refl
  · exact .refl

theorem lchConvert_touches {x : SampleSet} {conv : Option (BitVec 24)} {s₀ : State}
    (quiet : quietSet x conv s₀ = true) (lch : s.lch = s₀.lch) (w : SetOrder) :
    Touches fractures s (lchConvert x conv w s).1 := by
  unfold lchConvert
  dsimp only
  split
  · rename_i code settling
    have calm : (hardAt x.tables x.range (code24 code) && !s.lch.hard) = false := by
      rw [lch]
      simpa [quietSet, settling, or_comm, imp_iff_not_or] using quiet
    dsimp only
    split
    · rename_i reports
      exact absurd (calm.symm.trans reports) (by decide)
    · exact touches_lch s _
  · exact .refl

end

/-! ### The extension channel -/

section
variable (fl : Flight) (s : State)

theorem removalTimedOut_touches : Touches fractures s (removalTimedOut fl s) := by
  unfold removalTimedOut
  split
  · refine post_touches (r := .mark _ .rmfail _ _) (show Mark.rmfail ≠ .aborted by decide) fun kept => ?_
    have resident := (of_decide_eq_true kept).1
    rw [resident]
    rfl
  · exact .refl

theorem announceDetached_touches (left : ChannelState) (owner : Option SlotId) (value : Int) :
    Touches fractures s (announceDetached left owner value s) := by
  unfold announceDetached
  dsimp only
  split
  · exact (raiseEvent_frame _ _ _).touches.trans (offerEvent_touches _ _ _ _ _ _)
  · exact (raiseEvent_frame _ _ _).touches

theorem releasingStep_touches : Touches fractures s (releasingStep fl s) := by
  unfold releasingStep
  dsimp only
  split
  · split
    · split
      · exact (touches_xch s _).trans (removalTimedOut_touches _ _)
      · exact touches_xch s _
    · exact .refl
  · exact (touches_xch s _).trans (announceDetached_touches _ _ _ _)

theorem channelStep_touches : Touches fractures s (channelStep fl s).1 := by
  unfold channelStep
  split
  · split
    · exact touches_xch s _
    · exact .refl
  · split
    · exact touches_xch s _
    · exact (touches_xch s _).trans (announceDetached_touches _ _ _ _)
  · split
    · exact .refl
    · exact (touches_xch s _).trans (announceDetached_touches _ _ _ _)
  · exact releasingStep_touches fl s

theorem lanesStep_touches (captured : Bool) : Touches fractures s (lanesStep fl captured s).1 := by
  unfold lanesStep
  dsimp only
  split
  · split
    · exact touches_xch s _
    · exact touches_xch s _
  · exact touches_xch s _

theorem handover_touches (k : SlotId) (c : HandoverCause) (v ex : Int) : Touches fractures s (handover k c v ex s) := by
  have handed : Touches fractures s { s with
      live := s.live.map fun l => { l with rt := { l.rt with source := .xhd, offset := some (sat32 (v - ex)) } } } :=
    touches_liveMap s fun _ => rfl
  unfold handover
  dsimp only
  exact (handed.trans (raiseEvent_frame _ _ _).touches).trans (offerEvent_touches _ _ _ _ _ _)

theorem slipStep_touches (f : LaneFacts) (ex : Int) : Touches fractures s (slipStep fl f ex s) := by
  have slipped : Touches fractures s (if f.bad then setSlipped s else s) := by
    split
    · exact touches_xch s _
    · exact .refl
  unfold slipStep
  split
  · rename_i k l resident live
    dsimp only
    split
    · split
      · exact .refl
      · have handed : Touches fractures s
            (handover k .slip (extStrain (s.xch.lastGood.getD 0) (s.slot k).order.l0) ex (setSlipped s)) :=
          (touches_xch s _).trans (handover_touches _ _ _ _ _)
        exact handed.trans
          (post_mark_touches (by decide) ((residentSlot_congr handed.touched.resident).trans resident))
    · exact slipped.trans (handover_touches _ _ _ _ _)
    · exact slipped
  · exact slipped

theorem beginRemoval_touches (k : SlotId) (e ex : Int) : Touches fractures s (beginRemoval k e ex s) :=
  (handover_touches s k .removal e ex).trans (touches_xch _ _)

/-- A lost extensometer changes the source of a parked test alone (R125). -/
theorem parkedWatch_saved (k : SlotId) :
    ((parkedWatch s).slot k).runtime.map Runtime.course = (s.slot k).runtime.map Runtime.course := by
  unfold parkedWatch
  split
  · rename_i j _
    split
    · rename_i rt _ runtime
      split
      · by_cases same : k = j
        · subst same
          rw [State.slot_setSlot_same, runtime]
          rfl
        · rw [State.slot_setSlot_other _ _ same]
      · rfl
    · rfl
  · rfl

theorem parkedWatch_touches : Touches fractures s (parkedWatch s) := by
  have chain := parkedWatch_chain s
  have same : (parkedWatch s).ctx.changeover = s.ctx.changeover ∧ (parkedWatch s).msq = s.msq ∧
      (parkedWatch s).live = s.live ∧ (parkedWatch s).ctx.transit = s.ctx.transit := by
    unfold parkedWatch
    split
    · split
      · split <;> exact ⟨rfl, rfl, rfl, rfl⟩
      · exact ⟨rfl, rfl, rfl, rfl⟩
    · exact ⟨rfl, rfl, rfl, rfl⟩
  obtain ⟨changeover, msq, live, transit⟩ := same
  exact Plain.touches ⟨chain.resident, changeover, by rw [msq], chain.state, chain.order, parkedWatch_saved s,
    by rw [live], fun r mem => .inl (transit ▸ mem)⟩

theorem residentStrain_touches (f : LaneFacts) (k : SlotId) : Touches fractures s (residentStrain fl f k s).1 := by
  have seat : Touches fractures s (seatPosRef fl.set.xh s) := touches_liveMap s fun _ => rfl
  have slip (ex : Int) : Touches fractures s (slipStep fl f ex (seatPosRef fl.set.xh s)) :=
    seat.trans (slipStep_touches _ _ _ _)
  unfold residentStrain
  dsimp only
  split
  · exact slip _
  · split
    · exact (slip _).trans (beginRemoval_touches _ _ _ _)
    · exact slip _

/-- A set at the extension channel (R113). -/
theorem xchStep_touches : Touches fractures s (xchStep fl s).1 := by
  have lanes := (channelStep_touches (fractures := fractures) fl s).trans
    (lanesStep_touches fl _ (channelStep fl s).2)
  unfold xchStep
  dsimp only
  split
  · exact lanes.trans ((residentStrain_touches _ _ _ _).trans (parkedWatch_touches _))
  · exact lanes.trans ((slipStep_touches _ _ _ _).trans (parkedWatch_touches _))

end

/-! ### The evaluation unit (R129, R149) -/

section
variable {o : TestOrder} {i : EvalIn} {ev : Eval}

/-- Step 1 of R129 leaves the maxima, the arming and the evaluation open as they are. -/
theorem evalSourceStep_keeps :
    (evalSourceStep o i ev).opened = ev.opened ∧ (evalSourceStep o i ev).maxT = ev.maxT ∧
    (evalSourceStep o i ev).armed = ev.armed := by
  rcases evalSourceStep_cases o i ev with ⟨-, same | ⟨-, -, closes⟩⟩ | ⟨_, ev', -, ⟨-, rfl⟩ | ⟨-, rfl⟩, marks⟩
  · rw [same]
    exact ⟨rfl, rfl, rfl⟩
  · rw [closes, closeWindow_eq]
    exact ⟨rfl, rfl, rfl⟩
  · rw [marks]
    exact ⟨rfl, rfl, rfl⟩
  · rw [marks, closeWindow_eq]
    exact ⟨rfl, rfl, rfl⟩

theorem evalWindowStep_keeps : (evalWindowStep o i ev).opened = ev.opened := by
  rcases evalWindowStep_cases o i ev with same | ⟨-, -, ⟨-, -, takes⟩ | ⟨-, leaves⟩ | ⟨-, -, fills⟩⟩
  · rw [same]
  · rw [takes]
    rfl
  · rw [leaves]
    exact closeWindow_opened ..
  · rw [fills]
    exact closeWindow_opened ..

/-- Steps 4 to 7 of R129 leave the evaluation open. -/
theorem evalTail_opened (was : Eval) : (evalTail o was i ev).opened = ev.opened := by
  have window := evalWindowStep_keeps (o := o) (i := i) (ev := ev)
  obtain ⟨_, _, _, _, _, _, _, _, yields⟩ := evalYieldStep_eq o i (evalWindowStep o i ev) was.yState
  obtain ⟨_, rfl, ⟨-, tail⟩ | ⟨-, tail⟩⟩ := evalTail_cases o i ev was
  · rw [tail, yields]
    exact window
  · obtain ⟨_, _, _, _, _, _, offset, -⟩ := evalOffsetStep_eq o i (evalYieldStep o was.yState i (evalWindowStep o i ev))
    rw [tail, offset, yields]
    exact window

/-- The first resumed sample leaves the maxima, the arming and the evaluation open as they are (R154). -/
theorem evalResume_keeps :
    (evalResume i ev).opened = ev.opened ∧ (evalResume i ev).maxT = ev.maxT ∧ (evalResume i ev).armed = ev.armed := by
  unfold evalResume
  split <;> exact ⟨rfl, rfl, rfl⟩

/-- Below the arming force the detector stays disarmed (R149). -/
theorem tracked_disarmed (calm : NoFracture o i.force ev) : (tracked o i ev).armed = false := by
  obtain ⟨disarmed, below, before⟩ := calm
  rw [Bool.eq_false_iff, Ne, armed_tracked_iff]
  rintro (armed | arms)
  · cases disarmed.symm.trans armed
  · refine absurd arms (not_le.2 ?_)
    unfold maximaAt
    cases maxima : ev.maxT with
    | none => exact below
    | some m => exact max_lt (before m maxima) below

theorem evalSet_disarmed (disarmed : (tracked o i (evalSourceStep o i (evalResume i ev))).armed = false) :
    (evalSet o i ev).2 = none ∧ (evalSet o i ev).1.opened = (evalSourceStep o i (evalResume i ev)).opened := by
  unfold evalSet
  simp only [evalMaxStep_tracked, fractureTest_unarmed disarmed]
  exact ⟨trivial, evalTail_opened _⟩

/-- A detector that stays disarmed finds no fracture, and the evaluation stays open (R149). -/
theorem evalSet_calm (calm : NoFracture o i.force ev) :
    (evalSet o i ev).2 = none ∧ (evalSet o i ev).1.opened = ev.opened := by
  obtain ⟨opened', maxT', armed'⟩ := evalResume_keeps (i := i) (ev := ev)
  obtain ⟨opened, maxT, armed⟩ := evalSourceStep_keeps (o := o) (i := i) (ev := evalResume i ev)
  have disarmed : (tracked o i (evalSourceStep o i (evalResume i ev))).armed = false :=
    tracked_disarmed ⟨armed.trans (armed'.trans calm.1), calm.2.1, by rw [maxT, maxT']; exact calm.2.2⟩
  obtain ⟨none, stays⟩ := evalSet_disarmed disarmed
  exact ⟨none, stays.trans (opened.trans opened')⟩

/-- A park leaves no window open (R153). -/
theorem parkEval_window (opened : ev.opened = true) : (parkEval o ev).window ≠ .opened := by
  unfold parkEval
  split
  · simp
  · rename_i other
    exact fun window => other ⟨opened, window⟩

end

section
variable (fl : Flight) (x : XOut) (s : State)

theorem announceYield_touches (k : SlotId) (n : Nat) (ev : Eval) : Touches fractures s (announceYield k n ev s) := by
  unfold announceYield
  split
  · exact (raiseEvent_frame _ _ _).touches.trans (offer_touches _ _ _ _)
  · exact .refl

/-- A resident test with its evaluation after a set. -/
def Live.evaluated (l : Live) (fl : Flight) (x : XOut) (k : SlotId) (s : State) : Live :=
  { l with rt := { l.rt with
      eval := (evalSet (s.slot k).order (evalIn fl x (setStress fl k s) l) l.rt.eval).1 } }

variable {fl x s}

theorem evaluate_touches {k : SlotId} {l : Live} (resident : s.residentSlot = some k)
    (possible : ∀ c, (evalSet (s.slot k).order (evalIn fl x (setStress fl k s) l) l.rt.eval).2 = some c → fractures) :
    Touches fractures { s with live := some (l.evaluated fl x k s) } (evaluate fl x k l (setStress fl k s) s) := by
  have announced (seen : Bool) (n : Nat) (ev : Eval) : Touches fractures { s with live := some (l.evaluated fl x k s) }
      (if seen then announceYield k n ev { s with live := some (l.evaluated fl x k s) }
       else { s with live := some (l.evaluated fl x k s) }) := by
    split
    · exact announceYield_touches _ _ _ _
    · exact .refl
  unfold evaluate
  dsimp only
  split
  · rename_i c met
    refine (announced _ _ _).trans (post_touches (r := .fracture _ _ _ _ _) (possible c met) fun _ => ?_)
    have still := (announced (yieldSeen (evalSet (s.slot k).order (evalIn fl x (setStress fl k s) l) l.rt.eval).1 &&
      !yieldSeen l.rt.eval) (evalIn fl x (setStress fl k s) l).index
      (evalSet (s.slot k).order (evalIn fl x (setStress fl k s) l) l.rt.eval).1).touched.resident
    have slot := (residentSlot_congr still).trans resident
    exact Option.isSome_of_eq_some slot
  · exact announced _ _ _

/-- The resident test behind the evaluation unit (R129). -/
def evaluatedLive (fl : Flight) (x : XOut) (s : State) : Option Live :=
  match s.residentSlot, s.live with
  | some k, some l => some (if l.rt.eval.opened && !fl.tareSet then l.evaluated fl x k s else l)
  | _, live => live

/-- A set at the evaluation unit: the evaluation goes on, then its reports. -/
theorem evuStep_touches
    (possible : ∀ k l c, s.residentSlot = some k → s.live = some l →
      (evalSet (s.slot k).order (evalIn fl x (setStress fl k s) l) l.rt.eval).2 = some c → fractures) :
    Touches fractures { s with live := evaluatedLive fl x s } (evuStep fl x s).1 := by
  unfold evaluatedLive
  rcases resident : s.residentSlot with _ | k
  · simp only [evuStep, resident]
    exact .refl
  · rcases live : s.live with _ | l
    · simp only [evuStep, resident, live]
      rw [← live]
    · simp only [evuStep, resident, live]
      split
      · exact evaluate_touches resident (possible k l · resident live)
      · rw [← live]

end

/-! ### The motion sequencer ahead of the demand (R38, R39) -/

section
variable (fl : Flight) (x : Measured) (s : State)

theorem markTravel_touches (on : Bool) : Touches fractures s (markTravel on x s) := by
  unfold markTravel
  split
  · exact setMark_touches _ _ _ _ (by decide)
  · exact .refl

theorem putSetpoint_touches (m : Mode) (q : Int) : Touches fractures s (putSetpoint m q x s) := by
  have put (q' : Int) : Touches fractures s { s with msq := { s.msq with qSet := some q' } } := touches_msq s rfl
  unfold putSetpoint
  dsimp only
  exact (put _).trans (markTravel_touches x _ _)

theorem seatSetpoint_touches (b : Bank) : Touches fractures s (seatSetpoint b x s) := by
  have put : Touches fractures s
      (putSetpoint b.mode (measuredQ b.mode x) x { s with msq := { s.msq with remainder := 0, seat := false } }) :=
    have seated : Touches fractures s { s with msq := { s.msq with remainder := 0, seat := false } } :=
      touches_msq s rfl
    seated.trans (putSetpoint_touches x _ _ _)
  unfold seatSetpoint
  dsimp only
  split
  · exact put.trans (touches_msq _ rfl)
  · exact put

theorem firstSeat_touches : Touches fractures s (firstSeat fl x s) := by
  unfold firstSeat
  split
  · split
    · exact seatSetpoint_touches x s _
    · exact .refl
  · exact .refl

/-- A flip puts the elapsed count back; the rest of it is a seating. -/
theorem transitionFlip_touches :
    ∃ m l, m.stillCount = s.msq.stillCount ∧
      Touches fractures { s with msq := m, live := l } (transitionFlip x s) := by
  unfold transitionFlip
  split
  · rename_i b _
    refine ⟨{ s.msq with active := some b, inactive := none },
      s.live.map fun l => { l with rt := { l.rt with elapsed := 0 } }, rfl, ?_⟩
    dsimp only
    split
    · exact .refl
    · exact seatSetpoint_touches x _ b
  · exact ⟨s.msq, s.live, rfl, .refl⟩

theorem segmentTests_quiesce (quiesce : fl.quiesce = true) : segmentTests fl x s = s := by
  unfold segmentTests
  split
  · rw [if_pos (by simp [quiesce])]
  · rfl

variable {s}

/-- The fractures kept back are taken (R151). -/
theorem drain_touches {which : Report → Bool} (sampled : ∀ r ∈ s.ctx.transit, Sampled fractures r) :
    Touches fractures s (drain which s) := by
  have rest : Touches fractures s
    { s with ctx := { s.ctx with transit := s.ctx.transit.filter (fun r => !which r) } } :=
    Plain.touches ⟨rfl, rfl, rfl, fun _ => rfl, fun _ => rfl, fun _ => rfl, rfl,
      fun r mem => .inl (List.mem_filter.1 mem).1⟩
  refine rest.trans (List.foldlRecOn _ _ (motive := Touches fractures _) .refl fun u before r mem => ?_)
  exact before.trans (takeReport_touches (sampled r (List.mem_filter.1 mem).1) u)

variable (s)

theorem amendmentFlip_touches : Touches fractures s (amendmentFlip s) := by
  unfold amendmentFlip
  split
  · exact touches_msq s rfl
  · exact .refl

/-! ### The demand and behind it (R65, R66 to R73, R183) -/

theorem quiesceDemand_touches (b : Bank) : Touches fractures s (quiesceDemand b x s) := by
  have reset : Touches fractures s { s with msq := { s.msq with ceilingRun := 0 } } := touches_msq s rfl
  unfold quiesceDemand
  dsimp only
  exact (reset.trans (markTravel_touches x _ _)).trans (touches_msq _ rfl)

theorem demandOf_touches (quiesce : fl.quiesce = true) : Touches fractures s (demandOf fl x s) := by
  simp only [demandOf, quiesce, if_true]
  split
  · split
    · exact touches_msq s rfl
    · exact quiesceDemand_touches x s _
  · exact touches_msq s rfl

theorem trackCompliance_touches : Touches fractures s (trackCompliance x s) := by
  unfold trackCompliance
  split
  · rename_i l _ live
    have tracked (ring : List Triple) (kS kE : Int) : Touches fractures s { s with
        msq := { s.msq with ring := ring }
        live := some { l with rt := { l.rt with kS := kS, kE := kE } } } :=
      have ringed : Touches fractures s { s with msq := { s.msq with ring := ring } } := touches_msq s rfl
      ringed.trans (touches_live (l := l) live rfl)
    dsimp only
    split
    · split
      · exact (tracked _ _ _).trans (setMark_touches _ _ _ _ (by decide))
      · exact tracked _ _ _
    · exact touches_msq s rfl
  · exact .refl

theorem offerLast_touches (raises : Bool) (k : SlotId) : Touches fractures s (offerLast raises k s) := by
  unfold offerLast
  split
  · rename_i l live
    split
    · exact (touches_live (l' := { l with cand := none }) live rfl).trans (offer_touches _ _ _ _)
    · exact .refl
  · exact .refl

theorem sampleCandidate_touches (exts : Option (Int × Int)) : Touches fractures s (sampleCandidate fl exts x s) := by
  unfold sampleCandidate
  split
  · rename_i l _ live
    have sampled (c : Option Candidate) (v : Option Latest) :
        Touches fractures s { s with live := some { l with resumed := false, cand := c, latest := v } } :=
      touches_live live rfl
    dsimp only
    split
    · exact (sampled _ _).trans (offerLast_touches _ _ _)
    · exact sampled _ _
  · exact .refl

end

end Sys2Proof.Machine

/-! PROOFS about a quiesce sample (R21, R71, R72): the control state of a demand that is 0, the set of a quiesce through
the chain, and the timeout that ends in SAFE. -/

namespace Sys2Proof.Machine

/-! ### A demand that is 0 (R71, R72) -/

/-- The control state of a quiesce whose demand has come to 0, beside the one at the beginning of the set. -/
structure AtZero (f : Frame) (m₀ m : Msq) : Prop where
  prevDemand : m.prevDemand = 0
  history : m.history = m₀.history
  inactive : m.inactive = none
  target : m.target = m₀.target
  ceiling : ∀ b, m.active = some b → 0 ≤ ceilingOf f.vfs b.vmax
  active : m₀.target = none → m.active = m₀.active

section
variable {f : Frame} {m₀ m : Msq} {s t : State} {fl : Flight}

theorem AtZero.of_still (h : AtZero f m₀ m) (n : Nat) : AtZero f m₀ { m with stillCount := n } := { h with }

theorem AtZero.mark (h : AtZero f m₀ s.msq) (frame : MarkFrame s t) : AtZero f m₀ t.msq := by
  rw [frame.msq]
  exact h.of_still _

/-- The motion stands: only the still-count may differ. -/
theorem AtZero.of_motion (h : AtZero f m₀ s.msq) (same : t.motion = s.motion) : AtZero f m₀ t.msq := by
  have msq : t.msq = { s.msq with stillCount := t.msq.stillCount } :=
    calc t.msq = { t.motion with stillCount := t.msq.stillCount } := rfl
      _ = { s.motion with stillCount := t.msq.stillCount } := by rw [same]
      _ = _ := rfl
  rw [msq]
  exact h.of_still _

theorem seatSetpoint_atZero {b : Bank} (x : Measured) (h : AtZero f m₀ s.msq) (active : s.msq.active = some b) :
    AtZero f m₀ (seatSetpoint b x s).msq := by
  have put := putSetpoint_frame b.mode (measuredQ b.mode x) x
    { s with msq := { s.msq with remainder := 0, seat := false } }
  have seated : AtZero f m₀ (putSetpoint b.mode (measuredQ b.mode x) x
      { s with msq := { s.msq with remainder := 0, seat := false } }).msq :=
    AtZero.mark (s := { s with msq := { s.msq with
      remainder := 0, seat := false, qSet := some (heldSetpoint b.mode (travelWindow s) (measuredQ b.mode x)) } })
      { h with } put
  unfold seatSetpoint
  dsimp only
  split
  · rename_i t q target _
    refine { seated with ceiling := fun b' signed => ?_, active := fun none => ?_ }
    · cases signed
      exact h.ceiling b active
    · exact absurd (target.symm.trans (seated.target.trans none)) (by simp)
  · exact seated

theorem firstSeat_atZero (x : Measured) (h : AtZero f m₀ s.msq) : AtZero f m₀ (firstSeat fl x s).msq := by
  unfold firstSeat
  split
  · rename_i b active
    split
    · exact seatSetpoint_atZero x h active
    · exact h
  · exact h

/-- A demand of 0 stays 0 (R71): the ramp, the ceiling and the window leave it. -/
theorem boundedVelocity_zero {b : Bank} (x : Measured) (aMax : 0 ≤ s.frame.aMax)
    (ceiling : 0 ≤ ceilingOf s.frame.vfs b.vmax) :
    boundedVelocity b x s (rampTo0 0 (slewStep s.frame.aMax)) = 0 := by
  have step : 0 ≤ slewStep s.frame.aMax := Int.ediv_nonneg aMax (by decide)
  have ramp : rampTo0 0 (slewStep s.frame.aMax) = 0 := by
    unfold rampTo0
    rw [if_neg step.not_gt, if_neg (by omega)]
  have held : clamp (-ceilingOf s.frame.vfs b.vmax) (ceilingOf s.frame.vfs b.vmax) 0 = 0 := by
    unfold clamp
    split_ifs <;> omega
  rw [ramp, boundedVelocity_eq b x rfl, held]
  exact ite_self 0

theorem demandOf_atZero (x : Measured) (h : AtZero s.frame m₀ s.msq) (quiesce : fl.quiesce = true)
    (aMax : 0 ≤ s.frame.aMax) : AtZero s.frame m₀ (demandOf fl x s).msq := by
  have zero : AtZero s.frame m₀ (zeroDemand s).msq := { h with prevDemand := rfl }
  rcases active : s.msq.active with _ | b
  · simpa [demandOf, active] using zero
  · rcases drive : s.flu.drvEn with _ | _
    · simpa [demandOf, active, drive] using zero
    · rcases tare : fl.tareSet with _ | _
      · rw [demandOf_quiesce active drive tare x quiesce, quiesceDemand_msq, h.prevDemand,
          boundedVelocity_zero x aMax (h.ceiling b active)]
        exact { h with prevDemand := rfl }
      · simpa [demandOf, active, drive, tare] using zero

theorem trackCompliance_msq (x : Measured) (s : State) :
    ∃ ring n, (trackCompliance x s).msq = { s.msq with ring := ring, stillCount := n } := by
  unfold trackCompliance
  split
  · dsimp only
    split
    · split
      · exact ⟨_, _, (setMark_frame _ _ _ _ _).msq⟩
      · exact ⟨_, _, rfl⟩
    · exact ⟨_, _, rfl⟩
  · exact ⟨s.msq.ring, _, rfl⟩

theorem offerLast_msq (raises : Bool) (k : SlotId) (s : State) :
    (offerLast raises k s).msq = { s.msq with stillCount := (offerLast raises k s).msq.stillCount } := by
  unfold offerLast
  split
  · split
    · exact (offer_frame _ _ _ _).msq
    · rfl
  · rfl

theorem sampleCandidate_msq (exts : Option (Int × Int)) (x : Measured) (s : State) :
    ∃ n, (sampleCandidate fl exts x s).msq = { s.msq with stillCount := n } := by
  unfold sampleCandidate
  split
  · dsimp only
    split
    · exact ⟨_, offerLast_msq _ _ _⟩
    · exact ⟨_, rfl⟩
  · exact ⟨_, rfl⟩

end

/-! ### The motion sequencer at a quiesce sample -/

section
variable {fl : Flight} {x : Measured} {s : State}

/-- The part behind the demand of a quiesce sample, with the position history moved on (R69, R71). -/
def moved (fl : Flight) (x : Measured) (s : State) : State :=
  let u := demandOf fl x (amendmentFlip (drain Report.isFracture (firstSeat fl x s)))
  { u with msq := trackPosition fl.set.xh u.msq }

/-- And with the still-count of the sample (R72). -/
def stilled (fl : Flight) (x : Measured) (s : State) : State :=
  { moved fl x s with msq := stillStep (moved fl x s).frame.vStill (moved fl x s).msq }

theorem msqStep_quiesce (quiesce : fl.quiesce = true) (exts : Option (Int × Int)) :
    msqStep fl x exts s =
      sampleCandidate fl exts x (trackCompliance x (stilled fl x (transitionFlip x (countSample s)))) := by
  unfold msqStep stilled moved
  simp only [quiesce, if_true, segmentTests_quiesce fl x _ quiesce]

variable {fractures : Prop}

theorem Touches.sampled {s t : State} (h : Touches fractures s t) (sampled : ∀ r ∈ s.ctx.transit, Sampled fractures r) :
    ∀ r ∈ t.ctx.transit, Sampled fractures r :=
  fun r mem => (h.touched.transit r mem).elim (sampled r) And.right

theorem moved_touches (quiesce : fl.quiesce = true) (sampled : ∀ r ∈ s.ctx.transit, Sampled fractures r) :
    Touches fractures s (moved fl x s) := by
  have seated : Touches fractures s (firstSeat fl x s) := firstSeat_touches fl x s
  have demanded : Touches fractures s (demandOf fl x (amendmentFlip (drain Report.isFracture (firstSeat fl x s)))) :=
    ((seated.trans (drain_touches (seated.sampled sampled))).trans (amendmentFlip_touches _)).trans
      (demandOf_touches fl x _ quiesce)
  have position (u : State) : Touches fractures u { u with msq := trackPosition fl.set.xh u.msq } := touches_msq u rfl
  exact demanded.trans (position _)

theorem behind_touches (exts : Option (Int × Int)) :
    Touches fractures s (sampleCandidate fl exts x (trackCompliance x s)) :=
  (trackCompliance_touches x s).trans (sampleCandidate_touches fl x _ exts)

/-- The sequencer at a quiesce sample leaves a changeover pending, with its elapsed count. -/
theorem msqStep_elapses (quiesce : fl.quiesce = true) (exts : Option (Int × Int))
    (sampled : ∀ r ∈ s.ctx.transit, Sampled fractures r) : Elapses s (msqStep fl x exts s) := by
  obtain ⟨m, l, -, flips⟩ := transitionFlip_touches (fractures := fractures) x (countSample s)
  have counted : Elapses s { countSample s with msq := m, live := l } := .of_same rfl
  have flipped := counted.trans flips.elapses
  have going := moved_touches (x := x) quiesce (flips.sampled sampled)
  have still : Elapses (moved fl x (transitionFlip x (countSample s)))
      (stilled fl x (transitionFlip x (countSample s))) := .of_same rfl
  rw [msqStep_quiesce quiesce]
  exact ((flipped.trans going.elapses).trans still).trans (behind_touches (fractures := fractures) exts).elapses

end

/-! ### The set of a quiesce -/

section
variable {x : SampleSet} {conv : Option (BitVec 24)} {w : SetOrder} {s₀ s : State} {fractures : Prop}

/-- A set behind the extension channel. -/
def measuredSet (x : SampleSet) (conv : Option (BitVec 24)) (w : SetOrder) (s : State) : State × XOut :=
  xchStep (loadStep x conv w s).2 (loadStep x conv w s).1

/-- A set behind the evaluation unit. -/
def evaluatedSet (x : SampleSet) (conv : Option (BitVec 24)) (w : SetOrder) (s : State) : State × Int :=
  evuStep (loadStep x conv w s).2 (measuredSet x conv w s).2 (measuredSet x conv w s).1

theorem sequenceSet_eq (x : SampleSet) (conv : Option (BitVec 24)) (w : SetOrder) (s : State) :
    (sequenceSet x conv w s).1 =
      msqStep (loadStep x conv w s).2
        { pos := x.xh, stress := (evaluatedSet x conv w s).2, strain := (measuredSet x conv w s).2.strain,
          force := (loadStep x conv w s).2.after }
        (measuredSet x conv w s).2.exts (evaluatedSet x conv w s).1 := rfl

theorem loadStep_touches (quiet : quietSet x conv s₀ = true) (lch : s.lch = s₀.lch) (w : SetOrder) :
    Touches fractures s (loadStep x conv w s).1 := by
  have converted : Touches fractures s (examineResumed (lchConvert x conv w s).1) :=
    (lchConvert_touches s quiet lch w).tail (.examined _)
  rw [loadStep_eq]
  exact ((converted.trans (settleMark_touches _ _)).trans (collectTare_touches _ _)).trans (overloadCheck_touches _ _)

theorem measuredSet_touches (quiet : quietSet x conv s₀ = true) (lch : s.lch = s₀.lch) (w : SetOrder) :
    Touches fractures s (measuredSet x conv w s).1 :=
  (loadStep_touches quiet lch w).trans (xchStep_touches _ _)

/-- A pending changeover reaches the end of the chain with its elapsed count. -/
theorem sequenceSet_elapses (quiet : quietSet x conv s₀ = true) (lch : s.lch = s₀.lch) (kept : NothingKeptBack s)
    (pending : s.ctx.changeover.isSome = true) (w : SetOrder) : Elapses s (sequenceSet x conv w s).1 := by
  have measured : Touches True s (measuredSet x conv w s).1 := measuredSet_touches quiet lch w
  have evaluated : Touches True { (measuredSet x conv w s).1 with
        live := evaluatedLive (loadStep x conv w s).2 (measuredSet x conv w s).2 (measuredSet x conv w s).1 }
      (evaluatedSet x conv w s).1 := evuStep_touches fun _ _ _ _ _ _ => trivial
  have read : Elapses (measuredSet x conv w s).1 { (measuredSet x conv w s).1 with
      live := evaluatedLive (loadStep x conv w s).2 (measuredSet x conv w s).2 (measuredSet x conv w s).1 } :=
    .of_same rfl
  have sampled : ∀ r ∈ s.ctx.transit, Sampled True r := fun r mem => by
    rw [show s.ctx.transit = [] from kept] at mem
    cases mem
  have quiesce : (loadStep x conv w s).2.quiesce = true := (lchConvert_quiesce x conv w s).trans pending
  rw [sequenceSet_eq]
  exact ((measured.elapses.trans read).trans evaluated.elapses).trans
    (msqStep_elapses quiesce _ (evaluated.sampled (measured.sampled sampled)))

end

/-! ### The timeout (R21) -/

section
variable {kind : FaultKind} {s t u : State}

/-- Marks kept back and taken behind a FAULT leave what it brought. -/
theorem Felled.marked (h : Felled kind s t) (frame : MarkFrame t u) (alone : ∀ k, (t.slot k).state ≠ .resident) :
    Felled kind s u := by
  have free : u.ctx.changeover = none := by
    rcases frame.cause with same | ⟨c, -, cause⟩
    · exact same.trans h.changeover
    · obtain ⟨k, resident | resident⟩ := cause.resident
      · exact absurd resident (alone k)
      · exact absurd (h.resident.symm.trans resident) (by simp)
  refine ⟨frame.phase.trans h.phase, frame.resident.trans h.resident, free, by rw [frame.flu, h.drvEn],
    by rw [frame.flu, h.alarm], by rw [frame.msq, ← h.dac], by rw [frame.flu]; exact h.entry, fun k resident => ?_⟩
  obtain ⟨state, mark, outcome⟩ := h.slot k resident
  exact ⟨(frame.state k).trans state, frame.marks k _ mark, by rw [frame.slots k]; exact outcome⟩

theorem autostartWith_of_phase (f : Frame) (phase : s.ctx.phase ≠ .idle) : autostartWith f s = s := by
  unfold autostartWith
  split
  · split
    · rename_i ready
      exact absurd (startReady ready.2.2).1 phase
    · rfl
  · rfl

/-- A pending changeover with one more quiesce sample counted (R21). -/
def waited (d : Changeover) (s : State) : State :=
  { s with ctx := { s.ctx with changeover := some { d with elapsed := d.elapsed + 1 } } }

theorem quiesceSample_times_out {fl : Flight} {d : Changeover} (quiesce : fl.quiesce = true)
    (pending : s.ctx.changeover = some d) (late : s.frame.quiesceTimeout < d.elapsed + 1) :
    quiesceSample fl s = faultReport .drift (waited d s) := by
  unfold quiesceSample
  rw [pending]
  dsimp only
  rw [if_pos quiesce]
  exact if_pos late

/-- The reports kept back are taken as marks, where no FAULT is among them. -/
theorem drainAll_mark (kept : NoFaultKept s) : MarkFrame (clearTransit s) (drain (fun _ => true) s) := by
  rw [drainAll_eq]
  exact (foldl_takeReport_mark _ kept _).1

theorem ContextsSuit.notSafe_of_pending {c : Changeover} (suits : ContextsSuit s)
    (pending : s.ctx.changeover = some c) : s.ctx.phase ≠ .safe := by
  obtain ⟨resident, other, -⟩ := suits.changeover c pending
  intro safe
  exact other (Option.some.inj (resident.symm.trans (suits.safe_resident safe)))

/-- The end of a set whose quiesce has run out of time: DRIFT is the first entry, and what it brings outlasts the marks
kept back. -/
theorem quiesceSample_felled {fl : Flight} {d : Changeover} (suits : ContextsSuit s) (kept : NoFaultKept s)
    (pending : s.ctx.changeover = some d) (quiesce : fl.quiesce = true)
    (late : s.frame.quiesceTimeout < d.elapsed + 1) (f : Frame) :
    Felled .drift (waited d s) (autostartWith f (drain (fun _ => true) (quiesceSample fl s))) := by
  have taken := quiesceSample_times_out quiesce pending late
  have phase := suits.notSafe_of_pending pending
  obtain ⟨none, live⟩ := suits.unfelled phase
  have felled : Felled .drift (waited d s) (quiesceSample fl s) := by
    rw [taken]
    exact faultReport_fells (s := waited d s) none phase live
  have faultless : NoFaultKept (quiesceSample fl s) := by
    unfold NoFaultKept
    rw [taken, faultReport_transit]
    exact kept
  have alone : ∀ k, ((clearTransit (quiesceSample fl s)).slot k).state ≠ .resident := fun k resident => by
    have held := (((quiesceSample_keeps fl s).suit suits).resident.2.1 k).1 resident
    exact absurd (felled.resident.symm.trans held) (by simp)
  have cleared : Felled .drift (waited d s) (clearTransit (quiesceSample fl s)) := { felled with }
  have ended := cleared.marked (drainAll_mark faultless) alone
  rwa [autostartWith_of_phase f (by rw [ended.phase]; decide)]

end

section
variable {x : SampleSet} {conv : Option (BitVec 24)} {s : State}

/-- A quiet set comes to its quiesce sample as the chain leaves it. -/
theorem completeSet_quiet (assembling : s.smu.assembling = some x) (quiet : quietSet x conv s = true) (w : SetOrder) :
    ∃ u, countSet conv w s = { s with smu := u } ∧
      ChainFrame { s with smu := u } (sequenceSet x conv w { s with smu := u }).1 ∧
      completeSet conv w s =
        autostartWith (x.tables.frame.getD Frame.blank)
          (drain (fun _ => true)
            (quiesceSample (sequenceSet x conv w { s with smu := u }).2
              (sequenceSet x conv w { s with smu := u }).1)) := by
  obtain ⟨u, counted⟩ := countSet_quiet quiet w
  refine ⟨u, counted, sequenceSet_quiet_chain (s := { s with smu := u }) quiet rfl w, ?_⟩
  rw [completeSet_eq assembling, counted, runSet_eq]

/-- In a set of a quiesce that has run out of time, DRIFT fells what is resident. -/
theorem completeSet_felled {c : Changeover} (suits : ContextsSuit s) (kept : NothingKeptBack s)
    (assembling : s.smu.assembling = some x) (quiet : quietSet x conv s = true) (pending : s.ctx.changeover = some c)
    (late : s.frame.quiesceTimeout < c.elapsed + 1) (w : SetOrder) :
    ∃ f, f.ctx.resident = s.ctx.resident ∧ Felled .drift f (completeSet conv w s) := by
  obtain ⟨u, -, chain, completed⟩ := completeSet_quiet assembling quiet w
  have faultless : NoFaultKept (sequenceSet x conv w { s with smu := u }).1 :=
    sequenceSet_quiet_kept (s := { s with smu := u }) quiet rfl w fun kind mem => by
      rw [show s.ctx.transit = [] from kept] at mem
      cases mem
  have waits : State.ctx { s with smu := u } = s.ctx := rfl
  obtain ⟨d, going, elapsed⟩ := sequenceSet_elapses (s := { s with smu := u }) quiet rfl kept
    (by rw [waits, pending]; rfl) w c pending
  have quiesce : (sequenceSet x conv w { s with smu := u }).2.quiesce = true := by
    rw [sequenceSet_quiesce, waits, pending]
    rfl
  have frame : (sequenceSet x conv w { s with smu := u }).1.frame = s.frame := by
    unfold State.frame
    rw [chain.inForce]
  have suits' := ((smu_keeps s u).trans chain.keeps).suit suits
  have felled := quiesceSample_felled suits' faultless going quiesce (by rwa [frame, elapsed])
    (x.tables.frame.getD Frame.blank)
  rw [← completed] at felled
  exact ⟨waited d (sequenceSet x conv w { s with smu := u }).1, chain.resident, felled⟩

end

/-- Settles O50: the pending changeover reaches the quiesce sample with its elapsed count, which has run out; DRIFT is
the first entry. -/
theorem aQuiesceTimesOut : Obligations.AQuiesceTimesOut := by
  intro conv w s x c power suits _ kept assembling quiet pending late
  obtain ⟨f, resident, felled⟩ := completeSet_felled suits kept assembling quiet pending late w
  have none : s.flu.faults = [] := (suits.unfelled (suits.notSafe_of_pending pending)).1
  obtain ⟨e, first, kind, -⟩ := felled.entry
  have entered : e ∈ (completeSet conv w s).flu.faults := List.mem_of_mem_head? first
  refine ⟨completeSet conv w s, ?_, List.mem_map.2 ⟨e, entered, kind⟩, felled.phase, felled.resident,
    felled.changeover, felled.drvEn, felled.alarm, felled.dac, fun k outgoing => felled.slot k ?_⟩
  · have drifts : quiesceTimedOut conv w s = true := by
      have any : (completeSet conv w s).flu.faults.any (fun e => e.kind == .drift) = true :=
        List.any_eq_true.2 ⟨e, entered, by simp [kind]⟩
      simp [quiesceTimedOut, pending, none, any]
    show Host.Outcome.next (powered (setWhere quiesceTimedOut conv w) s) = _
    simp [powered, power, setWhere, drifts]
  · rw [residentSlot_eq_some, resident, ← outgoing]
    exact (suits.changeover c pending).1

end Sys2Proof.Machine

/-! PROOFS about the set at which a quiesce is over (R21, R72): the chain hands its quiesce sample a demand of 0, a
still-count of 10 and the changeover that was pending. -/

namespace Sys2Proof.Machine

variable {fractures : Prop} {c : Changeover} {s t : State}

/-! ### A changeover that no mark can replace, and its resident test -/

/-- A changeover that no mark can replace is pending, and the slot of the resident context is RESIDENT. -/
structure Awaits (c : Changeover) (s : State) : Prop where
  firm : Firm c s
  held : ∀ k, s.residentSlot = some k → (s.slot k).state = .resident

theorem Awaits.congr (h : Awaits c s) (same : t.ctx = s.ctx) : Awaits c t := by
  have slot (k : SlotId) : t.slot k = s.slot k := by unfold State.slot; rw [same]
  refine ⟨⟨by rw [same]; exact h.firm.pending, fun k resident => ?_⟩, fun k resident => ?_⟩
  · rw [slot] at resident ⊢
    exact h.firm.calm k resident
  · rw [slot]
    exact h.held k ((residentSlot_congr (by rw [same])).symm.trans resident)

theorem Touches.awaits (h : Touches fractures s t) (awaits : Awaits c s) (rank : fractures → c.cause ≠ .operator) :
    Awaits c t ∧ t.msq.stillCount = s.msq.stillCount := by
  have stands := h.stands awaits.firm rank awaits.held
  refine ⟨⟨stands.firm, fun k resident => ?_⟩, stands.still⟩
  rw [h.touched.state]
  exact awaits.held k (residentSlot_congr h.touched.resident ▸ resident)

/-! ### The motion sequencer -/

section
variable {fl : Flight} {x : Measured} {m₀ : Msq}

theorem moved_chain : ChainFrame s (moved fl x s) :=
  ((((firstSeat_chain fl x s).trans (drainFractures_way _).chain).trans (amendmentFlip_way _).chain).trans
    (demandOf_chain fl x _)).trans (chain_msq _ _ rfl)

/-- Behind the demand of a quiesce at 0 the demand is 0 still, and the velocity is that of the whole history (R69). -/
theorem moved_msq (h : AtZero s.frame m₀ s.msq) (quiesce : fl.quiesce = true) (aMax : 0 ≤ s.frame.aMax)
    (kept : NoFaultKept s) {old : Int} {rest : List Int} (history : m₀.history = old :: rest)
    (full : rest.length = 15) :
    (moved fl x s).msq.prevDemand = 0 ∧ (moved fl x s).msq.inactive = none ∧
    (m₀.target = none → (moved fl x s).msq.active = m₀.active) ∧
    (moved fl x s).msq.velocity = some (sat32 ((fl.set.xh - old) * 6250)) := by
  have seated : AtZero s.frame m₀ (firstSeat fl x s).msq := firstSeat_atZero x h
  have faultless : NoFaultKept (firstSeat fl x s) := (firstSeat_set fl x s).kept kept
  have drained : AtZero s.frame m₀ (drain Report.isFracture (firstSeat fl x s)).msq :=
    seated.of_motion (foldl_takeReport_mark _ (fun kind mem => faultless kind (List.mem_filter.1 mem).1) _).1.motion
  have unamended : amendmentFlip (drain Report.isFracture (firstSeat fl x s)) =
      drain Report.isFracture (firstSeat fl x s) :=
    amendmentFlip_unamended fun b p staged => by simp [drained.inactive] at staged
  have frame : (drain Report.isFracture (firstSeat fl x s)).frame = s.frame := by
    unfold State.frame
    rw [((firstSeat_chain fl x s).trans (drainFractures_way _).chain).inForce]
  have demanded : AtZero s.frame m₀ (demandOf fl x (drain Report.isFracture (firstSeat fl x s))).msq := by
    rw [← frame]
    exact demandOf_atZero x (by rw [frame]; exact drained) quiesce (by rw [frame]; exact aMax)
  unfold moved
  rw [unamended]
  refine ⟨demanded.prevDemand, demanded.inactive, demanded.active, ?_⟩
  simp [trackPosition, demanded.history, history, full, Config.historyEntries]

/-- What the chain hands to the quiesce sample at which the quiesce is over. -/
structure Over (m₀ : Msq) (c : Changeover) (t : State) : Prop where
  awaits : Awaits c t
  demand : t.msq.prevDemand = 0
  still : 10 ≤ t.msq.stillCount
  inactive : t.msq.inactive = none
  active : m₀.target = none → t.msq.active = m₀.active

/-- Behind the tests of the sample only a still-count and the ring move (R66, R183). -/
theorem Over.behind (h : Over m₀ c s) (rank : fractures → c.cause ≠ .operator) (exts : Option (Int × Int)) :
    Over m₀ c (sampleCandidate fl exts x (trackCompliance x s)) := by
  obtain ⟨awaits, still⟩ := (behind_touches (fractures := fractures) exts).awaits h.awaits rank
  obtain ⟨ring, n, tracks⟩ := trackCompliance_msq x s
  obtain ⟨n', samples⟩ := sampleCandidate_msq (fl := fl) exts x (trackCompliance x s)
  rw [tracks] at samples
  refine ⟨awaits, ?_, still ▸ h.still, ?_, ?_⟩ <;> rw [samples]
  · exact h.demand
  · exact h.inactive
  · exact h.active

/-- The tenth sample at rest with a demand of 0 (R72). -/
theorem stilled_over (awaits : Awaits c s) (rank : fractures → c.cause ≠ .operator)
    (sampled : ∀ r ∈ s.ctx.transit, Sampled fractures r) (h : AtZero s.frame m₀ s.msq) (quiesce : fl.quiesce = true)
    (aMax : 0 ≤ s.frame.aMax) {old : Int} {rest : List Int} (history : m₀.history = old :: rest)
    (full : rest.length = 15) (slow : absI (sat32 ((fl.set.xh - old) * 6250)) ≤ s.frame.vStill)
    (nine : 9 ≤ s.msq.stillCount) : Over m₀ c (stilled fl x s) := by
  have faultless : NoFaultKept s := fun kind mem => sampled _ mem
  obtain ⟨demand, inactive, active, velocity⟩ := moved_msq (x := x) h quiesce aMax faultless history full
  obtain ⟨moves, still⟩ := (moved_touches (x := x) quiesce sampled).awaits awaits rank
  have vStill : (moved fl x s).frame.vStill = s.frame.vStill := by
    unfold State.frame
    rw [(moved_chain (fl := fl) (x := x) (s := s)).inForce]
  have count : (stilled fl x s).msq.stillCount = min Config.maxU16 (s.msq.stillCount + 1) := by
    unfold stilled stillStep
    rw [velocity, vStill, still]
    simp [atRest, slow]
  refine ⟨moves.congr rfl, demand, ?_, inactive, active⟩
  rw [count]
  unfold Config.maxU16
  omega

end

/-! ### The set -/

section
variable {x : SampleSet} {conv : Option (BitVec 24)} {w : SetOrder} {s₀ : State}

theorem loadStep_latched (w : SetOrder) (s : State) : (loadStep x conv w s).2.set = x := by
  show (lchConvert x conv w s).2.set = x
  unfold lchConvert
  dsimp only
  split <;> rfl

theorem loadStep_quiesce (w : SetOrder) (s : State) : (loadStep x conv w s).2.quiesce = s.ctx.changeover.isSome :=
  lchConvert_quiesce x conv w s

theorem evaluatedSet_motion (quiet : quietSet x conv s₀ = true) (lch : s.lch = s₀.lch) (w : SetOrder) :
    (evaluatedSet x conv w s).1.motion = s.motion := by
  rw [evaluatedSet, evuStep_motion, measuredSet, xchStep_motion, loadStep_motion quiet lch w]

/-- A fracture that the evaluation unit finds at a set. -/
def FractureFound (x : SampleSet) (conv : Option (BitVec 24)) (w : SetOrder) (s : State) : Prop :=
  ∃ k l found, (measuredSet x conv w s).1.residentSlot = some k ∧ (measuredSet x conv w s).1.live = some l ∧
    (evalSet ((measuredSet x conv w s).1.slot k).order
      (evalIn (loadStep x conv w s).2 (measuredSet x conv w s).2
        (setStress (loadStep x conv w s).2 k (measuredSet x conv w s).1) l) l.rt.eval).2 = some found

/-- Behind the extension channel, the evaluation read. -/
def readSet (x : SampleSet) (conv : Option (BitVec 24)) (w : SetOrder) (s : State) : State :=
  { (measuredSet x conv w s).1 with
    live := evaluatedLive (loadStep x conv w s).2 (measuredSet x conv w s).2 (measuredSet x conv w s).1 }

theorem evaluatedSet_touches (w : SetOrder) (possible : FractureFound x conv w s → fractures) :
    Touches fractures (readSet x conv w s) (evaluatedSet x conv w s).1 :=
  evuStep_touches fun k l found resident live met => possible ⟨k, l, found, resident, live, met⟩

theorem evaluatedSet_awaits (quiet : quietSet x conv s₀ = true) (lch : s.lch = s₀.lch) (w : SetOrder)
    (awaits : Awaits c s) (rank : fractures → c.cause ≠ .operator) (possible : FractureFound x conv w s → fractures) :
    Awaits c (evaluatedSet x conv w s).1 ∧ (evaluatedSet x conv w s).1.msq = s.msq := by
  obtain ⟨measured, still⟩ := (measuredSet_touches (fractures := fractures) quiet lch w).awaits awaits rank
  have read : Awaits c (readSet x conv w s) := measured.congr rfl
  obtain ⟨evaluated, again⟩ := (evaluatedSet_touches w possible).awaits read rank
  refine ⟨evaluated, ?_⟩
  have same := again.trans still
  have motion := evaluatedSet_motion quiet lch w
  calc (evaluatedSet x conv w s).1.msq
      = { (evaluatedSet x conv w s).1.motion with stillCount := (evaluatedSet x conv w s).1.msq.stillCount } := rfl
    _ = { s.motion with stillCount := s.msq.stillCount } := by rw [motion, same]
    _ = s.msq := rfl

/-- The reports kept back behind the evaluation unit are those of a sample of the resident test. -/
theorem evaluatedSet_kept (quiet : quietSet x conv s₀ = true) (lch : s.lch = s₀.lch) (w : SetOrder)
    (kept : NothingKeptBack s) (possible : FractureFound x conv w s → fractures) :
    ∀ r ∈ (evaluatedSet x conv w s).1.ctx.transit, s.residentSlot.isSome = true ∧ Sampled fractures r := by
  have measured := (measuredSet_touches (fractures := fractures) quiet lch w (s := s)).touched
  intro r mem
  rcases (evaluatedSet_touches w possible).touched.transit r mem with before | ⟨resident, made⟩
  · rcases measured.transit r before with none | made
    · rw [show s.ctx.transit = [] from kept] at none
      cases none
    · exact made
  · refine ⟨?_, made⟩
    rwa [residentSlot_congr (show (readSet x conv w s).ctx.resident = s.ctx.resident from
      measured.resident)] at resident

theorem transitionFlip_counted {y : Measured} (unstaged : s.msq.inactive = none) :
    transitionFlip y (countSample s) = countSample s :=
  transitionFlip_unstaged fun g staged => by simp [show (countSample s).msq = s.msq from rfl, unstaged] at staged

/-- A sample counts on the count alone (R2). -/
theorem countSample_tally (same : t.live.map Live.tally = s.live.map Live.tally) :
    (countSample t).live.map Live.tally = (countSample s).live.map Live.tally := by
  have counted (u : State) : (countSample u).live.map Live.tally =
      (u.live.map Live.tally).map fun y => (min (Config.maxU32 + 1) (y.1 + 1), y.2) := by
    unfold countSample
    cases u.live <;> rfl
  rw [counted, counted, same]

/-- The part as it is one sample before a quiesce is over: the demand at 0 and nine samples at rest, with a tenth to
come (R71, R72). -/
structure LastStill (x : SampleSet) (s : State) : Prop where
  inactive : s.msq.inactive = none
  demand : s.msq.prevDemand = 0
  aMax : 0 ≤ s.frame.aMax
  ceiling : ∀ b, s.msq.active = some b → 0 ≤ ceilingOf s.frame.vfs b.vmax
  slow : ∃ old rest, s.msq.history = old :: rest ∧ rest.length = 15 ∧
    absI (sat32 ((x.xh - old) * 6250)) ≤ s.frame.vStill
  nine : 9 ≤ s.msq.stillCount

theorem evaluatedSet_chain (quiet : quietSet x conv s₀ = true) (lch : s.lch = s₀.lch) (w : SetOrder) :
    ChainFrame s (evaluatedSet x conv w s).1 :=
  ((loadStep_quiet_chain quiet lch w).trans (overloadCheck_chain _ _)).trans
    ((xchStep_way _ _).trans (evuStep_way _ _ _)).chain

/-- The chain at the last sample of a quiesce. -/
theorem sequenceSet_over (quiet : quietSet x conv s₀ = true) (lch : s.lch = s₀.lch) (w : SetOrder)
    (kept : NothingKeptBack s) (awaits : Awaits c s) (rank : fractures → c.cause ≠ .operator)
    (possible : FractureFound x conv w s → fractures) (last : LastStill x s) :
    Over s.msq c (sequenceSet x conv w s).1 := by
  obtain ⟨evaluated, msq⟩ := evaluatedSet_awaits quiet lch w awaits rank possible
  have sampled := fun r mem => (evaluatedSet_kept quiet lch w kept possible r mem).2
  have frame : (countSample (evaluatedSet x conv w s).1).frame = s.frame := by
    unfold State.frame
    exact congrArg (fun t : Tables => t.frame.getD Frame.blank) (evaluatedSet_chain quiet lch w).inForce
  have quiesce : (loadStep x conv w s).2.quiesce = true := by
    rw [loadStep_quiesce, awaits.firm.pending]
    rfl
  have unstaged := transitionFlip_counted
    (y := { pos := x.xh, stress := (evaluatedSet x conv w s).2, strain := (measuredSet x conv w s).2.strain,
            force := (loadStep x conv w s).2.after }) ((congrArg Msq.inactive msq).trans last.inactive)
  have zero : AtZero (countSample (evaluatedSet x conv w s).1).frame s.msq
      (countSample (evaluatedSet x conv w s).1).msq := by
    rw [frame, show (countSample (evaluatedSet x conv w s).1).msq = s.msq from msq]
    exact ⟨last.demand, rfl, last.inactive, rfl, last.ceiling, fun _ => rfl⟩
  obtain ⟨old, rest, history, full, slow⟩ := last.slow
  have stilled := stilled_over (fl := (loadStep x conv w s).2)
    (x := { pos := x.xh, stress := (evaluatedSet x conv w s).2, strain := (measuredSet x conv w s).2.strain,
            force := (loadStep x conv w s).2.after })
    (evaluated.congr (t := countSample (evaluatedSet x conv w s).1) rfl) rank sampled zero quiesce
    (by rw [frame]; exact last.aMax) history full (by rw [frame, loadStep_latched]; exact slow)
    (by rw [show (countSample (evaluatedSet x conv w s).1).msq = s.msq from msq]; exact last.nine)
  rw [sequenceSet_eq, msqStep_quiesce quiesce, unstaged]
  exact stilled.behind rank _

/-- What the sequencer leaves of a sample counted, with no segment staged. -/
theorem msqStep_touched {fl : Flight} {y : Measured} (quiesce : fl.quiesce = true) (unstaged : s.msq.inactive = none)
    (sampled : ∀ r ∈ s.ctx.transit, Sampled fractures r) (exts : Option (Int × Int)) :
    Touched fractures (countSample s) (msqStep fl y exts s) := by
  have flip : transitionFlip y (countSample s) = countSample s := transitionFlip_counted unstaged
  have moves : Touches fractures (countSample s) (moved fl y (countSample s)) := moved_touches quiesce sampled
  have still : Touched fractures (moved fl y (countSample s)) (stilled fl y (countSample s)) :=
    ⟨rfl, fun _ => rfl, fun _ => rfl, fun _ => rfl, rfl, fun _ => .inl⟩
  rw [msqStep_quiesce quiesce, flip]
  exact (moves.touched.trans still).trans (behind_touches exts).touched

/-- The reports kept back at the end of the chain are those of a sample of the resident test. -/
theorem sequenceSet_kept (quiet : quietSet x conv s₀ = true) (lch : s.lch = s₀.lch) (w : SetOrder)
    (kept : NothingKeptBack s) (awaits : Awaits c s) (rank : fractures → c.cause ≠ .operator)
    (possible : FractureFound x conv w s → fractures) (unstaged : s.msq.inactive = none) :
    (∀ r ∈ (sequenceSet x conv w s).1.ctx.transit, s.residentSlot.isSome = true ∧ Sampled fractures r) ∧
    (∀ k, ((sequenceSet x conv w s).1.slot k).runtime.map Runtime.course = (s.slot k).runtime.map Runtime.course) ∧
    (sequenceSet x conv w s).1.live.map Live.tally =
      (countSample { s with live := (readSet x conv w s).live }).live.map Live.tally := by
  obtain ⟨-, msq⟩ := evaluatedSet_awaits quiet lch w awaits rank possible
  have before := evaluatedSet_kept quiet lch w kept possible
  have measured := (measuredSet_touches (fractures := fractures) quiet lch w (s := s)).touched
  have evaluated := (evaluatedSet_touches w possible).touched
  have quiesce : (loadStep x conv w s).2.quiesce = true := by
    rw [loadStep_quiesce, awaits.firm.pending]
    rfl
  have sequenced := msqStep_touched (fl := (loadStep x conv w s).2)
    (y := { pos := x.xh, stress := (evaluatedSet x conv w s).2, strain := (measuredSet x conv w s).2.strain,
            force := (loadStep x conv w s).2.after }) (fractures := fractures) quiesce
    ((congrArg Msq.inactive msq).trans unstaged) (fun r mem => (before r mem).2) (measuredSet x conv w s).2.exts
  rw [sequenceSet_eq]
  refine ⟨fun r mem => ?_, fun k => ?_, ?_⟩
  · rcases sequenced.transit r mem with held | ⟨resident, made⟩
    · exact before r held
    · have same : (countSample (evaluatedSet x conv w s).1).ctx.resident = s.ctx.resident :=
        evaluated.resident.trans measured.resident
      rw [residentSlot_congr same] at resident
      exact ⟨resident, made⟩
  · exact ((sequenced.saved k).trans (evaluated.saved k)).trans (measured.saved k)
  · refine sequenced.tally.trans ?_
    exact countSample_tally evaluated.tally

end

end Sys2Proof.Machine

/-! PROOFS about the completion of a changeover (R22): the steps of the outgoing and of the incoming context, the end of
the set behind them, and the obligation, by cause and incoming context. -/

namespace Sys2Proof.Machine

variable {fractures : Prop} {c : Changeover} {s t : State}

/-! ### What the residency owes (R183, R184) -/

/-- The part with what the resident test still owes the stream offered. -/
def owed (s : State) : State :=
  match s.residentSlot with
  | some k => abandonStartTare true k (offerLast true k s)
  | none => s

theorem abandonStartTare_touches (raises : Bool) (k : SlotId) (s : State) :
    Touches fractures s (abandonStartTare raises k s) := by
  have dropped : Touches fractures s { s with lch := { s.lch with tareRun := none } } := touches_lch s _
  unfold abandonStartTare
  split
  · exact (dropped.trans (raiseEvent_frame _ _ _).touches).trans (offer_touches _ _ _ _)
  · exact .refl

theorem abandonStartTare_msq (raises : Bool) (k : SlotId) (s : State) :
    (abandonStartTare raises k s).msq =
      { s.msq with stillCount := (abandonStartTare raises k s).msq.stillCount } := by
  unfold abandonStartTare
  split
  · refine ((offer_frame _ _ _ _).msq).trans ?_
    rw [(raiseEvent_frame _ _ _).msq]
  · rfl

theorem owed_touches (s : State) : Touches fractures s (owed s) := by
  unfold owed
  split
  · exact (offerLast_touches s _ _).trans (abandonStartTare_touches _ _ _)
  · exact .refl

theorem owed_chain (s : State) : ChainFrame s (owed s) := by
  unfold owed
  split
  · exact (offerLast_chain _ _ s).trans (abandonStartTare_chain _ _ _)
  · exact .refl s

theorem owed_msq (s : State) : ∃ n, (owed s).msq = { s.msq with stillCount := n } := by
  unfold owed
  split
  · exact ⟨_, by rw [abandonStartTare_msq, offerLast_msq]⟩
  · exact ⟨_, rfl⟩

/-- A changeover with one more quiesce sample counted. -/
abbrev Changeover.ticked (c : Changeover) : Changeover := { c with elapsed := c.elapsed + 1 }

theorem Awaits.waited (h : Awaits c s) : Awaits c.ticked (waited c s) :=
  ⟨⟨rfl, h.firm.calm⟩, h.held⟩

/-- The quiesce sample at which the quiesce is over completes the changeover that was pending (R21, R22). -/
theorem quiesceSample_completes {m₀ : Msq} {fl : Flight} (ends : Over m₀ c s) (quiesce : fl.quiesce = true)
    (inTime : c.elapsed + 1 ≤ s.frame.quiesceTimeout) :
    quiesceSample fl s = completeChangeover c.ticked (owed (waited c s)) := by
  have awaits : Awaits c.ticked (owed (waited c s)) :=
    ((owed_touches (fractures := False) (waited c s)).awaits ends.awaits.waited False.elim).1
  have done : quiesceDone (waited c s) = true := by
    simp [quiesceDone, waited, ends.demand, ends.still]
  have completes : completePending (waited c s) = completeChangeover c.ticked (owed (waited c s)) := by
    show (match (owed (waited c s)).ctx.changeover with
      | some d => completeChangeover d (owed (waited c s))
      | none => owed (waited c s)) = _
    rw [awaits.firm.pending]
  unfold quiesceSample
  rw [ends.awaits.firm.pending]
  dsimp only
  rw [if_pos quiesce, ← completes]
  exact (if_neg inTime.not_gt).trans (if_pos done)

/-! ### The six steps of R22 -/

/-- The part with the outgoing test gone (steps 1 to 3). -/
def leftBehind (c : Changeover) (s : State) : State :=
  match c.outgoing with
  | .test k => leaveTest k (outcomeOf c) s
  | _ => s

theorem EventFrame.settled (h : EventFrame s t) :
    EventFrame { s with ctx := { s.ctx with changeover := none } }
      { t with ctx := { t.ctx with changeover := none } } where
  rest := by rw [h.rest]
  unit := h.unit
  ports := h.ports
  fit := h.fit

theorem EventFrame.cleared (h : EventFrame s t) : EventFrame (clearTransit s) (clearTransit t) where
  rest := by rw [clearTransit, clearTransit, h.rest]
  unit := h.unit
  ports := h.ports
  fit := h.fit

theorem completeChangeover_frame (c : Changeover) (s : State) :
    EventFrame
      { enterIncoming c (leftBehind c s) with
        ctx := { (enterIncoming c (leftBehind c s)).ctx with changeover := none } }
      (completeChangeover c s) :=
  (announcePhase_frame _).trans (announceEnd_frame _ _ _)

/-- The part with nothing resident (R22). -/
def idled (s : State) : State :=
  { s with
    msq := restMsq s.msq
    ctx := { s.ctx with phase := .idle, resident := none, holder := none, changeover := none }
    flu := { s.flu with drvEn := false } }

theorem completeChangeover_idle (incoming : c.incoming = none) (s : State) :
    EventFrame (idled (leftBehind c s)) (completeChangeover c s) := by
  have frame := completeChangeover_frame c s
  unfold enterIncoming at frame
  rw [incoming] at frame
  exact frame

/-- The part with the service context resident, its running tare left open (R14, R53). -/
def served (run : Option TareRun) (holder : Option Port) (s : State) : State :=
  phased .service run { s with
    msq := seatMsq (some (serviceBank s.frame)) s.msq
    ctx := { s.ctx with resident := some .service, holder := holder, changeover := none } }

theorem completeChangeover_service (incoming : c.incoming = some .service) (s : State) :
    ∃ run, EventFrame (served run (requesterPort c.requester) (leftBehind c s)) (completeChangeover c s) := by
  have frame := completeChangeover_frame c s
  unfold enterIncoming at frame
  rw [incoming] at frame
  exact ⟨_, (setPhase_frame _ .service).settled.trans frame⟩

/-- The part with a parked test resident again, its running tare left open (R29). -/
def resumedTest (k : SlotId) (rt : Runtime) (run : Option TareRun) (s : State) : State :=
  let t := phased .test run (handBack k (resumedRuntime (s.slot k).order rt) s)
  { t with ctx := { t.ctx with changeover := none } }

theorem resumedTest_slot (k : SlotId) (rt : Runtime) (run : Option TareRun) (s : State) :
    (resumedTest k rt run s).slot k =
      { s.slot k with state := .resident, marks := resumedMarks (s.slot k).marks } :=
  handBack_slot_same (s := s) (resumedRuntime (s.slot k).order rt) run

theorem completeChangeover_resumes {k : SlotId} {rt : Runtime} (incoming : c.incoming = some (.test k))
    (outgoing : c.outgoing = .service) (runtime : (s.slot k).runtime = some rt) :
    ∃ run, EventFrame (resumedTest k rt run (offerResume k s)) (completeChangeover c s) := by
  have frame := completeChangeover_frame c s
  have left : leftBehind c s = s := by simp only [leftBehind, outgoing]
  rw [left] at frame
  unfold enterIncoming at frame
  rw [incoming] at frame
  obtain ⟨run, resumes⟩ :=
    enterResumed_phased (s := offerResume k s) (((offerResume_frame k s).runtime k).trans runtime)
  exact ⟨run, resumes.settled.trans frame⟩

/-! ### The set of a completion -/

section
variable {x : SampleSet} {conv : Option (BitVec 24)} {u : Smu}

/-- The part as the completion finds it, the residency's last records offered, beside the one at the beginning of the
set. -/
structure Leaving (fractures : Prop) (x : SampleSet) (conv : Option (BitVec 24)) (w : SetOrder) (u : Smu)
    (c : Changeover) (s v : State) : Prop where
  awaits : Awaits c.ticked v
  inactive : v.msq.inactive = none
  active : s.msq.target = none → v.msq.active = s.msq.active
  resident : v.ctx.resident = s.ctx.resident
  binding : v.ctx.binding = s.ctx.binding
  live : v.live.isSome = s.live.isSome
  state : ∀ k, (v.slot k).state = (s.slot k).state
  order : ∀ k, (v.slot k).order = (s.slot k).order
  saved : ∀ k, (v.slot k).runtime.map Runtime.course = (s.slot k).runtime.map Runtime.course
  frame : v.frame = s.frame
  tally : v.live.map Live.tally =
    (countSample { s with live := (readSet x conv w { s with smu := u }).live }).live.map Live.tally
  transit : ∀ r ∈ v.ctx.transit, s.residentSlot.isSome = true ∧ Sampled fractures r

theorem leaving_owed {w : SetOrder} (quiet : quietSet x conv s = true) (kept : NothingKeptBack s)
    (awaits : Awaits c s) (rank : fractures → c.cause ≠ .operator)
    (possible : FractureFound x conv w { s with smu := u } → fractures) (last : LastStill x s) :
    Over s.msq c (sequenceSet x conv w { s with smu := u }).1 ∧
    Leaving fractures x conv w u c s (owed (waited c (sequenceSet x conv w { s with smu := u }).1)) := by
  have waits : Awaits c { s with smu := u } := awaits.congr rfl
  have chain : ChainFrame { s with smu := u } (sequenceSet x conv w { s with smu := u }).1 :=
    sequenceSet_quiet_chain (s := { s with smu := u }) quiet rfl w
  have ends : Over s.msq c (sequenceSet x conv w { s with smu := u }).1 :=
    sequenceSet_over (s := { s with smu := u }) quiet rfl w kept waits rank possible { last with }
  obtain ⟨transit, saved, tally⟩ :=
    sequenceSet_kept (s := { s with smu := u }) quiet rfl w kept waits rank possible last.inactive
  have frame : (sequenceSet x conv w { s with smu := u }).1.frame = s.frame := by
    unfold State.frame
    rw [chain.inForce]
  generalize (sequenceSet x conv w { s with smu := u }).1 = f at *
  refine ⟨ends, ?_⟩
  have touches : Touches fractures (waited c f) (owed (waited c f)) := owed_touches _
  have touched := touches.touched
  have owes := owed_chain (waited c f)
  obtain ⟨n, msq⟩ := owed_msq (waited c f)
  refine ⟨(touches.awaits ends.awaits.waited rank).1, by rw [msq]; exact ends.inactive,
    fun none => by rw [msq]; exact ends.active none, owes.resident.trans chain.resident,
    owes.binding.trans chain.binding, owes.live.trans chain.live, fun k => (owes.state k).trans (chain.state k),
    fun k => (owes.order k).trans (chain.order k), fun k => (touched.saved k).trans (saved k), ?_,
    touched.tally.trans tally, fun r mem => ?_⟩
  · unfold State.frame at frame ⊢
    rw [owes.inForce]
    exact frame
  · rcases touched.transit r mem with before | ⟨resident, made⟩
    · exact transit r before
    · rw [residentSlot_congr (show (waited c f).ctx.resident = s.ctx.resident from chain.resident)] at resident
      exact ⟨resident, made⟩

/-- The set at which a quiesce is over: the changeover completes, the reports kept back are taken, and the start test of
R17 is made. -/
theorem completeSet_completes {w : SetOrder} (suits : ContextsSuit s) (kept : NothingKeptBack s)
    (assembling : s.smu.assembling = some x) (quiet : quietSet x conv s = true) (firm : Firm c s)
    (rank : fractures → c.cause ≠ .operator)
    (possible : ∀ u, FractureFound x conv w { s with smu := u } → fractures) (last : LastStill x s)
    (inTime : c.elapsed + 1 ≤ s.frame.quiesceTimeout) :
    ∃ u v, Leaving fractures x conv w u c s v ∧ ContextsSuit (completeChangeover c.ticked v) ∧
      afterQuiesce conv w s = completeChangeover c.ticked v ∧
      completeSet conv w s =
        autostartWith (x.tables.frame.getD Frame.blank) (drain (fun _ => true) (completeChangeover c.ticked v)) := by
  obtain ⟨u, counted, chain, completed⟩ := completeSet_quiet assembling quiet w
  have awaits : Awaits c s := ⟨firm, fun k resident => (suits.resident.2.1 k).2 (residentSlot_eq_some.1 resident)⟩
  obtain ⟨ends, leaving⟩ := leaving_owed (u := u) quiet kept awaits rank (possible u) last
  have quiesce : (sequenceSet x conv w { s with smu := u }).2.quiesce = true := by
    rw [sequenceSet_quiesce, show State.ctx { s with smu := u } = s.ctx from rfl, firm.pending]
    rfl
  have frame : (sequenceSet x conv w { s with smu := u }).1.frame = s.frame := by
    unfold State.frame
    rw [chain.inForce]
  have sampled := quiesceSample_completes ends quiesce (by rw [frame]; exact inTime)
  have suits' := (quiesceSample_keeps (sequenceSet x conv w { s with smu := u }).2 _).suit
    (((smu_keeps s u).trans chain.keeps).suit suits)
  rw [sampled] at completed suits'
  refine ⟨u, _, leaving, suits', ?_, completed⟩
  have after : afterQuiesce conv w s = quiesceSet x conv w (countSet conv w s) := by
    simp only [afterQuiesce, withinSet, assembling]
  rw [after, counted, ← sampled]
  rfl

theorem Leaving.faultless {w : SetOrder} {v : State} (h : Leaving fractures x conv w u c s v) (d : Changeover) :
    NoFaultKept (completeChangeover d v) := by
  unfold NoFaultKept
  rw [completeChangeover_transit]
  exact fun kind mem => (h.transit _ mem).2

/-- Reports kept back and taken behind a completion set marks alone, and raise nothing where no test is resident. -/
theorem drain_completed {g y : State} (frame : EventFrame y g) (kept : NoFaultKept g)
    (settled : y.ctx.changeover = none)
    (other : ∀ k, y.ctx.resident ≠ some (.test k)) (suits : ContextsSuit g) :
    MarkFrame (clearTransit y) (drain (fun _ => true) g) ∧ (drain (fun _ => true) g).ctx.changeover = none := by
  have marks := frame.cleared.mark.trans (drainAll_mark kept)
  refine ⟨marks, ?_⟩
  rcases marks.cause with same | ⟨d, -, cause⟩
  · exact same.trans settled
  · obtain ⟨k, state | resident⟩ := cause.resident
    · have held : (g.slot k).state = .resident := (frame.mark.state k).trans state
      exact absurd (frame.mark.resident.symm.trans ((suits.resident.2.1 k).1 held)) (other k)
    · exact absurd resident (other k)

theorem autostartWith_of_unbound (f : Frame) (unbound : ∀ k, s.ctx.binding = some k → (s.slot k).state ≠ .bound) :
    autostartWith f s = s := by
  unfold autostartWith
  split
  · rename_i k binding
    exact if_neg fun ready => unbound k binding ready.2.1
  · rfl

theorem exec_changeoverCompletion {w : SetOrder} {g y : State} (power : s.power = true)
    (pending : s.ctx.changeover = some c) (after : afterQuiesce conv w s = g) (frame : EventFrame y g)
    (settled : y.ctx.changeover = none) (phase : y.ctx.phase ≠ .safe) (completed : completeSet conv w s = t) :
    exec (.changeoverCompletion conv w) s = .next t := by
  have completes : changeoverCompleted conv w s = true := by
    simp [changeoverCompleted, pending, after, frame.ctx, settled, phase]
  rw [← completed]
  show Host.Outcome.next (powered (setWhere changeoverCompleted conv w) s) = _
  simp [powered, power, setWhere, completes]

end

/-! ### The fracture that cannot be (R149) -/

section
variable {x : SampleSet} {conv : Option (BitVec 24)} {k : SlotId} {l : Live}

/-- The force after tare that a set carries on (R85, R87). -/
theorem loadStep_force (w : SetOrder) (s : State) : (loadStep x conv w s).2.after = forceOf x conv s := by
  show (lchConvert x conv w s).2.after = forceOf x conv s
  unfold lchConvert forceOf
  rcases conv with _ | code
  · rfl
  · cases settling : x.settling <;> rfl

/-- With no test resident nothing is evaluated. -/
theorem not_fractureFound {s₀ : State} (quiet : quietSet x conv s₀ = true) (lch : s.lch = s₀.lch) (w : SetOrder)
    (alone : s.residentSlot = none) : ¬FractureFound x conv w s := by
  rintro ⟨k, l, found, resident, -, -⟩
  have measured := (measuredSet_touches (fractures := True) quiet lch w).touched
  exact absurd (resident.symm.trans ((residentSlot_congr measured.resident).trans alone)) (by simp)

/-- A detector that stays disarmed finds nothing at the set, and the evaluation stays open. -/
theorem readSet_calm {s₀ : State} (quiet : quietSet x conv s₀ = true) (lch : s.lch = s₀.lch) (w : SetOrder)
    (resident : s.residentSlot = some k) (live : s.live = some l)
    (calm : NoFracture (s.slot k).order (forceOf x conv s) l.rt.eval) :
    ¬FractureFound x conv w s ∧ ∃ r, (readSet x conv w s).live = some r ∧ r.rt.count = l.rt.count ∧
      r.progress = l.progress ∧ (l.rt.eval.opened = true → r.rt.eval.opened = true) := by
  have measured := (measuredSet_touches (fractures := True) quiet lch w (s := s)).touched
  have slot : (measuredSet x conv w s).1.residentSlot = some k := (residentSlot_congr measured.resident).trans resident
  have tally := measured.tally
  rw [live] at tally
  obtain ⟨a, held, same⟩ := Option.map_eq_some_iff.1 tally
  obtain ⟨count, rest⟩ := Prod.mk.inj same
  obtain ⟨progress, eval⟩ := Prod.mk.inj rest
  have still (y : XOut) (st : Int) : NoFracture ((measuredSet x conv w s).1.slot k).order
      (evalIn (loadStep x conv w s).2 y st a).force a.rt.eval := by
    rw [measured.order, eval, show (evalIn (loadStep x conv w s).2 y st a).force = _ from loadStep_force w s]
    exact calm
  refine ⟨?_, ?_⟩
  · rintro ⟨j, b, found, slot', held', met⟩
    cases slot.symm.trans slot'
    cases held.symm.trans held'
    exact absurd ((evalSet_calm (still _ _)).1.symm.trans met) (by simp)
  · have read : (readSet x conv w s).live = some
        (if a.rt.eval.opened && !(loadStep x conv w s).2.tareSet then
          a.evaluated (loadStep x conv w s).2 (measuredSet x conv w s).2 k (measuredSet x conv w s).1 else a) := by
      simp only [readSet, evaluatedLive, slot, held]
    refine ⟨_, read, ?_⟩
    split
    · exact ⟨count, progress, fun opened =>
        ((evalSet_calm (still _ _)).2.trans (congrArg Eval.opened eval)).trans opened⟩
    · exact ⟨count, progress, fun opened => (congrArg Eval.opened eval).trans opened⟩

end

/-! ### The completions, by cause and incoming context -/

section
variable {x : SampleSet} {conv : Option (BitVec 24)} {w : SetOrder} {u : Smu} {k : SlotId} {o : TestOutcome}

/-- A test that has left with an outcome, behind the events and the marks of the set. -/
theorem idled_left {l : Live} {v : State} (live : v.live = some l)
    (frame : MarkFrame (clearTransit (idled (leaveTest k (some o) v))) t) :
    (t.slot k).state = leavingState (some o) ∧ (t.slot k).outcome = some o ∧ t.ctx.phase = .idle ∧
    t.ctx.resident = none ∧ t.ctx.binding = v.ctx.binding ∧ t.lch.lock = false ∧ t.live = none ∧
    t.flu.drvEn = false ∧ t.msq.dac = 0 ∧ t.msq.active = none := by
  have left := leaveTest_frame k (some o) v l live
  have same : (leftTest k (some o) l v).slot k = _ := State.slot_setSlot_same _ k _
  have slot : t.slot k = { (leaveTest k (some o) v).slot k with marks := (t.slot k).marks } := frame.slots k
  have before := left.slots k
  rw [same] at before
  refine ⟨by rw [slot, before], by rw [slot, before], frame.phase, frame.resident, frame.binding.trans left.binding,
    ?_, frame.live.trans left.live, congrArg Flu.drvEn frame.flu, congrArg Msq.dac frame.msq,
    congrArg Msq.active frame.msq⟩
  exact (congrArg Lch.lock frame.lch).trans (congrArg Lch.lock left.lch)

/-- A test that has been parked, behind the events and the marks of the set. -/
theorem served_parked {l : Live} {v : State} {run : Option TareRun} {holder : Option Port} (live : v.live = some l)
    (frame : MarkFrame (clearTransit (served run holder (leaveTest k none v))) t) :
    (t.slot k).state = .parked ∧ (t.slot k).runtime = some (leavingRuntime (v.slot k).order v.msq l none) ∧
    (t.slot k).order = (v.slot k).order ∧ t.ctx.phase = .service ∧ t.ctx.resident = some .service ∧
    t.ctx.holder = holder ∧ t.ctx.binding = v.ctx.binding ∧ t.lch.lock = false ∧ t.live = none ∧
    t.flu.drvEn = true ∧ t.msq.dac = 0 ∧ t.msq.inactive = none ∧ t.msq.active = some (serviceBank v.frame) := by
  have left := leaveTest_frame k none v l live
  have same : (leftTest k none l v).slot k = _ := State.slot_setSlot_same _ k _
  have slot : t.slot k = { (leaveTest k none v).slot k with marks := (t.slot k).marks } := frame.slots k
  have before := left.slots k
  rw [same] at before
  have inForce : (leaveTest k none v).frame = v.frame :=
    congrArg (fun tables : Tables => tables.frame.getD Frame.blank) left.chain.inForce
  have active : t.msq.active = some (serviceBank (leaveTest k none v).frame) := congrArg Msq.active frame.msq
  exact ⟨by rw [slot, before]; rfl, by rw [slot, before], by rw [slot, before], frame.phase, frame.resident,
    congrArg (fun x : State => x.ctx.holder) frame.rest, frame.binding.trans left.binding,
    (congrArg Lch.lock frame.lch).trans (congrArg Lch.lock left.lch), frame.live.trans left.live,
    congrArg Flu.drvEn frame.flu, congrArg Msq.dac frame.msq, congrArg Msq.inactive frame.msq, inForce ▸ active⟩

/-- The runtime part that a park saves goes on from the test as it was, one sample counted (R2, R52, R153). -/
theorem Leaving.parked {l l' : Live} {v : State} (leaving : Leaving fractures x conv w u c s v)
    (quiet : quietSet x conv s = true) (resident : s.residentSlot = some k) (live : s.live = some l)
    (live' : v.live = some l') (unaimed : s.msq.target = none)
    (calm : NoFracture (s.slot k).order (forceOf x conv s) l.rt.eval) :
    ∃ rt, leavingRuntime (v.slot k).order v.msq l' none = rt ∧ rt.count = min 4294967296 (l.rt.count + 1) ∧
      rt.elapsed = l.rt.elapsed ∧ rt.segIndex = l.rt.segIndex ∧ rt.active = s.msq.active ∧
      (l.rt.eval.opened = true → rt.eval.window ≠ .opened) := by
  obtain ⟨-, r, read, count, progress, opened⟩ := readSet_calm (s := { s with smu := u }) quiet rfl w resident live calm
  have tally : some l'.tally = some (min (Config.maxU32 + 1) (r.rt.count + 1), r.progress, r.rt.eval) := by
    have same := leaving.tally
    rw [live', read] at same
    exact same
  obtain ⟨counted, rest⟩ := Prod.mk.inj (Option.some.inj tally)
  obtain ⟨progressed, eval⟩ := Prod.mk.inj rest
  obtain ⟨elapsed, segIndex⟩ := Prod.mk.inj (progressed.trans progress)
  refine ⟨_, rfl, counted.trans (by rw [count]; rfl), elapsed, segIndex, leaving.active unaimed, fun was => ?_⟩
  exact parkEval_window ((congrArg Eval.opened eval).trans (opened was))

variable (power : s.power = true) (suits : ContextsSuit s) (kept : NothingKeptBack s)
  (assembling : s.smu.assembling = some x) (quiet : quietSet x conv s = true) (firm : Firm c s) (last : LastStill x s)
  (inTime : c.elapsed + 1 ≤ s.frame.quiesceTimeout)
include power suits kept assembling quiet firm last inTime

/-- A resident test ends with the outcome of its changeover (R22). -/
theorem completion_ends (cause : c.cause ≠ .operator) (outgoing : c.outgoing = .test k)
    (outcome : outcomeOf c = some o) :
    ∃ t, exec (.changeoverCompletion conv w) s = .next t ∧ (t.slot k).state = leavingState (some o) ∧
      (t.slot k).outcome = some o ∧ t.ctx.phase = .idle ∧ t.ctx.resident = none ∧ t.ctx.changeover = none ∧
      t.ctx.binding = s.ctx.binding ∧ t.lch.lock = false ∧ t.live = none ∧ t.flu.drvEn = false ∧ t.msq.dac = 0 ∧
      t.msq.active = none := by
  obtain ⟨resident, -, -, -, fits, -⟩ := suits.changeover c firm.pending
  rw [outgoing] at resident
  obtain ⟨u, v, leaving, suits', after, completed⟩ := completeSet_completes (w := w) (fractures := True) suits kept
    assembling quiet firm (fun _ => cause) (fun _ _ => trivial) last inTime
  have live : v.live.isSome = true := by
    rw [leaving.live, suits.resident.2.2, suits.test_of_resident resident]
    rfl
  obtain ⟨l, live⟩ := Option.isSome_iff_exists.1 live
  have left : leftBehind c.ticked v = leaveTest k (some o) v := by
    simp only [leftBehind, outgoing, show outcomeOf c.ticked = some o from outcome]
  have frame := completeChangeover_idle (c := c.ticked) (fits cause).2.1 v
  obtain ⟨marks, settled⟩ := drain_completed frame (leaving.faultless _) rfl (fun _ => nofun) suits'
  rw [left] at marks
  obtain ⟨state, outcome', phase, alone, binding, rest⟩ := idled_left live marks
  have bound : s.ctx.binding = some k :=
    suits.binding.1 k (by rw [(suits.resident.2.1 k).2 resident]; rfl)
  have binding' := binding.trans leaving.binding
  have stays : completeSet conv w s = drain (fun _ => true) (completeChangeover c.ticked v) := by
    rw [completed]
    refine autostartWith_of_unbound _ fun j named => ?_
    rw [binding', bound] at named
    cases named
    rw [state, leavingState]
    split <;> decide
  exact ⟨_, exec_changeoverCompletion power firm.pending after frame rfl nofun stays, state, outcome', phase, alone,
    settled, binding', rest⟩

omit power in
/-- With the service context outgoing, no test is resident and no report is kept back. -/
theorem completeSet_unserved (outgoing : c.outgoing = .service) :
    ∃ u v, Leaving False x conv w u c s v ∧ ContextsSuit (completeChangeover c.ticked v) ∧
      afterQuiesce conv w s = completeChangeover c.ticked v ∧
      completeSet conv w s =
        autostartWith (x.tables.frame.getD Frame.blank) (clearTransit (completeChangeover c.ticked v)) := by
  have resident := (suits.changeover c firm.pending).1
  rw [outgoing] at resident
  have alone : s.residentSlot = none := by
    simp [State.residentSlot, resident]
  obtain ⟨u, v, leaving, suits', after, completed⟩ := completeSet_completes (w := w) (fractures := False) suits kept
    assembling quiet firm False.elim
    (fun u => not_fractureFound (s := { s with smu := u }) quiet rfl w alone) last inTime
  have nothing : (completeChangeover c.ticked v).ctx.transit = [] := by
    rw [completeChangeover_transit]
    refine List.eq_nil_iff_forall_not_mem.2 fun r mem => ?_
    simpa [alone] using (leaving.transit r mem).1
  refine ⟨u, v, leaving, suits', after, ?_⟩
  rw [completed, drainAll_eq, nothing]
  rfl

/-- A service context that is left is dropped (R22). -/
theorem completion_drops (outgoing : c.outgoing = .service) (incoming : c.incoming = none)
    (unbound : s.ctx.binding = none) :
    ∃ t, exec (.changeoverCompletion conv w) s = .next t ∧ t.ctx.phase = .idle ∧ t.ctx.resident = none ∧
      t.ctx.changeover = none ∧ t.ctx.holder = none ∧ t.flu.drvEn = false ∧ t.msq.dac = 0 ∧ t.msq.active = none ∧
      t.msq.target = none := by
  obtain ⟨u, v, leaving, -, after, completed⟩ := completeSet_unserved (w := w) suits kept assembling quiet firm
    last inTime outgoing
  have left : leftBehind c.ticked v = v := by simp only [leftBehind, outgoing]
  have frame := completeChangeover_idle (c := c.ticked) incoming v
  rw [left] at frame
  have ctx := frame.ctx
  have msq := frame.msq
  have stays : completeSet conv w s = clearTransit (completeChangeover c.ticked v) := by
    rw [completed]
    refine autostartWith_of_unbound _ fun j named => ?_
    have none : (clearTransit (completeChangeover c.ticked v)).ctx.binding = none :=
      (congrArg Ctx.binding ctx).trans (leaving.binding.trans unbound)
    simp [none] at named
  exact ⟨_, exec_changeoverCompletion power firm.pending after frame rfl nofun stays, congrArg Ctx.phase ctx,
    congrArg Ctx.resident ctx, congrArg Ctx.changeover ctx, congrArg Ctx.holder ctx,
    congrArg Flu.drvEn frame.mark.flu, congrArg Msq.dac msq, congrArg Msq.active msq, congrArg Msq.target msq⟩

/-- A parked test is taken up again with its saved runtime part (R22, R29). -/
theorem completion_resumes {rt : Runtime} (outgoing : c.outgoing = .service) (incoming : c.incoming = some (.test k))
    (runtime : (s.slot k).runtime = some rt) :
    ∃ t, exec (.changeoverCompletion conv w) s = .next t ∧ (t.slot k).state = .resident ∧
      (t.slot k).order = (s.slot k).order ∧ (∀ m ∈ [Mark.step, .holdpt, .rmfail], m ∉ (t.slot k).marks) ∧
      t.ctx.phase = .test ∧ t.ctx.resident = some (.test k) ∧ t.ctx.holder = none ∧ t.ctx.changeover = none ∧
      t.ctx.binding = some k ∧ t.lch.lock = true ∧ t.flu.drvEn = true ∧ t.msq.active = rt.active ∧
      t.msq.inactive = none ∧ t.msq.dac = 0 ∧ t.msq.ring = [] ∧ t.live.map (·.rt.count) = some rt.count ∧
      t.live.map (·.rt.elapsed) = some rt.elapsed ∧ t.live.map (·.rt.segIndex) = some rt.segIndex := by
  obtain ⟨u, v, leaving, -, after, completed⟩ := completeSet_unserved (w := w) suits kept assembling quiet firm
    last inTime outgoing
  have saved := leaving.saved k
  rw [runtime] at saved
  obtain ⟨rt', runtime', course⟩ := Option.map_eq_some_iff.1 saved
  obtain ⟨count, rest⟩ := Prod.mk.inj course
  obtain ⟨elapsed, rest⟩ := Prod.mk.inj rest
  obtain ⟨segIndex, active⟩ := Prod.mk.inj rest
  obtain ⟨run, frame⟩ := completeChangeover_resumes (c := c.ticked) incoming outgoing runtime'
  have offers := offerResume_frame k v
  have slot : (completeChangeover c.ticked v).slot k =
      { (offerResume k v).slot k with state := .resident, marks := resumedMarks ((offerResume k v).slot k).marks } :=
    (frame.slot k).trans (resumedTest_slot k rt' run _)
  have parked := ((suits.changeover c firm.pending).2.2.2.1 k incoming).2
  have bound : s.ctx.binding = some k := suits.binding.1 k (by rw [parked]; rfl)
  have ctx := frame.ctx
  have msq := frame.msq
  have live : (clearTransit (completeChangeover c.ticked v)).live =
      some
        { rt := resumedRuntime ((offerResume k v).slot k).order rt', resumed := true, cand := none, latest := none } :=
    frame.mark.live
  have phase : (clearTransit (completeChangeover c.ticked v)).ctx.phase = .test := congrArg Ctx.phase ctx
  have stays : completeSet conv w s = clearTransit (completeChangeover c.ticked v) :=
    completed.trans (autostartWith_of_test _ phase)
  refine ⟨_, exec_changeoverCompletion power firm.pending after frame rfl nofun stays, congrArg Slot.state slot,
    (congrArg Slot.order slot).trans ((offers.order k).trans (leaving.order k)), fun m removed kept => ?_,
    phase, congrArg Ctx.resident ctx, congrArg Ctx.holder ctx, congrArg Ctx.changeover ctx,
    (congrArg Ctx.binding ctx).trans (offers.binding.trans (leaving.binding.trans bound)),
    congrArg Lch.lock frame.mark.lch, congrArg Flu.drvEn frame.mark.flu, (congrArg Msq.active msq).trans active,
    congrArg Msq.inactive msq, congrArg Msq.dac msq, congrArg Msq.ring msq,
    by rw [live]; exact congrArg some count, by rw [live]; exact congrArg some elapsed,
    by rw [live]; exact congrArg some segIndex⟩
  exact (mem_resumedMarks_iff.1 (congrArg Slot.marks slot ▸ kept)).2 removed

/-- A resident test is parked with its runtime part, and the requesting port holds the service context (R14, R22). -/
theorem completion_parks {l : Live} (cause : c.cause = .operator) (outgoing : c.outgoing = .test k)
    (live : s.live = some l) (unaimed : s.msq.target = none)
    (calm : NoFracture (s.slot k).order (forceOf x conv s) l.rt.eval) :
    ∃ t rt, exec (.changeoverCompletion conv w) s = .next t ∧ (t.slot k).state = .parked ∧
      (t.slot k).runtime = some rt ∧ rt.count = min 4294967296 (l.rt.count + 1) ∧ rt.elapsed = l.rt.elapsed ∧
      rt.segIndex = l.rt.segIndex ∧ rt.active = s.msq.active ∧
      (l.rt.eval.opened = true → rt.eval.window ≠ .opened) ∧
      (t.slot k).order = (s.slot k).order ∧ t.ctx.phase = .service ∧ t.ctx.resident = some .service ∧
      t.ctx.holder = requesterPort c.requester ∧ t.ctx.changeover = none ∧ t.ctx.binding = s.ctx.binding ∧
      t.lch.lock = false ∧ t.live = none ∧ t.flu.drvEn = true ∧ t.msq.dac = 0 ∧ t.msq.inactive = none ∧
      t.msq.active = some { seg := 0, mode := .position, rate := 0, vmax := s.frame.jogMax, kp := 2560 } := by
  obtain ⟨resident, -, -, -, -, serves⟩ := suits.changeover c firm.pending
  have incoming : c.ticked.incoming = some .service := serves (by rw [outgoing]; nofun) cause
  rw [outgoing] at resident
  have slot : s.residentSlot = some k := residentSlot_eq_some.2 resident
  obtain ⟨u, v, leaving, suits', after, completed⟩ := completeSet_completes (w := w) (fractures := False) suits kept
    assembling quiet firm False.elim
    (fun u => (readSet_calm (s := { s with smu := u }) quiet rfl w slot live calm).1) last inTime
  obtain ⟨l', live'⟩ := Option.isSome_iff_exists.1 (leaving.live.trans (by rw [live]; rfl))
  obtain ⟨rt, saved, counts⟩ := leaving.parked quiet slot live live' unaimed calm
  have left : leftBehind c.ticked v = leaveTest k none v := by
    simp only [leftBehind, outgoing, show outcomeOf c.ticked = none by simp [outcomeOf, cause]]
  obtain ⟨run, frame⟩ := completeChangeover_service incoming v
  obtain ⟨marks, settled⟩ := drain_completed frame (leaving.faultless _) rfl (fun _ => nofun) suits'
  rw [left] at marks
  obtain ⟨state, runtime, order, phase, resident', holder, binding, lock, gone, drive, dac, inactive, active⟩ :=
    served_parked live' marks
  have stays : completeSet conv w s = drain (fun _ => true) (completeChangeover c.ticked v) :=
    completed.trans (autostartWith_of_phase _ (by rw [phase]; decide))
  obtain ⟨count, elapsed, segIndex, bank, window⟩ := counts
  exact ⟨_, rt, exec_changeoverCompletion power firm.pending after frame rfl nofun stays, state,
    runtime.trans (congrArg some saved), count, elapsed, segIndex, bank, window, order.trans (leaving.order k), phase,
    resident', holder, settled, binding.trans leaving.binding, lock, gone, drive, dac, inactive,
    active.trans (by rw [leaving.frame]; rfl)⟩

end

/-- The slot of the outgoing test is the one that is RESIDENT. -/
theorem Firm.of_outgoing {k : SlotId} (suits : ContextsSuit s) (pending : s.ctx.changeover = some c)
    (outgoing : c.outgoing = .test k) (stops : NoStops (s.slot k).order) : Firm c s where
  pending := pending
  calm j state := by
    have resident := (suits.changeover c pending).1
    rw [outgoing, (suits.resident.2.1 j).1 state] at resident
    cases resident
    exact .inr stops

theorem Firm.of_service (suits : ContextsSuit s) (pending : s.ctx.changeover = some c)
    (outgoing : c.outgoing = .service) : Firm c s where
  pending := pending
  calm j state := by
    have resident := (suits.changeover c pending).1
    rw [outgoing, (suits.resident.2.1 j).1 state] at resident
    cases resident

/-- Settles O49: the chain hands the quiesce sample a demand of 0 and a still-count of 10, and the six steps of R22 are
read off by cause and incoming context. -/
theorem aChangeoverCompletes : Obligations.AChangeoverCompletes := by
  unfold Obligations.AChangeoverCompletes
  intro conv w s x c old rest power suits kept assembling quiet pending inactive demand aMax ceiling history full slow
    nine inTime
  have last : LastStill x s := ⟨inactive, demand, aMax, ceiling, ⟨old, rest, history, full, slow⟩, nine⟩
  refine ⟨fun k e cause outgoing named => ?_, fun k e cause outgoing named stops => ?_,
    fun k l cause outgoing live unaimed stops calm => ?_, fun k rt _ outgoing incoming runtime => ?_,
    fun _ outgoing incoming unbound => ?_⟩
  · exact completion_ends (o := { void := true, cause := e }) power suits kept assembling quiet
      ⟨pending, fun _ _ => .inl cause⟩ last inTime
      (by rw [cause]; decide) outgoing (by simp [outcomeOf, cause, named])
  · exact completion_ends (o := { void := false, cause := e }) power suits kept assembling quiet
      (.of_outgoing suits pending outgoing stops) last inTime
      (by rw [cause]; decide) outgoing (by simp [outcomeOf, cause, named])
  · exact completion_parks power suits kept assembling quiet (.of_outgoing suits pending outgoing stops) last inTime
      cause outgoing live unaimed calm
  · exact completion_resumes power suits kept assembling quiet (.of_service suits pending outgoing) last inTime
      outgoing incoming runtime
  · exact completion_drops power suits kept assembling quiet (.of_service suits pending outgoing) last inTime
      outgoing incoming unbound

end Sys2Proof.Machine
